-- ==== Sys2Proof/Word.lean ====
section
/-! DEFINITION. The word types of NBC and byte buffers (00_scope.md R12, R14). -/

namespace Sys2Proof

/-- One byte of a payload, a block or an event record. -/
abbrev Byte := BitVec 8

/-- The 64-bit `dst` tag of a transaction (30_encoding.md R77). -/
abbrev Word := BitVec 64

/-- A byte buffer, index 0 first (00_scope.md R14). A block has BLOCK_SIZE bytes. -/
abbrev Block := List Byte

/-- The buffer of `n` bytes whose byte `i` is `f i`. -/
def tabulate (n : Nat) (f : Nat → Byte) : Block :=
  (List.range n).map f

end Sys2Proof
end

