-- ==== Sys2Proof/Config.lean ====
section
/-! DEFINITION. The construction parameters of NBC (00_scope.md R8) and the free values: what the spec
leaves unspecified while the machine runs (93_implementation_defined.md I1 to I3; log 8). -/

namespace Sys2Proof

/-- The configuration surface of 00_scope.md R8. Any values may stand here; which are legal is
`Config.valid` (70_reset_and_hazards.md R192). -/
structure Config where
  /-- ADDR_WIDTH, bits of a physical address. -/
  addrWidth : Nat
  /-- BLOCK_SIZE, bytes of a cache block. -/
  blockSize : Nat
  /-- CACHE_SIZE, bytes of data array over all banks. -/
  cacheSize : Nat
  /-- ASSOC, ways of a set. -/
  assoc : Nat
  /-- NUM_BANKS. -/
  numBanks : Nat
  /-- NUM_LFBS, line-fill buffers of a bank. -/
  numLfbs : Nat
  /-- BANK_SELECT_MASK, the address bits that select the bank. -/
  bankSelectMask : Nat
  /-- NUM_PORTS, upstream ports. -/
  numPorts : Nat
  /-- L, the data-array latency in cycles. -/
  latency : Nat
  /-- DS_PORT_OFFSET. -/
  dsPortOffset : Nat
  /-- DS_PORT_STRIDE. -/
  dsPortStride : Nat
  /-- SUBQ_DEPTH, capacity of one LFB's sub-request queue. -/
  subqDepth : Nat
deriving DecidableEq, Repr

namespace Config

/-- The configuration of `State.reset` (DESIGN CHOICE, log 3): program P1 of 95_test_vectors.md, with
the default ADDR_WIDTH of R8. Nothing else rests on it; every rule is stated for any configuration. -/
def reference : Config where
  addrWidth := 64
  blockSize := 32
  cacheSize := 128
  assoc := 2
  numBanks := 1
  numLfbs := 2
  bankSelectMask := 0
  numPorts := 4
  latency := 1
  dsPortOffset := 0
  dsPortStride := 1
  subqDepth := 4

/-- FREE VALUE (log 8): byte `j` of the unspecified data that draw `n` of bank `b` yields. -/
opaque freeByte : (b n j : Nat) → Byte

/-- FREE VALUE (log 8): the unspecified address that draw `n` of bank `b` yields. -/
opaque freeAddress : (b n : Nat) → Nat

/-- FREE VALUE (log 8): the unspecified LfbType bit that draw `n` of bank `b` yields. -/
opaque freeTypeBit : (b n : Nat) → Bool

end Config

end Sys2Proof
end

