-- ==== Sys2Proof/Syntax.lean ====
section
/-! DEFINITION. The transactions and operations of NBC (30_encoding.md; 00_scope.md R2): one constructor of
`Instr` for each row of opcode_table.json. -/

namespace Sys2Proof

/-- The request types of 30_encoding.md R81. The reserved ranges are split as the rows of the opcode
table split them, each with the code's free low bits. -/
inductive ReqType where
  | load | store
  | amoAdd | amoXor | amoOr | amoAnd | amoMin | amoMax | amoMinu | amoMaxu
  | prefetch
  | custom (n : BitVec 4)
  | reserved0B
  | reserved0C (low : BitVec 2)
  | reserved20 (low : BitVec 5)
  | reserved40 (low : BitVec 6)
  | reserved80 (low : BitVec 7)
deriving DecidableEq, Repr

/-- The return types of 30_encoding.md R83: NA, LOAD_RETURN, and the codes neither names
(93_implementation_defined.md I16), split as the opcode table splits them. -/
inductive RetType where
  | na | loadReturn
  | reserved02 (low : BitVec 1)
  | reserved04 (low : BitVec 2)
  | reserved08 (low : BitVec 3)
  | reserved10 (low : BitVec 4)
  | reserved20 (low : BitVec 5)
  | reserved40 (low : BitVec 6)
  | reserved80 (low : BitVec 7)
deriving DecidableEq, Repr

/-- The fields of a MemoryRequest but its type (30_encoding.md R77). `address` is an unsigned number of
ADDR_WIDTH bits and `writeMask` one of BLOCK_SIZE bits, bit `j` for payload byte `j` (R78). -/
structure ReqBody where
  size : BitVec 16
  port : BitVec 16
  dst : Word
  address : Nat
  writeMask : Nat
  payload : Block
deriving DecidableEq, Repr

/-- A MemoryRequest (30_encoding.md R77). -/
structure Request extends ReqBody where
  type : ReqType
deriving DecidableEq, Repr

/-- The fields of a MemoryReturn but its type (30_encoding.md R83). -/
structure RetBody where
  size : BitVec 16
  port : BitVec 16
  dst : Word
  address : Nat
  payload : Block
deriving DecidableEq, Repr

/-- A MemoryReturn (30_encoding.md R83). -/
structure Return extends RetBody where
  type : RetType
deriving DecidableEq, Repr

/-- The request of type `t` with these fields. -/
def ReqBody.withType (r : ReqBody) (t : ReqType) : Request :=
  { toReqBody := r, type := t }

/-- The return of type `t` with these fields. -/
def RetBody.withType (r : RetBody) (t : RetType) : Return :=
  { toRetBody := r, type := t }

/-- Request equality as the source's MemoryRequest has it (30_encoding.md R79): type, size and address
match. NBC's banks do not use it. -/
def Request.sameAs (r q : Request) : Bool :=
  decide (r.type = q.type) && decide (r.size = q.size) && decide (r.address = q.address)

/-- One of NBC's arbitrators (10_state.md R27, R28, R33), named by its kind and its bank or port. -/
inductive ArbRef where
  /-- `XREQ_ARB[b]`. -/
  | xreq (b : BitVec 8)
  /-- `XRET_ARB[p]`. -/
  | xret (p : BitVec 8)
  /-- `LFB_ARB[b]`. -/
  | lfb (b : BitVec 8)
deriving DecidableEq, Repr

/-- The transactions and operations of NBC, one constructor for each row of opcode_table.json. A return's
`q` is the downstream port it is received on. -/
inductive Instr where
  | load (r : ReqBody)
  | store (r : ReqBody)
  | amoAdd (r : ReqBody)
  | amoXor (r : ReqBody)
  | amoOr (r : ReqBody)
  | amoAnd (r : ReqBody)
  | amoMin (r : ReqBody)
  | amoMax (r : ReqBody)
  | amoMinu (r : ReqBody)
  | amoMaxu (r : ReqBody)
  | prefetch (r : ReqBody)
  | customN (n : BitVec 4) (r : ReqBody)
  | reserved0B (r : ReqBody)
  | reserved0C (low : BitVec 2) (r : ReqBody)
  | reserved20 (low : BitVec 5) (r : ReqBody)
  | reserved40 (low : BitVec 6) (r : ReqBody)
  | reserved80 (low : BitVec 7) (r : ReqBody)
  | dsLoad (r : ReqBody)
  | dsStore (r : ReqBody)
  | na (q : BitVec 16) (r : RetBody)
  | loadReturn (q : BitVec 16) (r : RetBody)
  | retReserved02 (low : BitVec 1) (q : BitVec 16) (r : RetBody)
  | retReserved04 (low : BitVec 2) (q : BitVec 16) (r : RetBody)
  | retReserved08 (low : BitVec 3) (q : BitVec 16) (r : RetBody)
  | retReserved10 (low : BitVec 4) (q : BitVec 16) (r : RetBody)
  | retReserved20 (low : BitVec 5) (q : BitVec 16) (r : RetBody)
  | retReserved40 (low : BitVec 6) (q : BitVec 16) (r : RetBody)
  | retReserved80 (low : BitVec 7) (q : BitVec 16) (r : RetBody)
  | requestPortWriteValid (port : BitVec 16)
  | writeRequest (port : BitVec 16) (req : Request)
  | returnPortReadValid (port : BitVec 16)
  | peekReturn (port : BitVec 16)
  | readReturn (port : BitVec 16)
  | arbAdd (a : ArbRef) (i : BitVec 8)
  | arbRemove (a : ArbRef) (i : BitVec 8)
  | arbAdvance (a : ArbRef)
  | arbCurrent (a : ArbRef)
  | clockRise
  | clockFall
deriving DecidableEq, Repr

end Sys2Proof
end

