-- ==== Sys2Proof/WellFormed.lean ====
section
/-! DEFINITION. Which transactions and operations a configuration admits: the field widths that depend on the
configuration (30_encoding.md R77, R83) and the operands of the arbitrator operations (41_round_robin.md). -/

namespace Sys2Proof

/-- What can be ill-formed about an instruction. -/
inductive IllFormed where
  /-- The address has more than ADDR_WIDTH bits (R77). -/
  | addressTooWide
  /-- The write mask has more than BLOCK_SIZE bits (R77). -/
  | maskTooWide
  /-- The payload does not have BLOCK_SIZE bytes (R77, R83). -/
  | payloadLength
  /-- There is no arbitrator of that bank or port (R27, R28, R33). -/
  | noSuchArbitrator
  /-- The requester index is not below the arbitrator's width (R106, R107). -/
  | indexOutOfRange
deriving DecidableEq, Repr

namespace Config

/-- Address bits an event record can carry: ADDR_WIDTH, at most the 64 of word 2 (30_encoding.md R80). -/
def recordAddrWidth (cfg : Config) : Nat :=
  min cfg.addrWidth 64

/-- How many arbitrators of that kind there are (10_state.md R27, R28, R33). -/
def arbCount (cfg : Config) : ArbRef → Nat
  | .xreq _ => cfg.numBanks
  | .xret _ => cfg.numPorts
  | .lfb _ => cfg.numBanks

/-- The width W of an arbitrator (10_state.md R27, R28, R33). -/
def arbWidth (cfg : Config) : ArbRef → Nat
  | .xreq _ => cfg.numPorts
  | .xret _ => cfg.numBanks
  | .lfb _ => cfg.numLfbs

end Config

/-- The bank or port an arbitrator belongs to. -/
def ArbRef.number : ArbRef → Nat
  | .xreq b => b.toNat
  | .xret p => p.toNat
  | .lfb b => b.toNat

/-- The first field of a request that the configuration does not admit. -/
def ReqBody.check (cfg : Config) (r : ReqBody) : Option IllFormed :=
  if 2 ^ cfg.recordAddrWidth ≤ r.address then some .addressTooWide
  else if 2 ^ cfg.blockSize ≤ r.writeMask then some .maskTooWide
  else if r.payload.length ≠ cfg.blockSize then some .payloadLength
  else none

/-- The first field of a return that the configuration does not admit. -/
def RetBody.check (cfg : Config) (r : RetBody) : Option IllFormed :=
  if 2 ^ cfg.recordAddrWidth ≤ r.address then some .addressTooWide
  else if r.payload.length ≠ cfg.blockSize then some .payloadLength
  else none

/-- Whether the configuration has the arbitrator. -/
def ArbRef.check (cfg : Config) (a : ArbRef) : Option IllFormed :=
  if cfg.arbCount a ≤ a.number then some .noSuchArbitrator else none

/-- Whether the configuration has the arbitrator and the requester index is below its width. -/
def ArbRef.checkIndex (cfg : Config) (a : ArbRef) (i : BitVec 8) : Option IllFormed :=
  match a.check cfg with
  | some e => some e
  | none => if cfg.arbWidth a ≤ i.toNat then some .indexOutOfRange else none

/-- The first thing that is ill-formed about an instruction, if any. -/
def Instr.check (cfg : Config) : Instr → Option IllFormed
  | .load r => r.check cfg
  | .store r => r.check cfg
  | .amoAdd r => r.check cfg
  | .amoXor r => r.check cfg
  | .amoOr r => r.check cfg
  | .amoAnd r => r.check cfg
  | .amoMin r => r.check cfg
  | .amoMax r => r.check cfg
  | .amoMinu r => r.check cfg
  | .amoMaxu r => r.check cfg
  | .prefetch r => r.check cfg
  | .customN _ r => r.check cfg
  | .reserved0B r => r.check cfg
  | .reserved0C _ r => r.check cfg
  | .reserved20 _ r => r.check cfg
  | .reserved40 _ r => r.check cfg
  | .reserved80 _ r => r.check cfg
  | .dsLoad r => r.check cfg
  | .dsStore r => r.check cfg
  | .na _ r => r.check cfg
  | .loadReturn _ r => r.check cfg
  | .retReserved02 _ _ r => r.check cfg
  | .retReserved04 _ _ r => r.check cfg
  | .retReserved08 _ _ r => r.check cfg
  | .retReserved10 _ _ r => r.check cfg
  | .retReserved20 _ _ r => r.check cfg
  | .retReserved40 _ _ r => r.check cfg
  | .retReserved80 _ _ r => r.check cfg
  | .requestPortWriteValid _ => none
  | .writeRequest _ req => req.toReqBody.check cfg
  | .returnPortReadValid _ => none
  | .peekReturn _ => none
  | .readReturn _ => none
  | .arbAdd a i => a.checkIndex cfg i
  | .arbRemove a i => a.checkIndex cfg i
  | .arbAdvance a => a.check cfg
  | .arbCurrent a => a.check cfg
  | .clockRise => none
  | .clockFall => none

/-- The configuration admits the instruction. -/
def Instr.wellFormed (cfg : Config) (i : Instr) : Bool :=
  (i.check cfg).isNone

end Sys2Proof
end

