-- ==== Sys2Proof/Decode.lean ====
section
/-! DEFINITION. Event records: how a transaction or an operation stands as bytes, and back (30_encoding.md R80,
R81, R83, R90). The packing of requests and returns is R80's; the byte order of a record (low byte first) and
the operand layout of the interface operations, which no wire carries, are DESIGN CHOICES of the model (log 2,
log 14). -/

namespace Sys2Proof

/-- Where an event record arrives. The codes of different channels overlap (30_encoding.md R81, R83, R90), so
the channel is not part of the packed word (log 2). -/
inductive Channel where
  /-- A MemoryRequest written by a requester. -/
  | request
  /-- A MemoryRequest written downstream by NBC. -/
  | dsRequest
  /-- A MemoryReturn received on the downstream port `q`. -/
  | dsReturn (q : BitVec 16)
  /-- An operation of the port contract, selector space PORT. -/
  | portOp
  /-- An arbitrator operation, selector space ARB. -/
  | arbOp
  /-- A clock operation, selector space PHASE. -/
  | phaseOp
deriving DecidableEq, Repr

/-- Why a record is no instruction. -/
inductive DecodeError where
  /-- The record does not have the length its channel and selector ask for. -/
  | wrongLength
  /-- Bits that the packing keeps zero are set (R80: bits 63:40 of word 0). -/
  | reservedBits
  /-- A selector that R90 does not list. -/
  | unknownSelector
  /-- A downstream request whose type is neither LOAD nor STORE (46_bank_issue.md R164). -/
  | notADownstreamRequest
  /-- The fields do not fit the configuration. -/
  | illFormed (why : IllFormed)
deriving DecidableEq, Repr

/-- `n` bytes of `v`, lowest first (log 14). -/
def leBytes : Nat → Nat → List Byte
  | 0, _ => []
  | n + 1, v => BitVec.ofNat 8 v :: leBytes n (v / 256)

/-- The number whose bytes, lowest first, are these. -/
def ofLeBytes : List Byte → Nat
  | [] => 0
  | b :: bs => b.toNat + 256 * ofLeBytes bs

/-! ### Type codes -/

/-- The code of a request type (30_encoding.md R81). -/
def ReqType.code : ReqType → BitVec 8
  | .load => 0x00
  | .store => 0x01
  | .amoAdd => 0x02
  | .amoXor => 0x03
  | .amoOr => 0x04
  | .amoAnd => 0x05
  | .amoMin => 0x06
  | .amoMax => 0x07
  | .amoMinu => 0x08
  | .amoMaxu => 0x09
  | .prefetch => 0x0A
  | .reserved0B => 0x0B
  | .reserved0C low => 3#6 ++ low
  | .custom n => 1#4 ++ n
  | .reserved20 low => 1#3 ++ low
  | .reserved40 low => 1#2 ++ low
  | .reserved80 low => 1#1 ++ low

/-- The request type of a code (30_encoding.md R81). -/
def ReqType.ofCode (c : BitVec 8) : ReqType :=
  if c = 0x00 then .load
  else if c = 0x01 then .store
  else if c = 0x02 then .amoAdd
  else if c = 0x03 then .amoXor
  else if c = 0x04 then .amoOr
  else if c = 0x05 then .amoAnd
  else if c = 0x06 then .amoMin
  else if c = 0x07 then .amoMax
  else if c = 0x08 then .amoMinu
  else if c = 0x09 then .amoMaxu
  else if c = 0x0A then .prefetch
  else if c = 0x0B then .reserved0B
  else if c.toNat < 0x10 then .reserved0C (c.setWidth 2)
  else if c.toNat < 0x20 then .custom (c.setWidth 4)
  else if c.toNat < 0x40 then .reserved20 (c.setWidth 5)
  else if c.toNat < 0x80 then .reserved40 (c.setWidth 6)
  else .reserved80 (c.setWidth 7)

/-- The code of a return type (30_encoding.md R83). -/
def RetType.code : RetType → BitVec 8
  | .na => 0x00
  | .loadReturn => 0x01
  | .reserved02 low => 1#7 ++ low
  | .reserved04 low => 1#6 ++ low
  | .reserved08 low => 1#5 ++ low
  | .reserved10 low => 1#4 ++ low
  | .reserved20 low => 1#3 ++ low
  | .reserved40 low => 1#2 ++ low
  | .reserved80 low => 1#1 ++ low

/-- The return type of a code (30_encoding.md R83). -/
def RetType.ofCode (c : BitVec 8) : RetType :=
  if c = 0x00 then .na
  else if c = 0x01 then .loadReturn
  else if c.toNat < 0x04 then .reserved02 (c.setWidth 1)
  else if c.toNat < 0x08 then .reserved04 (c.setWidth 2)
  else if c.toNat < 0x10 then .reserved08 (c.setWidth 3)
  else if c.toNat < 0x20 then .reserved10 (c.setWidth 4)
  else if c.toNat < 0x40 then .reserved20 (c.setWidth 5)
  else if c.toNat < 0x80 then .reserved40 (c.setWidth 6)
  else .reserved80 (c.setWidth 7)

/-- The upstream request of type `t` with these fields, as an instruction. -/
def Instr.ofRequest (t : ReqType) (r : ReqBody) : Instr :=
  match t with
  | .load => .load r
  | .store => .store r
  | .amoAdd => .amoAdd r
  | .amoXor => .amoXor r
  | .amoOr => .amoOr r
  | .amoAnd => .amoAnd r
  | .amoMin => .amoMin r
  | .amoMax => .amoMax r
  | .amoMinu => .amoMinu r
  | .amoMaxu => .amoMaxu r
  | .prefetch => .prefetch r
  | .custom n => .customN n r
  | .reserved0B => .reserved0B r
  | .reserved0C low => .reserved0C low r
  | .reserved20 low => .reserved20 low r
  | .reserved40 low => .reserved40 low r
  | .reserved80 low => .reserved80 low r

/-- The return of type `t` with these fields, received on downstream port `q`, as an instruction. -/
def Instr.ofReturn (q : BitVec 16) (t : RetType) (r : RetBody) : Instr :=
  match t with
  | .na => .na q r
  | .loadReturn => .loadReturn q r
  | .reserved02 low => .retReserved02 low q r
  | .reserved04 low => .retReserved04 low q r
  | .reserved08 low => .retReserved08 low q r
  | .reserved10 low => .retReserved10 low q r
  | .reserved20 low => .retReserved20 low q r
  | .reserved40 low => .retReserved40 low q r
  | .reserved80 low => .retReserved80 low q r

/-! ### Word 0 -/

/-- Word 0 of a packed transaction: type in bits 7:0, size in bits 23:8, port in bits 39:24 (30_encoding.md
R80). -/
def packWord0 (t : BitVec 8) (size port : BitVec 16) : Nat :=
  t.toNat + 2 ^ 8 * size.toNat + 2 ^ 24 * port.toNat

/-- The type field of word 0. -/
def word0Type (w : Nat) : BitVec 8 :=
  BitVec.ofNat 8 w

/-- The size field of word 0. -/
def word0Size (w : Nat) : BitVec 16 :=
  BitVec.ofNat 16 (w / 2 ^ 8)

/-- The port field of word 0. -/
def word0Port (w : Nat) : BitVec 16 :=
  BitVec.ofNat 16 (w / 2 ^ 24)

/-! ### Lengths -/

namespace Config

/-- Bytes that hold a write mask of BLOCK_SIZE bits. -/
def maskBytes (cfg : Config) : Nat :=
  (cfg.blockSize + 7) / 8

/-- Bytes of a packed request: three words, the write mask, the payload (30_encoding.md R80). -/
def requestBytes (cfg : Config) : Nat :=
  24 + cfg.maskBytes + cfg.blockSize

/-- Bytes of a packed return: as a request, with no write mask (30_encoding.md R83). -/
def returnBytes (cfg : Config) : Nat :=
  24 + cfg.blockSize

end Config

/-! ### Decoding -/

/-- A packed request read back (30_encoding.md R80). -/
def decodeRequest (cfg : Config) (bytes : List Byte) : Except DecodeError Request :=
  if bytes.length ≠ cfg.requestBytes then .error .wrongLength
  else
    let w := ofLeBytes (bytes.take 8)
    if w / 2 ^ 40 ≠ 0 then .error .reservedBits
    else .ok
      { type := ReqType.ofCode (word0Type w)
        size := word0Size w
        port := word0Port w
        dst := BitVec.ofNat 64 (ofLeBytes ((bytes.drop 8).take 8))
        address := ofLeBytes ((bytes.drop 16).take 8)
        writeMask := ofLeBytes ((bytes.drop 24).take cfg.maskBytes)
        payload := bytes.drop (24 + cfg.maskBytes) }

/-- A packed return read back (30_encoding.md R83). -/
def decodeReturn (cfg : Config) (bytes : List Byte) : Except DecodeError Return :=
  if bytes.length ≠ cfg.returnBytes then .error .wrongLength
  else
    let w := ofLeBytes (bytes.take 8)
    if w / 2 ^ 40 ≠ 0 then .error .reservedBits
    else .ok
      { type := RetType.ofCode (word0Type w)
        size := word0Size w
        port := word0Port w
        dst := BitVec.ofNat 64 (ofLeBytes ((bytes.drop 8).take 8))
        address := ofLeBytes ((bytes.drop 16).take 8)
        payload := bytes.drop 24 }

/-- The arbitrator that kind and number name: 0 for XREQ_ARB, 1 for XRET_ARB, 2 for LFB_ARB (log 2). -/
def decodeArbRef (kind number : BitVec 8) : Except DecodeError ArbRef :=
  if kind = 0 then .ok (.xreq number)
  else if kind = 1 then .ok (.xret number)
  else if kind = 2 then .ok (.lfb number)
  else .error .unknownSelector

/-- An operation of the port contract: selector in bits 7:0, port in bits 39:24, and for PORT 1 the packed
request after it (30_encoding.md R90; log 2). -/
def decodePortOp (cfg : Config) (bytes : List Byte) : Except DecodeError Instr :=
  if bytes.length < 8 then .error .wrongLength
  else
    let w := ofLeBytes (bytes.take 8)
    let rest := bytes.drop 8
    if w / 2 ^ 40 ≠ 0 ∨ word0Size w ≠ 0 then .error .reservedBits
    else if word0Type w = 1 then
      match decodeRequest cfg rest with
      | .ok req => .ok (.writeRequest (word0Port w) req)
      | .error e => .error e
    else if rest ≠ [] then .error .wrongLength
    else if word0Type w = 0 then .ok (.requestPortWriteValid (word0Port w))
    else if word0Type w = 2 then .ok (.returnPortReadValid (word0Port w))
    else if word0Type w = 3 then .ok (.peekReturn (word0Port w))
    else if word0Type w = 4 then .ok (.readReturn (word0Port w))
    else .error .unknownSelector

/-- An arbitrator operation: selector in bits 7:0, kind in bits 15:8, bank or port in bits 23:16, requester
index in bits 31:24 (30_encoding.md R90; log 2). -/
def decodeArbOp (bytes : List Byte) : Except DecodeError Instr :=
  match bytes with
  | [sel, kind, number, i, 0, 0, 0, 0] =>
    match decodeArbRef kind number with
    | .error e => .error e
    | .ok a =>
      if sel = 0 then .ok (.arbAdd a i)
      else if sel = 1 then .ok (.arbRemove a i)
      else if i ≠ 0 then .error .reservedBits
      else if sel = 2 then .ok (.arbAdvance a)
      else if sel = 3 then .ok (.arbCurrent a)
      else .error .unknownSelector
  | [_, _, _, _, _, _, _, _] => .error .reservedBits
  | _ => .error .wrongLength

/-- A clock operation: selector in bits 7:0, nothing else (30_encoding.md R90; log 2). -/
def decodePhaseOp (bytes : List Byte) : Except DecodeError Instr :=
  match bytes with
  | [sel, 0, 0, 0, 0, 0, 0, 0] =>
    if sel = 0 then .ok .clockRise
    else if sel = 1 then .ok .clockFall
    else .error .unknownSelector
  | [_, _, _, _, _, _, _, _] => .error .reservedBits
  | _ => .error .wrongLength

/-- A record's fields as an instruction, before its configuration check. -/
def decodeFields (cfg : Config) (ch : Channel) (bytes : List Byte) : Except DecodeError Instr :=
  match ch with
  | .request =>
    match decodeRequest cfg bytes with
    | .ok req => .ok (Instr.ofRequest req.type req.toReqBody)
    | .error e => .error e
  | .dsRequest =>
    match decodeRequest cfg bytes with
    | .ok req =>
      match req.type with
      | .load => .ok (.dsLoad req.toReqBody)
      | .store => .ok (.dsStore req.toReqBody)
      | _ => .error .notADownstreamRequest
    | .error e => .error e
  | .dsReturn q =>
    match decodeReturn cfg bytes with
    | .ok r => .ok (Instr.ofReturn q r.type r.toRetBody)
    | .error e => .error e
  | .portOp => decodePortOp cfg bytes
  | .arbOp => decodeArbOp bytes
  | .phaseOp => decodePhaseOp bytes

/-- Decoding is total: a record of a channel is a well-formed instruction or is rejected by name. -/
def decode (cfg : Config) (ch : Channel) (bytes : List Byte) : Except DecodeError Instr :=
  match decodeFields cfg ch bytes with
  | .error e => .error e
  | .ok i =>
    match i.check cfg with
    | some why => .error (.illFormed why)
    | none => .ok i

/-! ### Encoding -/

/-- A packed request (30_encoding.md R80). -/
def encodeRequest (cfg : Config) (req : Request) : List Byte :=
  leBytes 8 (packWord0 req.type.code req.size req.port) ++ leBytes 8 req.dst.toNat
    ++ leBytes 8 req.address ++ leBytes cfg.maskBytes req.writeMask ++ req.payload

/-- A packed return (30_encoding.md R83). -/
def encodeReturn (r : Return) : List Byte :=
  leBytes 8 (packWord0 r.type.code r.size r.port) ++ leBytes 8 r.dst.toNat
    ++ leBytes 8 r.address ++ r.payload

/-- The first word of an operation of the port contract. -/
def encodePortWord (selector : BitVec 8) (port : BitVec 16) : List Byte :=
  leBytes 8 (packWord0 selector 0 port)

/-- The kind byte of an arbitrator operation's record. -/
def ArbRef.kind : ArbRef → BitVec 8
  | .xreq _ => 0
  | .xret _ => 1
  | .lfb _ => 2

/-- The number byte of an arbitrator operation's record. -/
def ArbRef.numberByte : ArbRef → BitVec 8
  | .xreq b => b
  | .xret p => p
  | .lfb b => b

/-- The record of an arbitrator operation. -/
def encodeArbOp (selector : BitVec 8) (a : ArbRef) (i : BitVec 8) : List Byte :=
  [selector, a.kind, a.numberByte, i, 0, 0, 0, 0]

/-- The record of a clock operation. -/
def encodePhaseOp (selector : BitVec 8) : List Byte :=
  [selector, 0, 0, 0, 0, 0, 0, 0]

/-- The channel and the bytes of an instruction's event record. -/
def encode (cfg : Config) : Instr → Channel × List Byte
  | .load r => (.request, encodeRequest cfg (r.withType .load))
  | .store r => (.request, encodeRequest cfg (r.withType .store))
  | .amoAdd r => (.request, encodeRequest cfg (r.withType .amoAdd))
  | .amoXor r => (.request, encodeRequest cfg (r.withType .amoXor))
  | .amoOr r => (.request, encodeRequest cfg (r.withType .amoOr))
  | .amoAnd r => (.request, encodeRequest cfg (r.withType .amoAnd))
  | .amoMin r => (.request, encodeRequest cfg (r.withType .amoMin))
  | .amoMax r => (.request, encodeRequest cfg (r.withType .amoMax))
  | .amoMinu r => (.request, encodeRequest cfg (r.withType .amoMinu))
  | .amoMaxu r => (.request, encodeRequest cfg (r.withType .amoMaxu))
  | .prefetch r => (.request, encodeRequest cfg (r.withType .prefetch))
  | .customN n r => (.request, encodeRequest cfg (r.withType (.custom n)))
  | .reserved0B r => (.request, encodeRequest cfg (r.withType .reserved0B))
  | .reserved0C low r => (.request, encodeRequest cfg (r.withType (.reserved0C low)))
  | .reserved20 low r => (.request, encodeRequest cfg (r.withType (.reserved20 low)))
  | .reserved40 low r => (.request, encodeRequest cfg (r.withType (.reserved40 low)))
  | .reserved80 low r => (.request, encodeRequest cfg (r.withType (.reserved80 low)))
  | .dsLoad r => (.dsRequest, encodeRequest cfg (r.withType .load))
  | .dsStore r => (.dsRequest, encodeRequest cfg (r.withType .store))
  | .na q r => (.dsReturn q, encodeReturn (r.withType .na))
  | .loadReturn q r => (.dsReturn q, encodeReturn (r.withType .loadReturn))
  | .retReserved02 low q r => (.dsReturn q, encodeReturn (r.withType (.reserved02 low)))
  | .retReserved04 low q r => (.dsReturn q, encodeReturn (r.withType (.reserved04 low)))
  | .retReserved08 low q r => (.dsReturn q, encodeReturn (r.withType (.reserved08 low)))
  | .retReserved10 low q r => (.dsReturn q, encodeReturn (r.withType (.reserved10 low)))
  | .retReserved20 low q r => (.dsReturn q, encodeReturn (r.withType (.reserved20 low)))
  | .retReserved40 low q r => (.dsReturn q, encodeReturn (r.withType (.reserved40 low)))
  | .retReserved80 low q r => (.dsReturn q, encodeReturn (r.withType (.reserved80 low)))
  | .requestPortWriteValid port => (.portOp, encodePortWord 0 port)
  | .writeRequest port req => (.portOp, encodePortWord 1 port ++ encodeRequest cfg req)
  | .returnPortReadValid port => (.portOp, encodePortWord 2 port)
  | .peekReturn port => (.portOp, encodePortWord 3 port)
  | .readReturn port => (.portOp, encodePortWord 4 port)
  | .arbAdd a i => (.arbOp, encodeArbOp 0 a i)
  | .arbRemove a i => (.arbOp, encodeArbOp 1 a i)
  | .arbAdvance a => (.arbOp, encodeArbOp 2 a 0)
  | .arbCurrent a => (.arbOp, encodeArbOp 3 a 0)
  | .clockRise => (.phaseOp, encodePhaseOp 0)
  | .clockFall => (.phaseOp, encodePhaseOp 1)

/-- The request-channel record whose first `nbits` bits are `w`, all others zero (log 2). -/
def tableRecord (cfg : Config) (nbits w : Nat) : List Byte :=
  leBytes cfg.requestBytes (w % 2 ^ nbits)

/-- The instruction the decoder reads from a table word, on the request channel and in the reference
configuration (log 2): the table's other spaces use the same codes (30_encoding.md R81, R83, R90), and a bare
word does not say which space it belongs to. -/
def decodeTableWord (nbits w : Nat) : Option Instr :=
  (decode Config.reference .request (tableRecord Config.reference nbits w)).toOption

end Sys2Proof
end

