-- ==== Sys2Proof/Machine/Bits.lean ====
section
/-! DEFINITION. The bit and buffer primitives of 00_scope.md R12 to R14 on unsigned numbers: ones, single bits,
runs, popcount, parallel extract, and the masked and sliced byte buffers. -/

namespace Sys2Proof.Machine

/-- `ones(k)`: the mask with bits `0..k-1` set (R14). -/
def ones (k : Nat) : Nat :=
  2 ^ k - 1

/-- `m` with bit `i` set. -/
def setBit (m i : Nat) : Nat :=
  m ||| 2 ^ i

/-- `m & ~r`. -/
def clearBits (m r : Nat) : Nat :=
  m ^^^ (m &&& r)

/-- `m` with bit `i` clear. -/
def clearBit (m i : Nat) : Nat :=
  clearBits m (2 ^ i)

/-- `popcount(m)` over the `w` low bits (R12). -/
def popcount : (w m : Nat) → Nat
  | 0, _ => 0
  | w + 1, m => m % 2 + popcount w (m / 2)

/-- `ctz(m)` over the `w` low bits: the lowest set bit, none when there is none (R12). -/
def lowestBit (w m : Nat) : Option Nat :=
  (List.range w).find? fun i => m.testBit i

/-- How many consecutive bits of `m` are set from bit `i` up, counting at most `w`. -/
def runLength : (w m i : Nat) → Nat
  | 0, _, _ => 0
  | w + 1, m, i => if m.testBit i then runLength w m (i + 1) + 1 else 0

/-- `pext(a, m)` over the `w` low bits: the bits of `a` where `m` has a 1, gathered low (R13). -/
def pext : (w a m : Nat) → Nat
  | 0, _, _ => 0
  | w + 1, a, m =>
    if m % 2 = 1 then a % 2 + 2 * pext w (a / 2) (m / 2) else pext w (a / 2) (m / 2)

/-- `n` is a power of two. -/
def isPow2 (n : Nat) : Bool :=
  decide (n ≠ 0) && decide (2 ^ Nat.log2 n = n)

/-- A buffer of `n` bytes that holds byte `i - off` of `src` where mask bit `i - off` is set, and byte `i` of
`dst` elsewhere: `dst[off + j] <- src[j]` for every `j` with `mask[j] = 1` (R14). -/
def overlay (n : Nat) (dst : Block) (off mask : Nat) (src : Block) : Block :=
  tabulate n fun i => if off ≤ i ∧ mask.testBit (i - off) then src.getD (i - off) 0 else dst.getD i 0

/-- A buffer of `n` bytes: the slice `buf[off +: k]`, then zeros (R14). -/
def slice (n : Nat) (buf : Block) (off k : Nat) : Block :=
  tabulate n fun j => if j < k then buf.getD (off + j) 0 else 0

/-- The block of `n` zero bytes. -/
def zeroBlock (n : Nat) : Block :=
  tabulate n fun _ => 0

/-- Among the candidates (`some age`), the index of the largest age, ties to the lowest index
(43_tag_data_array.md R124; 44_bank_accept.md R132). -/
def oldest (candidates : List (Option Nat)) : Option Nat :=
  match (candidates.filterMap id).max? with
  | none => none
  | some age => candidates.findIdx? fun c => c == some age

/-- The age an entry of age `age` at index `y` has after entry `x`, of age `old`, is touched
(43_tag_data_array.md R127). -/
def touchedAge (x old y age : Nat) : Nat :=
  if y = x then 0 else if age < old then age + 1 else age

end Sys2Proof.Machine
end

