-- ==== Sys2Proof/Machine/Address.lean ====
section
/-! DEFINITION. The derived constants of 00_scope.md R9, the address fields of 20_memory.md R51 to R56, and the
configuration check of 70_reset_and_hazards.md R192. -/

namespace Sys2Proof.Config

open Sys2Proof.Machine

/-- `OFFSET_BITS = log2(BLOCK_SIZE)` (R9). -/
def offsetBits (cfg : Config) : Nat :=
  Nat.log2 cfg.blockSize

/-- `BANK_BITS = log2(NUM_BANKS)` (R9). -/
def bankBits (cfg : Config) : Nat :=
  Nat.log2 cfg.numBanks

/-- `SETS_PER_BANK = CACHE_SIZE / (BLOCK_SIZE * ASSOC * NUM_BANKS)` (R9). -/
def setsPerBank (cfg : Config) : Nat :=
  cfg.cacheSize / (cfg.blockSize * cfg.assoc * cfg.numBanks)

/-- `SET_BITS = log2(SETS_PER_BANK)` (R9). -/
def setBits (cfg : Config) : Nat :=
  Nat.log2 cfg.setsPerBank

/-- The `need` lowest bit positions from `q` up, among the next `fuel`, that `bankMask` does not have: the loop
of R54. -/
def freePositions (bankMask : Nat) : (fuel q need : Nat) → Nat
  | 0, _, _ => 0
  | _ + 1, _, 0 => 0
  | fuel + 1, q, need + 1 =>
    if bankMask.testBit q then freePositions bankMask fuel (q + 1) (need + 1)
    else 2 ^ q + freePositions bankMask fuel (q + 1) need

/-- `SET_SELECT_MASK` (R54). -/
def setSelectMask (cfg : Config) : Nat :=
  freePositions cfg.bankSelectMask (cfg.addrWidth - cfg.offsetBits) cfg.offsetBits cfg.setBits

/-- `DS_PORT(b)` (R9, R56). -/
def dsPort (cfg : Config) (b : Nat) : Nat :=
  cfg.dsPortOffset + b * cfg.dsPortStride

/-- The bank that uses downstream port `q`, if any (R56). -/
def bankOfDsPort (cfg : Config) (q : Nat) : Option Nat :=
  (List.range cfg.numBanks).find? fun b => cfg.dsPort b == q

/-- `offset(a)` (R51). -/
def offset (cfg : Config) (a : Nat) : Nat :=
  a % 2 ^ cfg.offsetBits

/-- `block(a)` (R51). -/
def block (cfg : Config) (a : Nat) : Nat :=
  a - cfg.offset a

/-- `bank(a) = pext(a, BANK_SELECT_MASK)` (R53). -/
def bank (cfg : Config) (a : Nat) : Nat :=
  pext cfg.addrWidth a cfg.bankSelectMask

/-- `set(a) = pext(a, SET_SELECT_MASK)` (R54). -/
def set (cfg : Config) (a : Nat) : Nat :=
  pext cfg.addrWidth a cfg.setSelectMask

/-- `tag(a) = a[ADDR_WIDTH-1:OFFSET_BITS]` (R55). -/
def tag (cfg : Config) (a : Nat) : Nat :=
  a % 2 ^ cfg.addrWidth / 2 ^ cfg.offsetBits

/-- Address arithmetic is modulo `2^ADDR_WIDTH` (R12). -/
def addrAdd (cfg : Config) (a k : Nat) : Nat :=
  (a + k) % 2 ^ cfg.addrWidth

/-- R192 item 2 and the part of item 4 on NUM_BANKS: sizes that must be powers of two within limits. -/
def validSizes (cfg : Config) : Bool :=
  isPow2 cfg.blockSize && decide (cfg.blockSize ≤ 32768)
    && isPow2 cfg.numBanks && decide (cfg.numBanks ≤ 64)

/-- R192 items 1, 3 and the rest of 4: ranges. -/
def validRanges (cfg : Config) : Bool :=
  decide (1 ≤ cfg.addrWidth) && decide (cfg.addrWidth ≤ 64)
    && decide (1 ≤ cfg.assoc) && decide (1 ≤ cfg.subqDepth) && decide (1 ≤ cfg.dsPortStride)
    && decide (1 ≤ cfg.numLfbs) && decide (cfg.numLfbs ≤ 64)
    && decide (1 ≤ cfg.numPorts) && decide (cfg.numPorts ≤ 64)

/-- R192 item 5: the sets of a bank. -/
def validSets (cfg : Config) : Bool :=
  decide (cfg.cacheSize % (cfg.blockSize * cfg.assoc * cfg.numBanks) = 0) && isPow2 cfg.setsPerBank

/-- R192 item 6: the bank-select mask. -/
def validBankMask (cfg : Config) : Bool :=
  decide (popcount cfg.addrWidth cfg.bankSelectMask = cfg.bankBits)
    && decide (cfg.bankSelectMask % 2 ^ cfg.offsetBits = 0)
    && decide (cfg.bankSelectMask < 2 ^ cfg.addrWidth)

/-- The configuration check of R192, all eight items. -/
def valid (cfg : Config) : Bool :=
  cfg.validRanges && cfg.validSizes && cfg.validSets && cfg.validBankMask
    && decide (cfg.offsetBits + cfg.bankBits + cfg.setBits ≤ cfg.addrWidth)
    && decide (cfg.dsPort (cfg.numBanks - 1) ≤ 65535)

end Sys2Proof.Config
end

