-- ==== Sys2Proof/Machine/State.lean ====
section
/-! DEFINITION. The architectural state of NBC (10_state.md), the slots it shares with its environment
(47_cycle.md R149), the reasons a step can stop, and the state after construction (70_reset_and_hazards.md
R191 to R193). -/

namespace Sys2Proof.Machine

/-- LfbState (30_encoding.md R88), in the order of its codes. -/
inductive LfbState where
  | invalid | empty | dataArray | missed | filled | retired
deriving DecidableEq, Repr

/-- LfbType (30_encoding.md R89). -/
inductive LfbType where
  | read | writeCombining
deriving DecidableEq, Repr

/-- A sub-request of an LFB's queue (10_state.md R32). -/
structure SubReq where
  offset : Nat
  size : BitVec 16
  port : BitVec 16
  dst : Word
deriving DecidableEq, Repr

/-- A line-fill buffer (10_state.md R30). -/
structure Lfb where
  state : LfbState
  type : LfbType
  blockAddress : Nat
  byteWriteMask : Nat
  data : Block
  lru : Nat
  subq : List SubReq
  pipeCount : Nat
deriving DecidableEq, Repr

/-- A RoundRobinArbitrator's state (10_state.md R29). Its width is the configuration's
(`Config.arbWidth`). -/
structure Arb where
  mask : Nat
  ptr : Nat
deriving DecidableEq, Repr

/-- A tag-array entry (10_state.md R38). -/
structure TagEntry where
  valid : Bool
  tag : Nat
  lru : Nat
deriving DecidableEq, Repr

/-- What one bank owns (10_state.md R30 to R40). -/
structure Bank where
  /-- `LFB[b][k]` (R30). -/
  lfbs : List Lfb
  /-- `LFB_ARB[b]` (R33). -/
  lfbArb : Arb
  /-- `MQ[b]`, head first (R34). -/
  mq : List Nat
  /-- `WBQ[b]`, head first (R35). -/
  wbq : List Nat
  /-- `WB_ACTIVE[b]` (R36). -/
  wbActive : Option Nat
  /-- `RSTAGE[b]` (R37). -/
  rstage : Option Return
  /-- `TAG[b][s][w]` (R38). -/
  tags : List (List TagEntry)
  /-- `DATA[b][s][w]` (R39). -/
  data : List (List Block)
  /-- MODEL's own (log 8): how many unspecified values this bank has drawn. -/
  freeCount : Nat
deriving DecidableEq, Repr

/-- The two slots NBC shares with the downstream unit on one port `DS_PORT(b)` (47_cycle.md R149; log 5,
log 7), and what NBC has done with the port in this phase (log 6). -/
structure DsPort where
  /-- The downstream request slot. -/
  req : Option Request
  /-- MODEL's own: the downstream unit answers `DSWriteValid` false for a reason of its own. -/
  blocked : Bool
  /-- The returns the downstream unit has made available, oldest first. -/
  rets : List Return
  /-- MODEL's own: NBC has written a request to this port in this fall phase, after which it writes no other
  before the next one (40_port_contract.md R104, R105; log 6). -/
  wrote : Bool
deriving DecidableEq, Repr

/-- The statistics counters (60_exceptions.md R186). -/
structure Stats where
  hits : Nat
  misses : Nat
  halfMisses : Nat
  storeAllocs : Nat
  storeMerges : Nat
  lfbStalls : Nat
  dsLoads : Nat
  dsStores : Nat
deriving DecidableEq, Repr

/-- The names of the counters of `Stats` (60_exceptions.md R186). -/
inductive Counter where
  | hits | misses | halfMisses | storeAllocs | storeMerges | lfbStalls | dsLoads | dsStores
deriving DecidableEq, Repr

/-- Which phase runs next (10_state.md R44). -/
inductive Phase where
  | rise | fall
deriving DecidableEq, Repr

/-- The fault codes 1 to 11, in order (60_exceptions.md R171). -/
inductive FaultCode where
  | portRange | badPhase | writeNotValid | portMismatch | badType | badSize | readNotValid | dupLfb
  | unmatchedFill | badFill | config
deriving DecidableEq, Repr

/-- MODEL's own (log 10): the value the last operation returned to its caller. -/
inductive Response where
  /-- No value: the operation returns none, or it faulted, or NBC is stuck (60_exceptions.md R170). -/
  | nothing
  /-- The answer of a validity query (40_port_contract.md R96, R100). -/
  | answer (b : Bool)
  /-- The return of `peek_return` or `read_return` (R101, R102). -/
  | gave (r : Return)
  /-- The grant of an arbitrator's `current()` (41_round_robin.md R109). -/
  | grant (g : Option Nat)
  /-- The request the downstream unit took out of its slot (47_cycle.md R149; log 7). -/
  | took (r : Option Request)
deriving DecidableEq, Repr

/-- What the environment does next (log 1, log 2, log 7). -/
inductive Event where
  /-- A transaction or an operation, as the bytes of an event record on its channel. -/
  | record (ch : Channel) (bytes : List Byte)
  /-- The downstream unit empties its request slot of bank `b`'s port (47_cycle.md R149). -/
  | dsTake (b : Nat)
  /-- The downstream unit makes `DSWriteValid` of bank `b`'s port answer false, or lets it be
  (93_implementation_defined.md I8). -/
  | dsBlock (b : Nat) (blocked : Bool)
deriving DecidableEq, Repr

/-- The state of NBC and of what it shares with its environment. Lists are indexed as 10_state.md indexes
them. -/
structure State where
  /-- The construction configuration (00_scope.md R8), never changed (log 3). -/
  cfg : Config
  /-- `REQ_IN[i]` (10_state.md R25). -/
  reqIn : List (Option Request)
  /-- `RET_OUT[p]` (R26). -/
  retOut : List (Option Return)
  /-- `XREQ_ARB[b]` (R27). -/
  xreqArb : List Arb
  /-- `XRET_ARB[p]` (R28). -/
  xretArb : List Arb
  /-- The per-bank elements (R30 to R40). -/
  banks : List Bank
  /-- `FAULT` (R41). -/
  fault : Option FaultCode
  /-- `STATS` (R42). -/
  stats : Stats
  /-- `CYCLE` (R44). -/
  cycle : Nat
  /-- `PHASE` (R44). -/
  phase : Phase
  /-- The downstream slots of `DS_PORT(b)`, per bank (47_cycle.md R149). -/
  ds : List DsPort
  /-- MODEL's own: the environment's pending events, oldest first (log 1). -/
  events : List Event
  /-- MODEL's own: the value the last operation returned (log 10). -/
  resp : Response
deriving DecidableEq, Repr

/-- Why a step stops with a fault. The faults of 60_exceptions.md R171 are NOT here: raising one is a next
state with FAULT set, as R170 describes it (log 11). -/
inductive Fault where
  /-- Raised by `arbAdd`, `arbRemove`, `arbAdvance` and `arbCurrent` when the configuration has no arbitrator of
  that number. Safe: 41_round_robin.md gives these operations a meaning on NBC's arbitrators only (log 12). -/
  | noSuchArbitrator
  /-- Raised by `arbAdd` and `arbRemove` when the requester index is not below the arbitrator's width. Safe:
  R106 and R107 give the operation for `0 <= i < W` only (log 12). -/
  | indexOutOfRange
deriving DecidableEq, Repr

/-- Why a step has no meaning for what it is given. -/
inductive Refusal where
  /-- An instruction without a meaning yet; no arm of `exec` answers so. Safe. -/
  | notModelled (mnemonic : String)
  /-- Raised by `step` when the next event record is no instruction of its channel, with the decoder's reason.
  Safe: such a record names no operation or transaction of 30_encoding.md (log 17). -/
  | undecodable (why : DecodeError)
deriving DecidableEq, Repr

/-- An arbitrator of width `w` at reset: mask 0, pointer `w - 1` (41_round_robin.md R110). -/
def Arb.reset (w : Nat) : Arb where
  mask := 0
  ptr := w - 1

/-- LFB `k` at reset (10_state.md R30, R48; the unspecified fields by log 9). -/
def Lfb.reset (cfg : Config) (k : Nat) : Lfb where
  state := .invalid
  type := .read
  blockAddress := 0
  byteWriteMask := 0
  data := zeroBlock cfg.blockSize
  lru := k
  subq := []
  pipeCount := 0

/-- The tag entry of way `w` at reset (10_state.md R38; the unspecified tag by log 9). -/
def TagEntry.reset (w : Nat) : TagEntry where
  valid := false
  tag := 0
  lru := w

/-- A bank at reset (10_state.md R48; 70_reset_and_hazards.md R193). -/
def Bank.reset (cfg : Config) : Bank where
  lfbs := (List.range cfg.numLfbs).map (Lfb.reset cfg)
  lfbArb := Arb.reset cfg.numLfbs
  mq := []
  wbq := []
  wbActive := none
  rstage := none
  tags := List.replicate cfg.setsPerBank ((List.range cfg.assoc).map TagEntry.reset)
  data := List.replicate cfg.setsPerBank (List.replicate cfg.assoc (zeroBlock cfg.blockSize))
  freeCount := 0

/-- A downstream port before the first cycle (log 7; nothing written yet, log 6). -/
def DsPort.reset : DsPort where
  req := none
  blocked := false
  rets := []
  wrote := false

/-- Every counter 0 (60_exceptions.md R186). -/
def Stats.reset : Stats where
  hits := 0
  misses := 0
  halfMisses := 0
  storeAllocs := 0
  storeMerges := 0
  lfbStalls := 0
  dsLoads := 0
  dsStores := 0

/-- Construction from a configuration, the only reset (70_reset_and_hazards.md R191 to R193): a configuration
that fails the check of R192 gives an NBC with `FAULT = CONFIG`. -/
def State.construct (cfg : Config) : State where
  cfg := cfg
  reqIn := List.replicate cfg.numPorts none
  retOut := List.replicate cfg.numPorts none
  xreqArb := List.replicate cfg.numBanks (Arb.reset cfg.numPorts)
  xretArb := List.replicate cfg.numPorts (Arb.reset cfg.numBanks)
  banks := List.replicate cfg.numBanks (Bank.reset cfg)
  fault := if cfg.valid then none else some .config
  stats := Stats.reset
  cycle := 0
  phase := .rise
  ds := List.replicate cfg.numBanks DsPort.reset
  events := []
  resp := .nothing

/-- The machine right after reset: NBC constructed from the reference configuration (log 3). -/
def State.reset : State :=
  State.construct Config.reference

end Sys2Proof.Machine
end

