-- ==== Sys2Proof/Machine/Ops.lean ====
section
/-! DEFINITION. The named operations over NBC's state: reading and writing its elements, counting, drawing
unspecified values, the downstream contract's primitives (00_scope.md R16), and raising a fault
(60_exceptions.md R170). -/

namespace Sys2Proof.Machine

/-- The outcome of an operation. -/
abbrev Result := Host.Outcome State Fault Refusal

/-! ### Elements (00_scope.md R15). An index outside an array reads a reset-like value and writes nothing
(log 15). -/

/-- What a bank index outside the array reads (log 15). -/
def Bank.absent : Bank where
  lfbs := []
  lfbArb := Arb.reset 0
  mq := []
  wbq := []
  wbActive := none
  rstage := none
  tags := []
  data := []
  freeCount := 0

/-- What an LFB index outside the pool reads (log 15). -/
def Lfb.absent : Lfb where
  state := .invalid
  type := .read
  blockAddress := 0
  byteWriteMask := 0
  data := []
  lru := 0
  subq := []
  pipeCount := 0

/-- The per-bank elements of bank `b`. -/
def State.bank (s : State) (b : Nat) : Bank :=
  s.banks.getD b Bank.absent

/-- Write the per-bank elements of bank `b`. -/
def State.setBank (s : State) (b : Nat) (bk : Bank) : State :=
  { s with banks := s.banks.set b bk }

/-- `LFB[b][k]`. -/
def Bank.lfb (bk : Bank) (k : Nat) : Lfb :=
  bk.lfbs.getD k Lfb.absent

/-- Write `LFB[b][k]`. -/
def Bank.setLfb (bk : Bank) (k : Nat) (l : Lfb) : Bank :=
  { bk with lfbs := bk.lfbs.set k l }

/-- The downstream slots of bank `b`'s port. -/
def State.dsPort (s : State) (b : Nat) : DsPort :=
  s.ds.getD b DsPort.reset

/-- Write the downstream slots of bank `b`'s port. -/
def State.setDsPort (s : State) (b : Nat) (d : DsPort) : State :=
  { s with ds := s.ds.set b d }

/-- `REQ_IN[i]`. -/
def State.reqSlot (s : State) (i : Nat) : Option Request :=
  s.reqIn.getD i none

/-- `RET_OUT[p]`. -/
def State.retSlot (s : State) (p : Nat) : Option Return :=
  s.retOut.getD p none

/-- `XREQ_ARB[b]`. -/
def State.xreq (s : State) (b : Nat) : Arb :=
  s.xreqArb.getD b (Arb.reset s.cfg.numPorts)

/-- `XRET_ARB[p]`. -/
def State.xret (s : State) (p : Nat) : Arb :=
  s.xretArb.getD p (Arb.reset s.cfg.numBanks)

/-! ### Statistics (60_exceptions.md R186) -/

/-- Increment one counter. -/
def Stats.bump (st : Stats) : Counter → Stats
  | .hits => { st with hits := st.hits + 1 }
  | .misses => { st with misses := st.misses + 1 }
  | .halfMisses => { st with halfMisses := st.halfMisses + 1 }
  | .storeAllocs => { st with storeAllocs := st.storeAllocs + 1 }
  | .storeMerges => { st with storeMerges := st.storeMerges + 1 }
  | .lfbStalls => { st with lfbStalls := st.lfbStalls + 1 }
  | .dsLoads => { st with dsLoads := st.dsLoads + 1 }
  | .dsStores => { st with dsStores := st.dsStores + 1 }

/-- Increment one counter of the state. -/
def State.count (s : State) (c : Counter) : State :=
  { s with stats := s.stats.bump c }

/-! ### Unspecified values (93_implementation_defined.md I1 to I3; log 8) -/

/-- The unspecified block that draw `n` of bank `b` yields. -/
def freeBlock (cfg : Config) (b n : Nat) : Block :=
  tabulate cfg.blockSize fun j => Config.freeByte b n j

/-- The unspecified LfbType that draw `n` of bank `b` yields. -/
def freeType (b n : Nat) : LfbType :=
  if Config.freeTypeBit b n then .writeCombining else .read

/-- The unspecified block address that draw `n` of bank `b` yields: ADDR_WIDTH bits, low OFFSET_BITS zero. -/
def freeBlockAddress (cfg : Config) (b n : Nat) : Nat :=
  cfg.block (Config.freeAddress b n % 2 ^ cfg.addrWidth)

/-! ### The downstream unit's contract, as NBC calls it (00_scope.md R16; 40_port_contract.md R104) -/

/-- `DSWriteValid(DS_PORT(b))`: the request slot is empty and the downstream unit does not hold NBC off
(log 7). -/
def State.dsWriteValid (s : State) (b : Nat) : Bool :=
  (s.dsPort b).req.isNone && !(s.dsPort b).blocked

/-- NBC may write to `DS_PORT(b)` now: `DSWriteValid` answers true, and NBC has not written to the port before in
this fall phase (R104, R105; 46_bank_issue.md R157; log 6). -/
def State.dsMayWrite (s : State) (b : Nat) : Bool :=
  s.dsWriteValid b && !(s.dsPort b).wrote

/-- `DSWrite(DS_PORT(b), req)`, which is the port's one write of this fall phase (R105). -/
def State.dsWrite (s : State) (b : Nat) (req : Request) : State :=
  s.setDsPort b { s.dsPort b with req := some req, wrote := true }

/-- A downstream port when a fall phase is over: the next one has written nothing yet (R105). -/
def DsPort.endFall (d : DsPort) : DsPort :=
  { d with wrote := false }

/-- The fall phase is over on every downstream port (R105). -/
def State.dsEndFall (s : State) : State :=
  { s with ds := s.ds.map DsPort.endFall }

/-- `DSReadValid(DS_PORT(b))` and the return `DSRead` would give: the oldest one waiting. -/
def State.dsHead (s : State) (b : Nat) : Option Return :=
  (s.dsPort b).rets.head?

/-- The effect of `DSRead(DS_PORT(b))` on the slot. -/
def State.dsPop (s : State) (b : Nat) : State :=
  s.setDsPort b { s.dsPort b with rets := (s.dsPort b).rets.tail }

/-! ### Completing, faulting, stuck -/

/-- The operation ends here, returning `r`. -/
def State.finish (s : State) (r : Response) : Result :=
  .next { s with resp := r }

/-- `raise Fault(c)` (60_exceptions.md R170), the one way NBC takes a fault: the state the operation began with,
with `FAULT = some c`, and no value returned. There is no handler and no return from it (R169). For a clock
operation `s` already carries the downstream slots as the operation left them, since what it consumed stays
consumed. -/
def State.raise (s : State) (c : FaultCode) : Result :=
  .next { s with fault := some c, resp := .nothing }

/-- Run an operation unless NBC is stuck: with `FAULT` set every operation changes nothing and returns nothing
(60_exceptions.md R170; log 11). -/
def State.whenRunning (s : State) (op : State → Result) : Result :=
  if s.fault.isSome then s.finish .nothing else op s

end Sys2Proof.Machine
end

