-- ==== Sys2Proof/Machine/Arbiter.lean ====
section
/-! DEFINITION. The RoundRobinArbitrator (41_round_robin.md R106 to R109), and its four operations as
instructions on NBC's own arbitrators (log 12). -/

namespace Sys2Proof.Machine

/-- `add(i)` (R106). -/
def Arb.add (a : Arb) (i : Nat) : Arb :=
  { a with mask := setBit a.mask i }

/-- `remove(i)` (R107). -/
def Arb.remove (a : Arb) (i : Nat) : Arb :=
  { a with mask := clearBit a.mask i }

/-- `advance()` of an arbitrator of width `w` (R108): to the lowest set bit strictly above the pointer, else to
the lowest set bit, else nowhere. -/
def Arb.advance (w : Nat) (a : Arb) : Arb :=
  match lowestBit w (clearBits a.mask (ones (a.ptr + 1))) with
  | some i => { a with ptr := i }
  | none =>
    match lowestBit w a.mask with
    | some i => { a with ptr := i }
    | none => a

/-- `current()` (R109). -/
def Arb.current (a : Arb) : Option Nat :=
  if a.mask.testBit a.ptr then some a.ptr else none

/-- The arbitrator a reference names. -/
def State.arb (s : State) : ArbRef → Arb
  | .xreq b => s.xreq b.toNat
  | .xret p => s.xret p.toNat
  | .lfb b => (s.bank b.toNat).lfbArb

/-- Write the arbitrator a reference names. -/
def State.setArb (s : State) (a : ArbRef) (v : Arb) : State :=
  match a with
  | .xreq b => { s with xreqArb := s.xreqArb.set b.toNat v }
  | .xret p => { s with xretArb := s.xretArb.set p.toNat v }
  | .lfb b => s.setBank b.toNat { s.bank b.toNat with lfbArb := v }

/-- Run an operation on the arbitrator `a`, if NBC has it (log 12). -/
def State.onArb (s : State) (a : ArbRef) (op : State → Result) : Result :=
  s.whenRunning fun s =>
    if s.cfg.arbCount a ≤ a.number then .fault .noSuchArbitrator else op s

/-- ARB 0: `add(i)` on the arbitrator `a` (R106). -/
def execArbAdd (a : ArbRef) (i : BitVec 8) (s : State) : Result :=
  s.onArb a fun s =>
    if s.cfg.arbWidth a ≤ i.toNat then .fault .indexOutOfRange
    else (s.setArb a ((s.arb a).add i.toNat)).finish .nothing

/-- ARB 1: `remove(i)` on the arbitrator `a` (R107). -/
def execArbRemove (a : ArbRef) (i : BitVec 8) (s : State) : Result :=
  s.onArb a fun s =>
    if s.cfg.arbWidth a ≤ i.toNat then .fault .indexOutOfRange
    else (s.setArb a ((s.arb a).remove i.toNat)).finish .nothing

/-- ARB 2: `advance()` on the arbitrator `a` (R108). -/
def execArbAdvance (a : ArbRef) (s : State) : Result :=
  s.onArb a fun s => (s.setArb a ((s.arb a).advance (s.cfg.arbWidth a))).finish .nothing

/-- ARB 3: `current()` on the arbitrator `a` (R109). -/
def execArbCurrent (a : ArbRef) (s : State) : Result :=
  s.onArb a fun s => s.finish (.grant (s.arb a).current)

end Sys2Proof.Machine
end

