-- ==== Sys2Proof/Machine/Flags.lean ====
section
/-! DEFINITION. NBC has no status flags (10_state.md R22). What stands here are the conditions the spec derives
from the state and does not store, and the numeric codes of its stored names. -/

namespace Sys2Proof.Machine

/-- An LFB is live when its state is not INVALID (00_scope.md R19). -/
def Lfb.live (l : Lfb) : Bool :=
  decide (l.state ≠ .invalid)

/-- `ISSUED(b, k)`: MISSED and not in the miss queue (10_state.md R43). -/
def Bank.issued (bk : Bank) (k : Nat) : Bool :=
  decide ((bk.lfb k).state = .missed) && !bk.mq.contains k

/-- An LFB in state EMPTY, DATA_ARRAY, MISSED or FILLED is outstanding work (47_cycle.md R150). -/
def Lfb.working (l : Lfb) : Bool :=
  match l.state with
  | .empty | .dataArray | .missed | .filled => true
  | .invalid | .retired => false

/-- A bank's part of the busy predicate (47_cycle.md R150). -/
def Bank.busy (bk : Bank) : Bool :=
  bk.rstage.isSome || bk.lfbs.any Lfb.working || !bk.mq.isEmpty || !bk.wbq.isEmpty || bk.wbActive.isSome

/-- `busy(S)`: NBC reports outstanding work (47_cycle.md R150). -/
def State.busy (s : State) : Bool :=
  s.reqIn.any Option.isSome || s.retOut.any Option.isSome || s.banks.any Bank.busy

/-- The code of an LfbState (30_encoding.md R88). -/
def LfbState.code : LfbState → BitVec 3
  | .invalid => 0
  | .empty => 1
  | .dataArray => 2
  | .missed => 3
  | .filled => 4
  | .retired => 5

/-- The code of an LfbType (30_encoding.md R89). -/
def LfbType.code : LfbType → BitVec 1
  | .read => 0
  | .writeCombining => 1

/-- The number of a fault code (60_exceptions.md R171). -/
def FaultCode.code : FaultCode → BitVec 4
  | .portRange => 1
  | .badPhase => 2
  | .writeNotValid => 3
  | .portMismatch => 4
  | .badType => 5
  | .badSize => 6
  | .readNotValid => 7
  | .dupLfb => 8
  | .unmatchedFill => 9
  | .badFill => 10
  | .config => 11

/-- `FAULT` in packed form: 0 for none (60_exceptions.md R171). -/
def packedFault : Option FaultCode → BitVec 4
  | none => 0
  | some c => c.code

end Sys2Proof.Machine
end

