-- ==== Sys2Proof/Machine/Operands.lean ====
section
/-! DEFINITION. Operand assembly (30_encoding.md R86): what a bank derives from a request, and the transactions
NBC constructs itself (46_bank_issue.md R158, R159, R161). -/

namespace Sys2Proof.Machine

/-- The effective mask of a STORE: `write_mask & ones(size)` (30_encoding.md R78). -/
def effectiveMask (req : Request) : Nat :=
  req.writeMask &&& ones req.size.toNat

/-- The sub-request of a LOAD: its offset, size, port and dst (44_bank_accept.md R136). -/
def subReqOf (cfg : Config) (req : Request) : SubReq where
  offset := cfg.offset req.address
  size := req.size
  port := req.port
  dst := req.dst

/-- The request lies in one block: `1 <= size` and `offset + size <= BLOCK_SIZE` (20_memory.md R52; 40_port_contract.md
R98, check 6). -/
def fitsBlock (cfg : Config) (req : Request) : Bool :=
  decide (1 ≤ req.size.toNat) && decide (cfg.offset req.address + req.size.toNat ≤ cfg.blockSize)

/-- The full-block LOAD a bank writes downstream for its LFB `k` (46_bank_issue.md R158). -/
def fetchRequest (cfg : Config) (b k : Nat) (l : Lfb) : Request where
  type := .load
  size := BitVec.ofNat 16 cfg.blockSize
  port := BitVec.ofNat 16 (cfg.dsPort b)
  dst := BitVec.ofNat 64 k
  address := l.blockAddress
  writeMask := 0
  payload := zeroBlock cfg.blockSize

/-- The STORE of one run, `n` bytes from byte `st`, that a bank writes downstream for its write-combining LFB
`k` (46_bank_issue.md R159). -/
def drainRequest (cfg : Config) (b k : Nat) (l : Lfb) (st n : Nat) : Request where
  type := .store
  size := BitVec.ofNat 16 n
  port := BitVec.ofNat 16 (cfg.dsPort b)
  dst := BitVec.ofNat 64 k
  address := cfg.addrAdd l.blockAddress st
  writeMask := ones n
  payload := slice cfg.blockSize l.data st n

/-- The upstream return of sub-request `sr` of LFB `l` (46_bank_issue.md R161, R163). -/
def returnOf (cfg : Config) (l : Lfb) (sr : SubReq) : Return where
  type := .loadReturn
  size := sr.size
  port := sr.port
  dst := sr.dst
  address := cfg.addrAdd l.blockAddress sr.offset
  payload := slice cfg.blockSize l.data sr.offset sr.size.toNat

end Sys2Proof.Machine
end

