-- ==== Sys2Proof/Machine/BankFall.lean ====
section
/-! DEFINITION. The bank's fall phase (46_bank_issue.md R156 to R162): the downstream request, a fetch before a
drain, and the sub-request return. -/

namespace Sys2Proof.Machine

/-- What a bank writes downstream: the request, the bank after it, and the counter it increments. -/
structure Issue where
  request : Request
  bank : Bank
  counter : Counter
deriving DecidableEq, Repr

/-- The miss issue (R158): the head of the miss queue is fetched. -/
def dueFetch (cfg : Config) (b : Nat) (bk : Bank) : Option Issue :=
  match bk.mq with
  | [] => none
  | k :: rest =>
    some { request := fetchRequest cfg b k (bk.lfb k), bank := { bk with mq := rest }, counter := .dsLoads }

/-- The LFB `k` whose last run is drained (R160): INVALID, its other contents unspecified from here on
(93_implementation_defined.md I1; log 8). -/
def drainedLfb (cfg : Config) (b n : Nat) (l : Lfb) : Lfb where
  state := .invalid
  type := freeType b n
  blockAddress := freeBlockAddress cfg b n
  byteWriteMask := 0
  data := freeBlock cfg b n
  lru := l.lru
  subq := l.subq
  pipeCount := l.pipeCount

/-- The bank after its active LFB `k` keeps the mask `m` (R159, R160). -/
def drainTo (cfg : Config) (b : Nat) (bk : Bank) (k m : Nat) : Bank :=
  if m = 0 then
    { bk.setLfb k (drainedLfb cfg b bk.freeCount (bk.lfb k)) with
      wbActive := none
      freeCount := bk.freeCount + 1 }
  else bk.setLfb k { bk.lfb k with byteWriteMask := m }

/-- The write-back drain (R159): the lowest run of the active LFB's mask is stored. A mask of 0, which 10_state.md
R47 item 2 rules out, drains nothing (log 15). -/
def dueDrain (cfg : Config) (b : Nat) (bk : Bank) : Option Issue :=
  match bk.wbActive with
  | none => none
  | some k =>
    let m := (bk.lfb k).byteWriteMask
    match lowestBit cfg.blockSize m with
    | none => none
    | some st =>
      let n := runLength (cfg.blockSize - st) m st
      some
        { request := drainRequest cfg b k (bk.lfb k) st n
          bank := drainTo cfg b bk k (clearBits m (ones n <<< st))
          counter := .dsStores }

/-- The one downstream request of a bank's fall (R157): a fetch if one is ready, else a drain. -/
def due (cfg : Config) (b : Nat) (bk : Bank) : Option Issue :=
  match dueFetch cfg b bk with
  | some i => some i
  | none => dueDrain cfg b bk

/-- An issue of bank `b` takes effect: DSWrite, the bank's elements, the counter. -/
def State.issue (s : State) (b : Nat) (i : Issue) : State :=
  ((s.dsWrite b i.request).setBank b i.bank).count i.counter

/-- Steps 1 and 2 of the bank's fall (R156): at most one downstream request, if the port is free and has not been
written in this fall phase (R157; 40_port_contract.md R104, R105). -/
def issueStep (b : Nat) (s : State) : State :=
  if s.dsMayWrite b then
    match due s.cfg b (s.bank b) with
    | some i => s.issue b i
    | none => s
  else s

/-- The LFB has a sub-request to return (R161). -/
def Lfb.returns (l : Lfb) : Bool :=
  decide (l.type = .read) && decide (l.state = .filled) && !l.subq.isEmpty

/-- Register every LFB with `LFB_ARB` by whether it has a sub-request to return (R161). -/
def registerReturns (cfg : Config) (bk : Bank) : Arb :=
  (List.range cfg.numLfbs).foldl (fun a k => if (bk.lfb k).returns then a.add k else a.remove k) bk.lfbArb

/-- The LFB after its oldest sub-request is popped; with none left it retires (R161, R162). -/
def Lfb.popSubReq (l : Lfb) : Lfb :=
  { l with subq := l.subq.tail, state := if l.subq.tail.isEmpty then .retired else l.state }

/-- The sub-request return (R161): register, advance, and stage the granted LFB's oldest sub-request if the
return stage is empty. -/
def returnStep (cfg : Config) (bk : Bank) : Bank :=
  let bk := { bk with lfbArb := (registerReturns cfg bk).advance cfg.numLfbs }
  match bk.rstage, bk.lfbArb.current with
  | none, some k =>
    match (bk.lfb k).subq with
    | sr :: _ =>
      { bk.setLfb k (bk.lfb k).popSubReq with rstage := some (returnOf cfg (bk.lfb k) sr) }
    | [] => bk
  | _, _ => bk

/-- The fall of bank `b`, in the order of R156. -/
def fallBank (b : Nat) (s : State) : State :=
  let s := issueStep b s
  s.setBank b (returnStep s.cfg (s.bank b))

/-- The fall of these banks, in this order. -/
def fallBanks (bs : List Nat) (s : State) : State :=
  bs.foldl (fun s b => fallBank b s) s

end Sys2Proof.Machine
end

