-- ==== Sys2Proof/Machine/LfbPool.lean ====
section
/-! DEFINITION. The LFB helpers of 44_bank_accept.md R132. -/

namespace Sys2Proof.Machine

/-- The LFB is live and has this key (44_bank_accept.md R132). -/
def Lfb.hasKey (l : Lfb) (blk : Nat) (t : LfbType) : Bool :=
  l.live && decide (l.type = t) && decide (l.blockAddress = blk)

/-- `find_lfb(b, blk, t)` (R132). -/
def findLfb (bk : Bank) (blk : Nat) (t : LfbType) : Option Nat :=
  bk.lfbs.findIdx? fun l => l.hasKey blk t

/-- `alloc_slot(b)` (R132): the lowest INVALID LFB, else the least recently used RETIRED one, ties to the
lowest index. -/
def allocSlot (bk : Bank) : Option Nat :=
  match bk.lfbs.findIdx? fun l => decide (l.state = .invalid) with
  | some k => some k
  | none => oldest (bk.lfbs.map fun l => if l.state = .retired then some l.lru else none)

/-- `evict(k)` (R132). -/
def evict (bk : Bank) (k : Nat) : Bank :=
  bk.setLfb k { bk.lfb k with state := .invalid, subq := [], pipeCount := 0 }

/-- `if S.LFB[v].state = RETIRED: evict(v)` (R137, R139). -/
def evictRetired (bk : Bank) (v : Nat) : Bank :=
  if (bk.lfb v).state = .retired then evict bk v else bk

/-- The LFBs of a pool after LFB `k` is touched (43_tag_data_array.md R127). -/
def touchLfbs (lfbs : List Lfb) (k : Nat) : List Lfb :=
  let old := (lfbs.map Lfb.lru).getD k 0
  lfbs.mapIdx fun y l => { l with lru := touchedAge k old y l.lru }

/-- `touch_lfb(b, k)` (R132). -/
def touchLfb (bk : Bank) (k : Nat) : Bank :=
  { bk with lfbs := touchLfbs bk.lfbs k }

end Sys2Proof.Machine
end

