-- ==== Sys2Proof/Machine/TagArray.lean ====
section
/-! DEFINITION. The tag array, the data array and their replacement (43_tag_data_array.md R121 to R127), as
operations on one bank. -/

namespace Sys2Proof.Machine

/-- The tag entries of set `i`. -/
def Bank.tagSet (bk : Bank) (i : Nat) : List TagEntry :=
  bk.tags.getD i []

/-- `lookup(b, a)` (R121): the way that is valid and holds the address's tag. -/
def lookup (cfg : Config) (bk : Bank) (a : Nat) : Option Nat :=
  (bk.tagSet (cfg.set a)).findIdx? fun e => e.valid && e.tag == cfg.tag a

/-- `read_line(b, a, w)` (R122). -/
def readLine (cfg : Config) (bk : Bank) (a w : Nat) : Block :=
  (bk.data.getD (cfg.set a) []).getD w []

/-- The ways of a set after way `w` is touched (R127). -/
def touchWays (ways : List TagEntry) (w : Nat) : List TagEntry :=
  let old := (ways.map TagEntry.lru).getD w 0
  ways.mapIdx fun y e => { e with lru := touchedAge w old y e.lru }

/-- `touch_way(b, s, w)` (R123). -/
def touchWay (bk : Bank) (i w : Nat) : Bank :=
  { bk with tags := bk.tags.set i (touchWays (bk.tagSet i) w) }

/-- `victim_way(b, s)` (R124): the lowest way that is not valid, else the oldest, ties to the lowest index. A
set has at least one way (00_scope.md R8); way 0 stands for the answer on none (log 15). -/
def victimWay (ways : List TagEntry) : Nat :=
  match ways.findIdx? fun e => !e.valid with
  | some w => w
  | none => (oldest (ways.map fun e => some e.lru)).getD 0

/-- The way `insert` writes (R125): the one that holds the block, else the victim. -/
def insertWay (cfg : Config) (bk : Bank) (blk : Nat) : Nat :=
  match lookup cfg bk blk with
  | some w => w
  | none => victimWay (bk.tagSet (cfg.set blk))

/-- Way `w` of a set made valid with tag `t`, its age kept. -/
def fillWay (ways : List TagEntry) (w t : Nat) : List TagEntry :=
  ways.modify w fun e => { e with valid := true, tag := t }

/-- `insert(b, blk, line)` (R125). -/
def insertLine (cfg : Config) (bk : Bank) (blk : Nat) (line : Block) : Bank :=
  let i := cfg.set blk
  let w := insertWay cfg bk blk
  touchWay
    { bk with
      tags := bk.tags.set i (fillWay (bk.tagSet i) w (cfg.tag blk))
      data := bk.data.set i ((bk.data.getD i []).set w line) }
    i w

/-- `write_update(b, a, mask, bytes)` (R126): the bytes the mask selects go into the resident line, if there is
one. -/
def writeUpdate (cfg : Config) (bk : Bank) (a mask : Nat) (bytes : Block) : Bank :=
  match lookup cfg bk a with
  | none => bk
  | some w =>
    let i := cfg.set a
    { bk with
      data := bk.data.set i ((bk.data.getD i []).set w
        (overlay cfg.blockSize (readLine cfg bk a w) (cfg.offset a) mask bytes)) }

end Sys2Proof.Machine
end

