-- ==== Sys2Proof/Machine/BankRise.lean ====
section
/-! DEFINITION. The bank's rise phase: the pipeline advance, the write-back hand-off, the acceptance of a LOAD
or a STORE (44_bank_accept.md R133 to R143), and the fill (45_bank_fill.md R151, R152). -/

namespace Sys2Proof.Machine

/-! ### Pipeline advance and write-back hand-off -/

/-- One LFB's pipeline advance (R133). -/
def Lfb.advancePipe (l : Lfb) : Lfb :=
  if l.state = .dataArray then
    if l.pipeCount - 1 = 0 then { l with pipeCount := l.pipeCount - 1, state := .filled }
    else { l with pipeCount := l.pipeCount - 1 }
  else l

/-- The data-array pipeline advance of a bank (R133). -/
def pipelineAdvance (bk : Bank) : Bank :=
  { bk with lfbs := bk.lfbs.map Lfb.advancePipe }

/-- The write-back hand-off (R134): the bank after it, none when its condition does not hold. -/
def handOff (bk : Bank) : Option Bank :=
  match bk.wbq, bk.wbActive with
  | k :: rest, none => some { bk with wbActive := some k, wbq := rest }
  | _, _ => none

/-! ### Acceptance -/

/-- What an acceptance ends in (R135): ACCEPTED with the bank after it and the counter it increments, STALL, or
a fault. -/
inductive Accept where
  | accepted (bk : Bank) (counts : Option Counter)
  | stall
  | fault (c : FaultCode)
deriving DecidableEq, Repr

/-- A LOAD merges into the live READ LFB `k` of its block (R136). -/
def mergeLoad (cfg : Config) (bk : Bank) (k : Nat) (sr : SubReq) : Accept :=
  let l := bk.lfb k
  if l.subq.length = cfg.subqDepth then .stall
  else
    .accepted
      (touchLfb
        (bk.setLfb k
          { l with subq := l.subq ++ [sr], state := if l.state = .retired then .filled else l.state })
        k)
      (some .halfMisses)

/-- The new READ LFB of R137, in slot `v`; its data is unspecified until the lookup's outcome (log 8). -/
def newReadLfb (cfg : Config) (b : Nat) (bk : Bank) (v blk : Nat) (sr : SubReq) : Bank :=
  { bk.setLfb v
      { state := .empty
        type := .read
        blockAddress := blk
        byteWriteMask := 0
        data := freeBlock cfg b bk.freeCount
        lru := (bk.lfb v).lru
        subq := [sr]
        pipeCount := 0 } with
    freeCount := bk.freeCount + 1 }

/-- The new READ LFB `v` hits way `w` (R137): the line is copied now and the LFB waits L cycles. -/
def hitLoad (cfg : Config) (bk : Bank) (v blk w : Nat) : Bank :=
  let l := { bk.lfb v with data := readLine cfg bk blk w }
  touchWay
    (bk.setLfb v
      (if cfg.latency = 0 then { l with state := .filled }
       else { l with state := .dataArray, pipeCount := cfg.latency }))
    (cfg.set blk) w

/-- The new READ LFB `v` misses (R138): it takes the pending bytes of a live write-combining LFB of the block
and joins the miss queue. -/
def missLoad (cfg : Config) (bk : Bank) (v blk : Nat) : Bank :=
  let l := bk.lfb v
  let l :=
    match findLfb bk blk .writeCombining with
    | some c =>
      { l with
        byteWriteMask := (bk.lfb c).byteWriteMask
        data := overlay cfg.blockSize l.data 0 (bk.lfb c).byteWriteMask (bk.lfb c).data }
    | none => l
  { bk.setLfb v { l with state := .missed } with mq := bk.mq ++ [v] }

/-- A LOAD that merges into no LFB takes slot `v` (R137, R138). -/
def allocLoad (cfg : Config) (b : Nat) (bk : Bank) (v blk : Nat) (sr : SubReq) : Accept :=
  if (findLfb bk blk .read).isSome then .fault .dupLfb
  else
    let bk' := touchLfb (newReadLfb cfg b bk v blk sr) v
    match lookup cfg bk blk with
    | some w => .accepted (hitLoad cfg bk' v blk w) (some .hits)
    | none => .accepted (missLoad cfg bk' v blk) (some .misses)

/-- `accept_load` (R136 to R138). -/
def acceptLoad (cfg : Config) (b : Nat) (bk : Bank) (req : Request) : Accept :=
  let blk := cfg.block req.address
  match findLfb bk blk .read with
  | some k => mergeLoad cfg bk k (subReqOf cfg req)
  | none =>
    match allocSlot bk with
    | none => .stall
    | some v => allocLoad cfg b (evictRetired bk v) v blk (subReqOf cfg req)

/-- The STORE's bytes go into every copy of the block NBC holds (R140): the resident line and a live READ LFB,
whose mask then protects them from the fill. -/
def commitStore (cfg : Config) (bk : Bank) (req : Request) (m : Nat) : Bank :=
  let off := cfg.offset req.address
  let bk' := writeUpdate cfg bk req.address m req.payload
  match findLfb bk' (cfg.block req.address) .read with
  | some r =>
    let l := bk'.lfb r
    bk'.setLfb r
      { l with
        data := overlay cfg.blockSize l.data off m req.payload
        byteWriteMask := l.byteWriteMask ||| m <<< off }
  | none => bk'

/-- The STORE takes slot `v` for a new write-combining LFB (R141); the bytes outside its mask are unspecified
(log 8). -/
def allocStore (cfg : Config) (b : Nat) (bk : Bank) (v : Nat) (req : Request) (m : Nat) : Accept :=
  let blk := cfg.block req.address
  let off := cfg.offset req.address
  if (findLfb bk blk .writeCombining).isSome then .fault .dupLfb
  else
    .accepted
      (touchLfb
        { bk.setLfb v
            { state := .filled
              type := .writeCombining
              blockAddress := blk
              byteWriteMask := m <<< off
              data := overlay cfg.blockSize (freeBlock cfg b bk.freeCount) off m req.payload
              lru := (bk.lfb v).lru
              subq := []
              pipeCount := 0 } with
          wbq := bk.wbq ++ [v]
          freeCount := bk.freeCount + 1 }
        v)
      (some .storeAllocs)

/-- The STORE merges into the live write-combining LFB `c` of its block (R142). -/
def mergeStore (cfg : Config) (bk : Bank) (c : Nat) (req : Request) (m : Nat) : Accept :=
  let off := cfg.offset req.address
  let l := bk.lfb c
  .accepted
    (touchLfb
      (bk.setLfb c
        { l with
          data := overlay cfg.blockSize l.data off m req.payload
          byteWriteMask := l.byteWriteMask ||| m <<< off })
      c)
    (some .storeMerges)

/-- `accept_store` (R139 to R143). -/
def acceptStore (cfg : Config) (b : Nat) (bk : Bank) (req : Request) : Accept :=
  let m := effectiveMask req
  if m = 0 then .accepted bk none
  else
    match findLfb bk (cfg.block req.address) .writeCombining with
    | some c => mergeStore cfg (commitStore cfg bk req m) c req m
    | none =>
      match allocSlot bk with
      | none => .stall
      | some v => allocStore cfg b (commitStore cfg (evictRetired bk v) req m) v req m

/-- The acceptance of a request by its type (R135). -/
def acceptRequest (cfg : Config) (b : Nat) (bk : Bank) (req : Request) : Accept :=
  if req.type = .load then acceptLoad cfg b bk req else acceptStore cfg b bk req

/-! ### Fill -/

/-- The return is a full-block, block-aligned LOAD_RETURN for this bank (R151). -/
def fillShaped (cfg : Config) (b : Nat) (r : Return) : Bool :=
  decide (r.type = .loadReturn) && decide (r.size.toNat = cfg.blockSize)
    && decide (cfg.offset r.address = 0) && decide (cfg.bank r.address = b)

/-- The ISSUED READ LFB of the block (R151). -/
def issuedLfb (bk : Bank) (blk : Nat) : Option Nat :=
  (List.range bk.lfbs.length).find? fun k =>
    decide ((bk.lfb k).type = .read) && bk.issued k && decide ((bk.lfb k).blockAddress = blk)

/-- The fill merge and insert of LFB `k` (R152): a byte that a STORE wrote into the LFB is kept. -/
def fillLfb (cfg : Config) (bk : Bank) (k : Nat) (payload : Block) : Bank :=
  let l := bk.lfb k
  let line := overlay cfg.blockSize payload 0 l.byteWriteMask l.data
  (insertLine cfg bk l.blockAddress line).setLfb k
    { l with data := line, byteWriteMask := 0, state := .filled }

/-- The checks and the effect of a fill read (R151, R152). -/
def fillBank (cfg : Config) (b : Nat) (bk : Bank) (r : Return) : Except FaultCode Bank :=
  if fillShaped cfg b r then
    match issuedLfb bk r.address with
    | none => .error .unmatchedFill
    | some k => if r.dst.toNat = k then .ok (fillLfb cfg bk k r.payload) else .error .unmatchedFill
  else .error .badFill

/-! ### The bank's rise on the state -/

/-- What a clock operation on a bank ends in: the state so far, or a fault together with the downstream slots,
whose consumed returns stay consumed (60_exceptions.md R170). -/
abbrev Progress := Except (FaultCode × List DsPort) State

/-- The acceptance step of bank `b` (R135): the request its arbitrator grants, if any, is accepted and read out
of its slot (42_crossbar.md R117), or stalls. -/
def acceptStep (b : Nat) (s : State) : Progress :=
  match (s.xreq b).current with
  | none => .ok s
  | some g =>
    match s.reqSlot g with
    | none => .ok s
    | some req =>
      match acceptRequest s.cfg b (s.bank b) req with
      | .stall => .ok (s.count .lfbStalls)
      | .fault c => .error (c, s.ds)
      | .accepted bk counts =>
        let s := s.setBank b bk
        let s := { s with
          reqIn := s.reqIn.set g none
          xreqArb := s.xreqArb.set b ((s.xreq b).remove g) }
        .ok (match counts with
          | some c => s.count c
          | none => s)

/-- The hand-off, or else the acceptance (R134). -/
def handOffOrAccept (b : Nat) (s : State) : Progress :=
  match handOff (s.bank b) with
  | some bk => .ok (s.setBank b bk)
  | none => acceptStep b s

/-- The fill step of bank `b` (45_bank_fill.md R151): at most one return is read, and read whether or not it
faults. -/
def fillStep (b : Nat) (s : State) : Progress :=
  match s.dsHead b with
  | none => .ok s
  | some r =>
    let s := s.dsPop b
    match fillBank s.cfg b (s.bank b) r with
    | .ok bk => .ok (s.setBank b bk)
    | .error c => .error (c, s.ds)

/-- The rise of bank `b`, in the order of R131. -/
def riseBank (b : Nat) (s : State) : Progress :=
  match handOffOrAccept b (s.setBank b (pipelineAdvance (s.bank b))) with
  | .ok s => fillStep b s
  | .error e => .error e

/-- The rise of these banks, in this order; the first fault ends it (60_exceptions.md R172). -/
def riseBanks : List Nat → State → Progress
  | [], s => .ok s
  | b :: bs, s =>
    match riseBank b s with
    | .ok s => riseBanks bs s
    | .error e => .error e

end Sys2Proof.Machine
end

