-- ==== Sys2Proof/Machine/Crossbar.lean ====
section
/-! DEFINITION. The request crossbar's registration and the return crossbar (42_crossbar.md R113 to R118). The
grant and the read of a request are R116's `current` and R117's part of the acceptance step. -/

namespace Sys2Proof.Machine

/-- Port `i` registers its request, if it has one, with the arbitrator of the request's bank (R115). -/
def registerPort (s : State) (i : Nat) : State :=
  match s.reqSlot i with
  | none => s
  | some req =>
    let b := s.cfg.bank req.address
    { s with xreqArb := s.xreqArb.set b ((s.xreq b).add i) }

/-- Request registration and the advance of every request arbitrator (R115). -/
def registerRequests (s : State) : State :=
  let s := (List.range s.cfg.numPorts).foldl registerPort s
  { s with xreqArb := s.xreqArb.map (Arb.advance s.cfg.numPorts) }

/-- Bank `b` stages a return for port `p` (R118). -/
def State.stagedFor (s : State) (p b : Nat) : Bool :=
  match (s.bank b).rstage with
  | some r => r.port.toNat == p
  | none => false

/-- `XRET_ARB[p]` after the banks register and it advances (R118). -/
def registerStages (s : State) (p : Nat) : Arb :=
  ((List.range s.cfg.numBanks).foldl (fun a b => if s.stagedFor p b then a.add b else a) (s.xret p)).advance
    s.cfg.numBanks

/-- Return routing for one port (R118). -/
def routePort (s : State) (p : Nat) : State :=
  let a := registerStages s p
  match s.retSlot p, a.current with
  | none, some g =>
    let bk := s.bank g
    { s.setBank g { bk with rstage := none } with
      retOut := s.retOut.set p bk.rstage
      xretArb := s.xretArb.set p (a.remove g) }
  | _, _ => { s with xretArb := s.xretArb.set p a }

/-- Return routing, port by port (R118). -/
def routeReturns (s : State) : State :=
  (List.range s.cfg.numPorts).foldl routePort s

end Sys2Proof.Machine
end

