-- ==== Sys2Proof/Machine/Cycle.lean ====
section
/-! DEFINITION. The two clock operations (47_cycle.md R146, R147). -/

namespace Sys2Proof.Machine

/-- PHASE 0: `clock_rise()` (R146). A fault in any bank leaves the state as it was before the rise, with the
downstream returns that were read still consumed (60_exceptions.md R170). -/
def execClockRise (s : State) : Result :=
  s.whenRunning fun s =>
    if s.phase = .rise then
      match riseBanks (List.range s.cfg.numBanks) (registerRequests s) with
      | .ok t => ({ t with phase := .fall } : State).finish .nothing
      | .error (c, ds) => ({ s with ds := ds } : State).raise c
    else s.raise .badPhase

/-- PHASE 1: `clock_fall()` (R147), which ends the fall phase. A port that a DSLOAD or DSSTORE record has written in
this phase is not written again (40_port_contract.md R104, R105; log 6). -/
def execClockFall (s : State) : Result :=
  s.whenRunning fun s =>
    if s.phase = .fall then
      let t := (routeReturns (fallBanks (List.range s.cfg.numBanks) s)).dsEndFall
      ({ t with phase := .rise, cycle := t.cycle + 1 } : State).finish .nothing
    else s.raise .badPhase

/-- The clock operation the host calls next: rise and fall in turn, starting with rise (60_exceptions.md R184). -/
def clockTick (s : State) : Result :=
  match s.phase with
  | .rise => execClockRise s
  | .fall => execClockFall s

end Sys2Proof.Machine
end

