-- ==== Sys2Proof/Machine/Downstream.lean ====
section
/-! DEFINITION. The downstream requests as instructions (46_bank_issue.md R157 to R160; log 6), and the downstream
unit's own acts on the slots it shares with NBC (47_cycle.md R149; log 7). -/

namespace Sys2Proof.Machine

/-- NBC writes the downstream request `req`: the issue step (46_bank_issue.md R156 to R160) of the bank that uses
the request's port, in a fall phase (40_port_contract.md R104), when the port is free, not yet written in this
phase (R105), and the request is the one the bank has due. Any other downstream request is one NBC does not write
now, and nothing changes (R164; log 6). -/
def State.writeDownstream (s : State) (req : Request) : Result :=
  s.whenRunning fun s =>
    match s.cfg.bankOfDsPort req.port.toNat with
    | none => s.finish .nothing
    | some b =>
      if s.phase = .fall ∧ (due s.cfg b (s.bank b)).map Issue.request = some req then
        (issueStep b s).finish .nothing
      else s.finish .nothing

/-- DSLOAD: the miss issue of one bank, the request as R158 writes it. -/
def execDsLoad (r : ReqBody) (s : State) : Result :=
  s.writeDownstream (r.withType .load)

/-- DSSTORE: the write-back drain of one run of one bank, the request as R159 writes it. -/
def execDsStore (r : ReqBody) (s : State) : Result :=
  s.writeDownstream (r.withType .store)

/-- The downstream unit takes the request out of bank `b`'s slot (47_cycle.md R149; 60_exceptions.md R183). -/
def State.dsTake (s : State) (b : Nat) : State :=
  { s.setDsPort b { s.dsPort b with req := none } with resp := .took (s.dsPort b).req }

/-- The downstream unit holds NBC off on bank `b`'s port, or no longer (93_implementation_defined.md I8). -/
def State.dsBlock (s : State) (b : Nat) (blocked : Bool) : State :=
  { s.setDsPort b { s.dsPort b with blocked := blocked } with resp := .nothing }

end Sys2Proof.Machine
end

