-- ==== Sys2Proof/Machine/Port.lean ====
section
/-! DEFINITION. The five operations of the port contract on NBC's upstream ports (40_port_contract.md R93 to
R102). -/

namespace Sys2Proof.Machine

/-- The checks every port operation makes first: the port's range (R94), then the phase (R95). -/
def State.onPort (s : State) (port : BitVec 16) (ph : Phase) (op : State → Result) : Result :=
  s.whenRunning fun s =>
    if s.cfg.numPorts ≤ port.toNat then s.raise .portRange
    else if s.phase ≠ ph then s.raise .badPhase
    else op s

/-- `write_request(port, req)` (R97), its checks in the order of R98. -/
def State.writeRequest (s : State) (port : BitVec 16) (req : Request) : Result :=
  s.onPort port .fall fun s =>
    if (s.reqSlot port.toNat).isSome then s.raise .writeNotValid
    else if req.port ≠ port then s.raise .portMismatch
    else if req.type ≠ .load ∧ req.type ≠ .store then s.raise .badType
    else if !fitsBlock s.cfg req then s.raise .badSize
    else ({ s with reqIn := s.reqIn.set port.toNat (some req) } : State).finish .nothing

/-- PORT 0: `request_port_write_valid(port)` (R96). -/
def execRequestPortWriteValid (port : BitVec 16) (s : State) : Result :=
  s.onPort port .fall fun s => s.finish (.answer (s.reqSlot port.toNat).isNone)

/-- PORT 1: `write_request(port, req)` (R97). -/
def execWriteRequest (port : BitVec 16) (req : Request) (s : State) : Result :=
  s.writeRequest port req

/-- PORT 2: `return_port_read_valid(port)` (R100). -/
def execReturnPortReadValid (port : BitVec 16) (s : State) : Result :=
  s.onPort port .rise fun s => s.finish (.answer (s.retSlot port.toNat).isSome)

/-- PORT 3: `peek_return(port)` (R101). -/
def execPeekReturn (port : BitVec 16) (s : State) : Result :=
  s.onPort port .rise fun s =>
    match s.retSlot port.toNat with
    | none => s.raise .readNotValid
    | some r => s.finish (.gave r)

/-- PORT 4: `read_return(port)` (R102). -/
def execReadReturn (port : BitVec 16) (s : State) : Result :=
  s.onPort port .rise fun s =>
    match s.retSlot port.toNat with
    | none => s.raise .readNotValid
    | some r => ({ s with retOut := s.retOut.set port.toNat none } : State).finish (.gave r)

end Sys2Proof.Machine
end

