-- ==== Sys2Proof/Machine/Requests.lean ====
section
/-! DEFINITION. The upstream request types as instructions: the requester of the request's port writes it
(30_encoding.md R91: an event `STORE p0 ...` "means the requester of port 0 calls `write_request`"; log 4). Which
types NBC serves and which it refuses is the type check of `write_request` (30_encoding.md R81, R82;
40_port_contract.md R98). -/

namespace Sys2Proof.Machine

/-- LOAD (code 0x00): stored for its bank, which accepts it under 44_bank_accept.md R136 to R138. -/
def execLoad (r : ReqBody) (s : State) : Result :=
  s.writeRequest r.port (r.withType .load)

/-- STORE (code 0x01): stored for its bank, which accepts it under 44_bank_accept.md R139 to R143. -/
def execStore (r : ReqBody) (s : State) : Result :=
  s.writeRequest r.port (r.withType .store)

/-- AMO_ADD (code 0x02): refused with BAD_TYPE (R81, R98). -/
def execAmoAdd (r : ReqBody) (s : State) : Result :=
  s.writeRequest r.port (r.withType .amoAdd)

/-- AMO_XOR (code 0x03): refused with BAD_TYPE (R81, R98). -/
def execAmoXor (r : ReqBody) (s : State) : Result :=
  s.writeRequest r.port (r.withType .amoXor)

/-- AMO_OR (code 0x04): refused with BAD_TYPE (R81, R98). -/
def execAmoOr (r : ReqBody) (s : State) : Result :=
  s.writeRequest r.port (r.withType .amoOr)

/-- AMO_AND (code 0x05): refused with BAD_TYPE (R81, R98). -/
def execAmoAnd (r : ReqBody) (s : State) : Result :=
  s.writeRequest r.port (r.withType .amoAnd)

/-- AMO_MIN (code 0x06): refused with BAD_TYPE (R81, R98). -/
def execAmoMin (r : ReqBody) (s : State) : Result :=
  s.writeRequest r.port (r.withType .amoMin)

/-- AMO_MAX (code 0x07): refused with BAD_TYPE (R81, R98). -/
def execAmoMax (r : ReqBody) (s : State) : Result :=
  s.writeRequest r.port (r.withType .amoMax)

/-- AMO_MINU (code 0x08): refused with BAD_TYPE (R81, R98). -/
def execAmoMinu (r : ReqBody) (s : State) : Result :=
  s.writeRequest r.port (r.withType .amoMinu)

/-- AMO_MAXU (code 0x09): refused with BAD_TYPE (R81, R98). -/
def execAmoMaxu (r : ReqBody) (s : State) : Result :=
  s.writeRequest r.port (r.withType .amoMaxu)

/-- PREFETCH (code 0x0A): refused with BAD_TYPE (R81, R98). -/
def execPrefetch (r : ReqBody) (s : State) : Result :=
  s.writeRequest r.port (r.withType .prefetch)

/-- CUSTOM_n (codes 0x10 to 0x1F): refused with BAD_TYPE (R81, R98). -/
def execCustomN (n : BitVec 4) (r : ReqBody) (s : State) : Result :=
  s.writeRequest r.port (r.withType (.custom n))

/-- The reserved code 0x0B: refused with BAD_TYPE (R82). -/
def execReserved0B (r : ReqBody) (s : State) : Result :=
  s.writeRequest r.port (r.withType .reserved0B)

/-- The reserved codes 0x0C to 0x0F: refused with BAD_TYPE (R82). -/
def execReserved0C (low : BitVec 2) (r : ReqBody) (s : State) : Result :=
  s.writeRequest r.port (r.withType (.reserved0C low))

/-- The reserved codes 0x20 to 0x3F: refused with BAD_TYPE (R82). -/
def execReserved20 (low : BitVec 5) (r : ReqBody) (s : State) : Result :=
  s.writeRequest r.port (r.withType (.reserved20 low))

/-- The reserved codes 0x40 to 0x7F: refused with BAD_TYPE (R82). -/
def execReserved40 (low : BitVec 6) (r : ReqBody) (s : State) : Result :=
  s.writeRequest r.port (r.withType (.reserved40 low))

/-- The reserved codes 0x80 to 0xFF: refused with BAD_TYPE (R82). -/
def execReserved80 (low : BitVec 7) (r : ReqBody) (s : State) : Result :=
  s.writeRequest r.port (r.withType (.reserved80 low))

end Sys2Proof.Machine
end

