-- ==== Sys2Proof/Machine/Returns.lean ====
section
/-! DEFINITION. The return types as instructions: a MemoryReturn received on downstream port `q` (30_encoding.md
R83, R84; 60_exceptions.md R183). The downstream unit makes it available on its return slot (47_cycle.md R149),
and the next `clock_rise` reads it and checks it (45_bank_fill.md R151; log 5). -/

namespace Sys2Proof.Machine

/-- The downstream unit makes the return `r` available on its port `q`. NBC reads no port that is not a
`DS_PORT(b)` (40_port_contract.md R104), so there nothing changes. -/
def State.receive (s : State) (q : BitVec 16) (r : Return) : Result :=
  s.whenRunning fun s =>
    match s.cfg.bankOfDsPort q.toNat with
    | none => s.finish .nothing
    | some b => (s.setDsPort b { s.dsPort b with rets := (s.dsPort b).rets ++ [r] }).finish .nothing

/-- NA (code 0x00): the fill step that reads it raises BAD_FILL (R84, R151). -/
def execNa (q : BitVec 16) (r : RetBody) (s : State) : Result :=
  s.receive q (r.withType .na)

/-- LOAD_RETURN (code 0x01): the fill step that reads it fills the LFB it answers (R151, R152). -/
def execLoadReturn (q : BitVec 16) (r : RetBody) (s : State) : Result :=
  s.receive q (r.withType .loadReturn)

/-- The reserved return codes 0x02 and 0x03: the fill step that reads one raises BAD_FILL (R151). -/
def execRetReserved02 (low : BitVec 1) (q : BitVec 16) (r : RetBody) (s : State) : Result :=
  s.receive q (r.withType (.reserved02 low))

/-- The reserved return codes 0x04 to 0x07: the fill step that reads one raises BAD_FILL (R151). -/
def execRetReserved04 (low : BitVec 2) (q : BitVec 16) (r : RetBody) (s : State) : Result :=
  s.receive q (r.withType (.reserved04 low))

/-- The reserved return codes 0x08 to 0x0F: the fill step that reads one raises BAD_FILL (R151). -/
def execRetReserved08 (low : BitVec 3) (q : BitVec 16) (r : RetBody) (s : State) : Result :=
  s.receive q (r.withType (.reserved08 low))

/-- The reserved return codes 0x10 to 0x1F: the fill step that reads one raises BAD_FILL (R151). -/
def execRetReserved10 (low : BitVec 4) (q : BitVec 16) (r : RetBody) (s : State) : Result :=
  s.receive q (r.withType (.reserved10 low))

/-- The reserved return codes 0x20 to 0x3F: the fill step that reads one raises BAD_FILL (R151). -/
def execRetReserved20 (low : BitVec 5) (q : BitVec 16) (r : RetBody) (s : State) : Result :=
  s.receive q (r.withType (.reserved20 low))

/-- The reserved return codes 0x40 to 0x7F: the fill step that reads one raises BAD_FILL (R151). -/
def execRetReserved40 (low : BitVec 6) (q : BitVec 16) (r : RetBody) (s : State) : Result :=
  s.receive q (r.withType (.reserved40 low))

/-- The reserved return codes 0x80 to 0xFF: the fill step that reads one raises BAD_FILL (R151). -/
def execRetReserved80 (low : BitVec 7) (q : BitVec 16) (r : RetBody) (s : State) : Result :=
  s.receive q (r.withType (.reserved80 low))

end Sys2Proof.Machine
end

