-- ==== Sys2Proof/Machine/Dispatch.lean ====
section
/-! DEFINITION. The dispatch of an instruction to its meaning, one arm per constructor. -/

namespace Sys2Proof.Machine

def exec (i : Instr) (s : State) : Host.Outcome State Fault Refusal :=
  match i with
  | .load r => Sys2Proof.Machine.execLoad r s
  | .store r => Sys2Proof.Machine.execStore r s
  | .amoAdd r => Sys2Proof.Machine.execAmoAdd r s
  | .amoXor r => Sys2Proof.Machine.execAmoXor r s
  | .amoOr r => Sys2Proof.Machine.execAmoOr r s
  | .amoAnd r => Sys2Proof.Machine.execAmoAnd r s
  | .amoMin r => Sys2Proof.Machine.execAmoMin r s
  | .amoMax r => Sys2Proof.Machine.execAmoMax r s
  | .amoMinu r => Sys2Proof.Machine.execAmoMinu r s
  | .amoMaxu r => Sys2Proof.Machine.execAmoMaxu r s
  | .prefetch r => Sys2Proof.Machine.execPrefetch r s
  | .customN n r => Sys2Proof.Machine.execCustomN n r s
  | .reserved0B r => Sys2Proof.Machine.execReserved0B r s
  | .reserved0C low r => Sys2Proof.Machine.execReserved0C low r s
  | .reserved20 low r => Sys2Proof.Machine.execReserved20 low r s
  | .reserved40 low r => Sys2Proof.Machine.execReserved40 low r s
  | .reserved80 low r => Sys2Proof.Machine.execReserved80 low r s
  | .dsLoad r => Sys2Proof.Machine.execDsLoad r s
  | .dsStore r => Sys2Proof.Machine.execDsStore r s
  | .na q r => Sys2Proof.Machine.execNa q r s
  | .loadReturn q r => Sys2Proof.Machine.execLoadReturn q r s
  | .retReserved02 low q r => Sys2Proof.Machine.execRetReserved02 low q r s
  | .retReserved04 low q r => Sys2Proof.Machine.execRetReserved04 low q r s
  | .retReserved08 low q r => Sys2Proof.Machine.execRetReserved08 low q r s
  | .retReserved10 low q r => Sys2Proof.Machine.execRetReserved10 low q r s
  | .retReserved20 low q r => Sys2Proof.Machine.execRetReserved20 low q r s
  | .retReserved40 low q r => Sys2Proof.Machine.execRetReserved40 low q r s
  | .retReserved80 low q r => Sys2Proof.Machine.execRetReserved80 low q r s
  | .requestPortWriteValid port => Sys2Proof.Machine.execRequestPortWriteValid port s
  | .writeRequest port req => Sys2Proof.Machine.execWriteRequest port req s
  | .returnPortReadValid port => Sys2Proof.Machine.execReturnPortReadValid port s
  | .peekReturn port => Sys2Proof.Machine.execPeekReturn port s
  | .readReturn port => Sys2Proof.Machine.execReadReturn port s
  | .arbAdd a j => Sys2Proof.Machine.execArbAdd a j s
  | .arbRemove a j => Sys2Proof.Machine.execArbRemove a j s
  | .arbAdvance a => Sys2Proof.Machine.execArbAdvance a s
  | .arbCurrent a => Sys2Proof.Machine.execArbCurrent a s
  | .clockRise => Sys2Proof.Machine.execClockRise s
  | .clockFall => Sys2Proof.Machine.execClockFall s

end Sys2Proof.Machine
end

