-- ==== Sys2Proof/Machine/Fetch.lean ====
section
/-! DEFINITION. Fetching: what the machine does with the environment's next event (log 1, log 2, log 7). -/

namespace Sys2Proof.Machine

/-- Run the instruction of an event record, or refuse a record that is none (log 17). -/
def runRecord (ch : Channel) (bytes : List Byte) (s : State) : Result :=
  match decode s.cfg ch bytes with
  | .ok i => exec i s
  | .error why => .refused (.undecodable why)

/-- What an event does to a state from whose list it is already taken. -/
def runEvent (e : Event) (s : State) : Result :=
  match e with
  | .record ch bytes => runRecord ch bytes s
  | .dsTake b => .next (s.dsTake b)
  | .dsBlock b blocked => .next (s.dsBlock b blocked)

/-- The state whose next event is the table word `w` of `nbits` bits on the request channel, all other bits of
the record zero (log 2). -/
def State.withRecord (s : State) (nbits w : Nat) : State :=
  { s with events := .record .request (tableRecord s.cfg nbits w) :: s.events }

end Sys2Proof.Machine
end

