-- ==== Sys2Proof/Machine/Step.lean ====
section
/-! DEFINITION. One step of NBC in its environment (log 1): the next event if one waits, else the host's next
clock operation (60_exceptions.md R184). -/

namespace Sys2Proof.Machine

/-- One step. -/
def step (s : State) : Host.Outcome State Fault Refusal :=
  match s.events with
  | [] => clockTick s
  | e :: rest => runEvent e { s with events := rest }

/-- `s` with the table word `w` placed where `step` fetches next (log 2). -/
def State.withFetchWord (s : State) (nbits w : Nat) : State :=
  s.withRecord nbits w

end Sys2Proof.Machine
end

