-- ==== Sys2Proof/Safety.lean ====
section
/-! DEFINITION. What claims about NBC are stated in: a healthy state, the state invariants of 10_state.md R46 and
R47, the sizes of 10_state.md's elements, and the environment's duties as conditions on a state
(60_exceptions.md R183). -/

namespace Sys2Proof.Machine

/-- No fault has been raised (00_scope.md R20; 60_exceptions.md R170). -/
def State.Healthy (s : State) : Prop :=
  s.fault = none

/-! ### Sizes (10_state.md R25 to R39) -/

/-- An arbitrator of width `w`: a mask of `w` bits and a pointer below `w` (R29). -/
def Arb.Fits (w : Nat) (a : Arb) : Prop :=
  a.mask < 2 ^ w ∧ a.ptr < w

/-- The per-bank elements have the sizes the configuration gives them (R30 to R39). -/
structure Bank.WellSized (cfg : Config) (bk : Bank) : Prop where
  lfbs : bk.lfbs.length = cfg.numLfbs
  lfbData : ∀ l ∈ bk.lfbs, l.data.length = cfg.blockSize
  lfbArb : bk.lfbArb.Fits cfg.numLfbs
  tags : bk.tags.length = cfg.setsPerBank
  ways : ∀ ways ∈ bk.tags, ways.length = cfg.assoc
  data : bk.data.length = cfg.setsPerBank
  lines : ∀ lines ∈ bk.data, lines.length = cfg.assoc
  bytes : ∀ lines ∈ bk.data, ∀ line ∈ lines, line.length = cfg.blockSize

/-- Every element of the state has the size the configuration gives it (R25 to R39). -/
structure State.WellSized (s : State) : Prop where
  reqIn : s.reqIn.length = s.cfg.numPorts
  retOut : s.retOut.length = s.cfg.numPorts
  xreqCount : s.xreqArb.length = s.cfg.numBanks
  xreqArb : ∀ a ∈ s.xreqArb, a.Fits s.cfg.numPorts
  xretCount : s.xretArb.length = s.cfg.numPorts
  xretArb : ∀ a ∈ s.xretArb, a.Fits s.cfg.numBanks
  bankCount : s.banks.length = s.cfg.numBanks
  banks : ∀ bk ∈ s.banks, bk.WellSized s.cfg
  ds : s.ds.length = s.cfg.numBanks

/-! ### Widths of fields (30_encoding.md R77, R83; 10_state.md R30, R38) -/

/-- A request whose address, write mask and payload have the widths of the configuration (R77). -/
structure RequestFits (cfg : Config) (req : Request) : Prop where
  address : req.address < 2 ^ cfg.addrWidth
  writeMask : req.writeMask < 2 ^ cfg.blockSize
  payload : req.payload.length = cfg.blockSize

/-- A return whose address and payload have the widths of the configuration (R83). -/
structure ReturnFits (cfg : Config) (r : Return) : Prop where
  address : r.address < 2 ^ cfg.addrWidth
  payload : r.payload.length = cfg.blockSize

/-- An LFB whose block address and byte write mask have their widths (R30). -/
structure Lfb.FieldsFit (cfg : Config) (l : Lfb) : Prop where
  blockAddress : l.blockAddress < 2 ^ cfg.addrWidth
  aligned : cfg.offset l.blockAddress = 0
  byteWriteMask : l.byteWriteMask < 2 ^ cfg.blockSize

/-- The fields of the per-bank elements have their widths (R30, R37, R38). -/
structure Bank.FieldsFit (cfg : Config) (bk : Bank) : Prop where
  lfbs : ∀ l ∈ bk.lfbs, l.FieldsFit cfg
  rstage : ∀ r, bk.rstage = some r → ReturnFits cfg r
  tags : ∀ ways ∈ bk.tags, ∀ e ∈ ways, e.tag < 2 ^ (cfg.addrWidth - cfg.offsetBits)

/-- The fields of the state's elements have their widths (R25, R26, R30, R37, R38), a stored request lies in one
block (20_memory.md R52; 40_port_contract.md R98), and what waits in the downstream slots has them too. -/
structure State.FieldsFit (s : State) : Prop where
  requests : ∀ i req, s.reqSlot i = some req → RequestFits s.cfg req ∧ fitsBlock s.cfg req = true
  returns : ∀ p r, s.retSlot p = some r → ReturnFits s.cfg r
  banks : ∀ bk ∈ s.banks, bk.FieldsFit s.cfg
  dsRequests : ∀ b req, (s.dsPort b).req = some req → RequestFits s.cfg req
  dsReturns : ∀ b, ∀ r ∈ (s.dsPort b).rets, ReturnFits s.cfg r

/-! ### The invariants of R46 and R47 -/

/-- At most one live LFB per key `(block_address, type)` (R46). -/
def Bank.AtMostOneLfb (bk : Bank) : Prop :=
  ∀ j k, j < bk.lfbs.length → k < bk.lfbs.length →
    (bk.lfb j).live = true → (bk.lfb k).live = true →
    (bk.lfb j).type = (bk.lfb k).type → (bk.lfb j).blockAddress = (bk.lfb k).blockAddress → j = k

/-- What R47 items 1, 3 and 4 say of one LFB. -/
structure Lfb.LifecycleOk (cfg : Config) (l : Lfb) : Prop where
  notEmpty : l.state ≠ .empty
  pending : l.type = .read → l.state = .dataArray ∨ l.state = .missed ∨ l.state = .filled → l.subq ≠ []
  served : l.state = .retired → l.subq = []
  noPipe : l.state ≠ .dataArray → l.pipeCount = 0
  pipe : l.state = .dataArray → 1 ≤ l.pipeCount ∧ l.pipeCount ≤ cfg.latency

/-- R47 items 1 to 5 on a bank, with what R34 to R36 say the queues hold. -/
structure Bank.PoolOk (cfg : Config) (bk : Bank) : Prop where
  lifecycle : ∀ k < bk.lfbs.length, (bk.lfb k).LifecycleOk cfg
  combining : ∀ k < bk.lfbs.length, (bk.lfb k).live = true → (bk.lfb k).type = .writeCombining →
    (bk.lfb k).state = .filled ∧ (bk.lfb k).subq = [] ∧ (bk.lfb k).byteWriteMask ≠ 0 ∧
      (k ∈ bk.wbq ↔ bk.wbActive ≠ some k)
  writeBacks : bk.wbq.Nodup ∧ ∀ k ∈ bk.wbq,
    k < bk.lfbs.length ∧ (bk.lfb k).live = true ∧ (bk.lfb k).type = .writeCombining
  active : ∀ k, bk.wbActive = some k →
    k < bk.lfbs.length ∧ (bk.lfb k).live = true ∧ (bk.lfb k).type = .writeCombining
  misses : bk.mq.Nodup ∧ ∀ k ∈ bk.mq,
    k < bk.lfbs.length ∧ (bk.lfb k).type = .read ∧ (bk.lfb k).state = .missed

/-- Ages of a group of `n` entries are a permutation of `0..n-1` (43_tag_data_array.md R127). -/
def IsAges (ages : List Nat) : Prop :=
  ages.Perm (List.range ages.length)

/-- R47 item 6 on a bank. -/
structure Bank.AgesOk (bk : Bank) : Prop where
  pool : IsAges (bk.lfbs.map Lfb.lru)
  sets : ∀ ways ∈ bk.tags, IsAges (ways.map TagEntry.lru)

/-- No two valid ways of a set hold the same tag. -/
def UniqueTags (ways : List TagEntry) : Prop :=
  ways.Pairwise fun e f => e.valid = true → f.valid = true → e.tag ≠ f.tag

/-- R47 item 7 on a bank. -/
def Bank.TagsUnique (bk : Bank) : Prop :=
  ∀ ways ∈ bk.tags, UniqueTags ways

/-- R47 item 8 on bank `b`: the block of every live LFB maps to the bank. -/
def Bank.BlocksMapTo (cfg : Config) (b : Nat) (bk : Bank) : Prop :=
  ∀ k < bk.lfbs.length, (bk.lfb k).live = true → cfg.bank (bk.lfb k).blockAddress = b

/-- A sub-request as R32 has it: at least one byte, inside the block, from an upstream port. -/
structure SubReq.Ok (cfg : Config) (sr : SubReq) : Prop where
  nonempty : 1 ≤ sr.size.toNat
  inside : sr.offset + sr.size.toNat ≤ cfg.blockSize
  port : sr.port.toNat < cfg.numPorts

/-- The sub-request queues of a bank as R30 and R32 have them. -/
def Bank.SubReqsOk (cfg : Config) (bk : Bank) : Prop :=
  ∀ k < bk.lfbs.length, (bk.lfb k).subq.length ≤ cfg.subqDepth ∧ ∀ sr ∈ (bk.lfb k).subq, sr.Ok cfg

/-- A request as the checks of 40_port_contract.md R98 leave it in the slot of port `i`. -/
structure StoredOk (cfg : Config) (i : Nat) (req : Request) : Prop where
  port : req.port.toNat = i
  type : req.type = .load ∨ req.type = .store
  fits : fitsBlock cfg req = true

/-- The paths of requests and returns: what a slot, an arbitrator and an LFB of NBC say of each other. -/
structure State.RoutesOk (s : State) : Prop where
  /-- R98: a stored request passed the checks. -/
  stored : ∀ i req, s.reqSlot i = some req → StoredOk s.cfg i req
  /-- R115, R117: a registered port holds a request of that bank. -/
  registered : ∀ b < s.xreqArb.length, ∀ i, (s.xreq b).mask.testBit i = true →
    ∃ req, s.reqSlot i = some req ∧ s.cfg.bank req.address = b
  /-- R47 item 8. -/
  blocks : ∀ b < s.banks.length, (s.bank b).BlocksMapTo s.cfg b
  /-- R30, R32. -/
  subReqs : ∀ b < s.banks.length, (s.bank b).SubReqsOk s.cfg
  /-- R118: a registered bank stages a return for that port. -/
  staged : ∀ p < s.xretArb.length, ∀ b, (s.xret p).mask.testBit b = true → s.stagedFor p b = true
  /-- R118: a delivered return is on its own port. -/
  delivered : ∀ p r, s.retSlot p = some r → r.port.toNat = p

/-! ### Environment duties -/

/-- The downstream return `r` answers an outstanding fetch of bank `b` (60_exceptions.md R183 item 3;
45_bank_fill.md R151): a full-block LOAD_RETURN whose `dst` is the index of the ISSUED READ LFB of its block. -/
def State.Answers (s : State) (b : Nat) (r : Return) : Prop :=
  fillShaped s.cfg b r = true ∧ issuedLfb (s.bank b) r.address = some r.dst.toNat

/-- Every return that a `clock_rise` would read next answers an outstanding fetch (R183 item 3). -/
def State.FillsAnswer (s : State) : Prop :=
  ∀ b < s.cfg.numBanks, ∀ r, s.dsHead b = some r → s.Answers b r

/-- The instruction is one of the arbitrator operations, which only NBC itself calls (30_encoding.md R90). -/
def isArbOp : Instr → Bool
  | .arbAdd _ _ | .arbRemove _ _ | .arbAdvance _ | .arbCurrent _ => true
  | _ => false

end Sys2Proof.Machine
end

