-- ==== Sys2Proof/Certificates/Slice0/Obligations.lean ====
section
/-! DEFINITION. The statements about NBC, each a proposition named `Obligations.<Name>`. A docstring names the
rules of spec/ a statement formalises, and says where it rests on a choice of the model. NBC holds no memory
(20_memory.md R50), so a frame speaks of the elements of its state: where a statement gives the next state as an
update of the state before, every element the update does not name is unchanged. -/

section Statements

open Sys2Proof Sys2Proof.Machine

/-! ### Records and steps -/

/-- Decoding reads back the encoding of every instruction a configuration admits (30_encoding.md R80, R81, R83,
R90; the byte order and the operand layout of the operations are the model's, log 2, log 14). -/
def Obligations.DecodeReadsBackEveryEncoding : Prop :=
  ∀ (cfg : Config) (i : Instr), i.wellFormed cfg = true →
    decode cfg (encode cfg i).1 (encode cfg i).2 = .ok i

/-- Every record that decodes is the encoding of what it decodes to, so no two records of a channel stand for one
instruction (R80, R90; log 2, log 14). -/
def Obligations.EveryDecodedRecordIsAnEncoding : Prop :=
  ∀ (cfg : Config) (ch : Channel) (bytes : List Byte) (i : Instr), decode cfg ch bytes = .ok i →
    i.wellFormed cfg = true ∧ encode cfg i = (ch, bytes)

/-- Records written out byte by byte decode to what they stand for, in the reference configuration (log 3): word 0
and the words after it of a transaction as R80 packs them, the selectors of the operations as R90 numbers them. Of
the 256 request codes only 0x00 and 0x01 are LOAD and STORE, and of the return codes only 0x00 and 0x01 are NA and
LOAD_RETURN (R81 to R83). The port field of a PORT record, the kind, bank and index bytes of an ARB record and the
bytes of a PHASE record, for which R90 gives selectors only, are the model's choice (log 2), and so are the byte
order (log 14) and the configuration (log 3). -/
def Obligations.WrittenOutRecordsDecode : Prop :=
  (decode Config.reference .request
      ([0x00, 0x04, 0x00, 0x01, 0x00, 0, 0, 0] ++ [0x07, 0, 0, 0, 0, 0, 0, 0]
        ++ [0x08, 0x10, 0, 0, 0, 0, 0, 0] ++ [0, 0, 0, 0] ++ List.replicate 32 0)).toOption =
    some (.load { size := 4, port := 1, dst := 7, address := 0x1008, writeMask := 0
                  payload := List.replicate 32 0 }) ∧
  (decode Config.reference .request
      ([0x01, 0x02, 0x00, 0x03, 0x00, 0, 0, 0] ++ [0, 0, 0, 0, 0, 0, 0, 0]
        ++ [0x10, 0x20, 0, 0, 0, 0, 0, 0] ++ [0x03, 0, 0, 0] ++ [0x11, 0x22] ++ List.replicate 30 0)).toOption =
    some (.store { size := 2, port := 3, dst := 0, address := 0x2010, writeMask := 3
                   payload := [0x11, 0x22] ++ List.replicate 30 0 }) ∧
  (decode Config.reference (.dsReturn 0)
      ([0x01, 0x20, 0x00, 0x00, 0x00, 0, 0, 0] ++ [0x01, 0, 0, 0, 0, 0, 0, 0]
        ++ [0x00, 0x10, 0, 0, 0, 0, 0, 0] ++ List.replicate 32 0x5A)).toOption =
    some (.loadReturn 0 { size := 32, port := 0, dst := 1, address := 0x1000
                          payload := List.replicate 32 0x5A }) ∧
  (decode Config.reference .portOp [0x04, 0, 0, 0x02, 0, 0, 0, 0]).toOption = some (.readReturn 2) ∧
  (decode Config.reference .arbOp [0x00, 0x02, 0x00, 0x01, 0, 0, 0, 0]).toOption = some (.arbAdd (.lfb 0) 1) ∧
  (decode Config.reference .phaseOp [0x01, 0, 0, 0, 0, 0, 0, 0]).toOption = some .clockFall ∧
  ∀ c : BitVec 8, (ReqType.ofCode c = .load ↔ c = 0x00) ∧ (ReqType.ofCode c = .store ↔ c = 0x01) ∧
    (RetType.ofCode c = .na ↔ c = 0x00) ∧ (RetType.ofCode c = .loadReturn ↔ c = 0x01)

/-- A step whose next event is a record runs the instruction the record decodes to, on the state without that
event, and refuses by name a record that is no instruction (the model's step, log 1, log 2, log 17). -/
def Obligations.StepRunsTheDecodedInstruction : Prop :=
  ∀ (s : State) (ch : Channel) (bytes : List Byte) (rest : List Event), s.events = .record ch bytes :: rest →
    (∀ i, decode s.cfg ch bytes = .ok i → step s = exec i { s with events := rest }) ∧
    (∀ e, decode s.cfg ch bytes = .error e → step s = .refused (.undecodable e))

/-- A step with no event waiting is the host's next clock operation, rise and fall in turn (60_exceptions.md
R184); and the downstream unit's own acts change its two slots and nothing of NBC (47_cycle.md R149). That they are
steps is the model's choice (log 1, log 7). -/
def Obligations.OtherStepsTickTheClockOrActDownstream : Prop :=
  ∀ (s : State) (b : Nat) (rest : List Event),
    (s.events = [] →
      (s.phase = .rise → step s = exec .clockRise s) ∧ (s.phase = .fall → step s = exec .clockFall s)) ∧
    (s.events = .dsTake b :: rest →
      step s = .next { s with
        events := rest
        ds := s.ds.set b { s.dsPort b with req := none }
        resp := .took (s.dsPort b).req }) ∧
    (∀ blocked, s.events = .dsBlock b blocked :: rest →
      step s = .next { s with
        events := rest
        ds := s.ds.set b { s.dsPort b with blocked := blocked }
        resp := .nothing })

/-! ### The port contract -/

/-- The two validity queries: the checks of the port and of the phase, then the answer whether the request slot is
empty or whether the return slot is full; they write nothing (40_port_contract.md R96, R100). -/
def Obligations.ValidityQueriesAnswer : Prop :=
  ∀ (s : State) (port : BitVec 16), s.Healthy →
    (s.cfg.numPorts ≤ port.toNat → ∀ i ∈ [Instr.requestPortWriteValid port, .returnPortReadValid port],
      exec i s = .next { s with fault := some .portRange, resp := .nothing }) ∧
    (port.toNat < s.cfg.numPorts →
      (s.phase = .fall → exec (.requestPortWriteValid port) s =
        .next { s with resp := .answer (s.reqSlot port.toNat).isNone }) ∧
      (s.phase = .rise → exec (.requestPortWriteValid port) s =
        .next { s with fault := some .badPhase, resp := .nothing }) ∧
      (s.phase = .rise → exec (.returnPortReadValid port) s =
        .next { s with resp := .answer (s.retSlot port.toNat).isSome }) ∧
      (s.phase = .fall → exec (.returnPortReadValid port) s =
        .next { s with fault := some .badPhase, resp := .nothing }))

/-- `peek_return` gives the return that waits and leaves it in place; `read_return` gives it and empties the slot;
both check the port, the phase and the slot in this order (R101, R102). -/
def Obligations.PeekAndReadGiveTheReturn : Prop :=
  ∀ (s : State) (port : BitVec 16), s.Healthy →
    (∀ r, port.toNat < s.cfg.numPorts → s.phase = .rise → s.retSlot port.toNat = some r →
      exec (.peekReturn port) s = .next { s with resp := .gave r } ∧
      exec (.readReturn port) s = .next { s with retOut := s.retOut.set port.toNat none, resp := .gave r }) ∧
    ∀ c : FaultCode,
      (if s.cfg.numPorts ≤ port.toNat then some FaultCode.portRange
        else if s.phase ≠ .rise then some .badPhase
        else if s.retSlot port.toNat = none then some .readNotValid
        else none) = some c →
      ∀ i ∈ [Instr.peekReturn port, .readReturn port],
        exec i s = .next { s with fault := some c, resp := .nothing }

/-- A LOAD or a STORE that passes the checks is stored in its port's slot and nothing else changes, written by
`write_request` or as a transaction of its port's requester (R97; 30_encoding.md R91; that a request is its
requester's call is the model's reading, log 4). -/
def Obligations.WriteRequestStoresTheRequest : Prop :=
  ∀ (s : State) (r : ReqBody), s.Healthy → r.port.toNat < s.cfg.numPorts → s.phase = .fall →
    s.reqSlot r.port.toNat = none → 1 ≤ r.size.toNat →
    s.cfg.offset r.address + r.size.toNat ≤ s.cfg.blockSize →
    exec (.load r) s =
      .next { s with reqIn := s.reqIn.set r.port.toNat (some (r.withType .load)), resp := .nothing } ∧
    exec (.store r) s =
      .next { s with reqIn := s.reqIn.set r.port.toNat (some (r.withType .store)), resp := .nothing } ∧
    exec (.writeRequest r.port (r.withType .load)) s =
      .next { s with reqIn := s.reqIn.set r.port.toNat (some (r.withType .load)), resp := .nothing } ∧
    exec (.writeRequest r.port (r.withType .store)) s =
      .next { s with reqIn := s.reqIn.set r.port.toNat (some (r.withType .store)), resp := .nothing }

/-- The six checks of `write_request` in their order, each with the fault of the first that fails, which stores
nothing (R98). -/
def Obligations.WriteRequestChecksInOrder : Prop :=
  ∀ (s : State) (port : BitVec 16) (req : Request), s.Healthy →
    (∀ c : FaultCode,
      (if s.cfg.numPorts ≤ port.toNat then some FaultCode.portRange
        else if s.phase ≠ .fall then some .badPhase
        else if s.reqSlot port.toNat ≠ none then some .writeNotValid
        else if req.port ≠ port then some .portMismatch
        else if req.type ≠ .load ∧ req.type ≠ .store then some .badType
        else if req.size = 0 ∨ s.cfg.blockSize < s.cfg.offset req.address + req.size.toNat then some .badSize
        else none) = some c →
      exec (.writeRequest port req) s = .next { s with fault := some c, resp := .nothing }) ∧
    (port.toNat < s.cfg.numPorts → s.phase = .fall → s.reqSlot port.toNat = none → req.port = port →
      (req.type = .load ∨ req.type = .store) → req.size ≠ 0 →
      s.cfg.offset req.address + req.size.toNat ≤ s.cfg.blockSize →
      exec (.writeRequest port req) s =
        .next { s with reqIn := s.reqIn.set port.toNat (some req), resp := .nothing })

/-- A port operation called in the other phase faults with BAD_PHASE, and so does a clock operation called twice in
a row; a `peek_return` or `read_return` of an empty slot faults with READ_NOT_VALID (R95, R101, R102; 47_cycle.md
R146, R147). -/
def Obligations.WrongPhasesAndEmptySlotsFault : Prop :=
  ∀ (s : State) (port : BitVec 16) (req : Request), s.Healthy →
    (port.toNat < s.cfg.numPorts → s.phase = .rise →
      ∀ i ∈ [Instr.requestPortWriteValid port, .writeRequest port req],
        exec i s = .next { s with fault := some .badPhase, resp := .nothing }) ∧
    (port.toNat < s.cfg.numPorts → s.phase = .fall →
      ∀ i ∈ [Instr.returnPortReadValid port, .peekReturn port, .readReturn port],
        exec i s = .next { s with fault := some .badPhase, resp := .nothing }) ∧
    (s.phase = .fall → exec .clockRise s = .next { s with fault := some .badPhase, resp := .nothing }) ∧
    (s.phase = .rise → exec .clockFall s = .next { s with fault := some .badPhase, resp := .nothing }) ∧
    (port.toNat < s.cfg.numPorts → s.phase = .rise → s.retSlot port.toNat = none →
      ∀ i ∈ [Instr.peekReturn port, .readReturn port],
        exec i s = .next { s with fault := some .readNotValid, resp := .nothing })

/-- Every request type but LOAD and STORE is refused with BAD_TYPE and stores nothing, when the checks before the
type check pass (30_encoding.md R81, R82; 40_port_contract.md R98; that a request is its requester's call is the
model's reading, log 4). -/
def Obligations.RefusedTypesRaiseBadType : Prop :=
  ∀ (s : State) (r : ReqBody) (n : BitVec 4) (l2 : BitVec 2) (l5 : BitVec 5) (l6 : BitVec 6) (l7 : BitVec 7),
    s.Healthy → r.port.toNat < s.cfg.numPorts → s.phase = .fall → s.reqSlot r.port.toNat = none →
    ∀ i ∈ [Instr.amoAdd r, .amoXor r, .amoOr r, .amoAnd r, .amoMin r, .amoMax r, .amoMinu r, .amoMaxu r,
        .prefetch r, .customN n r, .reserved0B r, .reserved0C l2 r, .reserved20 l5 r, .reserved40 l6 r,
        .reserved80 l7 r],
      exec i s = .next { s with fault := some .badType, resp := .nothing }

/-- A request stays in its slot until the request crossbar reads it: no instruction overwrites it or drops it, and
only a `clock_rise` in which a bank is granted it and accepts it takes it out (40_port_contract.md R99;
42_crossbar.md R117). -/
def Obligations.RequestsWaitUntilRead : Prop :=
  ∀ (i : Instr) (s t : State) (p : Nat) (req : Request), s.reqSlot p = some req → exec i s = .next t →
    t.reqSlot p = some req ∨
    (i = .clockRise ∧ t.reqSlot p = none ∧
      ∃ b < s.cfg.numBanks, ((registerRequests s).xreq b).current = some p ∧
        handOff (pipelineAdvance (s.bank b)) = none ∧
        ∃ bk c, acceptRequest s.cfg b (pipelineAdvance (s.bank b)) req = .accepted bk c)

/-- A return stays in its slot until its requester reads it (R100, R102). -/
def Obligations.ReturnsWaitUntilRead : Prop :=
  ∀ (i : Instr) (s t : State) (p : Nat) (r : Return), s.retSlot p = some r → exec i s = .next t →
    t.retSlot p = some r ∨ (∃ port, i = .readReturn port ∧ port.toNat = p ∧ t.retSlot p = none)

/-! ### Faults -/

/-- When NBC is stuck every instruction changes nothing and returns nothing (60_exceptions.md R170; that it is a
next state, and that a downstream return is gated too, are the model's, log 11). -/
def Obligations.StuckNbcChangesNothing : Prop :=
  ∀ (i : Instr) (s : State) (c : FaultCode), s.fault = some c → exec i s = .next { s with resp := .nothing }

/-- FAULT is none after construction from a valid configuration, and once set no step clears or changes it
(10_state.md R41). -/
def Obligations.NoStepClearsAFault : Prop :=
  (∀ cfg : Config, cfg.valid = true → (State.construct cfg).fault = none) ∧
  ∀ (s t : State) (c : FaultCode), s.fault = some c → step s = .next t → t.fault = some c

/-- An operation that faults leaves the state it began with, but for FAULT and, for `clock_rise`, the downstream
returns it consumed (60_exceptions.md R170, R175). -/
def Obligations.AFaultRestoresTheState : Prop :=
  ∀ (i : Instr) (s t : State) (c : FaultCode), s.fault = none → exec i s = .next t → t.fault = some c →
    t = { s with fault := some c, resp := .nothing, ds := t.ds } ∧ (i ≠ .clockRise → t.ds = s.ds) ∧
      ∀ b, (t.dsPort b).req = (s.dsPort b).req ∧ (t.dsPort b).blocked = (s.dsPort b).blocked ∧
        (t.dsPort b).wrote = (s.dsPort b).wrote ∧ (t.dsPort b).rets <:+ (s.dsPort b).rets

/-- No instruction ever raises DUP_LFB, whose check the rules call unreachable, nor CONFIG, which only
construction raises (44_bank_accept.md R135, R137, R141; 60_exceptions.md R171). -/
def Obligations.DupLfbAndConfigAreNeverRaised : Prop :=
  ∀ (i : Instr) (s t : State), s.fault = none → exec i s = .next t →
    t.fault ≠ some .dupLfb ∧ t.fault ≠ some .config

/-- A downstream return that answers no outstanding fetch makes the next `clock_rise` fault: with BAD_FILL when it
is no full-block, block-aligned LOAD_RETURN for the bank (so NA and every reserved return type), else with
UNMATCHED_FILL; the return stays consumed and nothing else changes (45_bank_fill.md R151; 30_encoding.md R84;
60_exceptions.md R170, R172). -/
def Obligations.ReturnsThatAnswerNothingFault : Prop :=
  ∀ (s : State) (b : Nat) (r : Return), s.Healthy → s.phase = .rise → b < s.cfg.numBanks →
    (∀ c < b, s.dsHead c = none) → s.dsHead b = some r → ¬ s.Answers b r →
    exec .clockRise s =
      .next { s with
        ds := s.ds.set b { s.dsPort b with rets := (s.dsPort b).rets.tail }
        fault := some (if fillShaped s.cfg b r then .unmatchedFill else .badFill)
        resp := .nothing } ∧
    (r.type ≠ .loadReturn → fillShaped s.cfg b r = false)

/-! ### The arbitrator -/

/-- `advance()` moves the pointer to the next pending index in cyclic order, after which `current()` grants it;
with nothing pending it changes nothing. `add(i)` and `remove(i)` write bit `i` of the mask and nothing else, and
`current()` gives the index under the pointer if its bit is set, else none (41_round_robin.md R106 to R109). -/
def Obligations.AdvanceGoesToTheNextPending : Prop :=
  ∀ (w : Nat) (a : Arb), a.Fits w →
    (a.mask = 0 → a.advance w = a) ∧
    (a.mask ≠ 0 → ∃ d, 1 ≤ d ∧ d ≤ w ∧ a.advance w = { a with ptr := (a.ptr + d) % w } ∧
      (a.advance w).current = some ((a.ptr + d) % w) ∧
      ∀ e, 1 ≤ e → e < d → a.mask.testBit ((a.ptr + e) % w) = false) ∧
    (a.current = if a.mask.testBit a.ptr = true then some a.ptr else none) ∧
    ∀ i < w, (a.add i).ptr = a.ptr ∧ (a.remove i).ptr = a.ptr ∧ (a.add i).Fits w ∧ (a.remove i).Fits w ∧
      ∀ j, (a.add i).mask.testBit j = (a.mask.testBit j || decide (j = i)) ∧
        (a.remove i).mask.testBit j = (a.mask.testBit j && decide (j ≠ i))

/-- Fairness while the mask stands: with no `add` and no `remove` between them, of W consecutive advances one grants
any given pending requester (41_round_robin.md R108, R109; R111 derives the fairness from them). The whole mask is
the same at every one of the advances. -/
def Obligations.RoundRobinIsFair : Prop :=
  ∀ (w : Nat) (a : Arb) (i : Nat), a.Fits w → a.mask.testBit i = true →
    ∃ n, 1 ≤ n ∧ n ≤ w ∧ ((Arb.advance w)^[n] a).current = some i

/-- The four arbitrator operations run on one of NBC's arbitrators, which takes the new value, and change no other
element (R106 to R109; that they are instructions on NBC's own arbitrators is the model's, log 12). -/
def Obligations.ArbOperationsRunOnOneArbitrator : Prop :=
  ∀ (s : State) (a : ArbRef) (i : BitVec 8), s.Healthy → s.WellSized → a.number < s.cfg.arbCount a →
    (i.toNat < s.cfg.arbWidth a →
      exec (.arbAdd a i) s = .next { s.setArb a ((s.arb a).add i.toNat) with resp := .nothing } ∧
      exec (.arbRemove a i) s = .next { s.setArb a ((s.arb a).remove i.toNat) with resp := .nothing }) ∧
    exec (.arbAdvance a) s =
      .next { s.setArb a ((s.arb a).advance (s.cfg.arbWidth a)) with resp := .nothing } ∧
    exec (.arbCurrent a) s = .next { s with resp := .grant (s.arb a).current } ∧
    ∀ v : Arb, (s.setArb a v).arb a = v ∧ (∀ a', a' ≠ a → (s.setArb a v).arb a' = s.arb a') ∧
      (∀ b, { (s.setArb a v).bank b with lfbArb := (s.bank b).lfbArb } = s.bank b) ∧
      { s.setArb a v with xreqArb := s.xreqArb, xretArb := s.xretArb, banks := s.banks } = s

/-- An arbitrator operation stops on an arbitrator NBC does not have, and `add` and `remove` stop on an index that
is not below the width (the model's choice, log 12: R106 and R107 give an index below W). -/
def Obligations.ArbOperationsStopOutsideTheirRange : Prop :=
  ∀ (s : State) (a : ArbRef) (i : BitVec 8), s.Healthy →
    (s.cfg.arbCount a ≤ a.number →
      ∀ j ∈ [Instr.arbAdd a i, .arbRemove a i, .arbAdvance a, .arbCurrent a],
        exec j s = .fault .noSuchArbitrator) ∧
    (a.number < s.cfg.arbCount a → s.cfg.arbWidth a ≤ i.toNat →
      ∀ j ∈ [Instr.arbAdd a i, .arbRemove a i], exec j s = .fault .indexOutOfRange)

/-! ### Addresses and the configuration -/

/-- The worked example of the address fields (20_memory.md R51, R53 to R55), which R57 derives from them. -/
def Obligations.AddressFieldsOfTheExample : Prop :=
  ∀ cfg : Config, cfg.blockSize = 32 → cfg.numBanks = 4 → cfg.bankSelectMask = 0x60 → cfg.setsPerBank = 8 →
    cfg.addrWidth = 32 →
    cfg.setSelectMask = 0x380 ∧ cfg.offset 0x12345 = 0x05 ∧ cfg.block 0x12345 = 0x12340 ∧
      cfg.bank 0x12345 = 2 ∧ cfg.set 0x12345 = 6 ∧ cfg.tag 0x12345 = 0x91A

/-- With a valid configuration every address has one bank and one set in range, which it shares with its whole
block, and two addresses have one tag exactly when they are in one block (20_memory.md R51, R53 to R55). -/
def Obligations.EveryAddressHasABankAndASet : Prop :=
  ∀ cfg : Config, cfg.valid = true → ∀ a : Nat,
    cfg.bank a < cfg.numBanks ∧ cfg.set a < cfg.setsPerBank ∧
    cfg.bank (cfg.block a) = cfg.bank a ∧ cfg.set (cfg.block a) = cfg.set a ∧
    ∀ a' : Nat, a < 2 ^ cfg.addrWidth → a' < 2 ^ cfg.addrWidth →
      (cfg.tag a = cfg.tag a' ↔ cfg.block a = cfg.block a')

/-- The configuration check is the eight items of R192, and a configuration that fails it constructs an NBC stuck
with CONFIG (70_reset_and_hazards.md R192). -/
def Obligations.ConfigurationCheckIsTheEightItems : Prop :=
  ∀ cfg : Config,
    (cfg.valid = true ↔
      (1 ≤ cfg.addrWidth ∧ cfg.addrWidth ≤ 64) ∧
      ((∃ k, cfg.blockSize = 2 ^ k) ∧ cfg.blockSize ≤ 32768) ∧
      (1 ≤ cfg.assoc ∧ 1 ≤ cfg.subqDepth ∧ 1 ≤ cfg.dsPortStride) ∧
      ((∃ k, cfg.numBanks = 2 ^ k) ∧ cfg.numBanks ≤ 64 ∧ 1 ≤ cfg.numLfbs ∧ cfg.numLfbs ≤ 64 ∧
        1 ≤ cfg.numPorts ∧ cfg.numPorts ≤ 64) ∧
      (∃ k, cfg.cacheSize = cfg.blockSize * cfg.assoc * cfg.numBanks * 2 ^ k) ∧
      (popcount cfg.addrWidth cfg.bankSelectMask = cfg.bankBits ∧
        ∀ i, cfg.bankSelectMask.testBit i = true → cfg.offsetBits ≤ i ∧ i < cfg.addrWidth) ∧
      cfg.offsetBits + cfg.bankBits + cfg.setBits ≤ cfg.addrWidth ∧
      cfg.dsPort (cfg.numBanks - 1) ≤ 65535) ∧
    (State.construct cfg).fault = if cfg.valid = true then none else some .config

/-! ### Replacement and the tag array -/

/-- Touching an entry of a group keeps its ages a permutation of `0..n-1`, makes the touched entry the most
recently used, and keeps the order of the others (43_tag_data_array.md R127). -/
def Obligations.TouchingKeepsTheAgesAPermutation : Prop :=
  ∀ (ages : List Nat) (x : Nat), IsAges ages → x < ages.length →
    let after := ages.mapIdx fun y age => touchedAge x (ages.getD x 0) y age
    IsAges after ∧ after.getD x 0 = 0 ∧
      ∀ y z, y < ages.length → z < ages.length → y ≠ x → z ≠ x →
        (ages.getD y 0 < ages.getD z 0 ↔ after.getD y 0 < after.getD z 0)

/-- The worked example of the age scheme (43_tag_data_array.md R124, R127), which R130 derives from them. -/
def Obligations.AgeSchemeOfTheExample : Prop :=
  let way (age : Nat) : TagEntry := { valid := true, tag := age, lru := age }
  let two := touchWays [way 0, way 1, way 2, way 3] 2
  let three := touchWays two 3
  two.map TagEntry.lru = [1, 2, 0, 3] ∧ three.map TagEntry.lru = [2, 3, 1, 0] ∧ victimWay three = 1

/-- The victim is the lowest way that is not valid if there is one, otherwise the way of the largest age, ties to
the lowest index (43_tag_data_array.md R124). -/
def Obligations.VictimIsAnInvalidOrTheOldestWay : Prop :=
  ∀ ways : List TagEntry, ways ≠ [] →
    ∃ e, ways[victimWay ways]? = some e ∧
      ((∃ f ∈ ways, f.valid = false) →
        e.valid = false ∧ ∀ (w : Nat) (f : TagEntry), w < victimWay ways → ways[w]? = some f → f.valid = true) ∧
      ((∀ f ∈ ways, f.valid = true) →
        ∀ (w : Nat) (f : TagEntry), ways[w]? = some f → f.lru ≤ e.lru ∧ (f.lru = e.lru → victimWay ways ≤ w))

/-- The allocator takes the lowest INVALID LFB, else the RETIRED one of the largest age, ties to the lowest index,
else none (44_bank_accept.md R132). -/
def Obligations.AllocSlotTakesInvalidThenOldestRetired : Prop :=
  ∀ bk : Bank,
    (∀ k, allocSlot bk = some k → k < bk.lfbs.length ∧
      (((bk.lfb k).state = .invalid ∧ ∀ j < k, (bk.lfb j).state ≠ .invalid) ∨
       ((∀ j < bk.lfbs.length, (bk.lfb j).state ≠ .invalid) ∧ (bk.lfb k).state = .retired ∧
        ∀ j < bk.lfbs.length, (bk.lfb j).state = .retired →
          (bk.lfb j).lru ≤ (bk.lfb k).lru ∧ ((bk.lfb j).lru = (bk.lfb k).lru → k ≤ j)))) ∧
    (allocSlot bk = none ↔
      ∀ j < bk.lfbs.length, (bk.lfb j).state ≠ .invalid ∧ (bk.lfb j).state ≠ .retired)

/-! ### Acceptance -/

/-- A LOAD of a block with a live READ LFB appends its sub-request to that LFB, wakes it if it is RETIRED, and
changes nothing else but ages; with a full queue it stalls (44_bank_accept.md R136). -/
def Obligations.LoadMergesIntoALiveReadLfb : Prop :=
  ∀ (cfg : Config) (b : Nat) (bk : Bank) (req : Request) (k : Nat),
    findLfb bk (cfg.block req.address) .read = some k →
    ((bk.lfb k).subq.length = cfg.subqDepth → acceptLoad cfg b bk req = .stall) ∧
    ((bk.lfb k).subq.length ≠ cfg.subqDepth → ∃ bk',
      acceptLoad cfg b bk req = .accepted bk' (some .halfMisses) ∧
      bk' = { bk with lfbs := bk'.lfbs } ∧ bk'.lfbs.length = bk.lfbs.length ∧
      bk'.lfb k =
        { bk.lfb k with
          subq := (bk.lfb k).subq ++
            [{ offset := cfg.offset req.address, size := req.size, port := req.port, dst := req.dst }]
          state := if (bk.lfb k).state = .retired then .filled else (bk.lfb k).state
          lru := 0 } ∧
      ∀ j, j ≠ k → { bk'.lfb j with lru := (bk.lfb j).lru } = bk.lfb j)

/-- A LOAD that merges into no LFB and hits takes a slot, copies the resident line and waits L cycles in
DATA_ARRAY, or none with L = 0; nothing goes into the miss queue (44_bank_accept.md R137). -/
def Obligations.LoadHitCopiesTheResidentLine : Prop :=
  ∀ (cfg : Config) (b : Nat) (bk : Bank) (req : Request) (v w : Nat),
    findLfb bk (cfg.block req.address) .read = none → allocSlot bk = some v →
    lookup cfg bk (cfg.block req.address) = some w →
    ∃ bk', acceptLoad cfg b bk req = .accepted bk' (some .hits) ∧
      bk' = { bk with lfbs := bk'.lfbs, tags := bk'.tags, freeCount := bk'.freeCount } ∧
      bk'.lfb v =
        { state := if cfg.latency = 0 then .filled else .dataArray
          type := .read
          blockAddress := cfg.block req.address
          byteWriteMask := 0
          data := readLine cfg bk (cfg.block req.address) w
          lru := 0
          subq := [{ offset := cfg.offset req.address, size := req.size, port := req.port, dst := req.dst }]
          pipeCount := cfg.latency } ∧
      (∀ j, j ≠ v → { bk'.lfb j with lru := (bk.lfb j).lru } = bk.lfb j) ∧
      bk'.tags = bk.tags.set (cfg.set (cfg.block req.address))
        (touchWays (bk.tagSet (cfg.set (cfg.block req.address))) w)

/-- A LOAD that merges into no LFB and misses takes a slot in state MISSED at the tail of the miss queue, holding
the pending bytes of a live write-combining LFB of its block (44_bank_accept.md R138). The premise that a live
write-combining LFB is not RETIRED is 10_state.md R47 item 2. -/
def Obligations.LoadMissJoinsTheMissQueue : Prop :=
  ∀ (cfg : Config) (b : Nat) (bk : Bank) (req : Request) (v : Nat), bk.PoolOk cfg →
    findLfb bk (cfg.block req.address) .read = none → allocSlot bk = some v →
    lookup cfg bk (cfg.block req.address) = none →
    ∃ bk', acceptLoad cfg b bk req = .accepted bk' (some .misses) ∧
      bk' = { bk with lfbs := bk'.lfbs, mq := bk.mq ++ [v], freeCount := bk'.freeCount } ∧
      (bk'.lfb v).state = .missed ∧ (bk'.lfb v).type = .read ∧
      (bk'.lfb v).blockAddress = cfg.block req.address ∧
      (bk'.lfb v).subq =
        [{ offset := cfg.offset req.address, size := req.size, port := req.port, dst := req.dst }] ∧
      (bk'.lfb v).pipeCount = 0 ∧ (bk'.lfb v).lru = 0 ∧
      (∀ j, j ≠ v → { bk'.lfb j with lru := (bk.lfb j).lru } = bk.lfb j) ∧
      (findLfb bk (cfg.block req.address) .writeCombining = none → (bk'.lfb v).byteWriteMask = 0) ∧
      ∀ c, findLfb bk (cfg.block req.address) .writeCombining = some c →
        (bk'.lfb v).byteWriteMask = (bk.lfb c).byteWriteMask ∧
        ∀ i < cfg.blockSize, (bk.lfb c).byteWriteMask.testBit i = true →
          (bk'.lfb v).data.getD i 0 = (bk.lfb c).data.getD i 0

/-- An accepted STORE with a nonzero effective mask writes its bytes into every copy of the block the bank then
holds: the resident line, the live READ LFB, whose mask then protects them, and a live write-combining LFB, which
there is (44_bank_accept.md R140 to R142). The premises are invariants, 10_state.md R46 and R47. -/
def Obligations.StoreReachesEveryCopy : Prop :=
  ∀ (cfg : Config) (b : Nat) (bk bk' : Bank) (req : Request) (counts : Option Counter),
    cfg.valid = true → bk.WellSized cfg → bk.AtMostOneLfb → bk.PoolOk cfg → fitsBlock cfg req = true →
    effectiveMask req ≠ 0 → acceptStore cfg b bk req = .accepted bk' counts →
    (∃ c, findLfb bk' (cfg.block req.address) .writeCombining = some c) ∧
    ∀ j, (effectiveMask req).testBit j = true →
      (∀ w, lookup cfg bk' req.address = some w →
        (readLine cfg bk' req.address w).getD (cfg.offset req.address + j) 0 = req.payload.getD j 0) ∧
      ∀ k < bk'.lfbs.length, (bk'.lfb k).live = true → (bk'.lfb k).blockAddress = cfg.block req.address →
        (bk'.lfb k).data.getD (cfg.offset req.address + j) 0 = req.payload.getD j 0 ∧
        (bk'.lfb k).byteWriteMask.testBit (cfg.offset req.address + j) = true

/-- What an accepted STORE counts, takes and leaves alone. With a zero effective mask it counts nothing; with a live
write-combining LFB of its block it counts a merge; otherwise it counts an allocation and takes the allocator's
slot, which becomes the write-combining LFB of the block at the tail of the write-back queue. It leaves alone every
tag, queue position and stage, every line but the resident one of its block, every LFB of another block but that
slot, whose ages alone may change, and, in the copies it writes, every byte and mask bit outside its effective mask
(44_bank_accept.md R139 to R143; 43_tag_data_array.md R126; 60_exceptions.md R186). -/
def Obligations.StoreChangesOnlyItsBytes : Prop :=
  ∀ (cfg : Config) (b : Nat) (bk bk' : Bank) (req : Request) (counts : Option Counter),
    acceptStore cfg b bk req = .accepted bk' counts →
    let outside (x : Nat) : Prop :=
      ¬ (cfg.offset req.address ≤ x ∧ (effectiveMask req).testBit (x - cfg.offset req.address) = true)
    ∃ v : Option Nat,
      (effectiveMask req = 0 → v = none ∧ counts = none) ∧
      (effectiveMask req ≠ 0 → findLfb bk (cfg.block req.address) .writeCombining ≠ none →
        v = none ∧ counts = some .storeMerges) ∧
      (effectiveMask req ≠ 0 → findLfb bk (cfg.block req.address) .writeCombining = none →
        v = allocSlot bk ∧ v ≠ none ∧ counts = some .storeAllocs) ∧
      bk' = { bk with
        lfbs := bk'.lfbs, data := bk'.data, freeCount := bk'.freeCount, wbq := bk.wbq ++ v.toList } ∧
      bk'.lfbs.length = bk.lfbs.length ∧
      (∀ i w, (i ≠ cfg.set req.address ∨ lookup cfg bk req.address ≠ some w) →
        (bk'.data.getD i []).getD w [] = (bk.data.getD i []).getD w []) ∧
      (∀ w x, lookup cfg bk req.address = some w → x < cfg.blockSize → outside x →
        (readLine cfg bk' req.address w).getD x 0 = (readLine cfg bk req.address w).getD x 0) ∧
      (∀ k, v = some k →
        bk'.lfb k =
          { state := .filled
            type := .writeCombining
            blockAddress := cfg.block req.address
            byteWriteMask := effectiveMask req <<< cfg.offset req.address
            data := (bk'.lfb k).data
            lru := 0
            subq := []
            pipeCount := 0 }) ∧
      ∀ k, v ≠ some k →
        ((bk.lfb k).blockAddress ≠ cfg.block req.address → { bk'.lfb k with lru := (bk.lfb k).lru } = bk.lfb k) ∧
        { bk'.lfb k with
          lru := (bk.lfb k).lru, data := (bk.lfb k).data, byteWriteMask := (bk.lfb k).byteWriteMask } = bk.lfb k ∧
        ∀ x < cfg.blockSize, outside x →
          (bk'.lfb k).data.getD x 0 = (bk.lfb k).data.getD x 0 ∧
          (bk'.lfb k).byteWriteMask.testBit x = (bk.lfb k).byteWriteMask.testBit x

/-- A LOAD that a bank accepts right after a STORE to its block, with no act of the bank between the two acceptances,
finds the stored bytes in the LFB it is served from, and they are protected from a fill still to come:
read-after-write at the bank (20_memory.md R69, R70 item 1). The premises are invariants, 10_state.md R46 and
R47. -/
def Obligations.LoadAfterStoreHoldsTheStoredBytes : Prop :=
  ∀ (cfg : Config) (b : Nat) (bk bk1 bk2 : Bank) (st ld : Request) (c1 c2 : Option Counter),
    cfg.valid = true → bk.WellSized cfg → bk.AtMostOneLfb → bk.PoolOk cfg →
    st.type = .store → ld.type = .load → fitsBlock cfg st = true →
    cfg.block ld.address = cfg.block st.address →
    acceptRequest cfg b bk st = .accepted bk1 c1 → acceptRequest cfg b bk1 ld = .accepted bk2 c2 →
    ∃ k, findLfb bk2 (cfg.block ld.address) .read = some k ∧ (bk2.lfb k).subq ≠ [] ∧
      ∀ j, (effectiveMask st).testBit j = true →
        (bk2.lfb k).data.getD (cfg.offset st.address + j) 0 = st.payload.getD j 0 ∧
        ((bk2.lfb k).state = .missed →
          (bk2.lfb k).byteWriteMask.testBit (cfg.offset st.address + j) = true)

/-- A STORE whose effective mask is zero is accepted and changes nothing of the bank and no counter
(44_bank_accept.md R143). -/
def Obligations.ZeroMaskStoreDoesNothing : Prop :=
  ∀ (cfg : Config) (b : Nat) (bk : Bank) (req : Request), req.type = .store →
    (∀ j < req.size.toNat, req.writeMask.testBit j = false) →
    acceptRequest cfg b bk req = .accepted bk none

/-- A request stalls exactly when it is a LOAD that merges into a full queue, or needs a slot (a LOAD without a
live READ LFB, a STORE of some byte without a live write-combining LFB) and no LFB is INVALID or RETIRED
(44_bank_accept.md R144). -/
def Obligations.StallsAreForWantOfAnLfbOrQueueSpace : Prop :=
  ∀ (cfg : Config) (b : Nat) (bk : Bank) (req : Request), req.type = .load ∨ req.type = .store →
    (acceptRequest cfg b bk req = .stall ↔
      (req.type = .load ∧ ∃ k, findLfb bk (cfg.block req.address) .read = some k ∧
        (bk.lfb k).subq.length = cfg.subqDepth) ∨
      ((∀ j < bk.lfbs.length, (bk.lfb j).state ≠ .invalid ∧ (bk.lfb j).state ≠ .retired) ∧
        ((req.type = .load ∧ findLfb bk (cfg.block req.address) .read = none) ∨
         (req.type = .store ∧ effectiveMask req ≠ 0 ∧
          findLfb bk (cfg.block req.address) .writeCombining = none))))

/-- An LFB that enters DATA_ARRAY with `pipe_count = n` stays there for n-1 pipeline advances and is FILLED after
the n-th (44_bank_accept.md R133). -/
def Obligations.PipelineTakesItsLatency : Prop :=
  ∀ (bk : Bank) (k n : Nat), (bk.lfb k).state = .dataArray → (bk.lfb k).pipeCount = n → 1 ≤ n →
    (∀ j < n, (pipelineAdvance^[j] bk).lfb k = { bk.lfb k with pipeCount := n - j }) ∧
    (pipelineAdvance^[n] bk).lfb k = { bk.lfb k with state := .filled, pipeCount := 0 }

/-! ### Fill -/

/-- A return that answers an outstanding fetch fills its LFB: the bytes a STORE wrote are kept, the others are the
payload's, and the mask is cleared. The merged line goes into the way that holds the block, else into the victim
way, and the block is resident. No other LFB, no queue, no other line and no other way's tag changes
(45_bank_fill.md R151, R152; 43_tag_data_array.md R125). -/
def Obligations.FillKeepsStoredBytes : Prop :=
  ∀ (cfg : Config) (b : Nat) (bk : Bank) (r : Return), cfg.valid = true → bk.WellSized cfg →
    fillShaped cfg b r = true → issuedLfb bk r.address = some r.dst.toNat →
    let i := cfg.set r.address
    let w := match lookup cfg bk r.address with
      | some v => v
      | none => victimWay (bk.tagSet i)
    ∃ bk', fillBank cfg b bk r = .ok bk' ∧
      bk' = { bk with lfbs := bk'.lfbs, tags := bk'.tags, data := bk'.data } ∧
      bk'.lfb r.dst.toNat =
        { bk.lfb r.dst.toNat with
          state := .filled, byteWriteMask := 0, data := (bk'.lfb r.dst.toNat).data } ∧
      (∀ x < cfg.blockSize, (bk'.lfb r.dst.toNat).data.getD x 0 =
        if (bk.lfb r.dst.toNat).byteWriteMask.testBit x = true then (bk.lfb r.dst.toNat).data.getD x 0
        else r.payload.getD x 0) ∧
      (∀ j, j ≠ r.dst.toNat → bk'.lfb j = bk.lfb j) ∧
      lookup cfg bk' r.address = some w ∧ readLine cfg bk' r.address w = (bk'.lfb r.dst.toNat).data ∧
      (∀ j, j ≠ i → bk'.tagSet j = bk.tagSet j ∧ bk'.data.getD j [] = bk.data.getD j []) ∧
      ∀ v, v ≠ w → (bk'.data.getD i []).getD v [] = (bk.data.getD i []).getD v [] ∧
        ((bk'.tagSet i)[v]?).map (fun e => (e.valid, e.tag)) = ((bk.tagSet i)[v]?).map (fun e => (e.valid, e.tag))

/-- A block that is not resident in a bank becomes resident only in a `clock_rise` that reads a return of that
block (45_bank_fill.md R152; 43_tag_data_array.md R125, R126; R153 derives it from them). -/
def Obligations.OnlyFillsMakeABlockResident : Prop :=
  ∀ (i : Instr) (s t : State) (b a : Nat), exec i s = .next t → lookup s.cfg (s.bank b) a = none →
    lookup s.cfg (t.bank b) a ≠ none →
    i = .clockRise ∧ ∃ r, s.dsHead b = some r ∧ s.cfg.tag r.address = s.cfg.tag a

/-! ### The downstream requests and the returns -/

/-- DSLOAD: with its port free and not yet written in this fall a bank writes the full-block LOAD for the head of its
miss queue, which leaves the queue, and counts it; the port then counts as written in this fall. A DSLOAD in the
other phase, on a port NBC may not write or does not use, or of a request that is not due changes nothing
(46_bank_issue.md R157, R158; 40_port_contract.md R104; that this action alone is an instruction, and what it does
with any other request, are the model's, log 6). -/
def Obligations.DsLoadIsTheMissIssue : Prop :=
  (∀ (s : State) (b k : Nat) (rest : List Nat), s.Healthy → s.phase = .fall → b < s.cfg.numBanks →
    1 ≤ s.cfg.dsPortStride → s.cfg.dsPort b ≤ 65535 → s.dsWriteValid b = true → (s.dsPort b).wrote = false →
    (s.bank b).mq = k :: rest →
    let r : ReqBody :=
      { size := BitVec.ofNat 16 s.cfg.blockSize
        port := BitVec.ofNat 16 (s.cfg.dsPort b)
        dst := BitVec.ofNat 64 k
        address := ((s.bank b).lfb k).blockAddress
        writeMask := 0
        payload := zeroBlock s.cfg.blockSize }
    exec (.dsLoad r) s =
      .next { s with
        ds := s.ds.set b { s.dsPort b with req := some (r.withType .load), wrote := true }
        banks := s.banks.set b { s.bank b with mq := rest }
        stats := { s.stats with dsLoads := s.stats.dsLoads + 1 }
        resp := .nothing }) ∧
  ∀ (s : State) (r : ReqBody), s.Healthy →
    (s.phase = .fall → ∀ b < s.cfg.numBanks, s.cfg.dsPort b = r.port.toNat →
      s.dsWriteValid b = false ∨ (s.dsPort b).wrote = true ∨
        (due s.cfg b (s.bank b)).map Issue.request ≠ some (r.withType .load)) →
    exec (.dsLoad r) s = .next { s with resp := .nothing }

/-- DSSTORE: with its port free and not yet written in this fall, and no fetch due, a bank writes the lowest run of
its active write-combining LFB, clears the run in the mask, and counts it; with the mask drained the LFB is INVALID
and no longer active; the port then counts as written in this fall. What INVALID leaves in the LFB's type, block and
data is unspecified and left open here. A DSSTORE in the other phase, on a port NBC may not write or does not use, or
of a request that is not due changes nothing (46_bank_issue.md R157, R159, R160; 40_port_contract.md R104). That this
action alone is an instruction, and what it does with any other request, are the model's, log 6. -/
def Obligations.DsStoreIsTheWriteBackDrain : Prop :=
  (∀ (s : State) (b k st n : Nat), s.Healthy → s.phase = .fall → b < s.cfg.numBanks → 1 ≤ s.cfg.dsPortStride →
    s.cfg.dsPort b ≤ 65535 → s.dsWriteValid b = true → (s.dsPort b).wrote = false → (s.bank b).mq = [] →
    (s.bank b).wbActive = some k →
    k < (s.bank b).lfbs.length → 1 ≤ n → st + n ≤ s.cfg.blockSize →
    (∀ j < st, ((s.bank b).lfb k).byteWriteMask.testBit j = false) →
    (∀ j < n, ((s.bank b).lfb k).byteWriteMask.testBit (st + j) = true) →
    (st + n < s.cfg.blockSize → ((s.bank b).lfb k).byteWriteMask.testBit (st + n) = false) →
    let r : ReqBody :=
      { size := BitVec.ofNat 16 n
        port := BitVec.ofNat 16 (s.cfg.dsPort b)
        dst := BitVec.ofNat 64 k
        address := s.cfg.addrAdd ((s.bank b).lfb k).blockAddress st
        writeMask := 2 ^ n - 1
        payload := slice s.cfg.blockSize ((s.bank b).lfb k).data st n }
    ∃ bk l, exec (.dsStore r) s =
        .next { s with
          ds := s.ds.set b { s.dsPort b with req := some (r.withType .store), wrote := true }
          banks := s.banks.set b bk
          stats := { s.stats with dsStores := s.stats.dsStores + 1 }
          resp := .nothing } ∧
      bk = { s.bank b with
        lfbs := (s.bank b).lfbs.set k l, wbActive := bk.wbActive, freeCount := bk.freeCount } ∧
      (∀ j, l.byteWriteMask.testBit j =
        (((s.bank b).lfb k).byteWriteMask.testBit j && decide (j < st ∨ st + n ≤ j))) ∧
      (l.byteWriteMask ≠ 0 → bk.wbActive = some k ∧
        l = { (s.bank b).lfb k with byteWriteMask := l.byteWriteMask }) ∧
      (l.byteWriteMask = 0 → bk.wbActive = none ∧ l.state = .invalid ∧ l.lru = ((s.bank b).lfb k).lru)) ∧
  ∀ (s : State) (r : ReqBody), s.Healthy →
    (s.phase = .fall → ∀ b < s.cfg.numBanks, s.cfg.dsPort b = r.port.toNat →
      s.dsWriteValid b = false ∨ (s.dsPort b).wrote = true ∨
        (due s.cfg b (s.bank b)).map Issue.request ≠ some (r.withType .store)) →
    exec (.dsStore r) s = .next { s with resp := .nothing }

/-- One downstream request per port and fall. `clock_fall` writes to each bank's port the request due, the fetch of
the miss queue's head if there is one, else a drain, and only if the port is free and has not been written in this
fall. Whatever the step, a downstream request slot takes a new request only in a fall phase, when it was empty, not
held off and not yet written in this fall, and from then on the port counts as written until the fall is over; when
it is over no port counts as written (46_bank_issue.md R157; 40_port_contract.md R104, R105; 60_exceptions.md R185;
that a port remembers its write in a field is the model's, log 6). -/
def Obligations.OneDownstreamRequestPerFall : Prop :=
  (∀ (s t : State), s.Healthy → s.WellSized → s.phase = .fall → exec .clockFall s = .next t →
    ∀ b < s.cfg.numBanks,
      t.dsPort b =
        (match s.dsWriteValid b, (s.dsPort b).wrote, due s.cfg b (s.bank b) with
          | true, false, some i => { s.dsPort b with req := some i.request, wrote := false }
          | _, _, _ => { s.dsPort b with wrote := false }) ∧
      ∀ k rest, (s.bank b).mq = k :: rest →
        (due s.cfg b (s.bank b)).map Issue.request = some (fetchRequest s.cfg b k ((s.bank b).lfb k))) ∧
  ∀ (s t : State) (b : Nat), step s = .next t →
    (∀ req, (t.dsPort b).req = some req → (s.dsPort b).req ≠ some req →
      s.phase = .fall ∧ (s.dsPort b).req = none ∧ (s.dsPort b).blocked = false ∧ (s.dsPort b).wrote = false ∧
        (t.phase = .fall → (t.dsPort b).wrote = true)) ∧
    (s.phase = .fall → (s.dsPort b).wrote = true → t.phase = .fall → (t.dsPort b).wrote = true) ∧
    (s.phase = .fall → t.phase = .rise → (t.dsPort b).wrote = false) ∧
    (s.phase = .rise → (s.dsPort b).wrote = false → (t.dsPort b).wrote = false)

/-- The sub-request return: every LFB registers with the bank's arbitrator by whether it has a sub-request to return,
and the arbitrator advances. With an empty stage and an LFB that has one, the arbitrator grants such an LFB; its
oldest sub-request is staged with a slice of its data and popped, and it retires when its queue is empty. With a full
stage, or with nothing to return, only the arbitrator changes (46_bank_issue.md R161 to R163). -/
def Obligations.ReturnStepStagesTheOldestSubRequest : Prop :=
  ∀ (cfg : Config) (bk : Bank), bk.lfbArb.Fits cfg.numLfbs → bk.lfbs.length = cfg.numLfbs →
    ∃ m : Nat, (∀ k, m.testBit k = (decide (k < cfg.numLfbs) && (bk.lfb k).returns)) ∧
      let a : Arb := Arb.advance cfg.numLfbs { mask := m, ptr := bk.lfbArb.ptr }
      (bk.rstage ≠ none ∨ (∀ k < cfg.numLfbs, (bk.lfb k).returns = false) →
        returnStep cfg bk = { bk with lfbArb := a }) ∧
      (bk.rstage = none → (∃ k < cfg.numLfbs, (bk.lfb k).returns = true) →
        ∃ k sr rest ret, a.current = some k ∧ k < cfg.numLfbs ∧ (bk.lfb k).type = .read ∧
          (bk.lfb k).state = .filled ∧ (bk.lfb k).subq = sr :: rest ∧
          returnStep cfg bk =
            { bk with
              lfbs := bk.lfbs.set k
                { bk.lfb k with subq := rest, state := if rest = [] then .retired else .filled }
              lfbArb := a
              rstage := some ret } ∧
          ret = { type := .loadReturn
                  size := sr.size
                  port := sr.port
                  dst := sr.dst
                  address := cfg.addrAdd (bk.lfb k).blockAddress sr.offset
                  payload := ret.payload } ∧
          ∀ j < cfg.blockSize, ret.payload.getD j 0 =
            if j < sr.size.toNat then (bk.lfb k).data.getD (sr.offset + j) 0 else 0)

/-- A return of any of the nine rows, received on a downstream port NBC uses, joins the returns that wait there,
and nothing else changes; one on any other port changes nothing (30_encoding.md R83; 47_cycle.md R149; that
reception is a step of its own is the model's, log 5). -/
def Obligations.ReturnsAreReceived : Prop :=
  ∀ (s : State) (q : BitVec 16) (r : RetBody) (l1 : BitVec 1) (l2 : BitVec 2) (l3 : BitVec 3) (l4 : BitVec 4)
      (l5 : BitVec 5) (l6 : BitVec 6) (l7 : BitVec 7), s.Healthy → 1 ≤ s.cfg.dsPortStride →
    ∀ p ∈ [(Instr.na q r, RetType.na), (.loadReturn q r, .loadReturn), (.retReserved02 l1 q r, .reserved02 l1),
        (.retReserved04 l2 q r, .reserved04 l2), (.retReserved08 l3 q r, .reserved08 l3),
        (.retReserved10 l4 q r, .reserved10 l4), (.retReserved20 l5 q r, .reserved20 l5),
        (.retReserved40 l6 q r, .reserved40 l6), (.retReserved80 l7 q r, .reserved80 l7)],
      (∀ b < s.cfg.numBanks, s.cfg.dsPort b = q.toNat →
        exec p.1 s =
          .next { s with
            ds := s.ds.set b { s.dsPort b with rets := (s.dsPort b).rets ++ [r.withType p.2] }
            resp := .nothing }) ∧
      ((∀ b < s.cfg.numBanks, s.cfg.dsPort b ≠ q.toNat) → exec p.1 s = .next { s with resp := .nothing })

/-! ### The clock -/

/-- `clock_rise` completes when every return it reads answers an outstanding fetch: the phase becomes FALL, each
downstream port loses at most its oldest return, and no return slot, return arbitrator, LFB arbitrator, return
stage or cycle count changes (47_cycle.md R146; 45_bank_fill.md R151; 60_exceptions.md R183 item 3). -/
def Obligations.ClockRiseCompletes : Prop :=
  ∀ s : State, s.Healthy → s.phase = .rise → s.FillsAnswer →
    ∃ t, exec .clockRise s = .next t ∧
      t = { s with
        reqIn := t.reqIn, xreqArb := t.xreqArb, banks := t.banks, stats := t.stats, ds := t.ds
        phase := .fall, resp := .nothing } ∧
      ∀ b, (t.bank b).lfbArb = (s.bank b).lfbArb ∧ (t.bank b).rstage = (s.bank b).rstage ∧
        t.dsPort b =
          { s.dsPort b with
            rets := if b < s.cfg.numBanks then (s.dsPort b).rets.tail else (s.dsPort b).rets }

/-- `clock_fall` completes: the phase becomes RISE and the cycle count grows by one. Each bank writes the downstream
request due if its port may be written, which is counted, and then does its sub-request return; return routing may
afterwards empty its return stage and changes nothing else of it. No request slot, request arbitrator, tag, line or
write-back queue changes, and no downstream return is read (47_cycle.md R147; 46_bank_issue.md R156, R157, R161;
60_exceptions.md R186). -/
def Obligations.ClockFallCompletes : Prop :=
  ∀ s : State, s.Healthy → s.phase = .fall →
    let written (b : Nat) : Option Issue :=
      if s.dsWriteValid b = true ∧ (s.dsPort b).wrote = false then due s.cfg b (s.bank b) else none
    let returned (b : Nat) : Bank := returnStep s.cfg (((written b).map Issue.bank).getD (s.bank b))
    ∃ t, exec .clockFall s = .next t ∧
      t = { s with
        retOut := t.retOut, xretArb := t.xretArb, banks := t.banks, stats := t.stats, ds := t.ds
        phase := .rise, cycle := s.cycle + 1, resp := .nothing } ∧
      t.stats = (List.range s.cfg.numBanks).foldl
        (fun st b => ((written b).map Issue.counter).elim st st.bump) s.stats ∧
      (∀ b, (t.bank b).tags = (s.bank b).tags ∧ (t.bank b).data = (s.bank b).data ∧
        (t.bank b).wbq = (s.bank b).wbq ∧ (t.dsPort b).rets = (s.dsPort b).rets ∧
        (t.dsPort b).blocked = (s.dsPort b).blocked ∧ (t.dsPort b).wrote = false) ∧
      ∀ b < s.cfg.numBanks, b < s.banks.length →
        (fallBanks (List.range s.cfg.numBanks) s).bank b = returned b ∧
        (t.bank b = returned b ∨ t.bank b = { returned b with rstage := none })

/-- What a rise does at every bank, after its pipeline advance. It hands off a write-back; or else, granted a request,
it accepts it, which reads the request out of its slot and the arbitrator's mask and adds the counter of the
acceptance, or it stalls, which adds a stall; or it does neither. A request that is not accepted stays pending and
registered. Then the bank reads a return if one waits, and ends as the fill leaves the bank that the hand-off, the
acceptance or the stall left (44_bank_accept.md R131, R134, R135; 42_crossbar.md R117; 45_bank_fill.md R151, R152;
47_cycle.md R146; 60_exceptions.md R186). -/
def Obligations.ClockRiseServesTheGrantedRequest : Prop :=
  ∀ s : State, s.Healthy → s.cfg.valid = true → s.WellSized → s.RoutesOk → s.phase = .rise → s.FillsAnswer →
    ∃ (t : State) (counts : Nat → Option Counter), exec .clockRise s = .next t ∧
      t.stats = (List.range s.cfg.numBanks).foldl (fun st b => (counts b).elim st st.bump) s.stats ∧
      ∀ b < s.cfg.numBanks,
        let bk := pipelineAdvance (s.bank b)
        let a := (registerRequests s).xreq b
        let endsFilling (x : Bank) : Prop :=
          (s.dsHead b = none → t.bank b = x) ∧ ∀ r, s.dsHead b = some r → fillBank s.cfg b x r = .ok (t.bank b)
        (∀ x, handOff bk = some x →
          endsFilling x ∧ counts b = none ∧ t.xreq b = a ∧
            ∀ p req, s.reqSlot p = some req → s.cfg.bank req.address = b → t.reqSlot p = some req) ∧
        (handOff bk = none → a.current = none → endsFilling bk ∧ counts b = none ∧ t.xreq b = a) ∧
        ∀ g, handOff bk = none → a.current = some g →
          ∃ req, s.reqSlot g = some req ∧
            (∀ x c, acceptRequest s.cfg b bk req = .accepted x c →
              endsFilling x ∧ counts b = c ∧ t.reqSlot g = none ∧ t.xreq b = a.remove g) ∧
            (acceptRequest s.cfg b bk req = .stall →
              endsFilling bk ∧ counts b = some .lfbStalls ∧ t.reqSlot g = some req ∧ t.xreq b = a) ∧
            ∀ c, acceptRequest s.cfg b bk req ≠ .fault c

/-- A rise in which a bank hands an LFB to its write-back path accepts no request of that bank (44_bank_accept.md
R134). -/
def Obligations.HandOffTakesTheRise : Prop :=
  ∀ (s : State) (b k : Nat) (rest : List Nat), s.Healthy → s.cfg.valid = true → s.WellSized → s.RoutesOk →
    s.phase = .rise → s.FillsAnswer → b < s.cfg.numBanks → s.dsHead b = none →
    (s.bank b).wbq = k :: rest → (s.bank b).wbActive = none →
    ∃ t, exec .clockRise s = .next t ∧
      t.bank b = { pipelineAdvance (s.bank b) with wbActive := some k, wbq := rest } ∧
      ∀ p req, s.reqSlot p = some req → s.cfg.bank req.address = b → t.reqSlot p = some req

/-- The registration step (`registerRequests`, which `clock_rise` runs first, 47_cycle.md R146), on any state: every
waiting request is added to its bank's arbitrator, and every request arbitrator advances; nothing else changes. So
the arbitrator of a waiting request's bank grants a port, and grants only a port whose request is for that bank
(the pseudocode of 42_crossbar.md R115; when the step runs is not said here). -/
def Obligations.RegistrationOffersEveryWaitingRequest : Prop :=
  ∀ s : State, s.cfg.valid = true → s.WellSized → s.RoutesOk →
    registerRequests s = { s with xreqArb := (registerRequests s).xreqArb } ∧
    (∀ b < s.cfg.numBanks, ∃ a : Arb, (registerRequests s).xreq b = a.advance s.cfg.numPorts ∧
      a.ptr = (s.xreq b).ptr ∧
      ∀ i, a.mask.testBit i = ((s.xreq b).mask.testBit i ||
        match s.reqSlot i with
        | some req => decide (s.cfg.bank req.address = b)
        | none => false)) ∧
    (∀ i req, s.reqSlot i = some req → ((registerRequests s).xreq (s.cfg.bank req.address)).current ≠ none) ∧
    ∀ b < s.cfg.numBanks, ∀ g, ((registerRequests s).xreq b).current = some g →
      ∃ req, s.reqSlot g = some req ∧ s.cfg.bank req.address = b

/-- Return routing, on the stages as the banks' falls leave them, so with the returns staged in the same fall. Every
bank that stages a return for port `p` is added to the port's arbitrator, which advances. If the port's slot is empty
and a bank stages a return for it, the bank granted delivers its return, its stage is emptied and it leaves the mask;
with a full slot, or with nothing staged for the port, the slot and the arbitrator stay. A staged return that is not
delivered stays staged (42_crossbar.md R118; 47_cycle.md R147). -/
def Obligations.RoutingDeliversAStagedReturn : Prop :=
  ∀ (s t : State) (p : Nat), s.Healthy → s.WellSized → s.RoutesOk → s.phase = .fall → p < s.cfg.numPorts →
    exec .clockFall s = .next t →
    let staging := fallBanks (List.range s.cfg.numBanks) s
    ∃ m : Nat,
      (∀ b, m.testBit b =
        ((s.xret p).mask.testBit b || (decide (b < s.cfg.numBanks) && staging.stagedFor p b))) ∧
      let a : Arb := Arb.advance s.cfg.numBanks { mask := m, ptr := (s.xret p).ptr }
      (s.retSlot p ≠ none → t.retSlot p = s.retSlot p ∧ t.xret p = a) ∧
      (s.retSlot p = none → (∀ b, staging.stagedFor p b = false) → t.retSlot p = none ∧ t.xret p = a) ∧
      (s.retSlot p = none → (∃ b, staging.stagedFor p b = true) →
        ∃ g r, a.current = some g ∧ (staging.bank g).rstage = some r ∧ r.port.toNat = p ∧
          t.retSlot p = some r ∧ (t.bank g).rstage = none ∧ t.xret p = a.remove g) ∧
      ∀ b r, (staging.bank b).rstage = some r → r.port.toNat = p →
        (t.bank b).rstage = some r ∨
          (s.retSlot p = none ∧ a.current = some b ∧ t.retSlot p = some r ∧ (t.bank b).rstage = none)

/-- With no outstanding work and no return waiting downstream a cycle changes nothing of NBC but the phase, the
cycle count and arbitrators (47_cycle.md R150; 60_exceptions.md R179); the model's own record of a port's write in
the fall is cleared with the fall (log 6). -/
def Obligations.AnIdleCycleChangesNothing : Prop :=
  ∀ s : State, s.Healthy → s.WellSized → s.busy = false → (∀ b < s.cfg.numBanks, s.dsHead b = none) →
    (s.phase = .rise → ∃ arbs, exec .clockRise s =
      .next { s with xreqArb := arbs, phase := .fall, resp := .nothing }) ∧
    (s.phase = .fall → ∃ t, exec .clockFall s = .next t ∧
      t = { s with
        xretArb := t.xretArb, banks := t.banks, ds := t.ds, phase := .rise, cycle := s.cycle + 1
        resp := .nothing } ∧
      t.banks.length = s.banks.length ∧
      ∀ b, { t.bank b with lfbArb := (s.bank b).lfbArb } = s.bank b ∧
        t.dsPort b = { s.dsPort b with wrote := false })

/-! ### Reset and the invariants -/

/-- After construction every element whose reset value the spec gives holds it, and FAULT is none or, when the
configuration fails its check, CONFIG (70_reset_and_hazards.md R193). -/
def Obligations.ConstructionGivesTheResetValues : Prop :=
  ∀ cfg : Config,
    let s := State.construct cfg
    s.cfg = cfg ∧ s.reqIn = List.replicate cfg.numPorts none ∧ s.retOut = List.replicate cfg.numPorts none ∧
    s.xreqArb = List.replicate cfg.numBanks { mask := 0, ptr := cfg.numPorts - 1 } ∧
    s.xretArb = List.replicate cfg.numPorts { mask := 0, ptr := cfg.numBanks - 1 } ∧
    s.fault = (if cfg.valid = true then none else some .config) ∧ s.stats = ⟨0, 0, 0, 0, 0, 0, 0, 0⟩ ∧
    s.cycle = 0 ∧ s.phase = .rise ∧
    s.banks.length = cfg.numBanks ∧
    ∀ b < cfg.numBanks,
      (s.bank b).lfbs.length = cfg.numLfbs ∧
      (∀ k < cfg.numLfbs, ((s.bank b).lfb k).state = .invalid ∧ ((s.bank b).lfb k).byteWriteMask = 0 ∧
        ((s.bank b).lfb k).lru = k ∧ ((s.bank b).lfb k).subq = [] ∧ ((s.bank b).lfb k).pipeCount = 0) ∧
      (s.bank b).lfbArb = { mask := 0, ptr := cfg.numLfbs - 1 } ∧ (s.bank b).mq = [] ∧ (s.bank b).wbq = [] ∧
      (s.bank b).wbActive = none ∧ (s.bank b).rstage = none ∧
      (s.bank b).tags.length = cfg.setsPerBank ∧
      ∀ i < cfg.setsPerBank, ((s.bank b).tagSet i).length = cfg.assoc ∧
        ∀ (w : Nat) (e : TagEntry), ((s.bank b).tagSet i)[w]? = some e → e.valid = false ∧ e.lru = w

/-- Construction from a valid configuration meets every invariant, and so does the reset state, whose configuration
is the model's choice (10_state.md R46 to R48; 70_reset_and_hazards.md R193; log 3). -/
def Obligations.ConstructionMeetsTheInvariants : Prop :=
  (∀ cfg : Config, cfg.valid = true →
    (State.construct cfg).WellSized ∧ (State.construct cfg).FieldsFit ∧ (State.construct cfg).RoutesOk ∧
    ∀ b < cfg.numBanks, ((State.construct cfg).bank b).AtMostOneLfb ∧ ((State.construct cfg).bank b).PoolOk cfg ∧
      ((State.construct cfg).bank b).AgesOk ∧ ((State.construct cfg).bank b).TagsUnique) ∧
  State.reset.WellSized ∧ State.reset.FieldsFit ∧ State.reset.RoutesOk ∧
    ∀ b < State.reset.cfg.numBanks, (State.reset.bank b).AtMostOneLfb ∧
      (State.reset.bank b).PoolOk State.reset.cfg ∧ (State.reset.bank b).AgesOk ∧ (State.reset.bank b).TagsUnique

/-- Every step keeps the sizes of NBC's elements: no array grows or shrinks, every arbitrator's mask keeps its width,
every arbitrator's pointer stays below it, and every data buffer and line stays one block long. And every step keeps
the fields in their widths: an LFB's byte_write_mask has BLOCK_SIZE bits, its block_address ADDR_WIDTH bits with the
low OFFSET_BITS zero, a tag ADDR_WIDTH - OFFSET_BITS bits; and every request and return that NBC holds has the
address, mask and payload widths of the configuration (10_state.md R25 to R39; 30_encoding.md R77, R83). -/
def Obligations.StepKeepsTheSizes : Prop :=
  ∀ s t : State, s.WellSized → step s = .next t →
    (t.WellSized ∧ t.cfg = s.cfg) ∧ (s.FieldsFit → t.FieldsFit)

/-- Every step keeps at most one live LFB per key in every bank (10_state.md R46). The premise on the sizes is an
invariant of its own. -/
def Obligations.StepKeepsAtMostOneLfb : Prop :=
  ∀ s t : State, s.WellSized → (∀ b < s.banks.length, (s.bank b).AtMostOneLfb) → step s = .next t →
    ∀ b < t.banks.length, (t.bank b).AtMostOneLfb

/-- Every step keeps the lifecycle of the LFBs and what the queues say of them in every bank (10_state.md R47
items 1 to 5). -/
def Obligations.StepKeepsThePoolInvariant : Prop :=
  ∀ s t : State, s.WellSized → (∀ b < s.banks.length, (s.bank b).PoolOk s.cfg) → step s = .next t →
    ∀ b < t.banks.length, (t.bank b).PoolOk t.cfg

/-- Every step keeps the LRU ages permutations in every bank, of the LFBs and of the ways of each set (10_state.md
R47 item 6). -/
def Obligations.StepKeepsTheAges : Prop :=
  ∀ s t : State, (∀ b < s.banks.length, (s.bank b).AgesOk) → step s = .next t →
    ∀ b < t.banks.length, (t.bank b).AgesOk

/-- Every step keeps the tags of the valid ways of each set distinct (10_state.md R47 item 7). -/
def Obligations.StepKeepsTheTagsUnique : Prop :=
  ∀ s t : State, (∀ b < s.banks.length, (s.bank b).TagsUnique) → step s = .next t →
    ∀ b < t.banks.length, (t.bank b).TagsUnique

/-- Every instruction but the arbitrator operations, which only NBC itself calls, keeps the paths of requests and
returns: stored requests checked, registrations true to the slots, every live LFB's block in its bank, returns on
their own ports (10_state.md R32, R47 item 8; 42_crossbar.md R115, R117, R118). -/
def Obligations.InstructionsKeepTheRoutes : Prop :=
  ∀ (i : Instr) (s t : State), isArbOp i = false → s.cfg.valid = true → s.WellSized → s.RoutesOk →
    exec i s = .next t → t.RoutesOk

end Statements
end

