-- ==== Sys2Proof/Laws/Buffers.lean ====
section
/-! SUPPORT. The laws of the bit and buffer primitives: one bit of each mask operation, one byte of each buffer
operation, and what the searches answer. -/

namespace Sys2Proof

@[simp] theorem tabulate_length (n : Nat) (f : Nat → Byte) : (tabulate n f).length = n := by
  simp [tabulate]

theorem tabulate_getD (n : Nat) (f : Nat → Byte) (i : Nat) (d : Byte) :
    (tabulate n f).getD i d = if i < n then f i else d := by
  by_cases h : i < n <;> simp [tabulate, h]

namespace Machine

@[simp] theorem ones_testBit (k i : Nat) : (ones k).testBit i = decide (i < k) := by
  simp [ones, Nat.testBit_two_pow_sub_one]

@[simp] theorem setBit_testBit (m i j : Nat) : (setBit m i).testBit j = (m.testBit j || decide (i = j)) := by
  simp [setBit, Nat.testBit_two_pow]

@[simp] theorem clearBits_testBit (m r i : Nat) : (clearBits m r).testBit i = (m.testBit i && !r.testBit i) := by
  rw [clearBits, Nat.testBit_xor, Nat.testBit_and]
  cases m.testBit i <;> cases r.testBit i <;> rfl

@[simp] theorem clearBit_testBit (m i j : Nat) : (clearBit m i).testBit j = (m.testBit j && !decide (i = j)) := by
  simp [clearBit, Nat.testBit_two_pow]

theorem setBit_lt {m i w : Nat} (hm : m < 2 ^ w) (hi : i < w) : setBit m i < 2 ^ w :=
  Nat.or_lt_two_pow hm (Nat.pow_lt_pow_right (by decide) hi)

theorem clearBits_le (m r : Nat) : clearBits m r ≤ m := by
  apply Nat.le_of_testBit
  intro i h
  simp at h
  exact h.1

theorem clearBits_lt {m r w : Nat} (hm : m < 2 ^ w) : clearBits m r < 2 ^ w :=
  lt_of_le_of_lt (clearBits_le m r) hm

/-- A mask of `w` bits has no set bit from `w` on. -/
theorem lt_of_testBit {m w i : Nat} (hm : m < 2 ^ w) (h : m.testBit i = true) : i < w := by
  by_contra hc
  rw [Nat.testBit_lt_two_pow (lt_of_lt_of_le hm (Nat.pow_le_pow_right (by decide) (Nat.le_of_not_lt hc)))] at h
  cases h

/-- `lowestBit` answers the lowest set bit below `w`. -/
theorem lowestBit_eq_some {w m i : Nat} :
    lowestBit w m = some i ↔ i < w ∧ m.testBit i = true ∧ ∀ j < i, m.testBit j = false := by
  rw [lowestBit, List.find?_range_eq_some]
  constructor
  · rintro ⟨h1, h2, h3⟩
    exact ⟨by simpa using h2, h1, fun j hj => by simpa using h3 j hj⟩
  · rintro ⟨h1, h2, h3⟩
    exact ⟨h2, by simpa using h1, fun j hj => by simpa using h3 j hj⟩

/-- `lowestBit` answers none when no bit below `w` is set. -/
theorem lowestBit_eq_none {w m : Nat} : lowestBit w m = none ↔ ∀ i < w, m.testBit i = false := by
  simp [lowestBit]

/-- Every bit of a run is set. -/
theorem runLength_set {w m i j : Nat} (h : j < runLength w m i) : m.testBit (i + j) = true := by
  induction w generalizing i j with
  | zero => simp [runLength] at h
  | succ w ih =>
    rw [runLength] at h
    split at h
    case isTrue hb =>
      cases j with
      | zero => simpa using hb
      | succ j =>
        have := ih (i := i + 1) (j := j) (by omega)
        rwa [show i + (j + 1) = i + 1 + j from by omega]
    case isFalse => simp at h

theorem runLength_le (w m i : Nat) : runLength w m i ≤ w := by
  induction w generalizing i with
  | zero => simp [runLength]
  | succ w ih =>
    rw [runLength]
    split
    · exact Nat.succ_le_succ (ih _)
    · exact Nat.zero_le _

/-- The bit after a run that ends before the width is clear. -/
theorem runLength_stop {w m i : Nat} (h : runLength w m i < w) : m.testBit (i + runLength w m i) = false := by
  induction w generalizing i with
  | zero => simp at h
  | succ w ih =>
    rw [runLength] at h ⊢
    split
    case isTrue hb =>
      rw [if_pos hb] at h
      have := ih (i := i + 1) (by omega)
      rwa [show i + (runLength w m (i + 1) + 1) = i + 1 + runLength w m (i + 1) from by omega]
    case isFalse hb => simpa using hb

@[simp] theorem overlay_length (n : Nat) (dst : Block) (off mask : Nat) (src : Block) :
    (overlay n dst off mask src).length = n := by
  simp [overlay]

/-- One byte of an overlay. -/
theorem overlay_getD (n : Nat) (dst : Block) (off mask : Nat) (src : Block) (i : Nat) :
    (overlay n dst off mask src).getD i 0 =
      if i < n then
        if off ≤ i ∧ mask.testBit (i - off) = true then src.getD (i - off) 0 else dst.getD i 0
      else 0 := by
  simp only [overlay, tabulate_getD]

@[simp] theorem slice_length (n : Nat) (buf : Block) (off k : Nat) : (slice n buf off k).length = n := by
  simp [slice]

/-- One byte of a slice. -/
theorem slice_getD (n : Nat) (buf : Block) (off k i : Nat) :
    (slice n buf off k).getD i 0 = if i < n then if i < k then buf.getD (off + i) 0 else 0 else 0 := by
  simp only [slice, tabulate_getD]

@[simp] theorem zeroBlock_length (n : Nat) : (zeroBlock n).length = n := by
  simp [zeroBlock]

/-- `oldest` answers none when there is no candidate. -/
theorem oldest_eq_none {l : List (Option Nat)} : oldest l = none ↔ ∀ c ∈ l, c = none := by
  rw [oldest]
  split
  case h_1 h =>
    simp only [true_iff]
    rw [List.max?_eq_none_iff, List.filterMap_eq_nil_iff] at h
    exact h
  case h_2 age h =>
    have hm := List.max?_mem h
    rw [List.mem_filterMap] at hm
    obtain ⟨c, hc, hca⟩ := hm
    simp only [id_eq] at hca
    subst hca
    constructor
    · intro hn
      rw [List.findIdx?_eq_none_iff] at hn
      simpa using hn _ hc
    · intro ha
      cases ha _ hc

/-- `oldest` answers a candidate of the largest age, the lowest index among them. -/
theorem oldest_eq_some {l : List (Option Nat)} {k : Nat} (h : oldest l = some k) :
    ∃ age, l[k]? = some (some age) ∧ (∀ (j : Nat) (a : Nat), l[j]? = some (some a) → a ≤ age) ∧
      ∀ (j : Nat), j < k → l[j]? ≠ some (some age) := by
  rw [oldest] at h
  split at h
  case h_1 => cases h
  case h_2 age hmax =>
    rw [List.findIdx?_eq_some_iff_getElem] at h
    obtain ⟨hk, hc, hlow⟩ := h
    refine ⟨age, ?_, ?_, ?_⟩
    · rw [List.getElem?_eq_getElem hk]
      simpa using hc
    · intro j a hj
      have hmem : a ∈ l.filterMap id := by
        rw [List.mem_filterMap]
        exact ⟨some a, List.mem_of_getElem? hj, rfl⟩
      exact (List.max?_eq_some_iff.mp hmax).2 a hmem
    · intro j hj he
      have hj' : j < l.length := lt_trans hj hk
      have := hlow j hj
      rw [List.getElem?_eq_getElem hj'] at he
      simp only [Option.some.injEq] at he
      simp [he] at this

end Machine

end Sys2Proof
end

