-- ==== Sys2Proof/Laws/State.lean ====
section
/-! SUPPORT. What each named update of the state leaves in each field: one lemma per field per update, true by
unfolding, so that no later proof unfolds an update. -/

namespace Sys2Proof.Machine

/-! ### `setBank` -/

@[simp] theorem State.setBank_cfg (s : State) (b : Nat) (bk : Bank) : (s.setBank b bk).cfg = s.cfg := rfl
@[simp] theorem State.setBank_reqIn (s : State) (b : Nat) (bk : Bank) : (s.setBank b bk).reqIn = s.reqIn := rfl
@[simp] theorem State.setBank_retOut (s : State) (b : Nat) (bk : Bank) : (s.setBank b bk).retOut = s.retOut := rfl
@[simp] theorem State.setBank_xreqArb (s : State) (b : Nat) (bk : Bank) : (s.setBank b bk).xreqArb = s.xreqArb := rfl
@[simp] theorem State.setBank_xretArb (s : State) (b : Nat) (bk : Bank) : (s.setBank b bk).xretArb = s.xretArb := rfl
@[simp] theorem State.setBank_banks (s : State) (b : Nat) (bk : Bank) : (s.setBank b bk).banks = s.banks.set b bk := rfl
@[simp] theorem State.setBank_fault (s : State) (b : Nat) (bk : Bank) : (s.setBank b bk).fault = s.fault := rfl
@[simp] theorem State.setBank_stats (s : State) (b : Nat) (bk : Bank) : (s.setBank b bk).stats = s.stats := rfl
@[simp] theorem State.setBank_cycle (s : State) (b : Nat) (bk : Bank) : (s.setBank b bk).cycle = s.cycle := rfl
@[simp] theorem State.setBank_phase (s : State) (b : Nat) (bk : Bank) : (s.setBank b bk).phase = s.phase := rfl
@[simp] theorem State.setBank_ds (s : State) (b : Nat) (bk : Bank) : (s.setBank b bk).ds = s.ds := rfl
@[simp] theorem State.setBank_events (s : State) (b : Nat) (bk : Bank) : (s.setBank b bk).events = s.events := rfl
@[simp] theorem State.setBank_resp (s : State) (b : Nat) (bk : Bank) : (s.setBank b bk).resp = s.resp := rfl

/-! ### `setDsPort` -/

@[simp] theorem State.setDsPort_cfg (s : State) (b : Nat) (d : DsPort) : (s.setDsPort b d).cfg = s.cfg := rfl
@[simp] theorem State.setDsPort_reqIn (s : State) (b : Nat) (d : DsPort) : (s.setDsPort b d).reqIn = s.reqIn := rfl
@[simp] theorem State.setDsPort_retOut (s : State) (b : Nat) (d : DsPort) : (s.setDsPort b d).retOut = s.retOut := rfl
@[simp] theorem State.setDsPort_xreqArb (s : State) (b : Nat) (d : DsPort) : (s.setDsPort b d).xreqArb = s.xreqArb := rfl
@[simp] theorem State.setDsPort_xretArb (s : State) (b : Nat) (d : DsPort) : (s.setDsPort b d).xretArb = s.xretArb := rfl
@[simp] theorem State.setDsPort_banks (s : State) (b : Nat) (d : DsPort) : (s.setDsPort b d).banks = s.banks := rfl
@[simp] theorem State.setDsPort_fault (s : State) (b : Nat) (d : DsPort) : (s.setDsPort b d).fault = s.fault := rfl
@[simp] theorem State.setDsPort_stats (s : State) (b : Nat) (d : DsPort) : (s.setDsPort b d).stats = s.stats := rfl
@[simp] theorem State.setDsPort_cycle (s : State) (b : Nat) (d : DsPort) : (s.setDsPort b d).cycle = s.cycle := rfl
@[simp] theorem State.setDsPort_phase (s : State) (b : Nat) (d : DsPort) : (s.setDsPort b d).phase = s.phase := rfl
@[simp] theorem State.setDsPort_ds (s : State) (b : Nat) (d : DsPort) : (s.setDsPort b d).ds = s.ds.set b d := rfl
@[simp] theorem State.setDsPort_events (s : State) (b : Nat) (d : DsPort) : (s.setDsPort b d).events = s.events := rfl
@[simp] theorem State.setDsPort_resp (s : State) (b : Nat) (d : DsPort) : (s.setDsPort b d).resp = s.resp := rfl

/-! ### `count` -/

@[simp] theorem State.count_cfg (s : State) (c : Counter) : (s.count c).cfg = s.cfg := rfl
@[simp] theorem State.count_reqIn (s : State) (c : Counter) : (s.count c).reqIn = s.reqIn := rfl
@[simp] theorem State.count_retOut (s : State) (c : Counter) : (s.count c).retOut = s.retOut := rfl
@[simp] theorem State.count_xreqArb (s : State) (c : Counter) : (s.count c).xreqArb = s.xreqArb := rfl
@[simp] theorem State.count_xretArb (s : State) (c : Counter) : (s.count c).xretArb = s.xretArb := rfl
@[simp] theorem State.count_banks (s : State) (c : Counter) : (s.count c).banks = s.banks := rfl
@[simp] theorem State.count_fault (s : State) (c : Counter) : (s.count c).fault = s.fault := rfl
@[simp] theorem State.count_stats (s : State) (c : Counter) : (s.count c).stats = s.stats.bump c := rfl
@[simp] theorem State.count_cycle (s : State) (c : Counter) : (s.count c).cycle = s.cycle := rfl
@[simp] theorem State.count_phase (s : State) (c : Counter) : (s.count c).phase = s.phase := rfl
@[simp] theorem State.count_ds (s : State) (c : Counter) : (s.count c).ds = s.ds := rfl
@[simp] theorem State.count_events (s : State) (c : Counter) : (s.count c).events = s.events := rfl
@[simp] theorem State.count_resp (s : State) (c : Counter) : (s.count c).resp = s.resp := rfl

/-! ### `dsWrite` -/

@[simp] theorem State.dsWrite_cfg (s : State) (b : Nat) (r : Request) : (s.dsWrite b r).cfg = s.cfg := rfl
@[simp] theorem State.dsWrite_reqIn (s : State) (b : Nat) (r : Request) : (s.dsWrite b r).reqIn = s.reqIn := rfl
@[simp] theorem State.dsWrite_retOut (s : State) (b : Nat) (r : Request) : (s.dsWrite b r).retOut = s.retOut := rfl
@[simp] theorem State.dsWrite_xreqArb (s : State) (b : Nat) (r : Request) : (s.dsWrite b r).xreqArb = s.xreqArb := rfl
@[simp] theorem State.dsWrite_xretArb (s : State) (b : Nat) (r : Request) : (s.dsWrite b r).xretArb = s.xretArb := rfl
@[simp] theorem State.dsWrite_banks (s : State) (b : Nat) (r : Request) : (s.dsWrite b r).banks = s.banks := rfl
@[simp] theorem State.dsWrite_fault (s : State) (b : Nat) (r : Request) : (s.dsWrite b r).fault = s.fault := rfl
@[simp] theorem State.dsWrite_stats (s : State) (b : Nat) (r : Request) : (s.dsWrite b r).stats = s.stats := rfl
@[simp] theorem State.dsWrite_cycle (s : State) (b : Nat) (r : Request) : (s.dsWrite b r).cycle = s.cycle := rfl
@[simp] theorem State.dsWrite_phase (s : State) (b : Nat) (r : Request) : (s.dsWrite b r).phase = s.phase := rfl
@[simp] theorem State.dsWrite_ds (s : State) (b : Nat) (r : Request) : (s.dsWrite b r).ds = s.ds.set b { s.dsPort b with req := some r, wrote := true } := rfl
@[simp] theorem State.dsWrite_events (s : State) (b : Nat) (r : Request) : (s.dsWrite b r).events = s.events := rfl
@[simp] theorem State.dsWrite_resp (s : State) (b : Nat) (r : Request) : (s.dsWrite b r).resp = s.resp := rfl

/-! ### `dsPop` -/

@[simp] theorem State.dsPop_cfg (s : State) (b : Nat) : (s.dsPop b).cfg = s.cfg := rfl
@[simp] theorem State.dsPop_reqIn (s : State) (b : Nat) : (s.dsPop b).reqIn = s.reqIn := rfl
@[simp] theorem State.dsPop_retOut (s : State) (b : Nat) : (s.dsPop b).retOut = s.retOut := rfl
@[simp] theorem State.dsPop_xreqArb (s : State) (b : Nat) : (s.dsPop b).xreqArb = s.xreqArb := rfl
@[simp] theorem State.dsPop_xretArb (s : State) (b : Nat) : (s.dsPop b).xretArb = s.xretArb := rfl
@[simp] theorem State.dsPop_banks (s : State) (b : Nat) : (s.dsPop b).banks = s.banks := rfl
@[simp] theorem State.dsPop_fault (s : State) (b : Nat) : (s.dsPop b).fault = s.fault := rfl
@[simp] theorem State.dsPop_stats (s : State) (b : Nat) : (s.dsPop b).stats = s.stats := rfl
@[simp] theorem State.dsPop_cycle (s : State) (b : Nat) : (s.dsPop b).cycle = s.cycle := rfl
@[simp] theorem State.dsPop_phase (s : State) (b : Nat) : (s.dsPop b).phase = s.phase := rfl
@[simp] theorem State.dsPop_ds (s : State) (b : Nat) : (s.dsPop b).ds = s.ds.set b { s.dsPort b with rets := (s.dsPort b).rets.tail } := rfl
@[simp] theorem State.dsPop_events (s : State) (b : Nat) : (s.dsPop b).events = s.events := rfl
@[simp] theorem State.dsPop_resp (s : State) (b : Nat) : (s.dsPop b).resp = s.resp := rfl

/-! ### `dsEndFall` -/

@[simp] theorem State.dsEndFall_cfg (s : State) : s.dsEndFall.cfg = s.cfg := rfl
@[simp] theorem State.dsEndFall_reqIn (s : State) : s.dsEndFall.reqIn = s.reqIn := rfl
@[simp] theorem State.dsEndFall_retOut (s : State) : s.dsEndFall.retOut = s.retOut := rfl
@[simp] theorem State.dsEndFall_xreqArb (s : State) : s.dsEndFall.xreqArb = s.xreqArb := rfl
@[simp] theorem State.dsEndFall_xretArb (s : State) : s.dsEndFall.xretArb = s.xretArb := rfl
@[simp] theorem State.dsEndFall_banks (s : State) : s.dsEndFall.banks = s.banks := rfl
@[simp] theorem State.dsEndFall_fault (s : State) : s.dsEndFall.fault = s.fault := rfl
@[simp] theorem State.dsEndFall_stats (s : State) : s.dsEndFall.stats = s.stats := rfl
@[simp] theorem State.dsEndFall_cycle (s : State) : s.dsEndFall.cycle = s.cycle := rfl
@[simp] theorem State.dsEndFall_phase (s : State) : s.dsEndFall.phase = s.phase := rfl
@[simp] theorem State.dsEndFall_ds (s : State) : s.dsEndFall.ds = s.ds.map DsPort.endFall := rfl
@[simp] theorem State.dsEndFall_events (s : State) : s.dsEndFall.events = s.events := rfl
@[simp] theorem State.dsEndFall_resp (s : State) : s.dsEndFall.resp = s.resp := rfl

@[simp] theorem DsPort.endFall_req (d : DsPort) : d.endFall.req = d.req := rfl
@[simp] theorem DsPort.endFall_blocked (d : DsPort) : d.endFall.blocked = d.blocked := rfl
@[simp] theorem DsPort.endFall_rets (d : DsPort) : d.endFall.rets = d.rets := rfl
@[simp] theorem DsPort.endFall_wrote (d : DsPort) : d.endFall.wrote = false := rfl

/-! ### `issue` -/

@[simp] theorem State.issue_cfg (s : State) (b : Nat) (i : Issue) : (s.issue b i).cfg = s.cfg := rfl
@[simp] theorem State.issue_reqIn (s : State) (b : Nat) (i : Issue) : (s.issue b i).reqIn = s.reqIn := rfl
@[simp] theorem State.issue_retOut (s : State) (b : Nat) (i : Issue) : (s.issue b i).retOut = s.retOut := rfl
@[simp] theorem State.issue_xreqArb (s : State) (b : Nat) (i : Issue) : (s.issue b i).xreqArb = s.xreqArb := rfl
@[simp] theorem State.issue_xretArb (s : State) (b : Nat) (i : Issue) : (s.issue b i).xretArb = s.xretArb := rfl
@[simp] theorem State.issue_banks (s : State) (b : Nat) (i : Issue) : (s.issue b i).banks = s.banks.set b i.bank := rfl
@[simp] theorem State.issue_fault (s : State) (b : Nat) (i : Issue) : (s.issue b i).fault = s.fault := rfl
@[simp] theorem State.issue_stats (s : State) (b : Nat) (i : Issue) : (s.issue b i).stats = s.stats.bump i.counter := rfl
@[simp] theorem State.issue_cycle (s : State) (b : Nat) (i : Issue) : (s.issue b i).cycle = s.cycle := rfl
@[simp] theorem State.issue_phase (s : State) (b : Nat) (i : Issue) : (s.issue b i).phase = s.phase := rfl
@[simp] theorem State.issue_ds (s : State) (b : Nat) (i : Issue) : (s.issue b i).ds = s.ds.set b { s.dsPort b with req := some i.request, wrote := true } := rfl
@[simp] theorem State.issue_events (s : State) (b : Nat) (i : Issue) : (s.issue b i).events = s.events := rfl
@[simp] theorem State.issue_resp (s : State) (b : Nat) (i : Issue) : (s.issue b i).resp = s.resp := rfl

/-! ### `Bank.setLfb`, `touchLfb`, `evict`, `touchWay` -/

@[simp] theorem Bank.setLfb_lfbs (bk : Bank) (k : Nat) (l : Lfb) : (bk.setLfb k l).lfbs = bk.lfbs.set k l := rfl
@[simp] theorem Bank.setLfb_lfbArb (bk : Bank) (k : Nat) (l : Lfb) : (bk.setLfb k l).lfbArb = bk.lfbArb := rfl
@[simp] theorem Bank.setLfb_mq (bk : Bank) (k : Nat) (l : Lfb) : (bk.setLfb k l).mq = bk.mq := rfl
@[simp] theorem Bank.setLfb_wbq (bk : Bank) (k : Nat) (l : Lfb) : (bk.setLfb k l).wbq = bk.wbq := rfl
@[simp] theorem Bank.setLfb_wbActive (bk : Bank) (k : Nat) (l : Lfb) : (bk.setLfb k l).wbActive = bk.wbActive := rfl
@[simp] theorem Bank.setLfb_rstage (bk : Bank) (k : Nat) (l : Lfb) : (bk.setLfb k l).rstage = bk.rstage := rfl
@[simp] theorem Bank.setLfb_tags (bk : Bank) (k : Nat) (l : Lfb) : (bk.setLfb k l).tags = bk.tags := rfl
@[simp] theorem Bank.setLfb_data (bk : Bank) (k : Nat) (l : Lfb) : (bk.setLfb k l).data = bk.data := rfl
@[simp] theorem Bank.setLfb_freeCount (bk : Bank) (k : Nat) (l : Lfb) : (bk.setLfb k l).freeCount = bk.freeCount := rfl

@[simp] theorem touchLfb_lfbs (bk : Bank) (k : Nat) : (touchLfb bk k).lfbs = touchLfbs bk.lfbs k := rfl
@[simp] theorem touchLfb_lfbArb (bk : Bank) (k : Nat) : (touchLfb bk k).lfbArb = bk.lfbArb := rfl
@[simp] theorem touchLfb_mq (bk : Bank) (k : Nat) : (touchLfb bk k).mq = bk.mq := rfl
@[simp] theorem touchLfb_wbq (bk : Bank) (k : Nat) : (touchLfb bk k).wbq = bk.wbq := rfl
@[simp] theorem touchLfb_wbActive (bk : Bank) (k : Nat) : (touchLfb bk k).wbActive = bk.wbActive := rfl
@[simp] theorem touchLfb_rstage (bk : Bank) (k : Nat) : (touchLfb bk k).rstage = bk.rstage := rfl
@[simp] theorem touchLfb_tags (bk : Bank) (k : Nat) : (touchLfb bk k).tags = bk.tags := rfl
@[simp] theorem touchLfb_data (bk : Bank) (k : Nat) : (touchLfb bk k).data = bk.data := rfl
@[simp] theorem touchLfb_freeCount (bk : Bank) (k : Nat) : (touchLfb bk k).freeCount = bk.freeCount := rfl

@[simp] theorem evict_lfbArb (bk : Bank) (k : Nat) : (evict bk k).lfbArb = bk.lfbArb := rfl
@[simp] theorem evict_mq (bk : Bank) (k : Nat) : (evict bk k).mq = bk.mq := rfl
@[simp] theorem evict_wbq (bk : Bank) (k : Nat) : (evict bk k).wbq = bk.wbq := rfl
@[simp] theorem evict_wbActive (bk : Bank) (k : Nat) : (evict bk k).wbActive = bk.wbActive := rfl
@[simp] theorem evict_rstage (bk : Bank) (k : Nat) : (evict bk k).rstage = bk.rstage := rfl
@[simp] theorem evict_tags (bk : Bank) (k : Nat) : (evict bk k).tags = bk.tags := rfl
@[simp] theorem evict_data (bk : Bank) (k : Nat) : (evict bk k).data = bk.data := rfl
@[simp] theorem evict_freeCount (bk : Bank) (k : Nat) : (evict bk k).freeCount = bk.freeCount := rfl

@[simp] theorem touchWay_lfbs (bk : Bank) (i w : Nat) : (touchWay bk i w).lfbs = bk.lfbs := rfl
@[simp] theorem touchWay_lfbArb (bk : Bank) (i w : Nat) : (touchWay bk i w).lfbArb = bk.lfbArb := rfl
@[simp] theorem touchWay_mq (bk : Bank) (i w : Nat) : (touchWay bk i w).mq = bk.mq := rfl
@[simp] theorem touchWay_wbq (bk : Bank) (i w : Nat) : (touchWay bk i w).wbq = bk.wbq := rfl
@[simp] theorem touchWay_wbActive (bk : Bank) (i w : Nat) : (touchWay bk i w).wbActive = bk.wbActive := rfl
@[simp] theorem touchWay_rstage (bk : Bank) (i w : Nat) : (touchWay bk i w).rstage = bk.rstage := rfl
@[simp] theorem touchWay_tags (bk : Bank) (i w : Nat) : (touchWay bk i w).tags = bk.tags.set i (touchWays (bk.tagSet i) w) := rfl
@[simp] theorem touchWay_data (bk : Bank) (i w : Nat) : (touchWay bk i w).data = bk.data := rfl
@[simp] theorem touchWay_freeCount (bk : Bank) (i w : Nat) : (touchWay bk i w).freeCount = bk.freeCount := rfl

/-! ### Reading after writing -/

/-- A bank read back: the one written, if it is in the array. -/
theorem State.bank_setBank (s : State) (b c : Nat) (bk : Bank) :
    (s.setBank b bk).bank c = if b = c ∧ c < s.banks.length then bk else s.bank c := by
  simp only [State.bank, State.setBank_banks, List.getD_eq_getElem?_getD, List.getElem?_set]
  by_cases h : b = c
  · subst h
    by_cases hl : b < s.banks.length <;> simp [hl]
  · simp [h]

@[simp] theorem State.bank_setBank_ne (s : State) {b c : Nat} (bk : Bank) (h : b ≠ c) :
    (s.setBank b bk).bank c = s.bank c := by
  simp [State.bank_setBank, h]

/-- A downstream port read back: the one written, if it is in the array. -/
theorem State.dsPort_setDsPort (s : State) (b c : Nat) (d : DsPort) :
    (s.setDsPort b d).dsPort c = if b = c ∧ c < s.ds.length then d else s.dsPort c := by
  simp only [State.dsPort, State.setDsPort_ds, List.getD_eq_getElem?_getD, List.getElem?_set]
  by_cases h : b = c
  · subst h
    by_cases hl : b < s.ds.length <;> simp [hl]
  · simp [h]

/-- A downstream port when a fall phase is over. -/
@[simp] theorem State.dsPort_dsEndFall (s : State) (b : Nat) : s.dsEndFall.dsPort b = (s.dsPort b).endFall := by
  simp only [State.dsPort, State.dsEndFall_ds, List.getD_eq_getElem?_getD, List.getElem?_map]
  cases s.ds[b]? <;> rfl

@[simp] theorem State.bank_dsEndFall (s : State) (b : Nat) : s.dsEndFall.bank b = s.bank b := rfl

/-- An LFB read back: the one written, if it is in the pool. -/
theorem Bank.lfb_setLfb (bk : Bank) (k j : Nat) (l : Lfb) :
    (bk.setLfb k l).lfb j = if k = j ∧ j < bk.lfbs.length then l else bk.lfb j := by
  simp only [Bank.lfb, Bank.setLfb_lfbs, List.getD_eq_getElem?_getD, List.getElem?_set]
  by_cases h : k = j
  · subst h
    by_cases hl : k < bk.lfbs.length <;> simp [hl]
  · simp [h]

/-- An LFB of the pool is a member of it. -/
theorem Bank.lfb_mem (bk : Bank) {k : Nat} (h : k < bk.lfbs.length) : bk.lfb k ∈ bk.lfbs := by
  have : bk.lfb k = bk.lfbs[k] := by simp [Bank.lfb, h]
  exact this ▸ List.getElem_mem h

/-- A member of the pool is the LFB of some index. -/
theorem Bank.exists_lfb (bk : Bank) {l : Lfb} (h : l ∈ bk.lfbs) : ∃ k < bk.lfbs.length, bk.lfb k = l := by
  obtain ⟨k, hk, rfl⟩ := List.mem_iff_getElem.mp h
  exact ⟨k, hk, by simp [Bank.lfb, hk]⟩

/-- A bank of the array is a member of it. -/
theorem State.bank_mem (s : State) {b : Nat} (h : b < s.banks.length) : s.bank b ∈ s.banks := by
  have : s.bank b = s.banks[b] := by simp [State.bank, h]
  exact this ▸ List.getElem_mem h

/-- A member of the array of banks is the bank of some index. -/
theorem State.exists_bank (s : State) {bk : Bank} (h : bk ∈ s.banks) : ∃ b < s.banks.length, s.bank b = bk := by
  obtain ⟨b, hb, rfl⟩ := List.mem_iff_getElem.mp h
  exact ⟨b, hb, by simp [State.bank, hb]⟩

/-- Setting a bank to what it already is changes nothing. -/
theorem State.setBank_self (s : State) (b : Nat) : s.setBank b (s.bank b) = s := by
  have : s.banks.set b (s.bank b) = s.banks := by
    apply List.ext_getElem? ; intro i
    rw [List.getElem?_set]
    by_cases h : b = i
    · subst h
      by_cases hl : b < s.banks.length <;> simp [hl, State.bank]
    · simp [h]
  simp [State.setBank, this]

end Sys2Proof.Machine
end

