-- ==== Sys2Proof/Laws/Arbiter.lean ====
section
/-! SUPPORT. The laws of the RoundRobinArbitrator (41_round_robin.md R106 to R109). -/

namespace Sys2Proof.Machine

@[simp] theorem Arb.add_ptr (a : Arb) (i : Nat) : (a.add i).ptr = a.ptr := rfl
@[simp] theorem Arb.remove_ptr (a : Arb) (i : Nat) : (a.remove i).ptr = a.ptr := rfl

@[simp] theorem Arb.add_mask_testBit (a : Arb) (i j : Nat) :
    (a.add i).mask.testBit j = (a.mask.testBit j || decide (i = j)) := by
  simp [Arb.add]

@[simp] theorem Arb.remove_mask_testBit (a : Arb) (i j : Nat) :
    (a.remove i).mask.testBit j = (a.mask.testBit j && !decide (i = j)) := by
  simp [Arb.remove]

/-- What `current()` answers is the pointer, and its bit is set (R109). -/
theorem Arb.current_eq_some {a : Arb} {i : Nat} :
    a.current = some i ↔ i = a.ptr ∧ a.mask.testBit i = true := by
  unfold Arb.current
  split
  · rename_i h
    constructor
    · intro e; cases e; exact ⟨rfl, h⟩
    · rintro ⟨rfl, -⟩; rfl
  · rename_i h
    constructor
    · intro e; cases e
    · rintro ⟨rfl, hb⟩; exact absurd hb h

/-- Everything `advance()` can do (R108): go to the lowest set bit above the pointer; or, with none above it, to
the lowest set bit; or, with none at all, nothing. -/
theorem Arb.advance_spec (w : Nat) (a : Arb) :
    (∃ i, i < w ∧ a.ptr < i ∧ a.mask.testBit i = true ∧ (∀ j, a.ptr < j → j < i → a.mask.testBit j = false) ∧
      a.advance w = { a with ptr := i }) ∨
    (∃ i, i < w ∧ a.mask.testBit i = true ∧ (∀ j, a.ptr < j → j < w → a.mask.testBit j = false) ∧
      (∀ j < i, a.mask.testBit j = false) ∧ a.advance w = { a with ptr := i }) ∨
    ((∀ j < w, a.mask.testBit j = false) ∧ a.advance w = a) := by
  unfold Arb.advance
  split
  case h_1 i hi =>
    rw [lowestBit_eq_some] at hi
    obtain ⟨h1, h2, h3⟩ := hi
    simp only [clearBits_testBit, ones_testBit, Bool.and_eq_true, Bool.not_eq_true', decide_eq_false_iff_not,
      not_lt] at h2
    refine .inl ⟨i, h1, by omega, h2.1, ?_, rfl⟩
    intro j hj hji
    have := h3 j hji
    simp only [clearBits_testBit, ones_testBit, Bool.and_eq_false_iff, Bool.not_eq_false', decide_eq_true_eq] at this
    rcases this with h | h
    · exact h
    · omega
  case h_2 hn =>
    rw [lowestBit_eq_none] at hn
    have habove : ∀ j, a.ptr < j → j < w → a.mask.testBit j = false := by
      intro j hj hw
      have := hn j hw
      simp only [clearBits_testBit, ones_testBit, Bool.and_eq_false_iff, Bool.not_eq_false', decide_eq_true_eq] at this
      rcases this with h | h
      · exact h
      · omega
    split
    case h_1 i hi =>
      rw [lowestBit_eq_some] at hi
      exact .inr (.inl ⟨i, hi.1, hi.2.1, habove, hi.2.2, rfl⟩)
    case h_2 h0 =>
      rw [lowestBit_eq_none] at h0
      exact .inr (.inr ⟨h0, rfl⟩)

@[simp] theorem Arb.advance_mask (w : Nat) (a : Arb) : (a.advance w).mask = a.mask := by
  rcases a.advance_spec w with ⟨i, -, -, -, -, h⟩ | ⟨i, -, -, -, -, h⟩ | ⟨-, h⟩ <;> rw [h]

/-! ### Widths -/

theorem Arb.Fits.add {w : Nat} {a : Arb} (h : a.Fits w) {i : Nat} (hi : i < w) : (a.add i).Fits w :=
  ⟨setBit_lt h.1 hi, h.2⟩

theorem Arb.Fits.remove {w : Nat} {a : Arb} (h : a.Fits w) (i : Nat) : (a.remove i).Fits w :=
  ⟨clearBits_lt h.1, h.2⟩

theorem Arb.Fits.advance {w : Nat} {a : Arb} (h : a.Fits w) : (a.advance w).Fits w := by
  rcases a.advance_spec w with ⟨i, hi, -, -, -, e⟩ | ⟨i, hi, -, -, -, e⟩ | ⟨-, e⟩ <;> rw [e]
  · exact ⟨h.1, hi⟩
  · exact ⟨h.1, hi⟩
  · exact h

/-! ### An arbitrator of the state -/

/-- What writing an arbitrator leaves alone: everything but the three kinds of arbitrator. -/
theorem State.setArb_rest (s : State) (a : ArbRef) (v : Arb) :
    (s.setArb a v).cfg = s.cfg ∧ (s.setArb a v).reqIn = s.reqIn ∧ (s.setArb a v).retOut = s.retOut ∧
      (s.setArb a v).fault = s.fault ∧ (s.setArb a v).stats = s.stats ∧ (s.setArb a v).cycle = s.cycle ∧
      (s.setArb a v).phase = s.phase ∧ (s.setArb a v).ds = s.ds ∧ (s.setArb a v).events = s.events ∧
      (s.setArb a v).banks.length = s.banks.length := by
  cases a <;> simp [State.setArb]

end Sys2Proof.Machine
end

