-- ==== Sys2Proof/Laws/Codec.lean ====
section
/-! SUPPORT. The laws of the record bytes and of word 0 (30_encoding.md R80). -/

namespace Sys2Proof

@[simp] theorem leBytes_length (n v : Nat) : (leBytes n v).length = n := by
  induction n generalizing v with
  | zero => rfl
  | succ n ih => simp [leBytes, ih]

/-- The bytes of a number that fits give it back. -/
theorem ofLeBytes_leBytes {n v : Nat} (h : v < 256 ^ n) : ofLeBytes (leBytes n v) = v := by
  induction n generalizing v with
  | zero =>
    have : v = 0 := by simpa using h
    simp [leBytes, ofLeBytes, this]
  | succ n ih =>
    have hd : v / 256 < 256 ^ n := by
      rw [Nat.div_lt_iff_lt_mul (by decide)]
      simpa [Nat.pow_succ] using h
    simp only [leBytes, ofLeBytes, ih hd, BitVec.toNat_ofNat]
    omega

theorem packWord0_lt (t : BitVec 8) (size port : BitVec 16) : packWord0 t size port < 2 ^ 40 := by
  have h1 := t.isLt
  have h2 := size.isLt
  have h3 := port.isLt
  simp only [packWord0]
  omega

@[simp] theorem word0Type_packWord0 (t : BitVec 8) (size port : BitVec 16) :
    word0Type (packWord0 t size port) = t := by
  apply BitVec.eq_of_toNat_eq
  have h1 := t.isLt
  simp only [word0Type, packWord0, BitVec.toNat_ofNat]
  omega

@[simp] theorem word0Size_packWord0 (t : BitVec 8) (size port : BitVec 16) :
    word0Size (packWord0 t size port) = size := by
  apply BitVec.eq_of_toNat_eq
  have h1 := t.isLt
  have h2 := size.isLt
  simp only [word0Size, packWord0, BitVec.toNat_ofNat]
  omega

@[simp] theorem word0Port_packWord0 (t : BitVec 8) (size port : BitVec 16) :
    word0Port (packWord0 t size port) = port := by
  apply BitVec.eq_of_toNat_eq
  have h1 := t.isLt
  have h2 := size.isLt
  have h3 := port.isLt
  simp only [word0Port, packWord0, BitVec.toNat_ofNat]
  omega

@[simp] theorem encodePortWord_length (sel : BitVec 8) (port : BitVec 16) : (encodePortWord sel port).length = 8 := by
  simp [encodePortWord]

end Sys2Proof
end

