-- ==== Sys2Proof/Laws/Pool.lean ====
section
/-! SUPPORT. The laws of the LFB pool: what a search answers, and what each pool operation leaves of each LFB
(44_bank_accept.md R132, R133). -/

namespace Sys2Proof.Machine

/-! ### Searches -/

/-- What `find_lfb` answers is a live LFB with the key. -/
theorem findLfb_eq_some {bk : Bank} {blk : Nat} {t : LfbType} {k : Nat} (h : findLfb bk blk t = some k) :
    k < bk.lfbs.length ∧ (bk.lfb k).live = true ∧ (bk.lfb k).type = t ∧ (bk.lfb k).blockAddress = blk := by
  rw [findLfb, List.findIdx?_eq_some_iff_getElem] at h
  obtain ⟨hk, hp, -⟩ := h
  have : bk.lfb k = bk.lfbs[k] := by simp [Bank.lfb, hk]
  rw [this]
  simpa [Lfb.hasKey, hk, and_assoc] using hp

/-- `find_lfb` answers none when no live LFB has the key. -/
theorem findLfb_eq_none {bk : Bank} {blk : Nat} {t : LfbType} :
    findLfb bk blk t = none ↔
      ∀ k < bk.lfbs.length, (bk.lfb k).live = true → (bk.lfb k).type = t → (bk.lfb k).blockAddress ≠ blk := by
  rw [findLfb, List.findIdx?_eq_none_iff]
  constructor
  · intro h k hk hl ht hb
    have := h _ (bk.lfb_mem hk)
    simp [Lfb.hasKey, hl, ht, hb] at this
  · intro h l hl
    obtain ⟨k, hk, rfl⟩ := bk.exists_lfb hl
    have := h k hk
    simp only [Lfb.hasKey, Bool.and_eq_false_iff, decide_eq_false_iff_not]
    by_cases hlive : (bk.lfb k).live = true
    · by_cases ht : (bk.lfb k).type = t
      · exact .inr (this hlive ht)
      · exact .inl (.inr ht)
    · exact .inl (.inl (by simpa using hlive))

/-- What `alloc_slot` answers is INVALID or RETIRED. -/
theorem allocSlot_eq_some {bk : Bank} {k : Nat} (h : allocSlot bk = some k) :
    k < bk.lfbs.length ∧ ((bk.lfb k).state = .invalid ∨ (bk.lfb k).state = .retired) := by
  rw [allocSlot] at h
  split at h
  case h_1 j hj =>
    cases h
    rw [List.findIdx?_eq_some_iff_getElem] at hj
    obtain ⟨hk, hp, -⟩ := hj
    refine ⟨hk, .inl ?_⟩
    have : bk.lfb k = bk.lfbs[k] := by simp [Bank.lfb, hk]
    rw [this]
    simpa using hp
  case h_2 =>
    obtain ⟨age, hage, -, -⟩ := oldest_eq_some h
    rw [List.getElem?_map, Option.map_eq_some_iff] at hage
    obtain ⟨l, hl, hr⟩ := hage
    obtain ⟨hk, hlk⟩ := List.getElem?_eq_some_iff.mp hl
    have : bk.lfb k = l := by simp [Bank.lfb, hk, hlk]
    refine ⟨hk, .inr ?_⟩
    rw [this]
    by_contra hc
    simp [hc] at hr

/-- An INVALID LFB is not live. -/
theorem Lfb.live_iff (l : Lfb) : l.live = true ↔ l.state ≠ .invalid := by
  simp [Lfb.live]

/-! ### `touch_lfb` -/

@[simp] theorem touchLfbs_length (lfbs : List Lfb) (k : Nat) : (touchLfbs lfbs k).length = lfbs.length := by
  simp [touchLfbs]

/-- An LFB of the pool after a touch: only its age may differ. -/
theorem touchLfb_lfb (bk : Bank) (k j : Nat) :
    (touchLfb bk k).lfb j =
      if j < bk.lfbs.length then
        { bk.lfb j with lru := touchedAge k ((bk.lfbs.map Lfb.lru).getD k 0) j (bk.lfb j).lru }
      else Lfb.absent := by
  simp only [touchLfb, touchLfbs, Bank.lfb, List.getD_eq_getElem?_getD, List.getElem?_mapIdx]
  by_cases h : j < bk.lfbs.length <;> simp [h]

theorem Bank.lfb_absent (bk : Bank) {k : Nat} (h : bk.lfbs.length ≤ k) : bk.lfb k = Lfb.absent := by
  simp [Bank.lfb, h]

@[simp] theorem touchLfb_lfb_state (bk : Bank) (k j : Nat) : ((touchLfb bk k).lfb j).state = (bk.lfb j).state := by
  rw [touchLfb_lfb]; split <;> rename_i h
  · rfl
  · rw [bk.lfb_absent (Nat.le_of_not_lt h)]

@[simp] theorem touchLfb_lfb_type (bk : Bank) (k j : Nat) : ((touchLfb bk k).lfb j).type = (bk.lfb j).type := by
  rw [touchLfb_lfb]; split <;> rename_i h
  · rfl
  · rw [bk.lfb_absent (Nat.le_of_not_lt h)]

@[simp] theorem touchLfb_lfb_blockAddress (bk : Bank) (k j : Nat) :
    ((touchLfb bk k).lfb j).blockAddress = (bk.lfb j).blockAddress := by
  rw [touchLfb_lfb]; split <;> rename_i h
  · rfl
  · rw [bk.lfb_absent (Nat.le_of_not_lt h)]

@[simp] theorem touchLfb_lfb_byteWriteMask (bk : Bank) (k j : Nat) :
    ((touchLfb bk k).lfb j).byteWriteMask = (bk.lfb j).byteWriteMask := by
  rw [touchLfb_lfb]; split <;> rename_i h
  · rfl
  · rw [bk.lfb_absent (Nat.le_of_not_lt h)]

@[simp] theorem touchLfb_lfb_data (bk : Bank) (k j : Nat) : ((touchLfb bk k).lfb j).data = (bk.lfb j).data := by
  rw [touchLfb_lfb]; split <;> rename_i h
  · rfl
  · rw [bk.lfb_absent (Nat.le_of_not_lt h)]

@[simp] theorem touchLfb_lfb_subq (bk : Bank) (k j : Nat) : ((touchLfb bk k).lfb j).subq = (bk.lfb j).subq := by
  rw [touchLfb_lfb]; split <;> rename_i h
  · rfl
  · rw [bk.lfb_absent (Nat.le_of_not_lt h)]

@[simp] theorem touchLfb_lfb_pipeCount (bk : Bank) (k j : Nat) :
    ((touchLfb bk k).lfb j).pipeCount = (bk.lfb j).pipeCount := by
  rw [touchLfb_lfb]; split <;> rename_i h
  · rfl
  · rw [bk.lfb_absent (Nat.le_of_not_lt h)]

@[simp] theorem touchLfb_lfb_live (bk : Bank) (k j : Nat) : ((touchLfb bk k).lfb j).live = (bk.lfb j).live := by
  simp [Lfb.live]

/-! ### `evict` -/

@[simp] theorem evict_length (bk : Bank) (k : Nat) : (evict bk k).lfbs.length = bk.lfbs.length := by
  simp [evict]

@[simp] theorem evictRetired_length (bk : Bank) (v : Nat) : (evictRetired bk v).lfbs.length = bk.lfbs.length := by
  unfold evictRetired; split <;> simp

/-- Every LFB but the evicted one is as before. -/
theorem evictRetired_lfb_ne (bk : Bank) {v j : Nat} (h : v ≠ j) : (evictRetired bk v).lfb j = bk.lfb j := by
  unfold evictRetired; split
  · simp [evict, Bank.lfb_setLfb, h]
  · rfl

/-- The slot that `alloc_slot` answers is INVALID once a RETIRED one is evicted. -/
theorem evictRetired_state {bk : Bank} {v : Nat} (h : allocSlot bk = some v) :
    ((evictRetired bk v).lfb v).state = .invalid := by
  obtain ⟨hv, hs⟩ := allocSlot_eq_some h
  unfold evictRetired
  split
  · simp [evict, Bank.lfb_setLfb, hv]
  · rename_i hr; simpa [hr] using hs

/-- What eviction leaves alone. -/
theorem evictRetired_rest (bk : Bank) (v : Nat) :
    (evictRetired bk v).lfbArb = bk.lfbArb ∧ (evictRetired bk v).mq = bk.mq ∧ (evictRetired bk v).wbq = bk.wbq ∧
      (evictRetired bk v).wbActive = bk.wbActive ∧ (evictRetired bk v).rstage = bk.rstage ∧
      (evictRetired bk v).tags = bk.tags ∧ (evictRetired bk v).data = bk.data ∧
      (evictRetired bk v).freeCount = bk.freeCount := by
  unfold evictRetired; split <;> simp

@[simp] theorem evictRetired_lfbArb (bk : Bank) (v : Nat) : (evictRetired bk v).lfbArb = bk.lfbArb :=
  (evictRetired_rest bk v).1
@[simp] theorem evictRetired_mq (bk : Bank) (v : Nat) : (evictRetired bk v).mq = bk.mq :=
  (evictRetired_rest bk v).2.1
@[simp] theorem evictRetired_wbq (bk : Bank) (v : Nat) : (evictRetired bk v).wbq = bk.wbq :=
  (evictRetired_rest bk v).2.2.1
@[simp] theorem evictRetired_wbActive (bk : Bank) (v : Nat) : (evictRetired bk v).wbActive = bk.wbActive :=
  (evictRetired_rest bk v).2.2.2.1
@[simp] theorem evictRetired_rstage (bk : Bank) (v : Nat) : (evictRetired bk v).rstage = bk.rstage :=
  (evictRetired_rest bk v).2.2.2.2.1
@[simp] theorem evictRetired_tags (bk : Bank) (v : Nat) : (evictRetired bk v).tags = bk.tags :=
  (evictRetired_rest bk v).2.2.2.2.2.1
@[simp] theorem evictRetired_data (bk : Bank) (v : Nat) : (evictRetired bk v).data = bk.data :=
  (evictRetired_rest bk v).2.2.2.2.2.2.1

/-- Eviction keeps every age. -/
@[simp] theorem evictRetired_lru (bk : Bank) (v j : Nat) : ((evictRetired bk v).lfb j).lru = (bk.lfb j).lru := by
  unfold evictRetired; split
  · simp only [evict, Bank.lfb_setLfb]; split
    · rename_i h; rw [h.1]
    · rfl
  · rfl

/-! ### The pipeline advance (R133) -/

@[simp] theorem pipelineAdvance_length (bk : Bank) : (pipelineAdvance bk).lfbs.length = bk.lfbs.length := by
  simp [pipelineAdvance]

/-- Each LFB advances on its own. -/
theorem pipelineAdvance_lfb (bk : Bank) (k : Nat) : (pipelineAdvance bk).lfb k = (bk.lfb k).advancePipe := by
  simp only [pipelineAdvance, Bank.lfb, List.getD_eq_getElem?_getD, List.getElem?_map]
  by_cases h : k < bk.lfbs.length
  · simp [h]
  · simp only [not_lt] at h
    simp only [List.getElem?_eq_none h]
    rfl

/-- What one pipeline advance does to an LFB: nothing outside DATA_ARRAY, else one cycle less, and FILLED at
zero. -/
theorem Lfb.advancePipe_spec (l : Lfb) :
    (l.state ≠ .dataArray ∧ l.advancePipe = l) ∨
    (l.state = .dataArray ∧ l.pipeCount ≤ 1 ∧ l.advancePipe = { l with pipeCount := 0, state := .filled }) ∨
    (l.state = .dataArray ∧ 2 ≤ l.pipeCount ∧ l.advancePipe = { l with pipeCount := l.pipeCount - 1 }) := by
  by_cases hs : l.state = .dataArray
  · by_cases hp : l.pipeCount - 1 = 0
    · refine .inr (.inl ⟨hs, by omega, ?_⟩)
      simp [Lfb.advancePipe, hs, hp]
    · refine .inr (.inr ⟨hs, by omega, ?_⟩)
      simp [Lfb.advancePipe, hs, hp]
  · exact .inl ⟨hs, by simp [Lfb.advancePipe, hs]⟩

@[simp] theorem Lfb.advancePipe_type (l : Lfb) : l.advancePipe.type = l.type := by
  rcases l.advancePipe_spec with ⟨-, h⟩ | ⟨-, -, h⟩ | ⟨-, -, h⟩ <;> rw [h]

@[simp] theorem Lfb.advancePipe_blockAddress (l : Lfb) : l.advancePipe.blockAddress = l.blockAddress := by
  rcases l.advancePipe_spec with ⟨-, h⟩ | ⟨-, -, h⟩ | ⟨-, -, h⟩ <;> rw [h]

@[simp] theorem Lfb.advancePipe_lru (l : Lfb) : l.advancePipe.lru = l.lru := by
  rcases l.advancePipe_spec with ⟨-, h⟩ | ⟨-, -, h⟩ | ⟨-, -, h⟩ <;> rw [h]

@[simp] theorem Lfb.advancePipe_data (l : Lfb) : l.advancePipe.data = l.data := by
  rcases l.advancePipe_spec with ⟨-, h⟩ | ⟨-, -, h⟩ | ⟨-, -, h⟩ <;> rw [h]

@[simp] theorem Lfb.advancePipe_subq (l : Lfb) : l.advancePipe.subq = l.subq := by
  rcases l.advancePipe_spec with ⟨-, h⟩ | ⟨-, -, h⟩ | ⟨-, -, h⟩ <;> rw [h]

@[simp] theorem Lfb.advancePipe_byteWriteMask (l : Lfb) : l.advancePipe.byteWriteMask = l.byteWriteMask := by
  rcases l.advancePipe_spec with ⟨-, h⟩ | ⟨-, -, h⟩ | ⟨-, -, h⟩ <;> rw [h]

@[simp] theorem Lfb.advancePipe_live (l : Lfb) : l.advancePipe.live = l.live := by
  rcases l.advancePipe_spec with ⟨-, h⟩ | ⟨hs, -, h⟩ | ⟨-, -, h⟩ <;> rw [h] <;> simp [Lfb.live, *]

/-! ### The write-back hand-off (R134) -/

/-- What a hand-off does. -/
theorem handOff_eq_some {bk bk' : Bank} (h : handOff bk = some bk') :
    ∃ k rest, bk.wbq = k :: rest ∧ bk.wbActive = none ∧ bk' = { bk with wbActive := some k, wbq := rest } := by
  unfold handOff at h
  split at h
  case h_1 k rest hq ha => cases h; exact ⟨k, rest, hq, ha, rfl⟩
  case h_2 => cases h

end Sys2Proof.Machine
end

