-- ==== Sys2Proof/Laws/Fall.lean ====
section
/-! SUPPORT. What a bank's fall can do, said once (46_bank_issue.md R156 to R162). -/

namespace Sys2Proof.Machine

/-! ### The downstream request -/

/-- Everything a miss issue is (R158). -/
theorem dueFetch_eq_some {cfg : Config} {b : Nat} {bk : Bank} {i : Issue} :
    dueFetch cfg b bk = some i ↔
      ∃ k rest, bk.mq = k :: rest ∧
        i = { request := fetchRequest cfg b k (bk.lfb k), bank := { bk with mq := rest }, counter := .dsLoads } := by
  unfold dueFetch
  split
  case h_1 h => simp [h]
  case h_2 k rest h =>
    constructor
    · intro e; cases e; exact ⟨k, rest, h, rfl⟩
    · rintro ⟨k', rest', h', rfl⟩
      rw [h] at h'; cases h'; rfl

/-- Everything a drain is (R159). -/
theorem dueDrain_eq_some {cfg : Config} {b : Nat} {bk : Bank} {i : Issue} :
    dueDrain cfg b bk = some i ↔
      ∃ k st, bk.wbActive = some k ∧ lowestBit cfg.blockSize (bk.lfb k).byteWriteMask = some st ∧
        i = { request := drainRequest cfg b k (bk.lfb k) st
                (runLength (cfg.blockSize - st) (bk.lfb k).byteWriteMask st)
              bank := drainTo cfg b bk k (clearBits (bk.lfb k).byteWriteMask
                (ones (runLength (cfg.blockSize - st) (bk.lfb k).byteWriteMask st) <<< st))
              counter := .dsStores } := by
  unfold dueDrain
  split
  case h_1 h => simp [h]
  case h_2 k h =>
    simp only
    split
    case h_1 hn =>
      constructor
      · intro e; cases e
      · rintro ⟨k', st, h', hst, -⟩
        rw [h] at h'; cases h'; rw [hn] at hst; cases hst
    case h_2 st hst =>
      constructor
      · intro e; cases e; exact ⟨k, st, h, hst, rfl⟩
      · rintro ⟨k', st', h', hst', rfl⟩
        rw [h] at h'; cases h'; rw [hst] at hst'; cases hst'; rfl

/-- What is due is a fetch, or with the miss queue empty a drain (R157). -/
theorem due_eq_some {cfg : Config} {b : Nat} {bk : Bank} {i : Issue} :
    due cfg b bk = some i ↔ dueFetch cfg b bk = some i ∨ (bk.mq = [] ∧ dueDrain cfg b bk = some i) := by
  unfold due
  split
  case h_1 j hj =>
    rw [hj]
    obtain ⟨k, rest, hm, -⟩ := dueFetch_eq_some.mp hj
    simp [hm]
  case h_2 hn =>
    rw [hn]
    have : bk.mq = [] := by
      cases hm : bk.mq with
      | nil => rfl
      | cons k rest => simp [dueFetch, hm] at hn
    simp [this]

/-- Everything the bank after a drain can be (R159, R160). -/
theorem drainTo_spec (cfg : Config) (b : Nat) (bk : Bank) (k m : Nat) :
    (m = 0 ∧ drainTo cfg b bk k m =
      { bk.setLfb k (drainedLfb cfg b bk.freeCount (bk.lfb k)) with
        wbActive := none
        freeCount := bk.freeCount + 1 }) ∨
    (m ≠ 0 ∧ drainTo cfg b bk k m = bk.setLfb k { bk.lfb k with byteWriteMask := m }) := by
  unfold drainTo
  split
  case isTrue h => exact .inl ⟨h, rfl⟩
  case isFalse h => exact .inr ⟨h, rfl⟩

/-- NBC may write a port that is empty, not held off and not yet written in this fall (40_port_contract.md R104,
R105). -/
theorem State.dsMayWrite_iff (s : State) (b : Nat) :
    s.dsMayWrite b = true ↔
      (s.dsPort b).req = none ∧ (s.dsPort b).blocked = false ∧ (s.dsPort b).wrote = false := by
  simp [State.dsMayWrite, State.dsWriteValid, and_assoc]

/-- Everything the issue step can do: nothing, or issue what is due on a port NBC may write (R156, R157). -/
theorem issueStep_spec (b : Nat) (s : State) :
    issueStep b s = s ∨
    ∃ i, s.dsMayWrite b = true ∧ due s.cfg b (s.bank b) = some i ∧ issueStep b s = s.issue b i := by
  unfold issueStep
  split
  case isTrue hv =>
    split
    case h_1 i hi => exact .inr ⟨i, hv, hi, rfl⟩
    case h_2 => exact .inl rfl
  case isFalse => exact .inl rfl

/-! ### The sub-request return -/

/-- The fold that registers the first `n` LFBs. -/
theorem register_fold (bk : Bank) (a : Arb) (n : Nat) :
    ((List.range n).foldl (fun a k => if (bk.lfb k).returns then a.add k else a.remove k) a).ptr = a.ptr ∧
    ∀ j, ((List.range n).foldl (fun a k => if (bk.lfb k).returns then a.add k else a.remove k) a).mask.testBit j =
      if j < n then (bk.lfb j).returns else a.mask.testBit j := by
  induction n with
  | zero => simp
  | succ n ih =>
    rw [List.range_succ, List.foldl_append]
    simp only [List.foldl_cons, List.foldl_nil]
    obtain ⟨hp, hm⟩ := ih
    constructor
    · split <;> simpa using hp
    · intro j
      by_cases hr : (bk.lfb n).returns = true
      · simp only [hr, if_true, Arb.add_mask_testBit, hm]
        rcases Nat.lt_trichotomy j n with h | h | h
        · have : n ≠ j := by omega
          simp [h, this, Nat.lt_succ_of_lt h]
        · subst h; simp [hr]
        · have h1 : ¬ j < n := by omega
          have h2 : ¬ j < n + 1 := by omega
          have h3 : n ≠ j := by omega
          simp [h1, h2, h3]
      · rw [if_neg hr, Arb.remove_mask_testBit, hm]
        rcases Nat.lt_trichotomy j n with h | h | h
        · have : n ≠ j := by omega
          simp [h, this, Nat.lt_succ_of_lt h]
        · subst h; simp [hr]
        · have h1 : ¬ j < n := by omega
          have h2 : ¬ j < n + 1 := by omega
          have h3 : n ≠ j := by omega
          simp [h1, h2, h3]

/-- After registration, an LFB's bit says whether it has a sub-request to return (R161). -/
theorem registerReturns_testBit (cfg : Config) (bk : Bank) (j : Nat) :
    (registerReturns cfg bk).mask.testBit j =
      if j < cfg.numLfbs then (bk.lfb j).returns else bk.lfbArb.mask.testBit j :=
  (register_fold bk bk.lfbArb cfg.numLfbs).2 j

@[simp] theorem registerReturns_ptr (cfg : Config) (bk : Bank) : (registerReturns cfg bk).ptr = bk.lfbArb.ptr :=
  (register_fold bk bk.lfbArb cfg.numLfbs).1

theorem Arb.Fits.registerReturns {cfg : Config} {bk : Bank} (h : bk.lfbArb.Fits cfg.numLfbs) :
    (registerReturns cfg bk).Fits cfg.numLfbs := by
  refine ⟨?_, by simpa using h.2⟩
  apply Nat.lt_pow_two_of_testBit
  intro i hi
  rw [registerReturns_testBit, if_neg (by omega)]
  exact Nat.testBit_lt_two_pow (lt_of_lt_of_le h.1 (Nat.pow_le_pow_right (by decide) hi))

/-- Everything a sub-request return can do (R161): the arbitrator registers and advances; and, if the stage was
empty and the granted LFB has a sub-request, its oldest one is staged and popped. -/
theorem returnStep_spec (cfg : Config) (bk : Bank) :
    (returnStep cfg bk = { bk with lfbArb := (registerReturns cfg bk).advance cfg.numLfbs }) ∨
    ∃ k sr rest, bk.rstage = none ∧ ((registerReturns cfg bk).advance cfg.numLfbs).current = some k ∧
      (bk.lfb k).subq = sr :: rest ∧
      returnStep cfg bk =
        { bk.setLfb k (bk.lfb k).popSubReq with
          lfbArb := (registerReturns cfg bk).advance cfg.numLfbs
          rstage := some (returnOf cfg (bk.lfb k) sr) } := by
  unfold returnStep
  simp only
  split
  case h_1 k hs hc =>
    split
    case h_1 sr rest hq => exact .inr ⟨k, sr, rest, hs, hc, hq, rfl⟩
    case h_2 => exact .inl rfl
  case h_2 => exact .inl rfl

/-- The LFB whose sub-request is returned is a FILLED READ LFB (R161), when the arbitrator has the pool's width. -/
theorem returnStep_granted {cfg : Config} {bk : Bank} {k : Nat} (h : bk.lfbArb.Fits cfg.numLfbs)
    (hc : ((registerReturns cfg bk).advance cfg.numLfbs).current = some k) :
    k < cfg.numLfbs ∧ (bk.lfb k).type = .read ∧ (bk.lfb k).state = .filled ∧ (bk.lfb k).subq ≠ [] := by
  obtain ⟨hk, hb⟩ := Arb.current_eq_some.mp hc
  have hlt : k < cfg.numLfbs := by rw [hk]; exact h.registerReturns.advance.2
  rw [Arb.advance_mask, registerReturns_testBit, if_pos hlt] at hb
  simpa [Lfb.returns, and_assoc] using And.intro hlt hb

/-! ### The fall of a bank on the state -/

/-- The fall of one bank, with what its two parts leave of the other elements. -/
theorem fallBank_rest (b : Nat) (s : State) :
    (fallBank b s).cfg = s.cfg ∧ (fallBank b s).reqIn = s.reqIn ∧ (fallBank b s).retOut = s.retOut ∧
      (fallBank b s).xreqArb = s.xreqArb ∧ (fallBank b s).xretArb = s.xretArb ∧ (fallBank b s).fault = s.fault ∧
      (fallBank b s).cycle = s.cycle ∧ (fallBank b s).phase = s.phase ∧ (fallBank b s).events = s.events ∧
      (fallBank b s).resp = s.resp ∧ (fallBank b s).banks.length = s.banks.length ∧
      (fallBank b s).ds.length = s.ds.length := by
  unfold fallBank
  rcases issueStep_spec b s with h | ⟨i, -, -, h⟩ <;> simp [h]

end Sys2Proof.Machine
end

