-- ==== Sys2Proof/Laws/Tags.lean ====
section
/-! SUPPORT. The laws of the tag and data arrays (43_tag_data_array.md R121 to R127). -/

namespace Sys2Proof.Machine

/-! ### Lookup -/

/-- A lookup reads the tag array only. -/
theorem lookup_congr (cfg : Config) {bk bk' : Bank} (h : bk.tags = bk'.tags) (a : Nat) :
    lookup cfg bk a = lookup cfg bk' a := by
  simp [lookup, Bank.tagSet, h]

/-- What a lookup answers is a valid way of the address's set that holds its tag. -/
theorem lookup_eq_some {cfg : Config} {bk : Bank} {a w : Nat} (h : lookup cfg bk a = some w) :
    ∃ hw : w < (bk.tagSet (cfg.set a)).length,
      (bk.tagSet (cfg.set a))[w].valid = true ∧ (bk.tagSet (cfg.set a))[w].tag = cfg.tag a := by
  rw [lookup, List.findIdx?_eq_some_iff_getElem] at h
  obtain ⟨hw, hp, -⟩ := h
  exact ⟨hw, by simpa using hp⟩

/-- A lookup answers none when no valid way of the set holds the tag. -/
theorem lookup_eq_none {cfg : Config} {bk : Bank} {a : Nat} :
    lookup cfg bk a = none ↔ ∀ e ∈ bk.tagSet (cfg.set a), e.valid = true → e.tag ≠ cfg.tag a := by
  simp [lookup, List.findIdx?_eq_none_iff]

/-- A set that exists is a member of the tag array. -/
theorem Bank.tagSet_mem (bk : Bank) {i : Nat} (h : i < bk.tags.length) : bk.tagSet i ∈ bk.tags := by
  have : bk.tagSet i = bk.tags[i] := by simp [Bank.tagSet, h]
  exact this ▸ List.getElem_mem h

/-- A set with a way exists. -/
theorem Bank.lt_of_tagSet (bk : Bank) {i w : Nat} (h : w < (bk.tagSet i).length) : i < bk.tags.length := by
  by_contra hc
  simp [Bank.tagSet, Nat.le_of_not_lt hc] at h

/-! ### Touch -/

@[simp] theorem touchWays_length (ways : List TagEntry) (w : Nat) : (touchWays ways w).length = ways.length := by
  simp [touchWays]

/-- A way of a set after a touch: only its age may differ. -/
theorem touchWays_getElem (ways : List TagEntry) (w y : Nat) (h : y < (touchWays ways w).length) :
    (touchWays ways w)[y] =
      { ways[y]'(by simpa using h) with
        lru := touchedAge w ((ways.map TagEntry.lru).getD w 0) y (ways[y]'(by simpa using h)).lru } := by
  simp [touchWays]

@[simp] theorem fillWay_length (ways : List TagEntry) (w t : Nat) : (fillWay ways w t).length = ways.length := by
  simp [fillWay]

/-- The way a fill takes. -/
theorem fillWay_getElem (ways : List TagEntry) (w t y : Nat) (h : y < (fillWay ways w t).length) :
    (fillWay ways w t)[y] =
      if w = y then { ways[y]'(by simpa using h) with valid := true, tag := t }
      else ways[y]'(by simpa using h) := by
  simp only [fillWay, List.getElem_modify]

/-! ### Insert and write-update -/

/-- What `insert` leaves in the tag array: in the block's set, the way it takes filled and touched. -/
theorem insertLine_tags (cfg : Config) (bk : Bank) (blk : Nat) (line : Block) :
    (insertLine cfg bk blk line).tags =
      bk.tags.set (cfg.set blk)
        (touchWays (fillWay (bk.tagSet (cfg.set blk)) (insertWay cfg bk blk) (cfg.tag blk))
          (insertWay cfg bk blk)) := by
  by_cases h : cfg.set blk < bk.tags.length
  · simp [insertLine, Bank.tagSet, h]
  · have h' := Nat.le_of_not_lt h
    simp [insertLine, List.set_eq_of_length_le h']

/-- What `insert` leaves in the data array. -/
theorem insertLine_data (cfg : Config) (bk : Bank) (blk : Nat) (line : Block) :
    (insertLine cfg bk blk line).data =
      bk.data.set (cfg.set blk) ((bk.data.getD (cfg.set blk) []).set (insertWay cfg bk blk) line) := rfl

/-- `insert` writes the tag and data arrays only. -/
theorem insertLine_rest (cfg : Config) (bk : Bank) (blk : Nat) (line : Block) :
    (insertLine cfg bk blk line).lfbs = bk.lfbs ∧ (insertLine cfg bk blk line).lfbArb = bk.lfbArb ∧
      (insertLine cfg bk blk line).mq = bk.mq ∧ (insertLine cfg bk blk line).wbq = bk.wbq ∧
      (insertLine cfg bk blk line).wbActive = bk.wbActive ∧ (insertLine cfg bk blk line).rstage = bk.rstage ∧
      (insertLine cfg bk blk line).freeCount = bk.freeCount :=
  ⟨rfl, rfl, rfl, rfl, rfl, rfl, rfl⟩

@[simp] theorem insertLine_lfbs (cfg : Config) (bk : Bank) (blk : Nat) (line : Block) :
    (insertLine cfg bk blk line).lfbs = bk.lfbs := rfl
@[simp] theorem insertLine_mq (cfg : Config) (bk : Bank) (blk : Nat) (line : Block) :
    (insertLine cfg bk blk line).mq = bk.mq := rfl
@[simp] theorem insertLine_wbq (cfg : Config) (bk : Bank) (blk : Nat) (line : Block) :
    (insertLine cfg bk blk line).wbq = bk.wbq := rfl
@[simp] theorem insertLine_wbActive (cfg : Config) (bk : Bank) (blk : Nat) (line : Block) :
    (insertLine cfg bk blk line).wbActive = bk.wbActive := rfl
@[simp] theorem insertLine_lfbArb (cfg : Config) (bk : Bank) (blk : Nat) (line : Block) :
    (insertLine cfg bk blk line).lfbArb = bk.lfbArb := rfl
@[simp] theorem insertLine_rstage (cfg : Config) (bk : Bank) (blk : Nat) (line : Block) :
    (insertLine cfg bk blk line).rstage = bk.rstage := rfl
@[simp] theorem insertLine_lfb (cfg : Config) (bk : Bank) (blk : Nat) (line : Block) (k : Nat) :
    (insertLine cfg bk blk line).lfb k = bk.lfb k := rfl

/-- Everything `write_update` can do: nothing when the block is not resident, else one line of the data array
takes the bytes. -/
theorem writeUpdate_spec (cfg : Config) (bk : Bank) (a mask : Nat) (bytes : Block) :
    (lookup cfg bk a = none ∧ writeUpdate cfg bk a mask bytes = bk) ∨
    ∃ w, lookup cfg bk a = some w ∧
      writeUpdate cfg bk a mask bytes =
        { bk with
          data := bk.data.set (cfg.set a) ((bk.data.getD (cfg.set a) []).set w
            (overlay cfg.blockSize (readLine cfg bk a w) (cfg.offset a) mask bytes)) } := by
  unfold writeUpdate
  split
  case h_1 h => exact .inl ⟨h, rfl⟩
  case h_2 w h => exact .inr ⟨w, h, rfl⟩

@[simp] theorem writeUpdate_lfbs (cfg : Config) (bk : Bank) (a mask : Nat) (bytes : Block) :
    (writeUpdate cfg bk a mask bytes).lfbs = bk.lfbs := by
  rcases writeUpdate_spec cfg bk a mask bytes with ⟨-, h⟩ | ⟨w, -, h⟩ <;> rw [h]
@[simp] theorem writeUpdate_tags (cfg : Config) (bk : Bank) (a mask : Nat) (bytes : Block) :
    (writeUpdate cfg bk a mask bytes).tags = bk.tags := by
  rcases writeUpdate_spec cfg bk a mask bytes with ⟨-, h⟩ | ⟨w, -, h⟩ <;> rw [h]
@[simp] theorem writeUpdate_mq (cfg : Config) (bk : Bank) (a mask : Nat) (bytes : Block) :
    (writeUpdate cfg bk a mask bytes).mq = bk.mq := by
  rcases writeUpdate_spec cfg bk a mask bytes with ⟨-, h⟩ | ⟨w, -, h⟩ <;> rw [h]
@[simp] theorem writeUpdate_wbq (cfg : Config) (bk : Bank) (a mask : Nat) (bytes : Block) :
    (writeUpdate cfg bk a mask bytes).wbq = bk.wbq := by
  rcases writeUpdate_spec cfg bk a mask bytes with ⟨-, h⟩ | ⟨w, -, h⟩ <;> rw [h]
@[simp] theorem writeUpdate_wbActive (cfg : Config) (bk : Bank) (a mask : Nat) (bytes : Block) :
    (writeUpdate cfg bk a mask bytes).wbActive = bk.wbActive := by
  rcases writeUpdate_spec cfg bk a mask bytes with ⟨-, h⟩ | ⟨w, -, h⟩ <;> rw [h]
@[simp] theorem writeUpdate_rstage (cfg : Config) (bk : Bank) (a mask : Nat) (bytes : Block) :
    (writeUpdate cfg bk a mask bytes).rstage = bk.rstage := by
  rcases writeUpdate_spec cfg bk a mask bytes with ⟨-, h⟩ | ⟨w, -, h⟩ <;> rw [h]
@[simp] theorem writeUpdate_lfbArb (cfg : Config) (bk : Bank) (a mask : Nat) (bytes : Block) :
    (writeUpdate cfg bk a mask bytes).lfbArb = bk.lfbArb := by
  rcases writeUpdate_spec cfg bk a mask bytes with ⟨-, h⟩ | ⟨w, -, h⟩ <;> rw [h]
@[simp] theorem writeUpdate_freeCount (cfg : Config) (bk : Bank) (a mask : Nat) (bytes : Block) :
    (writeUpdate cfg bk a mask bytes).freeCount = bk.freeCount := by
  rcases writeUpdate_spec cfg bk a mask bytes with ⟨-, h⟩ | ⟨w, -, h⟩ <;> rw [h]

end Sys2Proof.Machine
end

