-- ==== Sys2Proof/Laws/Rise.lean ====
section
/-! SUPPORT. What an acceptance and a fill can do to a bank, said once (44_bank_accept.md R136 to R143;
45_bank_fill.md R151, R152). -/

namespace Sys2Proof.Machine

/-- Everything an accepted LOAD can do: merge (R136), or take a slot and hit (R137) or miss (R138). -/
theorem acceptLoad_accepted {cfg : Config} {b : Nat} {bk bk' : Bank} {req : Request} {c : Option Counter}
    (h : acceptLoad cfg b bk req = .accepted bk' c) :
    (∃ k, findLfb bk (cfg.block req.address) .read = some k ∧ (bk.lfb k).subq.length ≠ cfg.subqDepth ∧
      c = some .halfMisses ∧
      bk' = touchLfb
        (bk.setLfb k
          { bk.lfb k with
            subq := (bk.lfb k).subq ++ [subReqOf cfg req]
            state := if (bk.lfb k).state = .retired then .filled else (bk.lfb k).state }) k) ∨
    (∃ v, findLfb bk (cfg.block req.address) .read = none ∧ allocSlot bk = some v ∧
      findLfb (evictRetired bk v) (cfg.block req.address) .read = none ∧
      ((∃ w, lookup cfg bk (cfg.block req.address) = some w ∧ c = some .hits ∧
        bk' = hitLoad cfg
          (touchLfb (newReadLfb cfg b (evictRetired bk v) v (cfg.block req.address) (subReqOf cfg req)) v) v
          (cfg.block req.address) w) ∨
       (lookup cfg bk (cfg.block req.address) = none ∧ c = some .misses ∧
        bk' = missLoad cfg
          (touchLfb (newReadLfb cfg b (evictRetired bk v) v (cfg.block req.address) (subReqOf cfg req)) v) v
          (cfg.block req.address)))) := by
  unfold acceptLoad at h
  simp only at h
  split at h
  case h_1 k hk =>
    simp only [mergeLoad] at h
    split at h
    · cases h
    · rename_i hq
      cases h
      exact .inl ⟨k, hk, hq, rfl, rfl⟩
  case h_2 hnone =>
    split at h
    · cases h
    · rename_i v hv
      simp only [allocLoad] at h
      split at h
      · cases h
      · rename_i hdup
        refine .inr ⟨v, hnone, hv, by simpa using hdup, ?_⟩
        rw [lookup_congr cfg (evictRetired_tags bk v)] at h
        split at h
        · rename_i w hw; cases h; exact .inl ⟨w, hw, rfl, rfl⟩
        · rename_i hw; cases h; exact .inr ⟨hw, rfl, rfl⟩

/-- Everything an accepted STORE can do: nothing with a zero mask (R143), else write every copy and merge (R142)
or allocate (R141). -/
theorem acceptStore_accepted {cfg : Config} {b : Nat} {bk bk' : Bank} {req : Request} {c : Option Counter}
    (h : acceptStore cfg b bk req = .accepted bk' c) :
    (effectiveMask req = 0 ∧ bk' = bk ∧ c = none) ∨
    (effectiveMask req ≠ 0 ∧ ∃ k, findLfb bk (cfg.block req.address) .writeCombining = some k ∧
      mergeStore cfg (commitStore cfg bk req (effectiveMask req)) k req (effectiveMask req) = .accepted bk' c ∧
      c = some .storeMerges) ∨
    (effectiveMask req ≠ 0 ∧ findLfb bk (cfg.block req.address) .writeCombining = none ∧
      ∃ v, allocSlot bk = some v ∧
      allocStore cfg b (commitStore cfg (evictRetired bk v) req (effectiveMask req)) v req (effectiveMask req) =
        .accepted bk' c ∧ c = some .storeAllocs) := by
  unfold acceptStore at h
  simp only at h
  split at h
  case isTrue hm => cases h; exact .inl ⟨hm, rfl, rfl⟩
  case isFalse hm =>
    split at h
    · rename_i k hk
      refine .inr (.inl ⟨hm, k, hk, h, ?_⟩)
      simp only [mergeStore] at h; cases h; rfl
    · rename_i hnone
      split at h
      · cases h
      · rename_i v hv
        refine .inr (.inr ⟨hm, hnone, v, hv, h, ?_⟩)
        simp only [allocStore] at h
        split at h
        · cases h
        · cases h; rfl

/-- Everything the commit of a STORE can do (R140): the resident line by `write_update`, and the live READ LFB of
the block, if there is one. -/
theorem commitStore_spec (cfg : Config) (bk : Bank) (req : Request) (m : Nat) :
    (findLfb bk (cfg.block req.address) .read = none ∧
      commitStore cfg bk req m = writeUpdate cfg bk req.address m req.payload) ∨
    ∃ r, findLfb bk (cfg.block req.address) .read = some r ∧
      commitStore cfg bk req m =
        (writeUpdate cfg bk req.address m req.payload).setLfb r
          { bk.lfb r with
            data := overlay cfg.blockSize (bk.lfb r).data (cfg.offset req.address) m req.payload
            byteWriteMask := (bk.lfb r).byteWriteMask ||| m <<< cfg.offset req.address } := by
  have hfind : findLfb (writeUpdate cfg bk req.address m req.payload) (cfg.block req.address) .read =
      findLfb bk (cfg.block req.address) .read := by simp [findLfb]
  have hlfb : ∀ r, (writeUpdate cfg bk req.address m req.payload).lfb r = bk.lfb r := by simp [Bank.lfb]
  unfold commitStore
  simp only [hfind]
  split
  case h_1 r hr => exact .inr ⟨r, hr, by simp only [hlfb]⟩
  case h_2 hn => exact .inl ⟨hn, rfl⟩

/-- What a commit leaves alone: everything but the data array and one READ LFB's data and mask. -/
theorem commitStore_rest (cfg : Config) (bk : Bank) (req : Request) (m : Nat) :
    (commitStore cfg bk req m).tags = bk.tags ∧ (commitStore cfg bk req m).mq = bk.mq ∧
      (commitStore cfg bk req m).wbq = bk.wbq ∧ (commitStore cfg bk req m).wbActive = bk.wbActive ∧
      (commitStore cfg bk req m).rstage = bk.rstage ∧ (commitStore cfg bk req m).lfbArb = bk.lfbArb ∧
      (commitStore cfg bk req m).freeCount = bk.freeCount ∧
      (commitStore cfg bk req m).lfbs.length = bk.lfbs.length := by
  rcases commitStore_spec cfg bk req m with ⟨-, h⟩ | ⟨r, -, h⟩ <;> rw [h] <;> simp

/-- An LFB after a commit: only its data and its mask may differ, and only if it is a live READ LFB of the
block. -/
theorem commitStore_lfb (cfg : Config) (bk : Bank) (req : Request) (m j : Nat) :
    (commitStore cfg bk req m).lfb j = bk.lfb j ∨
    (findLfb bk (cfg.block req.address) .read = some j ∧
      (commitStore cfg bk req m).lfb j =
        { bk.lfb j with
          data := overlay cfg.blockSize (bk.lfb j).data (cfg.offset req.address) m req.payload
          byteWriteMask := (bk.lfb j).byteWriteMask ||| m <<< cfg.offset req.address }) := by
  rcases commitStore_spec cfg bk req m with ⟨-, h⟩ | ⟨r, hr, h⟩ <;> rw [h]
  · left; simp [Bank.lfb]
  · rw [Bank.lfb_setLfb]
    split
    · rename_i hj; right; exact ⟨hj.1 ▸ hr, by rw [hj.1]⟩
    · left; simp [Bank.lfb]

@[simp] theorem commitStore_lfb_state (cfg : Config) (bk : Bank) (req : Request) (m j : Nat) :
    ((commitStore cfg bk req m).lfb j).state = (bk.lfb j).state := by
  rcases commitStore_lfb cfg bk req m j with h | ⟨-, h⟩ <;> rw [h]
@[simp] theorem commitStore_lfb_type (cfg : Config) (bk : Bank) (req : Request) (m j : Nat) :
    ((commitStore cfg bk req m).lfb j).type = (bk.lfb j).type := by
  rcases commitStore_lfb cfg bk req m j with h | ⟨-, h⟩ <;> rw [h]
@[simp] theorem commitStore_lfb_blockAddress (cfg : Config) (bk : Bank) (req : Request) (m j : Nat) :
    ((commitStore cfg bk req m).lfb j).blockAddress = (bk.lfb j).blockAddress := by
  rcases commitStore_lfb cfg bk req m j with h | ⟨-, h⟩ <;> rw [h]
@[simp] theorem commitStore_lfb_subq (cfg : Config) (bk : Bank) (req : Request) (m j : Nat) :
    ((commitStore cfg bk req m).lfb j).subq = (bk.lfb j).subq := by
  rcases commitStore_lfb cfg bk req m j with h | ⟨-, h⟩ <;> rw [h]
@[simp] theorem commitStore_lfb_lru (cfg : Config) (bk : Bank) (req : Request) (m j : Nat) :
    ((commitStore cfg bk req m).lfb j).lru = (bk.lfb j).lru := by
  rcases commitStore_lfb cfg bk req m j with h | ⟨-, h⟩ <;> rw [h]
@[simp] theorem commitStore_lfb_pipeCount (cfg : Config) (bk : Bank) (req : Request) (m j : Nat) :
    ((commitStore cfg bk req m).lfb j).pipeCount = (bk.lfb j).pipeCount := by
  rcases commitStore_lfb cfg bk req m j with h | ⟨-, h⟩ <;> rw [h]
@[simp] theorem commitStore_lfb_live (cfg : Config) (bk : Bank) (req : Request) (m j : Nat) :
    ((commitStore cfg bk req m).lfb j).live = (bk.lfb j).live := by
  simp [Lfb.live]
@[simp] theorem commitStore_length (cfg : Config) (bk : Bank) (req : Request) (m : Nat) :
    (commitStore cfg bk req m).lfbs.length = bk.lfbs.length :=
  (commitStore_rest cfg bk req m).2.2.2.2.2.2.2

/-- What the ISSUED READ LFB of a block is (R43, R151). -/
theorem issuedLfb_eq_some {bk : Bank} {blk k : Nat} (h : issuedLfb bk blk = some k) :
    k < bk.lfbs.length ∧ (bk.lfb k).type = .read ∧ (bk.lfb k).state = .missed ∧ k ∉ bk.mq ∧
      (bk.lfb k).blockAddress = blk := by
  rw [issuedLfb, List.find?_range_eq_some] at h
  obtain ⟨hp, hk, -⟩ := h
  have hk : k < bk.lfbs.length := by simpa using hk
  simp only [Bank.issued, Bool.and_eq_true, decide_eq_true_eq, Bool.not_eq_true',
    List.contains_eq_mem, decide_eq_false_iff_not] at hp
  exact ⟨hk, hp.1.1, hp.1.2.1, hp.1.2.2, hp.2⟩

/-- Everything a fill that does not fault can do: fill the ISSUED READ LFB of its block (R152). -/
theorem fillBank_ok {cfg : Config} {b : Nat} {bk bk' : Bank} {r : Return} (h : fillBank cfg b bk r = .ok bk') :
    fillShaped cfg b r = true ∧
      ∃ k, issuedLfb bk r.address = some k ∧ r.dst.toNat = k ∧ bk' = fillLfb cfg bk k r.payload := by
  unfold fillBank at h
  split at h
  · rename_i hs
    split at h
    · cases h
    · rename_i k hk
      split at h
      · rename_i hd; cases h; exact ⟨hs, k, hk, hd, rfl⟩
      · cases h
  · cases h

/-- A LOAD_RETURN that is no fill raises BAD_FILL or UNMATCHED_FILL and nothing else (R151). -/
theorem fillBank_error {cfg : Config} {b : Nat} {bk : Bank} {r : Return} {c : FaultCode}
    (h : fillBank cfg b bk r = .error c) :
    (fillShaped cfg b r = false ∧ c = .badFill) ∨
    (fillShaped cfg b r = true ∧ c = .unmatchedFill ∧ issuedLfb bk r.address ≠ some r.dst.toNat) := by
  unfold fillBank at h
  split at h
  · rename_i hs
    split at h
    · rename_i hn; cases h; exact .inr ⟨hs, rfl, by simp [hn]⟩
    · rename_i k hk
      split at h
      · cases h
      · rename_i hd; cases h; exact .inr ⟨hs, rfl, by rw [hk]; simpa using fun e => hd e.symm⟩
  · rename_i hs; cases h; exact .inl ⟨by simpa using hs, rfl⟩

/-! ### The parts of an acceptance, LFB by LFB -/

/-- The fields of an LFB that an acceptance leaves alone in every LFB but the one it serves. -/
structure Lfb.SameRecord (l m : Lfb) : Prop where
  state : m.state = l.state
  type : m.type = l.type
  blockAddress : m.blockAddress = l.blockAddress
  subq : m.subq = l.subq
  pipeCount : m.pipeCount = l.pipeCount

theorem Lfb.SameRecord.refl (l : Lfb) : l.SameRecord l := ⟨rfl, rfl, rfl, rfl, rfl⟩

theorem Lfb.SameRecord.live {l m : Lfb} (h : l.SameRecord m) : m.live = l.live := by
  simp [Lfb.live, h.state]

theorem touchLfb_lfb_lru (bk : Bank) {k j : Nat} (hj : j < bk.lfbs.length) (hk : k < bk.lfbs.length) :
    ((touchLfb bk k).lfb j).lru = touchedAge k (bk.lfb k).lru j (bk.lfb j).lru := by
  rw [touchLfb_lfb, if_pos hj]
  simp [Bank.lfb, hk]

/-- A LOAD that takes slot `v`: the pool right after the allocation. -/
theorem newReadLfb_lfb (cfg : Config) (b : Nat) (bk : Bank) (v blk : Nat) (sr : SubReq) (j : Nat) :
    (newReadLfb cfg b bk v blk sr).lfb j =
      if v = j ∧ j < bk.lfbs.length then
        { state := .empty
          type := .read
          blockAddress := blk
          byteWriteMask := 0
          data := freeBlock cfg b bk.freeCount
          lru := (bk.lfb v).lru
          subq := [sr]
          pipeCount := 0 }
      else bk.lfb j := by
  show (bk.setLfb v _).lfb j = _
  rw [Bank.lfb_setLfb]

/-- A hit writes one LFB. -/
theorem hitLoad_lfb (cfg : Config) (bk : Bank) (v blk w j : Nat) :
    (hitLoad cfg bk v blk w).lfb j =
      if v = j ∧ j < bk.lfbs.length then
        { bk.lfb v with
          data := readLine cfg bk blk w
          state := if cfg.latency = 0 then .filled else .dataArray
          pipeCount := if cfg.latency = 0 then (bk.lfb v).pipeCount else cfg.latency }
      else bk.lfb j := by
  show (bk.setLfb v _).lfb j = _
  rw [Bank.lfb_setLfb]
  split
  · split <;> simp_all
  · rfl

/-- A hit leaves every other element of the bank alone but the ages of the set. -/
theorem hitLoad_rest (cfg : Config) (bk : Bank) (v blk w : Nat) :
    (hitLoad cfg bk v blk w).lfbs.length = bk.lfbs.length ∧ (hitLoad cfg bk v blk w).mq = bk.mq ∧
      (hitLoad cfg bk v blk w).wbq = bk.wbq ∧ (hitLoad cfg bk v blk w).wbActive = bk.wbActive ∧
      (hitLoad cfg bk v blk w).rstage = bk.rstage ∧ (hitLoad cfg bk v blk w).lfbArb = bk.lfbArb ∧
      (hitLoad cfg bk v blk w).data = bk.data ∧
      (hitLoad cfg bk v blk w).tags = bk.tags.set (cfg.set blk) (touchWays (bk.tagSet (cfg.set blk)) w) := by
  simp [hitLoad, Bank.tagSet]

/-- A miss writes one LFB: its state, and the pending bytes of a write-combining LFB of the block. -/
theorem missLoad_lfb (cfg : Config) (bk : Bank) (v blk j : Nat) :
    (missLoad cfg bk v blk).lfb j =
      if v = j ∧ j < bk.lfbs.length then
        match findLfb bk blk .writeCombining with
        | some c =>
          { bk.lfb v with
            byteWriteMask := (bk.lfb c).byteWriteMask
            data := overlay cfg.blockSize (bk.lfb v).data 0 (bk.lfb c).byteWriteMask (bk.lfb c).data
            state := .missed }
        | none => { bk.lfb v with state := .missed }
      else bk.lfb j := by
  unfold missLoad
  cases findLfb bk blk .writeCombining <;> exact Bank.lfb_setLfb bk v j _

/-- A miss leaves every other element of the bank alone but the miss queue. -/
theorem missLoad_rest (cfg : Config) (bk : Bank) (v blk : Nat) :
    (missLoad cfg bk v blk).lfbs.length = bk.lfbs.length ∧ (missLoad cfg bk v blk).mq = bk.mq ++ [v] ∧
      (missLoad cfg bk v blk).wbq = bk.wbq ∧ (missLoad cfg bk v blk).wbActive = bk.wbActive ∧
      (missLoad cfg bk v blk).rstage = bk.rstage ∧ (missLoad cfg bk v blk).lfbArb = bk.lfbArb ∧
      (missLoad cfg bk v blk).data = bk.data ∧ (missLoad cfg bk v blk).tags = bk.tags := by
  simp [missLoad]

/-- What a STORE that takes slot `v` leaves, when it is no duplicate (R141). -/
theorem allocStore_accepted {cfg : Config} {b : Nat} {bk bk' : Bank} {v : Nat} {req : Request} {m : Nat}
    {c : Option Counter} (h : allocStore cfg b bk v req m = .accepted bk' c) :
    bk'.lfbs.length = bk.lfbs.length ∧ bk'.mq = bk.mq ∧ bk'.wbq = bk.wbq ++ [v] ∧ bk'.wbActive = bk.wbActive ∧
      bk'.rstage = bk.rstage ∧ bk'.lfbArb = bk.lfbArb ∧ bk'.data = bk.data ∧ bk'.tags = bk.tags ∧
      bk' = touchLfb
        { bk.setLfb v
            { state := .filled
              type := .writeCombining
              blockAddress := cfg.block req.address
              byteWriteMask := m <<< cfg.offset req.address
              data := overlay cfg.blockSize (freeBlock cfg b bk.freeCount) (cfg.offset req.address) m req.payload
              lru := (bk.lfb v).lru
              subq := []
              pipeCount := 0 } with
          wbq := bk.wbq ++ [v]
          freeCount := bk.freeCount + 1 } v := by
  simp only [allocStore] at h
  split at h
  · cases h
  · cases h; simp

/-- What a STORE that merges into LFB `k` leaves (R142). -/
theorem mergeStore_accepted {cfg : Config} {bk bk' : Bank} {k : Nat} {req : Request} {m : Nat}
    {c : Option Counter} (h : mergeStore cfg bk k req m = .accepted bk' c) :
    bk' = touchLfb
      (bk.setLfb k
        { bk.lfb k with
          data := overlay cfg.blockSize (bk.lfb k).data (cfg.offset req.address) m req.payload
          byteWriteMask := (bk.lfb k).byteWriteMask ||| m <<< cfg.offset req.address }) k := by
  simp only [mergeStore] at h
  cases h; rfl

/-! ### An acceptance in one statement -/

/-- What an acceptance leaves of the LFB `v` that serves the request, and of the queues. -/
inductive ServedBy (cfg : Config) (bk bk' : Bank) (req : Request) (v : Nat) : Prop
  /-- R136. -/
  | mergedLoad (ht : req.type = .load) (hf : findLfb bk (cfg.block req.address) .read = some v)
      (hq : (bk.lfb v).subq.length ≠ cfg.subqDepth)
      (hl : bk'.lfb v = { bk.lfb v with
        subq := (bk.lfb v).subq ++ [subReqOf cfg req]
        state := if (bk.lfb v).state = .retired then .filled else (bk.lfb v).state
        lru := 0 })
      (hmq : bk'.mq = bk.mq) (hwbq : bk'.wbq = bk.wbq)
  /-- R137. -/
  | hit (ht : req.type = .load) (hf : findLfb bk (cfg.block req.address) .read = none)
      (hv : allocSlot bk = some v) (w : Nat) (hw : lookup cfg bk (cfg.block req.address) = some w)
      (hl : bk'.lfb v =
        { state := if cfg.latency = 0 then .filled else .dataArray
          type := .read
          blockAddress := cfg.block req.address
          byteWriteMask := 0
          data := readLine cfg bk (cfg.block req.address) w
          lru := 0
          subq := [subReqOf cfg req]
          pipeCount := cfg.latency })
      (hmq : bk'.mq = bk.mq) (hwbq : bk'.wbq = bk.wbq)
  /-- R138. -/
  | missed (ht : req.type = .load) (hf : findLfb bk (cfg.block req.address) .read = none)
      (hv : allocSlot bk = some v) (hw : lookup cfg bk (cfg.block req.address) = none)
      (hl : bk'.lfb v =
        { state := .missed
          type := .read
          blockAddress := cfg.block req.address
          byteWriteMask := (bk'.lfb v).byteWriteMask
          data := (bk'.lfb v).data
          lru := 0
          subq := [subReqOf cfg req]
          pipeCount := 0 })
      (hd : (bk'.lfb v).data.length = cfg.blockSize)
      (hmq : bk'.mq = bk.mq ++ [v]) (hwbq : bk'.wbq = bk.wbq)
  /-- R142. -/
  | mergedStore (ht : req.type ≠ .load) (hm : effectiveMask req ≠ 0)
      (hf : findLfb bk (cfg.block req.address) .writeCombining = some v)
      (hl : bk'.lfb v = { bk.lfb v with
        data := overlay cfg.blockSize (bk.lfb v).data (cfg.offset req.address) (effectiveMask req) req.payload
        byteWriteMask := (bk.lfb v).byteWriteMask ||| effectiveMask req <<< cfg.offset req.address
        lru := 0 })
      (hmq : bk'.mq = bk.mq) (hwbq : bk'.wbq = bk.wbq)
  /-- R141. -/
  | newStore (ht : req.type ≠ .load) (hm : effectiveMask req ≠ 0)
      (hf : findLfb bk (cfg.block req.address) .writeCombining = none) (hv : allocSlot bk = some v)
      (hl : bk'.lfb v =
        { state := .filled
          type := .writeCombining
          blockAddress := cfg.block req.address
          byteWriteMask := effectiveMask req <<< cfg.offset req.address
          data := (bk'.lfb v).data
          lru := 0
          subq := []
          pipeCount := 0 })
      (hd : (bk'.lfb v).data = overlay cfg.blockSize (bk'.lfb v).data (cfg.offset req.address)
        (effectiveMask req) req.payload)
      (hmq : bk'.mq = bk.mq) (hwbq : bk'.wbq = bk.wbq ++ [v])

/-- What an acceptance that is not a zero-mask STORE leaves of a bank. -/
structure Served (cfg : Config) (bk bk' : Bank) (req : Request) (v : Nat) : Prop where
  inPool : v < bk.lfbs.length
  count : bk'.lfbs.length = bk.lfbs.length
  wbActive : bk'.wbActive = bk.wbActive
  rstage : bk'.rstage = bk.rstage
  lfbArb : bk'.lfbArb = bk.lfbArb
  others : ∀ j, j ≠ v → (bk.lfb j).SameRecord (bk'.lfb j)
  /-- Every other LFB keeps its data and mask, but a live READ LFB of a STORE's block takes its bytes (R140). -/
  otherData : ∀ j, j ≠ v →
    ((bk'.lfb j).data = (bk.lfb j).data ∧ (bk'.lfb j).byteWriteMask = (bk.lfb j).byteWriteMask) ∨
    (req.type ≠ .load ∧
      (bk'.lfb j).data =
        overlay cfg.blockSize (bk.lfb j).data (cfg.offset req.address) (effectiveMask req) req.payload ∧
      (bk'.lfb j).byteWriteMask =
        ((bk.lfb j).byteWriteMask ||| effectiveMask req <<< cfg.offset req.address))
  ages : ∀ j < bk.lfbs.length, (bk'.lfb j).lru = touchedAge v (bk.lfb v).lru j (bk.lfb j).lru
  tags : bk'.tags = bk.tags ∨ ∃ w, lookup cfg bk (cfg.block req.address) = some w ∧
    bk'.tags = bk.tags.set (cfg.set (cfg.block req.address))
      (touchWays (bk.tagSet (cfg.set (cfg.block req.address))) w)
  data : bk'.data = bk.data ∨ (req.type ≠ .load ∧ ∃ w, lookup cfg bk req.address = some w ∧
    bk'.data = bk.data.set (cfg.set req.address) ((bk.data.getD (cfg.set req.address) []).set w
      (overlay cfg.blockSize (readLine cfg bk req.address w) (cfg.offset req.address) (effectiveMask req)
        req.payload)))
  by_ : ServedBy cfg bk bk' req v

/-! ### Every acceptance is a zero-mask STORE or a `Served` -/

theorem touchedAge_self (x old age : Nat) : touchedAge x old x age = 0 := by
  simp [touchedAge]

/-- An LFB the slot search passes over is as before its eviction; an evicted one keeps its age. -/
theorem evictRetired_served (bk : Bank) (v j : Nat) (h : j ≠ v) : (evictRetired bk v).lfb j = bk.lfb j :=
  evictRetired_lfb_ne bk (Ne.symm h)

theorem Served.of_hit {cfg : Config} {b : Nat} {bk : Bank} {req : Request} {v w : Nat} (ht : req.type = .load)
    (hf : findLfb bk (cfg.block req.address) .read = none) (hv : allocSlot bk = some v)
    (hw : lookup cfg bk (cfg.block req.address) = some w) :
    Served cfg bk
      (hitLoad cfg (touchLfb (newReadLfb cfg b (evictRetired bk v) v (cfg.block req.address) (subReqOf cfg req)) v)
        v (cfg.block req.address) w) req v := by
  have hin := (allocSlot_eq_some hv).1
  have hn : (newReadLfb cfg b (evictRetired bk v) v (cfg.block req.address) (subReqOf cfg req)).lfbs.length =
      bk.lfbs.length := by simp [newReadLfb]
  have hread : ∀ (bk1 bk2 : Bank), bk1.data = bk2.data → ∀ a w, readLine cfg bk1 a w = readLine cfg bk2 a w := by
    intro bk1 bk2 h a w; simp [readLine, h]
  obtain ⟨r1, r2, r3, r4, r5, r6, r7, r8⟩ := hitLoad_rest cfg
    (touchLfb (newReadLfb cfg b (evictRetired bk v) v (cfg.block req.address) (subReqOf cfg req)) v)
    v (cfg.block req.address) w
  have hlru : ∀ j, ((newReadLfb cfg b (evictRetired bk v) v (cfg.block req.address) (subReqOf cfg req)).lfb j).lru =
      (bk.lfb j).lru := by
    intro j; rw [newReadLfb_lfb]; split
    · rename_i h; simp [h.1]
    · simp
  refine ⟨hin, by rw [r1]; simpa using hn, by rw [r4]; simp [newReadLfb], by rw [r5]; simp [newReadLfb],
    by rw [r6]; simp [newReadLfb], ?_, ?_, ?_, ?_, ?_, ?_⟩
  · intro j hj
    rw [hitLoad_lfb, if_neg (fun h => hj h.1.symm)]
    have : (newReadLfb cfg b (evictRetired bk v) v (cfg.block req.address) (subReqOf cfg req)).lfb j = bk.lfb j := by
      rw [newReadLfb_lfb, if_neg (fun h => hj h.1.symm), evictRetired_served _ _ _ hj]
    constructor <;> simp [this]
  · intro j hj
    left
    rw [hitLoad_lfb, if_neg (fun h => hj h.1.symm)]
    have : (newReadLfb cfg b (evictRetired bk v) v (cfg.block req.address) (subReqOf cfg req)).lfb j = bk.lfb j := by
      rw [newReadLfb_lfb, if_neg (fun h => hj h.1.symm), evictRetired_served _ _ _ hj]
    simp [this]
  · intro j hj
    have hage := touchLfb_lfb_lru
      (newReadLfb cfg b (evictRetired bk v) v (cfg.block req.address) (subReqOf cfg req))
      (k := v) (j := j) (by omega) (by omega)
    rw [hlru, hlru] at hage
    rw [hitLoad_lfb]
    split
    · rename_i h; rw [← h.1] at hage ⊢; exact hage
    · exact hage
  · right
    refine ⟨w, hw, ?_⟩
    rw [r8]; simp [newReadLfb, Bank.tagSet]
  · left; rw [r7]; simp [newReadLfb]
  · refine .hit ht hf hv w hw ?_ (by rw [r2]; simp [newReadLfb]) (by rw [r3]; simp [newReadLfb])
    have hpc : ∀ x : Nat, (if cfg.latency = 0 then 0 else x) = if cfg.latency = 0 then cfg.latency else x := by
      intro x; split <;> simp_all
    have hage := touchLfb_lfb_lru
      (newReadLfb cfg b (evictRetired bk v) v (cfg.block req.address) (subReqOf cfg req))
      (k := v) (j := v) (by omega) (by omega)
    rw [touchedAge_self] at hage
    have hin' : v < (evictRetired bk v).lfbs.length := by simpa using hin
    rw [hitLoad_lfb, if_pos ⟨rfl, by simpa using (hn ▸ hin)⟩]
    rw [hread _ bk (by simp [newReadLfb])]
    simp only [hage, touchLfb_lfb_type, touchLfb_lfb_blockAddress, touchLfb_lfb_byteWriteMask, touchLfb_lfb_subq,
      touchLfb_lfb_pipeCount, newReadLfb_lfb, hin', and_self, if_true, hpc, ite_self]

theorem Served.of_miss {cfg : Config} {b : Nat} {bk : Bank} {req : Request} {v : Nat} (ht : req.type = .load)
    (hf : findLfb bk (cfg.block req.address) .read = none) (hv : allocSlot bk = some v)
    (hw : lookup cfg bk (cfg.block req.address) = none) :
    Served cfg bk
      (missLoad cfg (touchLfb (newReadLfb cfg b (evictRetired bk v) v (cfg.block req.address) (subReqOf cfg req)) v)
        v (cfg.block req.address)) req v := by
  have hin := (allocSlot_eq_some hv).1
  have hn : (newReadLfb cfg b (evictRetired bk v) v (cfg.block req.address) (subReqOf cfg req)).lfbs.length =
      bk.lfbs.length := by simp [newReadLfb]
  obtain ⟨r1, r2, r3, r4, r5, r6, r7, r8⟩ := missLoad_rest cfg
    (touchLfb (newReadLfb cfg b (evictRetired bk v) v (cfg.block req.address) (subReqOf cfg req)) v)
    v (cfg.block req.address)
  have hlru : ∀ j, ((newReadLfb cfg b (evictRetired bk v) v (cfg.block req.address) (subReqOf cfg req)).lfb j).lru =
      (bk.lfb j).lru := by
    intro j; rw [newReadLfb_lfb]; split
    · rename_i h; simp [h.1]
    · simp
  refine ⟨hin, by rw [r1]; simpa using hn, by rw [r4]; simp [newReadLfb], by rw [r5]; simp [newReadLfb],
    by rw [r6]; simp [newReadLfb], ?_, ?_, ?_, ?_, ?_, ?_⟩
  · intro j hj
    rw [missLoad_lfb, if_neg (fun h => hj h.1.symm)]
    have : (newReadLfb cfg b (evictRetired bk v) v (cfg.block req.address) (subReqOf cfg req)).lfb j = bk.lfb j := by
      rw [newReadLfb_lfb, if_neg (fun h => hj h.1.symm), evictRetired_served _ _ _ hj]
    constructor <;> simp [this]
  · intro j hj
    left
    rw [missLoad_lfb, if_neg (fun h => hj h.1.symm)]
    have : (newReadLfb cfg b (evictRetired bk v) v (cfg.block req.address) (subReqOf cfg req)).lfb j = bk.lfb j := by
      rw [newReadLfb_lfb, if_neg (fun h => hj h.1.symm), evictRetired_served _ _ _ hj]
    simp [this]
  · intro j hj
    have hage := touchLfb_lfb_lru
      (newReadLfb cfg b (evictRetired bk v) v (cfg.block req.address) (subReqOf cfg req))
      (k := v) (j := j) (by omega) (by omega)
    rw [hlru, hlru] at hage
    rw [missLoad_lfb]
    split
    · rename_i h; rw [← h.1] at hage ⊢; split <;> exact hage
    · exact hage
  · left; rw [r8]; simp [newReadLfb]
  · left; rw [r7]; simp [newReadLfb]
  · have hage := touchLfb_lfb_lru
      (newReadLfb cfg b (evictRetired bk v) v (cfg.block req.address) (subReqOf cfg req))
      (k := v) (j := v) (by omega) (by omega)
    rw [touchedAge_self] at hage
    have hin' : v < (evictRetired bk v).lfbs.length := by simpa using hin
    have hcond : v = v ∧ v < (touchLfb (newReadLfb cfg b (evictRetired bk v) v (cfg.block req.address)
        (subReqOf cfg req)) v).lfbs.length := ⟨rfl, by simpa using (hn ▸ hin)⟩
    refine .missed ht hf hv hw ?_ ?_ (by rw [r2]; simp [newReadLfb]) (by rw [r3]; simp [newReadLfb])
    · rw [missLoad_lfb, if_pos hcond]
      split <;>
      simp only [hage, touchLfb_lfb_type, touchLfb_lfb_blockAddress, touchLfb_lfb_subq,
        touchLfb_lfb_pipeCount, newReadLfb_lfb, hin', and_self, if_true]
    · rw [missLoad_lfb, if_pos hcond]
      split
      · simp
      · simp [newReadLfb_lfb, hin, freeBlock]

theorem Served.of_mergeLoad {cfg : Config} {bk : Bank} {req : Request} {k : Nat} (ht : req.type = .load)
    (hf : findLfb bk (cfg.block req.address) .read = some k) (hq : (bk.lfb k).subq.length ≠ cfg.subqDepth) :
    Served cfg bk
      (touchLfb
        (bk.setLfb k
          { bk.lfb k with
            subq := (bk.lfb k).subq ++ [subReqOf cfg req]
            state := if (bk.lfb k).state = .retired then .filled else (bk.lfb k).state }) k) req k := by
  have hin := (findLfb_eq_some hf).1
  have hage : ∀ l : Lfb, l.lru = (bk.lfb k).lru → ∀ j < bk.lfbs.length,
      ((touchLfb (bk.setLfb k l) k).lfb j).lru = touchedAge k (bk.lfb k).lru j (bk.lfb j).lru := by
    intro l hl j hj
    rw [touchLfb_lfb_lru _ (by simpa using hj) (by simpa using hin)]
    simp only [Bank.lfb_setLfb]
    simp only [hin, and_self, if_true, hl]
    split
    · rename_i h; rw [← h.1, hl]
    · rfl
  refine ⟨hin, by simp, rfl, rfl, rfl, ?_, ?_, hage _ rfl, .inl rfl, .inl rfl, ?_⟩
  · intro j hj
    have : k ≠ j := fun h => hj h.symm
    constructor <;> simp [Bank.lfb_setLfb, this]
  · intro j hj
    have : k ≠ j := fun h => hj h.symm
    left; simp [Bank.lfb_setLfb, this]
  · refine .mergedLoad ht hf hq ?_ rfl rfl
    have h0 := hage { bk.lfb k with
            subq := (bk.lfb k).subq ++ [subReqOf cfg req]
            state := if (bk.lfb k).state = .retired then .filled else (bk.lfb k).state } rfl k hin
    rw [touchedAge_self] at h0
    rw [touchLfb_lfb, if_pos (by simpa using hin)] at h0 ⊢
    rw [Bank.lfb_setLfb, if_pos ⟨rfl, hin⟩] at h0 ⊢
    exact congrArg (fun n => { bk.lfb k with
            subq := (bk.lfb k).subq ++ [subReqOf cfg req]
            state := if (bk.lfb k).state = LfbState.retired then LfbState.filled else (bk.lfb k).state
            lru := n }) h0

/-- The data array and the tags after a commit. -/
theorem commitStore_data (cfg : Config) (bk : Bank) (req : Request) (m : Nat) :
    (commitStore cfg bk req m).data = bk.data ∨ ∃ w, lookup cfg bk req.address = some w ∧
      (commitStore cfg bk req m).data = bk.data.set (cfg.set req.address)
        ((bk.data.getD (cfg.set req.address) []).set w
          (overlay cfg.blockSize (readLine cfg bk req.address w) (cfg.offset req.address) m req.payload)) := by
  have h : (commitStore cfg bk req m).data = (writeUpdate cfg bk req.address m req.payload).data := by
    rcases commitStore_spec cfg bk req m with ⟨-, h⟩ | ⟨r, -, h⟩ <;> rw [h]; rfl
  rw [h]
  rcases writeUpdate_spec cfg bk req.address m req.payload with ⟨-, h⟩ | ⟨w, hw, h⟩
  · left; rw [h]
  · right; exact ⟨w, hw, by rw [h]⟩

theorem Served.of_mergeStore {cfg : Config} {bk bk' : Bank} {req : Request} {k : Nat} {c : Option Counter}
    (ht : req.type ≠ .load) (hm : effectiveMask req ≠ 0)
    (hf : findLfb bk (cfg.block req.address) .writeCombining = some k)
    (h : mergeStore cfg (commitStore cfg bk req (effectiveMask req)) k req (effectiveMask req) =
      .accepted bk' c) :
    Served cfg bk bk' req k := by
  obtain ⟨hin, hlive, htk, hbk⟩ := findLfb_eq_some hf
  obtain ⟨q1, q2, q3, q4, q5, q6, q7, q8⟩ := commitStore_rest cfg bk req (effectiveMask req)
  have hk : (commitStore cfg bk req (effectiveMask req)).lfb k = bk.lfb k := by
    rcases commitStore_lfb cfg bk req (effectiveMask req) k with h | ⟨h, -⟩
    · exact h
    · rw [(findLfb_eq_some h).2.2.1] at htk; cases htk
  have h := mergeStore_accepted h
  rw [hk] at h
  subst h
  have hage : ∀ l : Lfb, l.lru = (bk.lfb k).lru → ∀ j < bk.lfbs.length,
      ((touchLfb ((commitStore cfg bk req (effectiveMask req)).setLfb k l) k).lfb j).lru =
        touchedAge k (bk.lfb k).lru j (bk.lfb j).lru := by
    intro l hl j hj
    rw [touchLfb_lfb_lru _ (by simpa using hj) (by simpa using hin)]
    simp only [Bank.lfb_setLfb, q8]
    simp only [hin, and_self, if_true, hl]
    split
    · rename_i h; rw [← h.1, hl]
    · simp
  refine ⟨hin, by simp, by simpa using q4, by simpa using q5, by simpa using q6, ?_, ?_, hage _ rfl,
    .inl (by simpa using q1), ?_, ?_⟩
  · intro j hj
    have : k ≠ j := fun h => hj h.symm
    constructor <;> simp [Bank.lfb_setLfb, this]
  · intro j hj
    have : k ≠ j := fun h => hj h.symm
    simp only [touchLfb_lfb_data, touchLfb_lfb_byteWriteMask, Bank.lfb_setLfb, this, false_and, if_false]
    rcases commitStore_lfb cfg bk req (effectiveMask req) j with h | ⟨-, h⟩ <;> rw [h]
    · left; exact ⟨rfl, rfl⟩
    · right; exact ⟨ht, rfl, rfl⟩
  · rcases commitStore_data cfg bk req (effectiveMask req) with h | h
    · left; simpa using h
    · right; exact ⟨ht, by simpa using h⟩
  · refine .mergedStore ht hm hf ?_ (by simpa using q2) (by simpa using q3)
    have h0 := hage { bk.lfb k with
        data := overlay cfg.blockSize (bk.lfb k).data (cfg.offset req.address) (effectiveMask req) req.payload
        byteWriteMask := (bk.lfb k).byteWriteMask ||| effectiveMask req <<< cfg.offset req.address } rfl k hin
    rw [touchedAge_self] at h0
    rw [touchLfb_lfb, if_pos (by simpa using hin)] at h0 ⊢
    rw [Bank.lfb_setLfb, if_pos ⟨rfl, by rw [q8]; exact hin⟩] at h0 ⊢
    exact congrArg (fun n => { bk.lfb k with
        data := overlay cfg.blockSize (bk.lfb k).data (cfg.offset req.address) (effectiveMask req) req.payload
        byteWriteMask := (bk.lfb k).byteWriteMask ||| effectiveMask req <<< cfg.offset req.address
        lru := n }) h0

theorem overlay_overlay (n : Nat) (dst : Block) (off mask : Nat) (src : Block) :
    overlay n (overlay n dst off mask src) off mask src = overlay n dst off mask src := by
  unfold overlay tabulate
  apply List.map_congr_left
  intro i hi
  have hi : i < n := by simpa using hi
  split
  · rfl
  · rename_i h
    have := overlay_getD n dst off mask src i
    rw [if_pos hi, if_neg h] at this
    exact this

theorem Served.of_newStore {cfg : Config} {b : Nat} {bk bk' : Bank} {req : Request} {v : Nat}
    {c : Option Counter} (ht : req.type ≠ .load) (hm : effectiveMask req ≠ 0)
    (hf : findLfb bk (cfg.block req.address) .writeCombining = none) (hv : allocSlot bk = some v)
    (h : allocStore cfg b (commitStore cfg (evictRetired bk v) req (effectiveMask req)) v req (effectiveMask req) =
      .accepted bk' c) :
    Served cfg bk bk' req v := by
  have hin := (allocSlot_eq_some hv).1
  obtain ⟨q1, q2, q3, q4, q5, q6, q7, q8⟩ := commitStore_rest cfg (evictRetired bk v) req (effectiveMask req)
  obtain ⟨a1, a2, a3, a4, a5, a6, a7, a8, a9⟩ := allocStore_accepted h
  have hlen : (commitStore cfg (evictRetired bk v) req (effectiveMask req)).lfbs.length = bk.lfbs.length := by
    rw [q8]; simp
  have hset : ∀ (X : Bank) (wbq : List Nat) (fc : Nat) (j : Nat),
      ({ X with wbq := wbq, freeCount := fc } : Bank).lfb j = X.lfb j := fun _ _ _ _ => rfl
  have hage : ∀ j < bk.lfbs.length, (bk'.lfb j).lru = touchedAge v (bk.lfb v).lru j (bk.lfb j).lru := by
    intro j hj
    rw [a9, touchLfb_lfb_lru _ (by simpa [hlen] using hj) (by simpa [hlen] using hin)]
    simp only [hset, Bank.lfb_setLfb, hlen, hin, and_self, if_true, commitStore_lfb_lru, evictRetired_lru]
    split
    · rename_i h; rw [← h.1]
    · simp
  refine ⟨hin, by rw [a1, hlen], by rw [a4, q4]; simp, by rw [a5, q5]; simp, by rw [a6, q6]; simp, ?_, ?_, hage,
    .inl (by rw [a8, q1]; simp), ?_, ?_⟩
  · intro j hj
    have hvj : v ≠ j := fun h => hj h.symm
    have hev := evictRetired_served bk v j hj
    rw [a9]
    constructor <;>
      simp only [touchLfb_lfb_state, touchLfb_lfb_type, touchLfb_lfb_blockAddress, touchLfb_lfb_subq,
        touchLfb_lfb_pipeCount, hset, Bank.lfb_setLfb, hvj, false_and, if_false, commitStore_lfb_state,
        commitStore_lfb_type, commitStore_lfb_blockAddress, commitStore_lfb_subq, commitStore_lfb_pipeCount, hev]
  · intro j hj
    have hvj : v ≠ j := fun h => hj h.symm
    have hev := evictRetired_served bk v j hj
    rw [a9]
    simp only [touchLfb_lfb_data, touchLfb_lfb_byteWriteMask, hset, Bank.lfb_setLfb, hvj, false_and, if_false]
    rcases commitStore_lfb cfg (evictRetired bk v) req (effectiveMask req) j with h | ⟨-, h⟩ <;> rw [h, hev]
    · left; exact ⟨rfl, rfl⟩
    · right; exact ⟨ht, rfl, rfl⟩
  · rw [a7]
    rcases commitStore_data cfg (evictRetired bk v) req (effectiveMask req) with h | ⟨w, hw, h⟩
    · left; rw [h]; simp
    · right
      refine ⟨ht, w, by rw [← hw]; exact lookup_congr cfg (by simp) _, ?_⟩
      rw [h]; simp [readLine]
  · refine .newStore ht hm hf hv ?_ ?_ (by rw [a2, q2]; simp) (by rw [a3, q3]; simp)
    · have h0 := hage v hin
      rw [touchedAge_self] at h0
      have hv' : v < (commitStore cfg (evictRetired bk v) req (effectiveMask req)).lfbs.length := by
        rw [hlen]; exact hin
      rw [a9] at h0 ⊢
      rw [touchLfb_lfb, if_pos (by simpa [hlen] using hin)] at h0 ⊢
      simp only [hset, Bank.lfb_setLfb, hv', and_self, if_true] at h0 ⊢
      rw [h0]
    · have hv' : v < (commitStore cfg (evictRetired bk v) req (effectiveMask req)).lfbs.length := by
        rw [hlen]; exact hin
      rw [a9]
      simp only [touchLfb_lfb_data, hset, Bank.lfb_setLfb, hv', and_self, if_true, overlay_overlay]

/-- Everything an accepted request can do to a bank. -/
theorem acceptRequest_served {cfg : Config} {b : Nat} {bk bk' : Bank} {req : Request} {c : Option Counter}
    (h : acceptRequest cfg b bk req = .accepted bk' c) :
    (req.type ≠ .load ∧ effectiveMask req = 0 ∧ bk' = bk ∧ c = none) ∨ ∃ v, Served cfg bk bk' req v := by
  unfold acceptRequest at h
  split at h
  · rename_i ht
    right
    rcases acceptLoad_accepted h with ⟨k, hk, hq, -, rfl⟩ | ⟨v, hn, hv, -, h⟩
    · exact ⟨k, .of_mergeLoad ht hk hq⟩
    · rcases h with ⟨w, hw, -, rfl⟩ | ⟨hw, -, rfl⟩
      · exact ⟨v, .of_hit ht hn hv hw⟩
      · exact ⟨v, .of_miss ht hn hv hw⟩
  · rename_i ht
    rcases acceptStore_accepted h with ⟨hm, hb, hc⟩ | ⟨hm, k, hk, h, -⟩ | ⟨hm, hn, v, hv, h, -⟩
    · exact .inl ⟨ht, hm, hb, hc⟩
    · exact .inr ⟨k, .of_mergeStore ht hm hk h⟩
    · exact .inr ⟨v, .of_newStore ht hm hn hv h⟩

end Sys2Proof.Machine
end

