-- ==== Sys2Proof/Laws/Moves.lean ====
section
/-! SUPPORT. What one operation can do to a bank, said once: a sequence of the moves of `BankMove`. An invariant
of a bank that every move keeps is kept by every step (`exec_moves`, `step_moves`). -/

namespace Sys2Proof.Machine

/-- One move of bank `b`. -/
inductive BankMove (cfg : Config) (b : Nat) : Bank → Bank → Prop
  /-- The pipeline advance (44_bank_accept.md R133). -/
  | pipe (bk : Bank) : BankMove cfg b bk (pipelineAdvance bk)
  /-- The write-back hand-off (R134). -/
  | handOff {bk bk' : Bank} (h : handOff bk = some bk') : BankMove cfg b bk bk'
  /-- An accepted request (R135). -/
  | accept {bk bk' : Bank} {req : Request} {c : Option Counter}
      (h : acceptRequest cfg b bk req = .accepted bk' c) : BankMove cfg b bk bk'
  /-- A fill (45_bank_fill.md R151, R152). -/
  | fill {bk bk' : Bank} {r : Return} (h : fillBank cfg b bk r = .ok bk') : BankMove cfg b bk bk'
  /-- A downstream request (46_bank_issue.md R157). -/
  | issue {bk : Bank} {i : Issue} (h : due cfg b bk = some i) : BankMove cfg b bk i.bank
  /-- The sub-request return (R161). -/
  | ret (bk : Bank) : BankMove cfg b bk (returnStep cfg bk)
  /-- The return crossbar empties the return stage (42_crossbar.md R118). -/
  | unstage (bk : Bank) : BankMove cfg b bk { bk with rstage := none }
  /-- An arbitrator operation on `LFB_ARB[b]` (41_round_robin.md R106 to R108). -/
  | arb (bk : Bank) (a : Arb) (h : bk.lfbArb.Fits cfg.numLfbs → a.Fits cfg.numLfbs) :
      BankMove cfg b bk { bk with lfbArb := a }

/-- From `s` to `t` the configuration stays and every bank makes moves only. -/
structure Moves (s t : State) : Prop where
  cfg : t.cfg = s.cfg
  count : t.banks.length = s.banks.length
  banks : ∀ b, Relation.ReflTransGen (BankMove s.cfg b) (s.bank b) (t.bank b)

theorem Moves.of_banks {s t : State} (hc : t.cfg = s.cfg) (hb : t.banks = s.banks) : Moves s t :=
  ⟨hc, by rw [hb], fun b => by simp only [State.bank, hb]; exact .refl⟩

theorem Moves.refl (s : State) : Moves s s := .of_banks rfl rfl

theorem Moves.trans {s t u : State} (h : Moves s t) (g : Moves t u) : Moves s u :=
  ⟨g.cfg.trans h.cfg, g.count.trans h.count, fun b => (h.banks b).trans (h.cfg ▸ g.banks b)⟩

/-- A predicate that every move keeps is kept by a sequence of them. -/
theorem Moves.keep {s t : State} (h : Moves s t) {b : Nat} {P : Bank → Prop}
    (hP : ∀ bk bk', BankMove s.cfg b bk bk' → P bk → P bk') (hs : P (s.bank b)) : P (t.bank b) := by
  have hr := h.banks b
  generalize t.bank b = u at hr
  induction hr with
  | refl => exact hs
  | tail _ hm ih => exact hP _ _ hm ih

/-- Writing a bank what one move makes of it. -/
theorem Moves.setBank {s : State} {b : Nat} {bk : Bank} (h : BankMove s.cfg b (s.bank b) bk) :
    Moves s (s.setBank b bk) := by
  refine ⟨rfl, by simp, fun c => ?_⟩
  rw [State.bank_setBank]
  split
  · rename_i hb; rw [← hb.1]; exact .single h
  · exact .refl

/-! ### The rise -/

theorem acceptStep_moves {b : Nat} {s t : State} (h : acceptStep b s = .ok t) : Moves s t := by
  unfold acceptStep at h
  split at h
  · cases h; exact .refl _
  · split at h
    · cases h; exact .refl _
    · split at h
      · cases h; exact .of_banks rfl rfl
      · cases h
      · rename_i bk c ha
        have hm : Moves s (s.setBank b bk) := .setBank (.accept ha)
        split at h <;> cases h <;> exact hm.trans (.of_banks rfl rfl)

theorem fillStep_moves {b : Nat} {s t : State} (h : fillStep b s = .ok t) : Moves s t := by
  unfold fillStep at h
  split at h
  · cases h; exact .refl _
  · simp only at h
    split at h
    · rename_i bk hf
      cases h
      exact (Moves.of_banks (s := s) (t := s.dsPop b) rfl rfl).trans (.setBank (.fill hf))
    · cases h

theorem handOffOrAccept_moves {b : Nat} {s t : State} (h : handOffOrAccept b s = .ok t) : Moves s t := by
  unfold handOffOrAccept at h
  split at h
  · rename_i bk hb; cases h; exact .setBank (.handOff hb)
  · exact acceptStep_moves h

theorem riseBank_moves {b : Nat} {s t : State} (h : riseBank b s = .ok t) : Moves s t := by
  unfold riseBank at h
  split at h
  · rename_i u hu
    exact ((Moves.setBank (.pipe _)).trans (handOffOrAccept_moves hu)).trans (fillStep_moves h)
  · cases h

theorem riseBanks_moves {bs : List Nat} {s t : State} (h : riseBanks bs s = .ok t) : Moves s t := by
  induction bs generalizing s with
  | nil => cases h; exact .refl _
  | cons b bs ih =>
    rw [riseBanks] at h
    split at h
    · rename_i u hu; exact (riseBank_moves hu).trans (ih h)
    · cases h

theorem registerPort_moves (s : State) (i : Nat) : Moves s (registerPort s i) := by
  unfold registerPort; split
  · exact .refl _
  · exact .of_banks rfl rfl

theorem foldl_moves {f : State → Nat → State} (hf : ∀ s i, Moves s (f s i)) (l : List Nat) (s : State) :
    Moves s (l.foldl f s) := by
  induction l generalizing s with
  | nil => exact .refl _
  | cons i l ih => exact (hf s i).trans (ih _)

theorem registerRequests_moves (s : State) : Moves s (registerRequests s) :=
  (foldl_moves registerPort_moves _ s).trans (.of_banks rfl rfl)

/-! ### The fall -/

theorem issueStep_moves (b : Nat) (s : State) : Moves s (issueStep b s) := by
  rcases issueStep_spec b s with h | ⟨i, -, hi, h⟩ <;> rw [h]
  · exact .refl _
  · have h1 : Moves s (s.dsWrite b i.request) := .of_banks rfl rfl
    have h2 : Moves (s.dsWrite b i.request) ((s.dsWrite b i.request).setBank b i.bank) := .setBank (.issue hi)
    exact (h1.trans h2).trans (.of_banks rfl rfl)

theorem fallBank_moves (b : Nat) (s : State) : Moves s (fallBank b s) :=
  (issueStep_moves b s).trans (.setBank (.ret _))

theorem fallBanks_moves (bs : List Nat) (s : State) : Moves s (fallBanks bs s) :=
  foldl_moves (fun s b => fallBank_moves b s) bs s

theorem routePort_moves (s : State) (p : Nat) : Moves s (routePort s p) := by
  unfold routePort
  simp only
  split
  · exact (Moves.setBank (.unstage _)).trans (.of_banks rfl rfl)
  · exact .of_banks rfl rfl

theorem routeReturns_moves (s : State) : Moves s (routeReturns s) :=
  foldl_moves routePort_moves _ s

/-! ### The operations -/

theorem whenRunning_next {s t : State} {op : State → Result} (h : s.whenRunning op = .next t) :
    (s.fault.isSome = true ∧ t = { s with resp := .nothing }) ∨ (s.fault = none ∧ op s = .next t) := by
  unfold State.whenRunning at h
  split at h
  · rename_i hf; cases h; exact .inl ⟨hf, rfl⟩
  · rename_i hf; exact .inr ⟨by simpa using hf, h⟩

theorem whenRunning_moves {s t : State} {op : State → Result} (h : s.whenRunning op = .next t)
    (hop : op s = .next t → Moves s t) : Moves s t := by
  rcases whenRunning_next h with ⟨-, rfl⟩ | ⟨-, h⟩
  · exact .of_banks rfl rfl
  · exact hop h

theorem raise_moves {s t : State} {c : FaultCode} (h : s.raise c = .next t) : Moves s t := by
  cases h; exact .of_banks rfl rfl

theorem finish_moves {s t : State} {r : Response} (h : s.finish r = .next t) : Moves s t := by
  cases h; exact .of_banks rfl rfl

theorem onPort_moves {s t : State} {port : BitVec 16} {ph : Phase} {op : State → Result}
    (h : s.onPort port ph op = .next t) (hop : op s = .next t → Moves s t) : Moves s t := by
  refine whenRunning_moves h fun h => ?_
  split at h
  · exact raise_moves h
  · split at h
    · exact raise_moves h
    · exact hop h

theorem writeRequest_moves {s t : State} {port : BitVec 16} {req : Request}
    (h : s.writeRequest port req = .next t) : Moves s t := by
  refine onPort_moves h fun h => ?_
  repeat' split at h
  all_goals first | exact raise_moves h | (cases h; exact .of_banks rfl rfl)

theorem receive_moves {s t : State} {q : BitVec 16} {r : Return} (h : s.receive q r = .next t) : Moves s t := by
  refine whenRunning_moves h fun h => ?_
  split at h <;> cases h <;> exact .of_banks rfl rfl

theorem writeDownstream_moves {s t : State} {req : Request} (h : s.writeDownstream req = .next t) :
    Moves s t := by
  refine whenRunning_moves h fun h => ?_
  split at h
  · exact finish_moves h
  · split at h
    · cases h; exact (issueStep_moves _ s).trans (.of_banks rfl rfl)
    · exact finish_moves h

/-- Writing an arbitrator of the state what keeps its width. -/
theorem setArb_moves (s : State) (a : ArbRef) (v : Arb)
    (h : (s.arb a).Fits (s.cfg.arbWidth a) → v.Fits (s.cfg.arbWidth a)) : Moves s (s.setArb a v) := by
  cases a with
  | xreq b => exact .of_banks rfl rfl
  | xret p => exact .of_banks rfl rfl
  | lfb b => exact .setBank (.arb _ _ h)

theorem onArb_moves {s t : State} {a : ArbRef} {op : State → Result} (h : s.onArb a op = .next t)
    (hop : op s = .next t → Moves s t) : Moves s t := by
  refine whenRunning_moves h fun h => ?_
  split at h
  · cases h
  · exact hop h

theorem execArbAdd_moves {s t : State} {a : ArbRef} {i : BitVec 8} (h : execArbAdd a i s = .next t) :
    Moves s t := by
  refine onArb_moves h fun h => ?_
  split at h
  · cases h
  · rename_i hi
    cases h
    exact (setArb_moves s a _ fun hf => hf.add (by omega)).trans (.of_banks rfl rfl)

theorem execArbRemove_moves {s t : State} {a : ArbRef} {i : BitVec 8} (h : execArbRemove a i s = .next t) :
    Moves s t := by
  refine onArb_moves h fun h => ?_
  split at h
  · cases h
  · cases h
    exact (setArb_moves s a _ fun hf => hf.remove _).trans (.of_banks rfl rfl)

theorem execArbAdvance_moves {s t : State} {a : ArbRef} (h : execArbAdvance a s = .next t) : Moves s t := by
  refine onArb_moves h fun h => ?_
  cases h
  exact (setArb_moves s a _ fun hf => hf.advance).trans (.of_banks rfl rfl)

theorem execArbCurrent_moves {s t : State} {a : ArbRef} (h : execArbCurrent a s = .next t) : Moves s t :=
  onArb_moves h finish_moves

theorem execClockRise_moves {s t : State} (h : execClockRise s = .next t) : Moves s t := by
  refine whenRunning_moves h fun h => ?_
  split at h
  · split at h
    · rename_i u hu
      cases h
      exact ((registerRequests_moves s).trans (riseBanks_moves hu)).trans (.of_banks rfl rfl)
    · cases h; exact .of_banks rfl rfl
  · exact raise_moves h

theorem execClockFall_moves {s t : State} (h : execClockFall s = .next t) : Moves s t := by
  refine whenRunning_moves h fun h => ?_
  split at h
  · cases h
    exact ((fallBanks_moves _ s).trans (routeReturns_moves _)).trans (.of_banks rfl rfl)
  · exact raise_moves h

theorem execRequestPortWriteValid_moves {s t : State} {port : BitVec 16}
    (h : execRequestPortWriteValid port s = .next t) : Moves s t :=
  onPort_moves h finish_moves

theorem execReturnPortReadValid_moves {s t : State} {port : BitVec 16}
    (h : execReturnPortReadValid port s = .next t) : Moves s t :=
  onPort_moves h finish_moves

theorem execPeekReturn_moves {s t : State} {port : BitVec 16} (h : execPeekReturn port s = .next t) :
    Moves s t := by
  refine onPort_moves h fun h => ?_
  split at h
  · exact raise_moves h
  · exact finish_moves h

theorem execReadReturn_moves {s t : State} {port : BitVec 16} (h : execReadReturn port s = .next t) :
    Moves s t := by
  refine onPort_moves h fun h => ?_
  split at h
  · exact raise_moves h
  · cases h; exact .of_banks rfl rfl

/-- Whatever an instruction does, the configuration stays and every bank makes moves only. -/
theorem exec_moves {i : Instr} {s t : State} (h : exec i s = .next t) : Moves s t := by
  cases i with
  | dsLoad _ => exact writeDownstream_moves h
  | dsStore _ => exact writeDownstream_moves h
  | na _ _ => exact receive_moves h
  | loadReturn _ _ => exact receive_moves h
  | retReserved02 _ _ _ => exact receive_moves h
  | retReserved04 _ _ _ => exact receive_moves h
  | retReserved08 _ _ _ => exact receive_moves h
  | retReserved10 _ _ _ => exact receive_moves h
  | retReserved20 _ _ _ => exact receive_moves h
  | retReserved40 _ _ _ => exact receive_moves h
  | retReserved80 _ _ _ => exact receive_moves h
  | requestPortWriteValid _ => exact execRequestPortWriteValid_moves h
  | returnPortReadValid _ => exact execReturnPortReadValid_moves h
  | peekReturn _ => exact execPeekReturn_moves h
  | readReturn _ => exact execReadReturn_moves h
  | arbAdd _ _ => exact execArbAdd_moves h
  | arbRemove _ _ => exact execArbRemove_moves h
  | arbAdvance _ => exact execArbAdvance_moves h
  | arbCurrent _ => exact execArbCurrent_moves h
  | clockRise => exact execClockRise_moves h
  | clockFall => exact execClockFall_moves h
  | _ => exact writeRequest_moves h

/-- Whatever a step does, the configuration stays and every bank makes moves only. -/
theorem step_moves {s t : State} (h : step s = .next t) : Moves s t := by
  unfold step at h
  split at h
  · unfold clockTick at h
    split at h
    · exact execClockRise_moves h
    · exact execClockFall_moves h
  · rename_i e rest he
    refine (Moves.of_banks (s := s) (t := { s with events := rest }) rfl rfl).trans ?_
    unfold runEvent at h
    split at h
    · unfold runRecord at h
      split at h
      · exact exec_moves h
      · cases h
    · cases h; exact .of_banks rfl rfl
    · cases h; exact .of_banks rfl rfl

end Sys2Proof.Machine
end

