-- ==== Sys2Proof/Laws/Cycle.lean ====
section
/-! SUPPORT. What the crossbars and the two clock operations can do, said once (42_crossbar.md R115 to R118;
47_cycle.md R146, R147). -/

namespace Sys2Proof.Machine

/-! ### The request crossbar -/

/-- Registration and advance write the request arbitrators only (R115). -/
theorem registerRequests_eq (s : State) :
    ∃ arbs, arbs.length = s.xreqArb.length ∧ registerRequests s = { s with xreqArb := arbs } := by
  have hfold : ∀ (l : List Nat) (s : State), ∃ arbs, arbs.length = s.xreqArb.length ∧
      l.foldl registerPort s = { s with xreqArb := arbs } := by
    intro l
    induction l with
    | nil => intro s; exact ⟨s.xreqArb, rfl, rfl⟩
    | cons i l ih =>
      intro s
      have : ∃ arbs, arbs.length = s.xreqArb.length ∧ registerPort s i = { s with xreqArb := arbs } := by
        unfold registerPort; split
        · exact ⟨s.xreqArb, rfl, rfl⟩
        · exact ⟨_, by simp, rfl⟩
      obtain ⟨arbs, hl, he⟩ := this
      obtain ⟨arbs', hl', he'⟩ := ih (registerPort s i)
      refine ⟨arbs', by simpa [he, hl] using hl', ?_⟩
      rw [List.foldl_cons, he', he]
  obtain ⟨arbs, hl, he⟩ := hfold (List.range s.cfg.numPorts) s
  refine ⟨arbs.map (Arb.advance s.cfg.numPorts), by simpa using hl, ?_⟩
  simp only [registerRequests, he]

/-! ### The rise -/

/-- What a rise of banks leaves alone, whether or not it ends in a fault. -/
structure RiseFrame (s t : State) : Prop where
  cfg : t.cfg = s.cfg
  retOut : t.retOut = s.retOut
  xretArb : t.xretArb = s.xretArb
  fault : t.fault = s.fault
  cycle : t.cycle = s.cycle
  phase : t.phase = s.phase
  events : t.events = s.events
  resp : t.resp = s.resp
  reqIn : t.reqIn.length = s.reqIn.length
  xreqArb : t.xreqArb.length = s.xreqArb.length
  banks : t.banks.length = s.banks.length
  ds : t.ds.length = s.ds.length

theorem RiseFrame.refl (s : State) : RiseFrame s s := by constructor <;> rfl

theorem RiseFrame.trans {s t u : State} (h : RiseFrame s t) (g : RiseFrame t u) : RiseFrame s u :=
  ⟨g.cfg.trans h.cfg, g.retOut.trans h.retOut, g.xretArb.trans h.xretArb, g.fault.trans h.fault,
    g.cycle.trans h.cycle, g.phase.trans h.phase, g.events.trans h.events, g.resp.trans h.resp,
    g.reqIn.trans h.reqIn, g.xreqArb.trans h.xreqArb, g.banks.trans h.banks, g.ds.trans h.ds⟩

/-- Everything the acceptance step can do (44_bank_accept.md R135): nothing; count a stall; or accept the granted
request and read it out of its slot. -/
theorem acceptStep_ok {b : Nat} {s t : State} (h : acceptStep b s = .ok t) :
    t = s ∨ t = s.count .lfbStalls ∨
    ∃ g req bk counts, (s.xreq b).current = some g ∧ s.reqSlot g = some req ∧
      acceptRequest s.cfg b (s.bank b) req = .accepted bk counts ∧
      t = { s.setBank b bk with
        reqIn := s.reqIn.set g none
        xreqArb := s.xreqArb.set b ((s.xreq b).remove g)
        stats := counts.elim s.stats s.stats.bump } := by
  unfold acceptStep at h
  split at h
  · cases h; exact .inl rfl
  · rename_i g hg
    split at h
    · cases h; exact .inl rfl
    · rename_i req hreq
      split at h
      · cases h; exact .inr (.inl rfl)
      · cases h
      · rename_i bk counts ha
        refine .inr (.inr ⟨g, req, bk, counts, hg, hreq, ha, ?_⟩)
        split at h <;> cases h <;> rfl

/-- Everything the fill step can do when it does not fault (45_bank_fill.md R151). -/
theorem fillStep_ok {b : Nat} {s t : State} (h : fillStep b s = .ok t) :
    (s.dsHead b = none ∧ t = s) ∨
    ∃ r bk, s.dsHead b = some r ∧ fillBank s.cfg b (s.bank b) r = .ok bk ∧ t = (s.dsPop b).setBank b bk := by
  unfold fillStep at h
  split at h
  · rename_i hn; cases h; exact .inl ⟨hn, rfl⟩
  · rename_i r hr
    simp only at h
    split at h
    · rename_i bk hf; cases h; exact .inr ⟨r, bk, hr, hf, rfl⟩
    · cases h

/-- Everything the hand-off or the acceptance can do when it does not fault (44_bank_accept.md R134). -/
theorem handOffOrAccept_ok {b : Nat} {s t : State} (h : handOffOrAccept b s = .ok t) :
    (∃ bk, handOff (s.bank b) = some bk ∧ t = s.setBank b bk) ∨
    (handOff (s.bank b) = none ∧ acceptStep b s = .ok t) := by
  unfold handOffOrAccept at h
  cases hh : handOff (s.bank b) with
  | some bk => rw [hh] at h; cases h; exact .inl ⟨bk, rfl, rfl⟩
  | none => rw [hh] at h; exact .inr ⟨rfl, h⟩

/-- Everything the rise of a bank does when it does not fault, in the order of R131. -/
theorem riseBank_ok {b : Nat} {s t : State} (h : riseBank b s = .ok t) :
    ∃ u, handOffOrAccept b (s.setBank b (pipelineAdvance (s.bank b))) = .ok u ∧ fillStep b u = .ok t := by
  unfold riseBank at h
  cases hu : handOffOrAccept b (s.setBank b (pipelineAdvance (s.bank b))) with
  | ok u => rw [hu] at h; exact ⟨u, rfl, h⟩
  | error e => rw [hu] at h; cases h

theorem riseBank_frame {b : Nat} {s t : State} (h : riseBank b s = .ok t) : RiseFrame s t := by
  unfold riseBank at h
  split at h
  · rename_i u hu
    have h1 : RiseFrame s u := by
      unfold handOffOrAccept at hu
      split at hu
      · cases hu; constructor <;> simp
      · rcases acceptStep_ok hu with rfl | rfl | ⟨g, req, bk, counts, -, -, -, rfl⟩ <;> constructor <;> simp
    have h2 : RiseFrame u t := by
      rcases fillStep_ok h with ⟨-, rfl⟩ | ⟨r, bk, -, -, rfl⟩ <;> constructor <;> simp
    exact h1.trans h2
  · cases h

theorem riseBanks_frame {bs : List Nat} {s t : State} (h : riseBanks bs s = .ok t) : RiseFrame s t := by
  induction bs generalizing s with
  | nil => cases h; exact .refl _
  | cons b bs ih =>
    rw [riseBanks] at h
    split at h
    · rename_i u hu; exact (riseBank_frame hu).trans (ih h)
    · cases h

/-! ### One bank among the others (10_state.md R40) -/

theorem riseBanks_append (l m : List Nat) (s : State) :
    riseBanks (l ++ m) s = (riseBanks l s).bind (riseBanks m) := by
  induction l generalizing s with
  | nil => rfl
  | cons b l ih =>
    simp only [List.cons_append, riseBanks]
    split
    · exact ih _
    · rfl

/-- The rise of one bank leaves alone every other bank, its downstream port and its request arbitrator. -/
theorem riseBank_other {c : Nat} {s t : State} (h : riseBank c s = .ok t) {b : Nat} (hb : c ≠ b) :
    t.bank b = s.bank b ∧ t.dsPort b = s.dsPort b ∧ t.xreq b = s.xreq b := by
  have hset : ∀ (u : State) (bk : Bank), (u.setBank c bk).bank b = u.bank b := fun u bk => by
    rw [State.bank_setBank_ne _ _ hb]
  unfold riseBank at h
  split at h
  · rename_i u hu
    have h1 : u.bank b = s.bank b ∧ u.dsPort b = s.dsPort b ∧ u.xreq b = s.xreq b := by
      unfold handOffOrAccept at hu
      split at hu
      · cases hu; exact ⟨by rw [hset, hset], rfl, rfl⟩
      · rcases acceptStep_ok hu with rfl | rfl | ⟨g, req, bk, counts, -, -, -, rfl⟩
        · exact ⟨hset _ _, rfl, rfl⟩
        · exact ⟨hset _ _, rfl, rfl⟩
        · exact ⟨(hset _ _).trans (hset _ _), rfl, by simp [State.xreq, hb]⟩
    have h2 : t.bank b = u.bank b ∧ t.dsPort b = u.dsPort b ∧ t.xreq b = u.xreq b := by
      rcases fillStep_ok h with ⟨-, rfl⟩ | ⟨r, bk, -, -, rfl⟩
      · exact ⟨rfl, rfl, rfl⟩
      · refine ⟨hset _ _, ?_, rfl⟩
        show (u.setDsPort c _).dsPort b = _
        rw [State.dsPort_setDsPort, if_neg (fun h => hb h.1)]
    exact ⟨h2.1.trans h1.1, h2.2.1.trans h1.2.1, h2.2.2.trans h1.2.2⟩
  · cases h

/-- The rise of one bank empties no request slot but the one its arbitrator grants. -/
theorem riseBank_reqSlot {c : Nat} {s t : State} (h : riseBank c s = .ok t) (p : Nat) :
    t.reqSlot p = s.reqSlot p ∨ ((s.xreq c).current = some p ∧ t.reqSlot p = none) := by
  unfold riseBank at h
  split at h
  · rename_i u hu
    have h2 : t.reqSlot p = u.reqSlot p := by
      rcases fillStep_ok h with ⟨-, rfl⟩ | ⟨r, bk, -, -, rfl⟩ <;> rfl
    rw [h2]
    unfold handOffOrAccept at hu
    split at hu
    · cases hu; exact .inl rfl
    · rcases acceptStep_ok hu with rfl | rfl | ⟨g, req, bk, counts, hg, -, -, rfl⟩
      · exact .inl rfl
      · exact .inl rfl
      · by_cases hp : g = p
        · subst hp
          right
          refine ⟨hg, ?_⟩
          simp only [State.reqSlot, List.getD_eq_getElem?_getD, List.getElem?_set]
          by_cases hl : g < s.reqIn.length <;> simp [hl]
        · left
          simp [State.reqSlot, hp]
  · cases h

/-- The rises of banks that are not `b` leave bank `b` alone. -/
theorem riseBanks_other {bs : List Nat} {s t : State} (h : riseBanks bs s = .ok t) {b : Nat} (hb : b ∉ bs) :
    t.bank b = s.bank b ∧ t.dsPort b = s.dsPort b ∧ t.xreq b = s.xreq b := by
  induction bs generalizing s with
  | nil => cases h; exact ⟨rfl, rfl, rfl⟩
  | cons c bs ih =>
    rw [List.mem_cons, not_or] at hb
    rw [riseBanks] at h
    split at h
    · rename_i u hu
      obtain ⟨a1, a2, a3⟩ := riseBank_other hu (Ne.symm hb.1)
      obtain ⟨b1, b2, b3⟩ := ih h hb.2
      exact ⟨b1.trans a1, b2.trans a2, b3.trans a3⟩
    · cases h

/-- Everything `clock_rise` can do (R146; 60_exceptions.md R170, R172). -/
theorem execClockRise_next {s t : State} (h : execClockRise s = .next t) :
    (s.fault.isSome = true ∧ t = { s with resp := .nothing }) ∨
    (s.fault = none ∧ s.phase ≠ .rise ∧ t = { s with fault := some .badPhase, resp := .nothing }) ∨
    (s.fault = none ∧ s.phase = .rise ∧ ∃ c ds,
      riseBanks (List.range s.cfg.numBanks) (registerRequests s) = .error (c, ds) ∧
      t = { s with ds := ds, fault := some c, resp := .nothing }) ∨
    (s.fault = none ∧ s.phase = .rise ∧ ∃ u,
      riseBanks (List.range s.cfg.numBanks) (registerRequests s) = .ok u ∧
      t = { u with phase := .fall, resp := .nothing }) := by
  rcases whenRunning_next h with ⟨hf, rfl⟩ | ⟨hf, h⟩
  · exact .inl ⟨hf, rfl⟩
  · right
    split at h
    · rename_i hp
      right
      split at h
      · rename_i u hu; cases h; exact .inr ⟨hf, hp, u, hu, rfl⟩
      · rename_i c ds hu; cases h; exact .inl ⟨hf, hp, c, ds, hu, rfl⟩
    · rename_i hp; cases h; exact .inl ⟨hf, hp, rfl⟩

/-! ### The fall -/

/-- Everything the routing of one port can do (42_crossbar.md R118): only the arbitrator moves; or the granted
bank's staged return goes into the empty slot. -/
theorem routePort_spec (s : State) (p : Nat) :
    routePort s p = { s with xretArb := s.xretArb.set p (registerStages s p) } ∨
    ∃ g, s.retSlot p = none ∧ (registerStages s p).current = some g ∧
      routePort s p =
        { s.setBank g { s.bank g with rstage := none } with
          retOut := s.retOut.set p (s.bank g).rstage
          xretArb := s.xretArb.set p ((registerStages s p).remove g) } := by
  unfold routePort
  simp only
  split
  · rename_i g hp hg; exact .inr ⟨g, hp, hg, rfl⟩
  · exact .inl rfl

/-- What a fall leaves alone. -/
structure FallFrame (s t : State) : Prop where
  cfg : t.cfg = s.cfg
  reqIn : t.reqIn = s.reqIn
  xreqArb : t.xreqArb = s.xreqArb
  fault : t.fault = s.fault
  cycle : t.cycle = s.cycle
  phase : t.phase = s.phase
  events : t.events = s.events
  resp : t.resp = s.resp
  retOut : t.retOut.length = s.retOut.length
  xretArb : t.xretArb.length = s.xretArb.length
  banks : t.banks.length = s.banks.length
  ds : t.ds.length = s.ds.length

theorem FallFrame.refl (s : State) : FallFrame s s := by constructor <;> rfl

theorem FallFrame.trans {s t u : State} (h : FallFrame s t) (g : FallFrame t u) : FallFrame s u :=
  ⟨g.cfg.trans h.cfg, g.reqIn.trans h.reqIn, g.xreqArb.trans h.xreqArb, g.fault.trans h.fault,
    g.cycle.trans h.cycle, g.phase.trans h.phase, g.events.trans h.events, g.resp.trans h.resp,
    g.retOut.trans h.retOut, g.xretArb.trans h.xretArb, g.banks.trans h.banks, g.ds.trans h.ds⟩

theorem foldl_frame {f : State → Nat → State} (hf : ∀ s i, FallFrame s (f s i)) (l : List Nat) (s : State) :
    FallFrame s (l.foldl f s) := by
  induction l generalizing s with
  | nil => exact .refl _
  | cons i l ih => exact (hf s i).trans (ih _)

theorem fallBank_frame (b : Nat) (s : State) : FallFrame s (fallBank b s) := by
  obtain ⟨h1, h2, h3, h4, h5, h6, h7, h8, h9, h10, h11, h12⟩ := fallBank_rest b s
  exact ⟨h1, h2, h4, h6, h7, h8, h9, h10, by rw [h3], by rw [h5], h11, h12⟩

theorem fallBanks_frame (bs : List Nat) (s : State) : FallFrame s (fallBanks bs s) :=
  foldl_frame (fun s b => fallBank_frame b s) bs s

theorem routePort_frame (s : State) (p : Nat) : FallFrame s (routePort s p) := by
  rcases routePort_spec s p with h | ⟨g, -, -, h⟩ <;> rw [h] <;> constructor <;> simp

theorem routeReturns_frame (s : State) : FallFrame s (routeReturns s) :=
  foldl_frame routePort_frame _ s

/-- The fall of one bank leaves alone every other bank and its downstream port (10_state.md R40). -/
theorem fallBank_other (c : Nat) (s : State) {b : Nat} (hb : c ≠ b) :
    (fallBank c s).bank b = s.bank b ∧ (fallBank c s).dsPort b = s.dsPort b := by
  have hset : ∀ (u : State) (bk : Bank), (u.setBank c bk).bank b = u.bank b := fun u bk => by
    rw [State.bank_setBank_ne _ _ hb]
  have h1 : (issueStep c s).bank b = s.bank b ∧ (issueStep c s).dsPort b = s.dsPort b := by
    rcases issueStep_spec c s with h | ⟨i, -, -, h⟩ <;> rw [h]
    · exact ⟨rfl, rfl⟩
    · refine ⟨hset _ _, ?_⟩
      show (s.setDsPort c _).dsPort b = _
      rw [State.dsPort_setDsPort, if_neg (fun h => hb h.1)]
  exact ⟨(hset _ _).trans h1.1, h1.2⟩

/-- The falls of banks that are not `b` leave bank `b` alone. -/
theorem fallBanks_other (bs : List Nat) (s : State) {b : Nat} (hb : b ∉ bs) :
    (fallBanks bs s).bank b = s.bank b ∧ (fallBanks bs s).dsPort b = s.dsPort b := by
  induction bs generalizing s with
  | nil => exact ⟨rfl, rfl⟩
  | cons c bs ih =>
    rw [List.mem_cons, not_or] at hb
    obtain ⟨a1, a2⟩ := fallBank_other c s (Ne.symm hb.1)
    obtain ⟨b1, b2⟩ := ih (fallBank c s) hb.2
    exact ⟨b1.trans a1, b2.trans a2⟩

/-- In the fall of several banks each bank falls once, on its own elements as they were. -/
theorem fallBanks_bank (bs : List Nat) (s : State) {b : Nat} (hn : bs.Nodup) (hb : b ∈ bs) :
    ∃ u : State, u.bank b = s.bank b ∧ u.dsPort b = s.dsPort b ∧ FallFrame s u ∧
      (fallBanks bs s).bank b = (fallBank b u).bank b ∧ (fallBanks bs s).dsPort b = (fallBank b u).dsPort b := by
  induction bs generalizing s with
  | nil => cases hb
  | cons c bs ih =>
    rw [List.nodup_cons] at hn
    by_cases hc : b = c
    · subst hc
      obtain ⟨b1, b2⟩ := fallBanks_other bs (fallBank b s) hn.1
      exact ⟨s, rfl, rfl, .refl s, b1, b2⟩
    · obtain ⟨a1, a2⟩ := fallBank_other c s (Ne.symm hc)
      obtain ⟨u, h1, h2, h3, h4, h5⟩ := ih (fallBank c s) hn.2 ((List.mem_cons.mp hb).resolve_left hc)
      exact ⟨u, h1.trans a1, h2.trans a2, (fallBank_frame c s).trans h3, h4, h5⟩

/-- Return routing changes nothing of a bank but its return stage, which it may empty, and no downstream slot. -/
theorem routeReturns_bank (s : State) (b : Nat) :
    ((routeReturns s).bank b = s.bank b ∨ (routeReturns s).bank b = { s.bank b with rstage := none }) ∧
      (routeReturns s).ds = s.ds := by
  have hone : ∀ (s : State) (p : Nat),
      ((routePort s p).bank b = s.bank b ∨ (routePort s p).bank b = { s.bank b with rstage := none }) ∧
        (routePort s p).ds = s.ds := by
    intro s p
    rcases routePort_spec s p with h | ⟨g, -, -, h⟩ <;> rw [h]
    · exact ⟨.inl rfl, rfl⟩
    · refine ⟨?_, rfl⟩
      show (s.setBank g _).bank b = _ ∨ (s.setBank g _).bank b = _
      rw [State.bank_setBank]
      split
      · rename_i hg; right; rw [hg.1]
      · left; rfl
  have hall : ∀ (l : List Nat) (s : State),
      ((l.foldl routePort s).bank b = s.bank b ∨ (l.foldl routePort s).bank b = { s.bank b with rstage := none }) ∧
        (l.foldl routePort s).ds = s.ds := by
    intro l
    induction l with
    | nil => intro s; exact ⟨.inl rfl, rfl⟩
    | cons p l ih =>
      intro s
      obtain ⟨h1, h2⟩ := hone s p
      obtain ⟨h3, h4⟩ := ih (routePort s p)
      refine ⟨?_, h4.trans h2⟩
      rw [List.foldl_cons]
      rcases h1 with h1 | h1 <;> rcases h3 with h3 | h3 <;> rw [h3, h1] <;> simp
  exact hall _ s

/-- Everything `clock_fall` can do (R147). -/
theorem execClockFall_next {s t : State} (h : execClockFall s = .next t) :
    (s.fault.isSome = true ∧ t = { s with resp := .nothing }) ∨
    (s.fault = none ∧ s.phase ≠ .fall ∧ t = { s with fault := some .badPhase, resp := .nothing }) ∨
    (s.fault = none ∧ s.phase = .fall ∧
      t = { (routeReturns (fallBanks (List.range s.cfg.numBanks) s)).dsEndFall with
        phase := .rise, cycle := s.cycle + 1, resp := .nothing }) := by
  rcases whenRunning_next h with ⟨hf, rfl⟩ | ⟨hf, h⟩
  · exact .inl ⟨hf, rfl⟩
  · right
    split at h
    · rename_i hp
      right
      cases h
      refine ⟨hf, hp, ?_⟩
      simp only [State.dsEndFall_cycle, ((fallBanks_frame _ s).trans (routeReturns_frame _)).cycle]
    · rename_i hp; cases h; exact .inl ⟨hf, hp, rfl⟩

/-! ### Return registration (42_crossbar.md R118) -/

/-- The fold that registers the stages of the first `n` banks. -/
theorem stages_fold (s : State) (p : Nat) (a : Arb) (n : Nat) :
    ((List.range n).foldl (fun a b => if s.stagedFor p b then a.add b else a) a).ptr = a.ptr ∧
    ∀ j, ((List.range n).foldl (fun a b => if s.stagedFor p b then a.add b else a) a).mask.testBit j =
      (a.mask.testBit j || (decide (j < n) && s.stagedFor p j)) := by
  induction n with
  | zero => simp
  | succ n ih =>
    rw [List.range_succ, List.foldl_append]
    simp only [List.foldl_cons, List.foldl_nil]
    obtain ⟨hp, hm⟩ := ih
    cases hs : s.stagedFor p n with
    | false =>
      refine ⟨by simpa using hp, fun j => ?_⟩
      rw [if_neg (by decide), hm]
      by_cases hj : j = n
      · subst hj; simp [hs]
      · have : j < n + 1 ↔ j < n := by omega
        simp [this]
    | true =>
      refine ⟨by simpa using hp, fun j => ?_⟩
      rw [if_pos rfl, Arb.add_mask_testBit, hm]
      by_cases hj : j = n
      · subst hj; simp [hs]
      · have h1 : j < n + 1 ↔ j < n := by omega
        have h2 : ¬ n = j := fun h => hj h.symm
        simp [h1, h2]

/-- `XRET_ARB[p]` as routing leaves it before a delivery: the banks that stage a return for `p` are added, and it
advances. -/
theorem registerStages_spec (s : State) (p : Nat) :
    ∃ m : Nat, (∀ j, m.testBit j = ((s.xret p).mask.testBit j || (decide (j < s.cfg.numBanks) && s.stagedFor p j))) ∧
      registerStages s p = Arb.advance s.cfg.numBanks { mask := m, ptr := (s.xret p).ptr } := by
  obtain ⟨hp, hm⟩ := stages_fold s p (s.xret p) s.cfg.numBanks
  refine ⟨_, hm, ?_⟩
  rw [← hp]
  rfl

/-! ### The downstream requests as instructions -/

/-- Everything a DSLOAD or DSSTORE record can do (46_bank_issue.md R156 to R160; log 6): nothing, or one bank's issue
of the request it names, on a port NBC may write. -/
theorem writeDownstream_next {s t : State} {req : Request} (h : s.writeDownstream req = .next t) :
    t = { s with resp := .nothing } ∨
    ∃ b i, s.fault = none ∧ s.phase = .fall ∧ s.cfg.bankOfDsPort req.port.toNat = some b ∧
      s.dsMayWrite b = true ∧ due s.cfg b (s.bank b) = some i ∧ i.request = req ∧
      t = { s.issue b i with resp := .nothing } := by
  rcases whenRunning_next h with ⟨-, rfl⟩ | ⟨hf, h⟩
  · exact .inl rfl
  · cases hb : s.cfg.bankOfDsPort req.port.toNat with
    | none => rw [hb] at h; cases h; exact .inl rfl
    | some b =>
      rw [hb] at h
      simp only at h
      split at h
      · rename_i hd
        cases h
        rcases issueStep_spec b s with h | ⟨i, hw, hi, h⟩ <;> rw [h]
        · exact .inl rfl
        · refine .inr ⟨b, i, hf, hd.1, rfl, hw, hi, ?_, rfl⟩
          have h2 := hd.2
          rw [hi] at h2
          exact Option.some.inj h2
      · cases h; exact .inl rfl

/-! ### The port operations -/

/-- Everything `write_request` can do (40_port_contract.md R97, R98): stuck, one of six faults, or the request
is stored. -/
theorem writeRequest_next {s t : State} {port : BitVec 16} {req : Request} (h : s.writeRequest port req = .next t) :
    (∃ f, t = { s with fault := f, resp := .nothing }) ∨
    (s.fault = none ∧ port.toNat < s.cfg.numPorts ∧ s.phase = .fall ∧ s.reqSlot port.toNat = none ∧
      req.port = port ∧ (req.type = .load ∨ req.type = .store) ∧ fitsBlock s.cfg req = true ∧
      t = { s with reqIn := s.reqIn.set port.toNat (some req), resp := .nothing }) := by
  unfold State.writeRequest State.onPort at h
  rcases whenRunning_next h with ⟨hf, rfl⟩ | ⟨hf, h⟩
  · exact .inl ⟨s.fault, rfl⟩
  · split at h
    · cases h; exact .inl ⟨_, rfl⟩
    · rename_i h1
      split at h
      · cases h; exact .inl ⟨_, rfl⟩
      · rename_i h2
        beta_reduce at h
        split at h
        · cases h; exact .inl ⟨_, rfl⟩
        · rename_i h3
          split at h
          · cases h; exact .inl ⟨_, rfl⟩
          · rename_i h4
            split at h
            · cases h; exact .inl ⟨_, rfl⟩
            · rename_i h5
              split at h
              · cases h; exact .inl ⟨_, rfl⟩
              · rename_i h6
                cases h
                refine .inr ⟨hf, by omega, by simpa using h2, by simpa using h3, by simpa using h4, ?_,
                  by simpa using h6, rfl⟩
                by_contra hc
                rw [not_or] at hc
                exact h5 hc

end Sys2Proof.Machine
end

