-- ==== Sys2Proof/Tests/Slice0.lean ====
section
/-! SUPPORT. Our own tests: the well-formedness smoke test, the decoding of words written out from 30_encoding.md,
single operations against the vectors of 95_test_vectors.md, and for each statement with hypotheses a witness that
meets them. -/

namespace Sys2Proof.Machine.Tests

/-! ### A small configuration -/

/-- Two banks selected by address bit 2, two sets selected by bit 3, blocks of 4 bytes. -/
def tiny : Config where
  addrWidth := 8
  blockSize := 4
  cacheSize := 32
  assoc := 2
  numBanks := 2
  numLfbs := 2
  bankSelectMask := 4
  numPorts := 2
  latency := 1
  dsPortOffset := 0
  dsPortStride := 1
  subqDepth := 2

theorem test_tiny_valid : tiny.valid = true := by decide

/-! ### Well-formedness: an ill-formed term for each check -/

/-- A LOAD's fields in `tiny`. -/
def body (port : BitVec 16) (address : Nat) (size : BitVec 16) : ReqBody where
  size := size
  port := port
  dst := 7
  address := address
  writeMask := 0
  payload := [0, 0, 0, 0]

/-- A STORE's fields in `tiny`. -/
def bodyW (port : BitVec 16) (address : Nat) (size : BitVec 16) (mask : Nat) (payload : Block) : ReqBody where
  size := size
  port := port
  dst := 0
  address := address
  writeMask := mask
  payload := payload

/-- A return's fields in `tiny`. -/
def retBody (port : BitVec 16) (dst : Word) (address : Nat) (size : BitVec 16) (payload : Block) : RetBody where
  size := size
  port := port
  dst := dst
  address := address
  payload := payload

theorem test_address_too_wide :
    (Instr.load (body 0 256 1)).check tiny = some .addressTooWide ∧
    (Instr.load (body 0 255 1)).wellFormed tiny = true := by decide

theorem test_mask_too_wide :
    (Instr.store (bodyW 0 0 1 16 [0, 0, 0, 0])).check tiny = some .maskTooWide ∧
    (Instr.store (bodyW 0 0 1 15 [0, 0, 0, 0])).wellFormed tiny = true := by decide

theorem test_payload_length :
    (Instr.store (bodyW 0 0 1 1 [0, 0, 0])).check tiny = some .payloadLength ∧
    (Instr.loadReturn 0 (retBody 0 0 0 4 [0, 0, 0, 0, 0])).check tiny = some .payloadLength := by decide

theorem test_no_such_arbitrator :
    (Instr.arbAdvance (.xreq 2)).check tiny = some .noSuchArbitrator ∧
    (Instr.arbCurrent (.xret 2)).check tiny = some .noSuchArbitrator ∧
    (Instr.arbAdd (.lfb 2) 0).check tiny = some .noSuchArbitrator ∧
    (Instr.arbAdvance (.xreq 1)).wellFormed tiny = true := by decide

theorem test_index_out_of_range :
    (Instr.arbAdd (.xreq 1) 2).check tiny = some .indexOutOfRange ∧
    (Instr.arbRemove (.lfb 0) 2).check tiny = some .indexOutOfRange ∧
    (Instr.arbAdd (.xreq 1) 1).wellFormed tiny = true := by decide

/-! ### Decoding words written out (30_encoding.md R80, R81, R83, R90) -/

/-- A request record of `tiny` of this type code: size 2, port 1, dst 7, address 0x35, mask 3, payload. -/
def reqRecord (code : Byte) : List Byte :=
  [code, 0x02, 0x00, 0x01, 0x00, 0, 0, 0] ++ [0x07, 0, 0, 0, 0, 0, 0, 0] ++ [0x35, 0, 0, 0, 0, 0, 0, 0]
    ++ [0x03] ++ [0xA0, 0xA1, 0xA2, 0xA3]

/-- The fields that `reqRecord` stands for. -/
def reqFields : ReqBody where
  size := 2
  port := 1
  dst := 7
  address := 0x35
  writeMask := 3
  payload := [0xA0, 0xA1, 0xA2, 0xA3]

/-- A return record of `tiny` of this type code: size 4, port 1, dst 1, address 0x34, payload. -/
def retRecord (code : Byte) : List Byte :=
  [code, 0x04, 0x00, 0x01, 0x00, 0, 0, 0] ++ [0x01, 0, 0, 0, 0, 0, 0, 0] ++ [0x34, 0, 0, 0, 0, 0, 0, 0]
    ++ [0xA0, 0xA1, 0xA2, 0xA3]

/-- The fields that `retRecord` stands for. -/
def retFields : RetBody where
  size := 4
  port := 1
  dst := 1
  address := 0x34
  payload := [0xA0, 0xA1, 0xA2, 0xA3]

/-- What a record decodes to in `tiny`. -/
def dec (ch : Channel) (bytes : List Byte) : Option Instr :=
  (decode tiny ch bytes).toOption

theorem test_decode_load : dec .request (reqRecord 0x00) = some (.load reqFields) := by decide
theorem test_decode_store : dec .request (reqRecord 0x01) = some (.store reqFields) := by decide

theorem test_decode_atomics :
    dec .request (reqRecord 0x02) = some (.amoAdd reqFields) ∧
    dec .request (reqRecord 0x03) = some (.amoXor reqFields) ∧
    dec .request (reqRecord 0x04) = some (.amoOr reqFields) ∧
    dec .request (reqRecord 0x05) = some (.amoAnd reqFields) ∧
    dec .request (reqRecord 0x06) = some (.amoMin reqFields) ∧
    dec .request (reqRecord 0x07) = some (.amoMax reqFields) ∧
    dec .request (reqRecord 0x08) = some (.amoMinu reqFields) ∧
    dec .request (reqRecord 0x09) = some (.amoMaxu reqFields) := by decide

theorem test_decode_prefetch_custom :
    dec .request (reqRecord 0x0A) = some (.prefetch reqFields) ∧
    dec .request (reqRecord 0x10) = some (.customN 0 reqFields) ∧
    dec .request (reqRecord 0x1F) = some (.customN 15 reqFields) := by decide

theorem test_decode_reserved :
    dec .request (reqRecord 0x0B) = some (.reserved0B reqFields) ∧
    dec .request (reqRecord 0x0C) = some (.reserved0C 0 reqFields) ∧
    dec .request (reqRecord 0x0F) = some (.reserved0C 3 reqFields) ∧
    dec .request (reqRecord 0x20) = some (.reserved20 0 reqFields) ∧
    dec .request (reqRecord 0x3F) = some (.reserved20 31 reqFields) ∧
    dec .request (reqRecord 0x40) = some (.reserved40 0 reqFields) ∧
    dec .request (reqRecord 0x7F) = some (.reserved40 63 reqFields) ∧
    dec .request (reqRecord 0x80) = some (.reserved80 0 reqFields) ∧
    dec .request (reqRecord 0xFF) = some (.reserved80 127 reqFields) := by decide

theorem test_decode_downstream :
    dec .dsRequest (reqRecord 0x00) = some (.dsLoad reqFields) ∧
    dec .dsRequest (reqRecord 0x01) = some (.dsStore reqFields) ∧
    dec .dsRequest (reqRecord 0x02) = none := by decide

theorem test_decode_returns :
    dec (.dsReturn 1) (retRecord 0x00) = some (.na 1 retFields) ∧
    dec (.dsReturn 1) (retRecord 0x01) = some (.loadReturn 1 retFields) ∧
    dec (.dsReturn 1) (retRecord 0x03) = some (.retReserved02 1 1 retFields) ∧
    dec (.dsReturn 1) (retRecord 0x07) = some (.retReserved04 3 1 retFields) ∧
    dec (.dsReturn 1) (retRecord 0x0F) = some (.retReserved08 7 1 retFields) ∧
    dec (.dsReturn 1) (retRecord 0x1F) = some (.retReserved10 15 1 retFields) ∧
    dec (.dsReturn 1) (retRecord 0x20) = some (.retReserved20 0 1 retFields) ∧
    dec (.dsReturn 1) (retRecord 0x40) = some (.retReserved40 0 1 retFields) ∧
    dec (.dsReturn 1) (retRecord 0xFF) = some (.retReserved80 127 1 retFields) := by decide

theorem test_decode_port_operations :
    dec .portOp [0x00, 0, 0, 0x01, 0x02, 0, 0, 0] = some (.requestPortWriteValid 0x201) ∧
    dec .portOp ([0x01, 0, 0, 0x01, 0, 0, 0, 0] ++ reqRecord 0x01) =
      some (.writeRequest 1 (reqFields.withType .store)) ∧
    dec .portOp [0x02, 0, 0, 0x01, 0, 0, 0, 0] = some (.returnPortReadValid 1) ∧
    dec .portOp [0x03, 0, 0, 0x01, 0, 0, 0, 0] = some (.peekReturn 1) ∧
    dec .portOp [0x04, 0, 0, 0x01, 0, 0, 0, 0] = some (.readReturn 1) ∧
    dec .portOp [0x05, 0, 0, 0x01, 0, 0, 0, 0] = none := by decide

theorem test_decode_arbitrator_and_clock :
    dec .arbOp [0x00, 0, 1, 1, 0, 0, 0, 0] = some (.arbAdd (.xreq 1) 1) ∧
    dec .arbOp [0x01, 1, 0, 1, 0, 0, 0, 0] = some (.arbRemove (.xret 0) 1) ∧
    dec .arbOp [0x02, 2, 1, 0, 0, 0, 0, 0] = some (.arbAdvance (.lfb 1)) ∧
    dec .arbOp [0x03, 0, 0, 0, 0, 0, 0, 0] = some (.arbCurrent (.xreq 0)) ∧
    dec .phaseOp [0x00, 0, 0, 0, 0, 0, 0, 0] = some .clockRise ∧
    dec .phaseOp [0x01, 0, 0, 0, 0, 0, 0, 0] = some .clockFall ∧
    dec .phaseOp [0x02, 0, 0, 0, 0, 0, 0, 0] = none := by decide

/-- Word 0 of the request `LOAD p3 ... 4` of program P1 (95_test_vectors.md) is `0x0000000003000400`. -/
theorem test_word0_of_p1 : packWord0 ReqType.load.code 4 3 = 0x0000000003000400 := by decide

theorem test_table_word_runs_next :
    decodeTableWord 8 0x1F = some (.customN 15
      { size := 0, port := 0, dst := 0, address := 0, writeMask := 0, payload := List.replicate 32 0 }) := by
  decide

/-! ### Vectors of 95_test_vectors.md, one operation each -/

/-- CFG-A of 95_test_vectors.md section 2. -/
def cfgA : Config where
  addrWidth := 32
  blockSize := 32
  cacheSize := 128
  assoc := 2
  numBanks := 1
  numLfbs := 2
  bankSelectMask := 0
  numPorts := 4
  latency := 2
  dsPortOffset := 0
  dsPortStride := 1
  subqDepth := 2

/-- NBC with CFG-A, in this phase. -/
def stA (ph : Phase) : State :=
  { State.construct cfgA with phase := ph }

/-- The bytes `a`, `a + 1`, ... as DSMEM's initial image has them. -/
def image (a n : Nat) : Block :=
  tabulate n fun i => BitVec.ofNat 8 (a + i)

/-- A request of CFG-A. -/
def reqA (t : ReqType) (port : BitVec 16) (address : Nat) (size : BitVec 16) (dst : Word) (mask : Nat)
    (first : Block) : Request where
  type := t
  size := size
  port := port
  dst := dst
  address := address
  writeMask := mask
  payload := first ++ List.replicate (32 - first.length) 0

/-- Apply a check to the bank and the counter of an accepted request. -/
def accHas (a : Accept) (check : Bank → Option Counter → Bool) : Bool :=
  match a with
  | .accepted bk c => check bk c
  | _ => false

/-- Apply a check to the state after a step. -/
def nextHas (r : Result) (check : State → Bool) : Bool :=
  match r with
  | .next t => check t
  | _ => false

/-- V41.2 to V41.5, V41.12: the arbitrator advances, wraps, and keeps a single bit. -/
theorem test_V41_advance :
    Arb.advance 4 ⟨0b1111, 3⟩ = ⟨0b1111, 0⟩ ∧ Arb.advance 4 ⟨0b1010, 1⟩ = ⟨0b1010, 3⟩ ∧
    Arb.advance 4 ⟨0b1010, 3⟩ = ⟨0b1010, 1⟩ ∧ Arb.advance 4 ⟨0b0100, 2⟩ = ⟨0b0100, 2⟩ ∧
    Arb.advance 64 ⟨2 ^ 63, 63⟩ = ⟨2 ^ 63, 63⟩ := by decide

/-- V41.6, V41.8: `remove` takes the grant away, `add` sets one bit. -/
theorem test_V41_add_remove :
    (Arb.remove ⟨0b0110, 1⟩ 1) = ⟨0b0100, 1⟩ ∧ (Arb.remove ⟨0b0110, 1⟩ 1).current = none ∧
    (Arb.add ⟨0b0101, 0⟩ 1) = ⟨0b0111, 0⟩ := by decide

/-- V20.6, V20.6c: address fields with a bank bit above the set bits, and between them. -/
theorem test_V20_fields :
    let c1 := { cfgA with blockSize := 16, numBanks := 2, bankSelectMask := 0x100, cacheSize := 256, addrWidth := 16 }
    let c2 := { cfgA with numBanks := 4, bankSelectMask := 0xC0, cacheSize := 1024, addrWidth := 16 }
    c1.offset 0x1234 = 4 ∧ c1.block 0x1234 = 0x1230 ∧ c1.bank 0x1234 = 0 ∧ c1.set 0x1234 = 3 ∧
    c1.tag 0x1234 = 0x123 ∧ c2.bank 0x1E0 = 3 ∧ c2.set 0x1E0 = 3 ∧ c2.tag 0x1E0 = 0xF := by decide

/-- V40.9 to V40.11: the size check at the end of the block. -/
theorem test_V40_sizes :
    nextHas (exec (.writeRequest 0 (reqA .load 0 0x101C 8 0 0 [])) (stA .fall)) (·.fault == some .badSize) ∧
    nextHas (exec (.writeRequest 0 (reqA .load 0 0x101C 4 0 0 [])) (stA .fall)) (fun t => (t.reqSlot 0).isSome) ∧
    nextHas (exec (.writeRequest 0 (reqA .load 0 0x1000 33 0 0 [])) (stA .fall)) (·.fault == some .badSize) := by
  decide

/-- V40.4, V40.6, V40.12: the first failing check decides. -/
theorem test_V40_order :
    nextHas (exec (.writeRequest 4 (reqA .load 4 0x1000 4 0 0 [])) (stA .rise)) (·.fault == some .portRange) ∧
    nextHas (exec (.writeRequest 0 (reqA .load 1 0x1000 4 0 0 [])) (stA .fall)) (·.fault == some .portMismatch) ∧
    nextHas (exec (.writeRequest 1 (reqA .amoAnd 0 0x1000 4 0 0 []))
      { stA .fall with reqIn := [none, some (reqA .load 1 0x1000 4 0 0 []), none, none] })
      (·.fault == some .writeNotValid) := by decide

/-- V44.1: a LOAD that misses. -/
theorem test_V44_1_load_miss :
    accHas (acceptRequest cfgA 0 (Bank.reset cfgA) (reqA .load 0 0x1000 4 0 0 [])) (fun bk c =>
      decide ((bk.lfb 0).state = .missed ∧ (bk.lfb 0).type = .read ∧ (bk.lfb 0).blockAddress = 0x1000 ∧
        (bk.lfb 0).subq = [⟨0, 4, 0, 0⟩] ∧ (bk.lfb 0).byteWriteMask = 0 ∧ bk.mq = [0] ∧ c = some .misses)) := by
  decide

/-- V44.10: a STORE allocates a write-combining LFB. -/
theorem test_V44_10_store_alloc :
    accHas (acceptRequest cfgA 0 (Bank.reset cfgA) (reqA .store 0 0x1004 4 0 0xF [0xAA, 0xBB, 0xCC, 0xDD]))
      (fun bk c =>
        decide ((bk.lfb 0).state = .filled ∧ (bk.lfb 0).type = .writeCombining ∧
          (bk.lfb 0).byteWriteMask = 0xF0 ∧ ((bk.lfb 0).data.drop 4).take 4 = [0xAA, 0xBB, 0xCC, 0xDD] ∧
          bk.wbq = [0] ∧ c = some .storeAllocs)) := by decide

/-- V44.14: the effective mask is cut to the size. -/
theorem test_V44_14_effective_mask :
    accHas (acceptRequest cfgA 0 (Bank.reset cfgA) (reqA .store 0 0x1000 2 0 0xFF [0x11, 0x22]))
      (fun bk _ => (bk.lfb 0).byteWriteMask == 3) := by decide

/-- The bank of V45.1: LFB 0 has an outstanding fetch of block 0x1000. -/
def issuedA (mask : Nat) (data : Block) : Bank :=
  { Bank.reset cfgA with
    lfbs := [⟨.missed, .read, 0x1000, mask, data, 0, [⟨0, 4, 0, 0⟩], 0⟩, Lfb.reset cfgA 1] }

/-- V45.2: the fill keeps the bytes 16 and 17 that a STORE wrote, and inserts the merged line. -/
theorem test_V45_2_fill_merge :
    (match fillBank cfgA 0 (issuedA 0x30000 (List.replicate 16 0 ++ [0x11, 0x22] ++ List.replicate 14 0))
        ⟨⟨32, 0, 0, 0x1000, image 0 32⟩, .loadReturn⟩ with
      | .ok bk => decide ((bk.lfb 0).data = image 0 16 ++ [0x11, 0x22] ++ image 0x12 14 ∧
          (bk.lfb 0).state = .filled ∧ (bk.lfb 0).byteWriteMask = 0 ∧
          readLine cfgA bk 0x1000 0 = (bk.lfb 0).data ∧ lookup cfgA bk 0x1000 = some 0)
      | .error _ => false) = true := by decide

/-- V45.5, V45.7, V45.9: a misaligned return, one without an LFB, one with another LFB's index. -/
theorem test_V45_faults :
    (match fillBank cfgA 0 (issuedA 0 []) ⟨⟨32, 0, 0, 0x1004, image 0 32⟩, .loadReturn⟩ with
      | .error c => c == .badFill
      | .ok _ => false) = true ∧
    (match fillBank cfgA 0 (issuedA 0 []) ⟨⟨32, 0, 0, 0x2000, image 0 32⟩, .loadReturn⟩ with
      | .error c => c == .unmatchedFill
      | .ok _ => false) = true ∧
    (match fillBank cfgA 0 (issuedA 0 []) ⟨⟨32, 0, 1, 0x1000, image 0 32⟩, .loadReturn⟩ with
      | .error c => c == .unmatchedFill
      | .ok _ => false) = true := by decide

/-- V46.4: the first of two runs is drained. -/
theorem test_V46_4_drain :
    (match dueDrain cfgA 0 { Bank.reset cfgA with
        lfbs := [⟨.filled, .writeCombining, 0x1000, 0xF0F, image 0 32, 0, [], 0⟩, Lfb.reset cfgA 1]
        wbActive := some 0 } with
      | some i => decide (i.request.type = .store ∧ i.request.address = 0x1000 ∧ i.request.size = 4 ∧
          i.request.writeMask = 0xF ∧ i.request.dst = 0 ∧ i.request.payload.take 5 = [0, 1, 2, 3, 0] ∧
          (i.bank.lfb 0).byteWriteMask = 0xF00 ∧ i.bank.wbActive = some 0)
      | none => false) = true := by decide

/-- V46.8: the sub-request `(5, 3, p2, 9)` is staged and its LFB retires. -/
theorem test_V46_8_return :
    (let bk := returnStep cfgA { Bank.reset cfgA with
        lfbs := [⟨.filled, .read, 0x1000, 0, image 0 32, 0, [⟨5, 3, 2, 9⟩], 0⟩, Lfb.reset cfgA 1] }
     (bk.lfbArb, (bk.lfb 0).state, bk.rstage)) =
    (⟨0b01, 0⟩, .retired,
      some ⟨⟨3, 2, 9, 0x1005, [5, 6, 7] ++ List.replicate 29 0⟩, .loadReturn⟩) := by decide

/-- V47.1, V47.2: the clock operations alternate. -/
theorem test_V47_phases :
    nextHas (exec .clockFall (stA .rise)) (·.fault == some .badPhase) ∧
    nextHas (exec .clockRise (stA .rise)) (fun t => t.phase == .fall && t.fault == none) ∧
    nextHas (exec .clockRise (stA .fall)) (·.fault == some .badPhase) := by decide

/-- V70.2, V70.5, V70.6, V70.8, V70.13, V70.14, V70.16: the configuration check. -/
theorem test_V70_configurations :
    let base := { cfgA with latency := 1, subqDepth := 4 }
    base.valid = true ∧ { base with blockSize := 24 }.valid = false ∧
    { base with numBanks := 4, bankSelectMask := 0x20 }.valid = false ∧
    { base with numBanks := 2, bankSelectMask := 0x10 }.valid = false ∧
    { base with cacheSize := 192 }.valid = false ∧
    { base with numBanks := 2, bankSelectMask := 0x20, cacheSize := 256, dsPortOffset := 65535 }.valid = false ∧
    { base with addrWidth := 5 }.valid = false ∧
    { base with numBanks := 2, bankSelectMask := 0x20, cacheSize := 256 }.valid = true := by decide

/-! ### Small banks and states of `tiny`, on which the statements' hypotheses meet -/

/-- A sub-request of port `p`. -/
def sub (off : Nat) (size : BitVec 16) (p : BitVec 16) : SubReq where
  offset := off
  size := size
  port := p
  dst := 9

/-- A bank with these two LFBs and queues, and no block resident. -/
def bankOf (l0 l1 : Lfb) (mq wbq : List Nat) (active : Option Nat) : Bank :=
  { Bank.reset tiny with lfbs := [l0, l1], mq := mq, wbq := wbq, wbActive := active }

/-- LFB 1, unused. -/
def unused : Lfb :=
  Lfb.reset tiny 1

/-- A READ LFB of block 0x10 (bank 0, set 0) in this state. -/
def readLfb (st : LfbState) (mask : Nat) (data : Block) (subq : List SubReq) (pipe : Nat) : Lfb where
  state := st
  type := .read
  blockAddress := 0x10
  byteWriteMask := mask
  data := data
  lru := 0
  subq := subq
  pipeCount := pipe

/-- A write-combining LFB of block 0x10 that holds its bytes 1 and 2. -/
def combining (lru : Nat) : Lfb where
  state := .filled
  type := .writeCombining
  blockAddress := 0x10
  byteWriteMask := 6
  data := [0, 0xA1, 0xA2, 0]
  lru := lru
  subq := []
  pipeCount := 0

/-- No LFB in use. -/
def idleBank : Bank := Bank.reset tiny

/-- A fetch of block 0x10 not yet written downstream. -/
def missedBank : Bank := bankOf (readLfb .missed 0 [0, 0, 0, 0] [sub 0 2 0] 0) unused [0] [] none

/-- A fetch of block 0x10 outstanding, byte 3 stored meanwhile. -/
def issuedBank : Bank := bankOf (readLfb .missed 8 [0, 0, 0, 0x55] [sub 0 2 0] 0) unused [] [] none

/-- Block 0x10 filled, one sub-request waiting. -/
def filledBank : Bank := bankOf (readLfb .filled 0 [1, 2, 3, 4] [sub 2 2 0] 0) unused [] [] none

/-- Block 0x10 filled, its sub-request queue full. -/
def fullBank : Bank := bankOf (readLfb .filled 0 [1, 2, 3, 4] [sub 0 2 0, sub 0 4 1] 0) unused [] [] none

/-- LFB 0 retired with block 0x10. -/
def retiredBank : Bank := bankOf (readLfb .retired 0 [1, 2, 3, 4] [] 0) unused [] [] none

/-- LFB 0 in the data-array pipeline. -/
def pipeBank : Bank := bankOf (readLfb .dataArray 0 [1, 2, 3, 4] [sub 0 2 0] 1) unused [] [] none

/-- Two bytes of block 0x10 wait to be written back. -/
def combiningBank : Bank := bankOf (combining 0) unused [] [0] none

/-- Two bytes of block 0x10 are being written back. -/
def drainBank : Bank := bankOf (combining 0) unused [] [] (some 0)

/-- Both LFBs in use: a fetch and a write-back of one block. -/
def busyBank : Bank := bankOf (readLfb .missed 6 [0, 0xA1, 0xA2, 0] [sub 0 2 0] 0) (combining 1) [0] [1] none

/-- Both LFBs hold fetches. -/
def twoMissesBank : Bank :=
  bankOf (readLfb .missed 0 [0, 0, 0, 0] [sub 0 2 0] 0)
    { readLfb .missed 0 [0, 0, 0, 0] [sub 0 2 1] 0 with blockAddress := 0x20, lru := 1 } [0, 1] [] none

/-- Block 0x10 resident in way 0. -/
def residentBank : Bank :=
  { Bank.reset tiny with
    tags := [[⟨true, 4, 1⟩, ⟨false, 0, 0⟩], [⟨false, 0, 0⟩, ⟨false, 0, 1⟩]]
    data := [[[1, 2, 3, 4], [0, 0, 0, 0]], [[0, 0, 0, 0], [0, 0, 0, 0]]] }

/-- The return a bank stages for port 0. -/
def staged : Return := (retBody 0 9 0x10 2 [1, 2, 0, 0]).withType .loadReturn

/-- A return is staged for port 0. -/
def stagedBank : Bank := { Bank.reset tiny with rstage := some staged }

/-- A LOAD of two bytes of block 0x10 on port 0. -/
def loadReq : Request := (body 0 0x12 2).withType .load

/-- A STORE of the last byte of block 0x10 on port 0. -/
def storeReq : Request := (bodyW 0 0x13 1 1 [0x77, 0, 0, 0]).withType .store

/-- Downstream slots with these returns waiting. -/
def dsOf (rets : List Return) : DsPort where
  req := none
  blocked := false
  rets := rets
  wrote := false

/-- The return that answers `issuedBank`'s fetch. -/
def fill : Return := (retBody 0 0 0x10 4 [0x10, 0x11, 0x12, 0x13]).withType .loadReturn

/-- NBC in `tiny`: bank 0, port 0's slots and bank 0's downstream slots as given, all else as after reset. -/
def st (ph : Phase) (bk : Bank) (req : Option Request) (ret : Option Return) (d : DsPort) : State :=
  { State.construct tiny with
    phase := ph
    banks := [bk, Bank.reset tiny]
    reqIn := [req, none]
    retOut := [ret, none]
    ds := [d, DsPort.reset] }

/-- NBC in `tiny` with nothing going on. -/
def quiet (ph : Phase) : State :=
  st ph idleBank none none DsPort.reset

/-- A stuck NBC. -/
def stuck : State :=
  { quiet .rise with fault := some .badSize }

/-- The sizes of a bank of `tiny` from their parts. -/
theorem bank_wellSized {bk : Bank}
    (h : bk.lfbs.length = 2 ∧ (∀ l ∈ bk.lfbs, l.data.length = 4) ∧ bk.lfbArb.mask < 4 ∧ bk.lfbArb.ptr < 2 ∧
      bk.tags.length = 2 ∧ (∀ ways ∈ bk.tags, ways.length = 2) ∧ bk.data.length = 2 ∧
      (∀ lines ∈ bk.data, lines.length = 2) ∧ ∀ lines ∈ bk.data, ∀ line ∈ lines, line.length = 4) :
    bk.WellSized tiny :=
  ⟨h.1, h.2.1, ⟨h.2.2.1, h.2.2.2.1⟩, h.2.2.2.2.1, h.2.2.2.2.2.1, h.2.2.2.2.2.2.1, h.2.2.2.2.2.2.2.1,
    h.2.2.2.2.2.2.2.2⟩

theorem st_wellSized {bk : Bank} (h : bk.WellSized tiny) (ph : Phase) (req : Option Request) (ret : Option Return)
    (d : DsPort) : (st ph bk req ret d).WellSized := by
  have h0 : (Bank.reset tiny).WellSized tiny := bank_wellSized (by decide)
  refine ⟨rfl, rfl, rfl, ?_, rfl, ?_, rfl, ?_, rfl⟩
  · intro a ha
    obtain ⟨-, rfl⟩ := List.mem_replicate.1 ha
    exact ⟨(by decide : 0 < 2 ^ 2), (by decide : 1 < 2)⟩
  · intro a ha
    obtain ⟨-, rfl⟩ := List.mem_replicate.1 ha
    exact ⟨(by decide : 0 < 2 ^ 2), (by decide : 1 < 2)⟩
  · intro b hb
    rcases List.mem_cons.1 hb with rfl | hb
    · exact h
    · rw [List.mem_singleton.1 hb]; exact h0

/-- The pool invariant of a bank of `tiny` from its parts. -/
theorem bank_poolOk {bk : Bank}
    (h1 : ∀ k < bk.lfbs.length, (bk.lfb k).state ≠ .empty ∧
      ((bk.lfb k).type = .read →
        (bk.lfb k).state = .dataArray ∨ (bk.lfb k).state = .missed ∨ (bk.lfb k).state = .filled →
        (bk.lfb k).subq ≠ []) ∧
      ((bk.lfb k).state = .retired → (bk.lfb k).subq = []) ∧
      ((bk.lfb k).state ≠ .dataArray → (bk.lfb k).pipeCount = 0) ∧
      ((bk.lfb k).state = .dataArray → 1 ≤ (bk.lfb k).pipeCount ∧ (bk.lfb k).pipeCount ≤ 1))
    (h2 : ∀ k < bk.lfbs.length, (bk.lfb k).live = false ∨ (bk.lfb k).type ≠ .writeCombining ∨
      ((bk.lfb k).state = .filled ∧ (bk.lfb k).subq = [] ∧ (bk.lfb k).byteWriteMask ≠ 0 ∧
        decide (k ∈ bk.wbq) = !decide (bk.wbActive = some k)))
    (h3 : bk.wbq.Nodup ∧ ∀ k ∈ bk.wbq,
      k < bk.lfbs.length ∧ (bk.lfb k).live = true ∧ (bk.lfb k).type = .writeCombining)
    (h4 : ∀ k ∈ bk.wbActive, k < bk.lfbs.length ∧ (bk.lfb k).live = true ∧ (bk.lfb k).type = .writeCombining)
    (h5 : bk.mq.Nodup ∧ ∀ k ∈ bk.mq, k < bk.lfbs.length ∧ (bk.lfb k).type = .read ∧ (bk.lfb k).state = .missed) :
    bk.PoolOk tiny := by
  refine ⟨fun k hk => ⟨(h1 k hk).1, (h1 k hk).2.1, (h1 k hk).2.2.1, (h1 k hk).2.2.2.1, (h1 k hk).2.2.2.2⟩, ?_, h3,
    h4, h5⟩
  intro k hk hl ht
  rcases h2 k hk with h | h | ⟨ha, hb, hc, hd⟩
  · rw [hl] at h; cases h
  · exact absurd ht h
  · refine ⟨ha, hb, hc, ?_⟩
    by_cases hq : k ∈ bk.wbq <;> simp [hq] at hd <;> simp [hq, hd]

/-- At most one LFB per key in a bank of two LFBs, from a check of the pair. -/
theorem bank_atMostOne {bk : Bank}
    (h : bk.lfbs.length = 2 ∧ ((bk.lfb 0).live = false ∨ (bk.lfb 1).live = false ∨
      (bk.lfb 0).type ≠ (bk.lfb 1).type ∨ (bk.lfb 0).blockAddress ≠ (bk.lfb 1).blockAddress)) :
    bk.AtMostOneLfb := by
  obtain ⟨hn, h⟩ := h
  have key : ∀ {x y : Lfb}, x.live = true → y.live = true → x.type = y.type → x.blockAddress = y.blockAddress →
      ¬ (x.live = false ∨ y.live = false ∨ x.type ≠ y.type ∨ x.blockAddress ≠ y.blockAddress) := by
    intro x y hx hy ht hb h
    rcases h with h | h | h | h
    · rw [hx] at h; cases h
    · rw [hy] at h; cases h
    · exact h ht
    · exact h hb
  intro j k hj hk hlj hlk ht hb
  rw [hn] at hj hk
  obtain rfl | rfl : j = 0 ∨ j = 1 := by omega
  · obtain rfl | rfl : k = 0 ∨ k = 1 := by omega
    · rfl
    · exact absurd h (key hlj hlk ht hb)
  · obtain rfl | rfl : k = 0 ∨ k = 1 := by omega
    · exact absurd h (key hlk hlj ht.symm hb.symm)
    · rfl

/-- The routes of a state of `tiny` from its parts. -/
theorem st_routesOk {bk : Bank} {req : Option Request} {ret : Option Return}
    (hq : ∀ r ∈ req, r.port.toNat = 0 ∧ (r.type = .load ∨ r.type = .store) ∧ fitsBlock tiny r = true)
    (hr : ∀ r ∈ ret, r.port.toNat = 0)
    (hb : ∀ k < bk.lfbs.length, (bk.lfb k).live = true → tiny.bank (bk.lfb k).blockAddress = 0)
    (hs : ∀ k < bk.lfbs.length, (bk.lfb k).subq.length ≤ 2 ∧ ∀ sr ∈ (bk.lfb k).subq,
      1 ≤ sr.size.toNat ∧ sr.offset + sr.size.toNat ≤ 4 ∧ sr.port.toNat < 2)
    (ph : Phase) (d : DsPort) : (st ph bk req ret d).RoutesOk := by
  have empty : ∀ (b n w i : Nat), ((List.replicate n (Arb.reset w)).getD b (Arb.reset w)).mask.testBit i = true →
      False := by
    intro b n w i h
    have h0 : (List.replicate n (Arb.reset w)).getD b (Arb.reset w) = Arb.reset w := by
      rw [List.getD_eq_getElem?_getD, List.getElem?_replicate]
      split <;> rfl
    rw [h0] at h
    simp [Arb.reset] at h
  refine ⟨?_, fun b _ i hi => (empty _ _ _ _ hi).elim, ?_, ?_, fun p _ b hb => (empty _ _ _ _ hb).elim, ?_⟩
  · intro i r h
    match i, h with
    | 0, h => exact ⟨(hq r h).1, (hq r h).2.1, (hq r h).2.2⟩
    | 1, h => cases h
    | _ + 2, h => cases h
  · intro b hb'
    match b, hb' with
    | 0, _ => exact hb
    | 1, _ => exact (by decide : ∀ k < idleBank.lfbs.length, (idleBank.lfb k).live = true →
        tiny.bank (idleBank.lfb k).blockAddress = 1)
    | _ + 2, h => exact absurd h (by simp [st])
  · intro b hb'
    match b, hb' with
    | 0, _ => exact fun k hk => ⟨(hs k hk).1, fun sr h => ⟨((hs k hk).2 sr h).1, ((hs k hk).2 sr h).2.1,
        ((hs k hk).2 sr h).2.2⟩⟩
    | 1, _ =>
      intro k hk
      have h0 : ∀ k < idleBank.lfbs.length, (idleBank.lfb k).subq = [] := by decide
      have hk' : ((st ph bk req ret d).bank 1).lfb k = idleBank.lfb k := rfl
      rw [hk', h0 k hk]
      exact ⟨Nat.zero_le _, fun sr h => by cases h⟩
    | _ + 2, h => exact absurd h (by simp [st])
  · intro p r h
    match p, h with
    | 0, h => exact hr r h
    | 1, h => cases h
    | _ + 2, h => cases h

/-- Every return waiting on bank 0's port answers its fetch, and none waits on bank 1's. -/
theorem st_fillsAnswer {ph : Phase} {bk : Bank} {req : Option Request} {ret : Option Return} {d : DsPort}
    (h : ∀ r ∈ d.rets.head?, fillShaped tiny 0 r = true ∧ issuedLfb bk r.address = some r.dst.toNat) :
    (st ph bk req ret d).FillsAnswer := by
  intro b hb r hr
  match b, hb, hr with
  | 0, _, hr => exact h r hr
  | 1, _, hr => cases hr

/-! ### Witnesses: for each statement with hypotheses, concrete values that meet them -/

theorem witness_DecodeReadsBackEveryEncoding :
    (Instr.store (bodyW 0xFFFF 255 0xFFFF 15 [1, 2, 3, 4])).wellFormed tiny = true ∧
    (Instr.arbAdd (.lfb 1) 1).wellFormed tiny = true ∧ Instr.clockFall.wellFormed tiny = true := by decide

theorem witness_EveryDecodedRecordIsAnEncoding :
    decode tiny .request (reqRecord 0xFF) = .ok (.reserved80 127 reqFields) ∧
    decode tiny .arbOp [0x03, 0, 0, 0, 0, 0, 0, 0] = .ok (.arbCurrent (.xreq 0)) := ⟨rfl, rfl⟩

/-- A state of `tiny` with these events waiting. -/
def waiting (es : List Event) : State :=
  { quiet .rise with events := es }

theorem witness_StepRunsTheDecodedInstruction :
    (waiting [.record .phaseOp [0, 0, 0, 0, 0, 0, 0, 0]]).events = .record .phaseOp [0, 0, 0, 0, 0, 0, 0, 0] :: [] ∧
    decode (waiting []).cfg .phaseOp [0, 0, 0, 0, 0, 0, 0, 0] = .ok .clockRise ∧
    decode (waiting []).cfg .phaseOp [2, 0, 0, 0, 0, 0, 0, 0] = .error .unknownSelector := ⟨rfl, rfl, rfl⟩

theorem witness_OtherStepsTickTheClockOrActDownstream :
    ((quiet .rise).events = [] ∧ (quiet .rise).phase = .rise) ∧
    ((quiet .fall).events = [] ∧ (quiet .fall).phase = .fall) ∧
    (waiting [.dsTake 1]).events = .dsTake 1 :: [] ∧
    (waiting [.dsBlock 1 true]).events = .dsBlock 1 true :: [] := ⟨⟨rfl, rfl⟩, ⟨rfl, rfl⟩, rfl, rfl⟩

theorem witness_ValidityQueriesAnswer :
    (quiet .fall).Healthy ∧ (quiet .rise).Healthy ∧ (1 : BitVec 16).toNat < tiny.numPorts ∧
    tiny.numPorts ≤ (2 : BitVec 16).toNat ∧ (quiet .fall).phase = .fall ∧ (quiet .rise).phase = .rise :=
  ⟨rfl, rfl, by decide, by decide, rfl, rfl⟩

/-- NBC in a rise, a return waiting on port 0. -/
def withReturn (ph : Phase) : State :=
  st ph idleBank none (some staged) DsPort.reset

/-- The first failing check of R101 and R102, in order. -/
def firstFailingRead (s : State) (port : BitVec 16) : Option FaultCode :=
  if s.cfg.numPorts ≤ port.toNat then some .portRange
  else if s.phase ≠ .rise then some .badPhase
  else if s.retSlot port.toNat = none then some .readNotValid
  else none

theorem witness_PeekAndReadGiveTheReturn :
    (withReturn .rise).Healthy ∧ (0 : BitVec 16).toNat < tiny.numPorts ∧ (withReturn .rise).phase = .rise ∧
    (withReturn .rise).retSlot 0 = some staged ∧ firstFailingRead (withReturn .fall) 2 = some .portRange ∧
    firstFailingRead (withReturn .fall) 1 = some .badPhase ∧
    firstFailingRead (withReturn .rise) 1 = some .readNotValid ∧ (withReturn .fall).Healthy :=
  ⟨rfl, by decide, rfl, rfl, by decide, by decide, by decide, rfl⟩

/-- The request ends with its block, and takes one byte. -/
theorem witness_WriteRequestStoresTheRequest :
    (quiet .fall).Healthy ∧ (1 : BitVec 16).toNat < tiny.numPorts ∧ (quiet .fall).phase = .fall ∧
    (quiet .fall).reqSlot 1 = none ∧ 1 ≤ (body 1 0x13 1).size.toNat ∧
    tiny.offset (body 1 0x13 1).address + (body 1 0x13 1).size.toNat = tiny.blockSize := by
  refine ⟨rfl, by decide, rfl, rfl, by decide, by decide⟩

/-- The first failing check of R98, in order. -/
def firstFailing (s : State) (port : BitVec 16) (req : Request) : Option FaultCode :=
  if s.cfg.numPorts ≤ port.toNat then some .portRange
  else if s.phase ≠ .fall then some .badPhase
  else if s.reqSlot port.toNat ≠ none then some .writeNotValid
  else if req.port ≠ port then some .portMismatch
  else if req.type ≠ .load ∧ req.type ≠ .store then some .badType
  else if req.size = 0 ∨ s.cfg.blockSize < s.cfg.offset req.address + req.size.toNat then some .badSize
  else none

theorem witness_WriteRequestChecksInOrder :
    firstFailing (quiet .rise) 2 loadReq = some .portRange ∧
    firstFailing (quiet .rise) 1 loadReq = some .badPhase ∧
    firstFailing (st .fall idleBank (some loadReq) none DsPort.reset) 0 loadReq = some .writeNotValid ∧
    firstFailing (quiet .fall) 1 loadReq = some .portMismatch ∧
    firstFailing (quiet .fall) 0 ((body 0 0x12 2).withType .prefetch) = some .badType ∧
    firstFailing (quiet .fall) 0 ((body 0 0x12 0).withType .load) = some .badSize ∧
    firstFailing (quiet .fall) 0 ((body 0 0x12 3).withType .load) = some .badSize ∧
    firstFailing (quiet .fall) 0 loadReq = none ∧ (quiet .fall).fault = none := by decide

theorem witness_WrongPhasesAndEmptySlotsFault :
    (quiet .rise).Healthy ∧ (quiet .fall).Healthy ∧ (1 : BitVec 16).toNat < tiny.numPorts ∧
    (quiet .rise).phase = .rise ∧ (quiet .fall).phase = .fall ∧ (quiet .rise).retSlot 1 = none :=
  ⟨rfl, rfl, by decide, rfl, rfl, rfl⟩

theorem witness_RefusedTypesRaiseBadType :
    (quiet .fall).Healthy ∧ (body 1 0x13 1).port.toNat < tiny.numPorts ∧ (quiet .fall).phase = .fall ∧
    (quiet .fall).reqSlot (body 1 0x13 1).port.toNat = none := ⟨rfl, by decide, rfl, rfl⟩

/-- NBC in a rise, a LOAD waiting on port 0, with this bank 0. -/
def withLoad (bk : Bank) : State :=
  st .rise bk (some loadReq) none DsPort.reset

theorem witness_RequestsWaitUntilRead :
    (withLoad idleBank).reqSlot 0 = some loadReq ∧
    (∃ t, exec .clockRise (withLoad idleBank) = .next t ∧ t.reqSlot 0 = none) ∧
    ∃ t, exec (.returnPortReadValid 0) (withLoad idleBank) = .next t ∧ t.reqSlot 0 = some loadReq :=
  ⟨rfl, ⟨_, rfl, rfl⟩, ⟨_, rfl, rfl⟩⟩

theorem witness_ReturnsWaitUntilRead :
    (withReturn .rise).retSlot 0 = some staged ∧
    (∃ t, exec (.readReturn 0) (withReturn .rise) = .next t ∧ t.retSlot 0 = none) ∧
    ∃ t, exec .clockFall (withReturn .fall) = .next t ∧ t.retSlot 0 = some staged :=
  ⟨rfl, ⟨_, rfl, rfl⟩, ⟨_, rfl, rfl⟩⟩

theorem witness_StuckNbcChangesNothing : stuck.fault = some .badSize := rfl

theorem witness_NoStepClearsAFault :
    tiny.valid = true ∧ stuck.fault = some .badSize ∧ ∃ t, step stuck = .next t :=
  ⟨by decide, rfl, ⟨_, rfl⟩⟩

/-- NBC in a rise with a return that answers nothing on bank 0's port. -/
def badReturn : State :=
  st .rise idleBank none none (dsOf [fill])

theorem witness_AFaultRestoresTheState :
    badReturn.fault = none ∧
    (∃ t, exec .clockRise badReturn = .next t ∧ t.fault = some .unmatchedFill) ∧
    ∃ t, exec (.readReturn 1) badReturn = .next t ∧ t.fault = some .readNotValid :=
  ⟨rfl, ⟨_, rfl, rfl⟩, ⟨_, rfl, rfl⟩⟩

theorem witness_DupLfbAndConfigAreNeverRaised :
    (withLoad combiningBank).fault = none ∧ ∃ t, exec .clockRise (withLoad combiningBank) = .next t :=
  ⟨rfl, ⟨_, rfl⟩⟩

/-- NBC in a rise with a return of this type on bank 1's port. -/
def badReturn1 (t : RetType) : State :=
  { quiet .rise with ds := [DsPort.reset, dsOf [(retBody 1 0 0x14 4 [0, 0, 0, 0]).withType t]] }

theorem witness_ReturnsThatAnswerNothingFault :
    (badReturn1 .na).Healthy ∧ (badReturn1 .na).phase = .rise ∧ 1 < (badReturn1 .na).cfg.numBanks ∧
    (∀ c < 1, (badReturn1 .na).dsHead c = none) ∧
    (badReturn1 .na).dsHead 1 = some ((retBody 1 0 0x14 4 [0, 0, 0, 0]).withType .na) ∧
    ¬ (badReturn1 .na).Answers 1 ((retBody 1 0 0x14 4 [0, 0, 0, 0]).withType .na) ∧
    badReturn.Healthy ∧ badReturn.dsHead 0 = some fill ∧ ¬ badReturn.Answers 0 fill ∧
    fillShaped tiny 0 fill = true :=
  ⟨rfl, rfl, by decide, by decide, rfl, fun h => absurd h.1 (by decide), rfl, rfl,
    fun h => absurd h.2 (by decide), by decide⟩

theorem witness_AdvanceGoesToTheNextPending :
    Arb.Fits 4 ⟨0, 3⟩ ∧ Arb.Fits 4 ⟨0b1000, 3⟩ ∧ Arb.Fits 1 ⟨1, 0⟩ :=
  ⟨⟨by decide, by decide⟩, ⟨by decide, by decide⟩, ⟨by decide, by decide⟩⟩

theorem witness_RoundRobinIsFair : Arb.Fits 4 ⟨0b1001, 0⟩ ∧ Nat.testBit 0b1001 3 = true :=
  ⟨⟨by decide, by decide⟩, by decide⟩

theorem quiet_wellSized (ph : Phase) : (quiet ph).WellSized :=
  st_wellSized (bank_wellSized (by decide)) _ _ _ _

theorem witness_ArbOperationsRunOnOneArbitrator :
    (quiet .rise).Healthy ∧ (quiet .rise).WellSized ∧ (ArbRef.lfb 1).number < tiny.arbCount (.lfb 1) ∧
    (1 : BitVec 8).toNat < tiny.arbWidth (.lfb 1) ∧ (ArbRef.xret 1).number < tiny.arbCount (.xret 1) :=
  ⟨rfl, quiet_wellSized _, by decide, by decide, by decide⟩

theorem witness_ArbOperationsStopOutsideTheirRange :
    (quiet .rise).Healthy ∧ tiny.arbCount (.xreq 2) = (ArbRef.xreq 2).number ∧
    (ArbRef.xreq 1).number < tiny.arbCount (.xreq 1) ∧ tiny.arbWidth (.xreq 1) = (2 : BitVec 8).toNat :=
  ⟨rfl, rfl, by decide, rfl⟩

/-- The configuration of the example of R57. -/
def exampleCfg : Config :=
  { Config.reference with blockSize := 32, numBanks := 4, bankSelectMask := 0x60, addrWidth := 32, cacheSize := 2048 }

theorem witness_AddressFieldsOfTheExample :
    exampleCfg.blockSize = 32 ∧ exampleCfg.numBanks = 4 ∧ exampleCfg.bankSelectMask = 0x60 ∧
    exampleCfg.setsPerBank = 8 ∧ exampleCfg.addrWidth = 32 ∧ exampleCfg.valid = true := by decide

theorem witness_EveryAddressHasABankAndASet :
    exampleCfg.valid = true ∧ 2 ^ 32 - 1 < 2 ^ exampleCfg.addrWidth := by decide

theorem witness_TouchingKeepsTheAgesAPermutation :
    IsAges [2, 0, 1] ∧ 0 < [2, 0, 1].length ∧ 2 < [2, 0, 1].length :=
  ⟨show List.Perm _ _ by decide, by decide, by decide⟩

theorem witness_VictimIsAnInvalidOrTheOldestWay :
    ([⟨true, 1, 1⟩, ⟨false, 0, 0⟩] : List TagEntry) ≠ [] ∧
    (∃ f ∈ ([⟨true, 1, 1⟩, ⟨false, 0, 0⟩] : List TagEntry), f.valid = false) ∧
    ∀ f ∈ ([⟨true, 1, 1⟩, ⟨true, 2, 1⟩] : List TagEntry), f.valid = true := by decide

/-- LFB 0 RETIRED and no LFB INVALID. -/
def recycling : Bank :=
  bankOf (readLfb .retired 0 [1, 2, 3, 4] [] 0) (combining 1) [] [1] none

theorem witness_AllocSlotTakesInvalidThenOldestRetired :
    allocSlot retiredBank = some 1 ∧ (retiredBank.lfb 1).state = .invalid ∧
    allocSlot recycling = some 0 ∧ (recycling.lfb 0).state = .retired ∧ allocSlot twoMissesBank = none := by decide

theorem witness_LoadMergesIntoALiveReadLfb :
    findLfb fullBank (tiny.block loadReq.address) .read = some 0 ∧ (fullBank.lfb 0).subq.length = tiny.subqDepth ∧
    findLfb retiredBank (tiny.block loadReq.address) .read = some 0 ∧
    (retiredBank.lfb 0).subq.length ≠ tiny.subqDepth := by decide

theorem witness_LoadHitCopiesTheResidentLine :
    findLfb residentBank (tiny.block loadReq.address) .read = none ∧ allocSlot residentBank = some 0 ∧
    lookup tiny residentBank (tiny.block loadReq.address) = some 0 := by decide

theorem combiningBank_poolOk : combiningBank.PoolOk tiny :=
  bank_poolOk (by decide) (by decide) (by decide) (by decide) (by decide)

theorem busyBank_poolOk : busyBank.PoolOk tiny :=
  bank_poolOk (by decide) (by decide) (by decide) (by decide) (by decide)

theorem idleBank_poolOk : idleBank.PoolOk tiny :=
  bank_poolOk (by decide) (by decide) (by decide) (by decide) (by decide)

theorem witness_LoadMissJoinsTheMissQueue :
    combiningBank.PoolOk tiny ∧ findLfb combiningBank (tiny.block loadReq.address) .read = none ∧
    allocSlot combiningBank = some 1 ∧ lookup tiny combiningBank (tiny.block loadReq.address) = none ∧
    findLfb combiningBank (tiny.block loadReq.address) .writeCombining = some 0 ∧
    idleBank.PoolOk tiny ∧ findLfb idleBank (tiny.block loadReq.address) .writeCombining = none :=
  ⟨combiningBank_poolOk, by decide, by decide, by decide, by decide, idleBank_poolOk, by decide⟩

theorem busyBank_wellSized : busyBank.WellSized tiny := bank_wellSized (by decide)

/-- The STORE of block 0x10's last byte, with the block resident, and with both kinds of LFB live. -/
theorem witness_StoreReachesEveryCopy :
    (busyBank.WellSized tiny ∧ busyBank.AtMostOneLfb ∧ busyBank.PoolOk tiny ∧ fitsBlock tiny storeReq = true ∧
      effectiveMask storeReq ≠ 0 ∧ ∃ bk' c, acceptStore tiny 0 busyBank storeReq = .accepted bk' c) ∧
    residentBank.WellSized tiny ∧ residentBank.AtMostOneLfb ∧ residentBank.PoolOk tiny ∧
      ∃ bk' c, acceptStore tiny 0 residentBank storeReq = .accepted bk' c :=
  ⟨⟨busyBank_wellSized, bank_atMostOne (by decide), busyBank_poolOk, by decide, by decide, _, _, rfl⟩,
    bank_wellSized (by decide), bank_atMostOne (by decide),
    bank_poolOk (by decide) (by decide) (by decide) (by decide) (by decide), _, _, rfl⟩

/-- With a zero mask, merging, and allocating, the block resident. -/
theorem witness_StoreChangesOnlyItsBytes :
    ((∃ bk' c, acceptStore tiny 0 idleBank ((bodyW 0 0x12 1 2 [1, 2, 3, 4]).withType .store) = .accepted bk' c) ∧
      effectiveMask ((bodyW 0 0x12 1 2 [1, 2, 3, 4]).withType .store) = 0) ∧
    ((∃ bk' c, acceptStore tiny 0 busyBank storeReq = .accepted bk' c) ∧ effectiveMask storeReq ≠ 0 ∧
      findLfb busyBank (tiny.block storeReq.address) .writeCombining ≠ none) ∧
    (∃ bk' c, acceptStore tiny 0 residentBank storeReq = .accepted bk' c) ∧
      findLfb residentBank (tiny.block storeReq.address) .writeCombining = none ∧
      lookup tiny residentBank storeReq.address = some 0 :=
  ⟨⟨⟨_, _, rfl⟩, by decide⟩, ⟨⟨_, _, rfl⟩, by decide, by decide⟩, ⟨_, _, rfl⟩, by decide, by decide⟩

theorem witness_LoadAfterStoreHoldsTheStoredBytes :
    tiny.valid = true ∧ combiningBank.WellSized tiny ∧ combiningBank.AtMostOneLfb ∧ combiningBank.PoolOk tiny ∧
    storeReq.type = .store ∧ loadReq.type = .load ∧ fitsBlock tiny storeReq = true ∧
    tiny.block loadReq.address = tiny.block storeReq.address ∧
    ∃ bk1 c1 bk2 c2, acceptRequest tiny 0 combiningBank storeReq = .accepted bk1 c1 ∧
      acceptRequest tiny 0 bk1 loadReq = .accepted bk2 c2 :=
  ⟨by decide, bank_wellSized (by decide), bank_atMostOne (by decide), combiningBank_poolOk, rfl, rfl, by decide,
    by decide, _, _, _, _, rfl, rfl⟩

theorem witness_ZeroMaskStoreDoesNothing :
    ((bodyW 0 0x12 1 2 [1, 2, 3, 4]).withType .store).type = .store ∧
    ∀ j < (bodyW 0 0x12 1 2 [1, 2, 3, 4]).size.toNat, (bodyW 0 0x12 1 2 [1, 2, 3, 4]).writeMask.testBit j = false := by
  decide

theorem witness_StallsAreForWantOfAnLfbOrQueueSpace :
    loadReq.type = .load ∧ storeReq.type = .store ∧
    acceptRequest tiny 0 fullBank loadReq = .stall ∧ acceptRequest tiny 0 twoMissesBank storeReq = .stall := by decide

theorem witness_PipelineTakesItsLatency :
    (pipeBank.lfb 0).state = .dataArray ∧ (pipeBank.lfb 0).pipeCount = 1 ∧
    ((bankOf (readLfb .dataArray 0 [1, 2, 3, 4] [sub 0 2 0] 3) unused [] [] none).lfb 0).state = .dataArray ∧
    ((bankOf (readLfb .dataArray 0 [1, 2, 3, 4] [sub 0 2 0] 3) unused [] [] none).lfb 0).pipeCount = 3 := by decide

theorem witness_FillKeepsStoredBytes :
    tiny.valid = true ∧ issuedBank.WellSized tiny ∧ fillShaped tiny 0 fill = true ∧
    issuedLfb issuedBank fill.address = some fill.dst.toNat :=
  ⟨by decide, bank_wellSized (by decide), by decide, by decide⟩

/-- NBC in a rise with the answer to bank 0's fetch waiting. -/
def answered : State :=
  st .rise issuedBank none none (dsOf [fill])

theorem witness_OnlyFillsMakeABlockResident :
    ∃ t, exec .clockRise answered = .next t ∧ lookup answered.cfg (answered.bank 0) 0x13 = none ∧
      lookup answered.cfg (t.bank 0) 0x13 ≠ none :=
  ⟨_, rfl, by decide, by decide⟩

/-- NBC in a fall, two fetches of bank 0 due, its port written in this fall or not. -/
def fetching (wrote : Bool) : State :=
  st .fall twoMissesBank none none { DsPort.reset with wrote := wrote }

/-- The DSLOAD record of the first fetch, of another block, and on a port NBC does not use. -/
theorem witness_DsLoadIsTheMissIssue :
    ((fetching false).Healthy ∧ 0 < tiny.numBanks ∧ 1 ≤ tiny.dsPortStride ∧ tiny.dsPort 0 ≤ 65535 ∧
      (fetching false).dsWriteValid 0 = true ∧ ((fetching false).dsPort 0).wrote = false ∧
      twoMissesBank.mq = 0 :: [1]) ∧
    (∀ b < tiny.numBanks, tiny.dsPort b = (body 0 0x10 4).port.toNat →
      (fetching true).dsWriteValid b = false ∨ ((fetching true).dsPort b).wrote = true ∨
        (due tiny b ((fetching true).bank b)).map Issue.request ≠ some ((body 0 0x10 4).withType .load)) ∧
    (∀ b < tiny.numBanks, tiny.dsPort b = (body 0 0x20 4).port.toNat →
      (fetching false).dsWriteValid b = false ∨ ((fetching false).dsPort b).wrote = true ∨
        (due tiny b ((fetching false).bank b)).map Issue.request ≠ some ((body 0 0x20 4).withType .load)) ∧
    (∀ b < tiny.numBanks, tiny.dsPort b ≠ (body 2 0x10 4).port.toNat) ∧ (quiet .rise).phase ≠ .fall :=
  ⟨⟨rfl, by decide, by decide, by decide, by decide, rfl, rfl⟩, by decide, by decide, by decide, by decide⟩

/-- A bank whose LFB 0 is being written back under this mask. -/
def draining (mask : Nat) : Bank :=
  bankOf { combining 0 with byteWriteMask := mask } unused [] [] (some 0)

/-- A run inside the block that empties the mask; one that leaves a byte; one that ends the block; and a DSSTORE
record of another run than the one due. -/
theorem witness_DsStoreIsTheWriteBackDrain :
    ((st .fall drainBank none none DsPort.reset).Healthy ∧
      (st .fall drainBank none none DsPort.reset).dsWriteValid 0 = true ∧
      ((st .fall drainBank none none DsPort.reset).dsPort 0).wrote = false ∧ tiny.dsPort 0 ≤ 65535 ∧
      drainBank.mq = [] ∧ drainBank.wbActive = some 0 ∧ 0 < drainBank.lfbs.length) ∧
    (1 + 2 < tiny.blockSize ∧ (∀ j < 1, (drainBank.lfb 0).byteWriteMask.testBit j = false) ∧
      (∀ j < 2, (drainBank.lfb 0).byteWriteMask.testBit (1 + j) = true) ∧
      (drainBank.lfb 0).byteWriteMask.testBit 3 = false) ∧
    ((∀ j < 1, ((draining 9).lfb 0).byteWriteMask.testBit (0 + j) = true) ∧
      ((draining 9).lfb 0).byteWriteMask.testBit 1 = false) ∧
    (3 + 1 = tiny.blockSize ∧ (∀ j < 3, ((draining 8).lfb 0).byteWriteMask.testBit j = false) ∧
      (∀ j < 1, ((draining 8).lfb 0).byteWriteMask.testBit (3 + j) = true)) ∧
    ∀ b < tiny.numBanks, tiny.dsPort b = storeReq.port.toNat →
      (due tiny b ((st .fall drainBank none none DsPort.reset).bank b)).map Issue.request ≠ some storeReq :=
  ⟨⟨rfl, by decide, rfl, by decide, rfl, rfl, by decide⟩, by decide, by decide, by decide, by decide⟩

/-- `clock_fall` with a port free and with it written already; then steps that meet the premise of each clause: a
fall that writes, a dsTake in a fall on a written port, a fall that ends, and a rise. -/
theorem witness_OneDownstreamRequestPerFall :
    ((fetching false).Healthy ∧ (fetching false).WellSized ∧ (fetching true).WellSized ∧
      (∃ t, exec .clockFall (fetching false) = .next t) ∧ (∃ t, exec .clockFall (fetching true) = .next t) ∧
      twoMissesBank.mq = 0 :: [1]) ∧
    (∃ t req, step (fetching false) = .next t ∧ (t.dsPort 0).req = some req ∧
      ((fetching false).dsPort 0).req ≠ some req ∧ (fetching false).phase = .fall ∧ t.phase = .rise) ∧
    (∃ t, step { fetching true with events := [.dsTake 0] } = .next t ∧ ((fetching true).dsPort 0).wrote = true ∧
      t.phase = .fall) ∧
    ∃ t, step (quiet .rise) = .next t ∧ ((quiet .rise).dsPort 0).wrote = false :=
  ⟨⟨rfl, st_wellSized (bank_wellSized (by decide)) _ _ _ _, st_wellSized (bank_wellSized (by decide)) _ _ _ _,
      ⟨_, rfl⟩, ⟨_, rfl⟩, rfl⟩,
    ⟨_, _, rfl, rfl, by decide, rfl, rfl⟩, ⟨_, rfl, rfl, rfl⟩, _, rfl, rfl⟩

/-- R104, R105: a DSLOAD, the unit's taking of it, and `clock_fall` in one fall write one request; the second fetch
stays queued for the next fall. -/
theorem test_R105_one_write_per_fall :
    let fetch : ReqBody := { body 0 0x10 4 with dst := 0 }
    nextHas (exec (.dsLoad fetch) (fetching false)) (fun t =>
      (t.dsPort 0).req == some (fetch.withType .load) &&
      nextHas (exec .clockFall (t.dsTake 0)) (fun u =>
        (u.dsPort 0).req == none && !(u.dsPort 0).wrote && (u.bank 0).mq == [1] && u.stats.dsLoads == 1)) := by
  decide

/-- With a sub-request to return, with a full stage, and with nothing to return. -/
theorem witness_ReturnStepStagesTheOldestSubRequest :
    filledBank.lfbArb.Fits tiny.numLfbs ∧ filledBank.lfbs.length = tiny.numLfbs ∧ filledBank.rstage = none ∧
    (∃ k < tiny.numLfbs, (filledBank.lfb k).returns = true) ∧ stagedBank.lfbArb.Fits tiny.numLfbs ∧
    stagedBank.rstage ≠ none ∧ (∀ k < tiny.numLfbs, (missedBank.lfb k).returns = false) ∧ missedBank.rstage = none :=
  ⟨⟨by decide, by decide⟩, rfl, rfl, by decide, ⟨by decide, by decide⟩, by decide, by decide, rfl⟩

theorem witness_ReturnsAreReceived :
    (quiet .fall).Healthy ∧ 1 ≤ tiny.dsPortStride ∧ tiny.dsPort 1 = (1 : BitVec 16).toNat ∧ 1 < tiny.numBanks ∧
    ∀ b < tiny.numBanks, tiny.dsPort b ≠ (2 : BitVec 16).toNat :=
  ⟨rfl, by decide, rfl, by decide, by decide⟩

theorem answered_fills : answered.FillsAnswer := st_fillsAnswer (by decide)

theorem witness_ClockRiseCompletes : answered.Healthy ∧ answered.phase = .rise ∧ answered.FillsAnswer :=
  ⟨rfl, rfl, answered_fills⟩

/-- A fall whose bank 0 has a fetch to write. -/
theorem witness_ClockFallCompletes :
    (quiet .fall).Healthy ∧ (quiet .fall).phase = .fall ∧ (fetching false).Healthy ∧
    (fetching false).phase = .fall ∧ (fetching false).dsWriteValid 0 = true ∧ 0 < (fetching false).banks.length ∧
    (due tiny 0 twoMissesBank).isSome = true := ⟨rfl, rfl, rfl, rfl, by decide, by decide, by decide⟩

theorem withLoad_routesOk {bk : Bank}
    (hb : ∀ k < bk.lfbs.length, (bk.lfb k).live = true → tiny.bank (bk.lfb k).blockAddress = 0)
    (hs : ∀ k < bk.lfbs.length, (bk.lfb k).subq.length ≤ 2 ∧ ∀ sr ∈ (bk.lfb k).subq,
      1 ≤ sr.size.toNat ∧ sr.offset + sr.size.toNat ≤ 4 ∧ sr.port.toNat < 2) : (withLoad bk).RoutesOk :=
  st_routesOk (by decide) (by decide) hb hs _ _

/-- NBC in a rise, a LOAD of block 0x20 waiting on port 0, and the answer to bank 0's fetch waiting downstream. -/
def loadAndFill (l1 : Lfb) (wbq : List Nat) : State :=
  st .rise (bankOf (readLfb .missed 8 [0, 0, 0, 0x55] [sub 0 2 0] 0) l1 [] wbq none)
    (some ((body 0 0x20 2).withType .load)) none (dsOf [fill])

/-- Bank 0 accepts the LOAD of port 0; with its sub-request queue full it stalls; with a write-back waiting it
hands off; with no request it does nothing. And with a return to read: it accepts, stalls for want of an LFB, hands
off, or does nothing. -/
theorem witness_ClockRiseServesTheGrantedRequest :
    ((withLoad idleBank).Healthy ∧ tiny.valid = true ∧ (withLoad idleBank).WellSized ∧
      (withLoad idleBank).RoutesOk ∧ (withLoad idleBank).FillsAnswer ∧ (withLoad idleBank).dsHead 0 = none ∧
      ((registerRequests (withLoad idleBank)).xreq 0).current = some 0 ∧
      handOff (pipelineAdvance idleBank) = none ∧
      ∃ bk c, acceptRequest tiny 0 (pipelineAdvance idleBank) loadReq = .accepted bk c) ∧
    ((withLoad fullBank).WellSized ∧ (withLoad fullBank).RoutesOk ∧ (withLoad fullBank).FillsAnswer ∧
      ((registerRequests (withLoad fullBank)).xreq 0).current = some 0 ∧
      handOff (pipelineAdvance fullBank) = none ∧
      acceptRequest tiny 0 (pipelineAdvance fullBank) loadReq = .stall) ∧
    ((withLoad combiningBank).WellSized ∧ (withLoad combiningBank).RoutesOk ∧ (withLoad combiningBank).FillsAnswer ∧
      ∃ x, handOff (pipelineAdvance combiningBank) = some x) ∧
    (answered.WellSized ∧ answered.RoutesOk ∧ answered.FillsAnswer ∧ answered.dsHead 0 = some fill ∧
      handOff (pipelineAdvance issuedBank) = none ∧ ((registerRequests answered).xreq 0).current = none) ∧
    ((loadAndFill unused []).WellSized ∧ (loadAndFill unused []).RoutesOk ∧ (loadAndFill unused []).FillsAnswer ∧
      ((registerRequests (loadAndFill unused [])).xreq 0).current = some 0 ∧
      ∃ bk c, acceptRequest tiny 0 (pipelineAdvance ((loadAndFill unused []).bank 0))
        ((body 0 0x20 2).withType .load) = .accepted bk c) ∧
    ((loadAndFill (combining 1) []).WellSized ∧ (loadAndFill (combining 1) []).RoutesOk ∧
      (loadAndFill (combining 1) []).FillsAnswer ∧
      acceptRequest tiny 0 (pipelineAdvance ((loadAndFill (combining 1) []).bank 0))
        ((body 0 0x20 2).withType .load) = .stall) ∧
    (loadAndFill (combining 1) [1]).WellSized ∧ (loadAndFill (combining 1) [1]).RoutesOk ∧
      (loadAndFill (combining 1) [1]).FillsAnswer ∧
      ∃ x, handOff (pipelineAdvance ((loadAndFill (combining 1) [1]).bank 0)) = some x :=
  ⟨⟨rfl, by decide, st_wellSized (bank_wellSized (by decide)) _ _ _ _, withLoad_routesOk (by decide) (by decide),
      st_fillsAnswer (by decide), rfl, by decide, by decide, _, _, rfl⟩,
    ⟨st_wellSized (bank_wellSized (by decide)) _ _ _ _, withLoad_routesOk (by decide) (by decide),
      st_fillsAnswer (by decide), by decide, by decide, by decide⟩,
    ⟨st_wellSized (bank_wellSized (by decide)) _ _ _ _, withLoad_routesOk (by decide) (by decide),
      st_fillsAnswer (by decide), _, rfl⟩,
    ⟨st_wellSized (bank_wellSized (by decide)) _ _ _ _,
      st_routesOk (by decide) (by decide) (by decide) (by decide) _ _, answered_fills, rfl, by decide, by decide⟩,
    ⟨st_wellSized (bank_wellSized (by decide)) _ _ _ _,
      st_routesOk (by decide) (by decide) (by decide) (by decide) _ _, st_fillsAnswer (by decide), by decide,
      _, _, rfl⟩,
    ⟨st_wellSized (bank_wellSized (by decide)) _ _ _ _,
      st_routesOk (by decide) (by decide) (by decide) (by decide) _ _, st_fillsAnswer (by decide), by decide⟩,
    st_wellSized (bank_wellSized (by decide)) _ _ _ _,
    st_routesOk (by decide) (by decide) (by decide) (by decide) _ _, st_fillsAnswer (by decide), _, rfl⟩

theorem witness_HandOffTakesTheRise :
    (withLoad combiningBank).Healthy ∧ (withLoad combiningBank).WellSized ∧ (withLoad combiningBank).RoutesOk ∧
    (withLoad combiningBank).FillsAnswer ∧ (withLoad combiningBank).dsHead 0 = none ∧
    combiningBank.wbq = 0 :: [] ∧ combiningBank.wbActive = none ∧
    (withLoad combiningBank).reqSlot 0 = some loadReq ∧ tiny.bank loadReq.address = 0 :=
  ⟨rfl, st_wellSized (bank_wellSized (by decide)) _ _ _ _, withLoad_routesOk (by decide) (by decide),
    st_fillsAnswer (by decide), rfl, rfl, rfl, rfl, by decide⟩

theorem witness_RegistrationOffersEveryWaitingRequest :
    tiny.valid = true ∧ (withLoad idleBank).WellSized ∧ (withLoad idleBank).RoutesOk ∧
    (withLoad idleBank).reqSlot 0 = some loadReq ∧
    ((registerRequests (withLoad idleBank)).xreq 0).current = some 0 :=
  ⟨by decide, st_wellSized (bank_wellSized (by decide)) _ _ _ _, withLoad_routesOk (by decide) (by decide), rfl,
    by decide⟩

/-- NBC in a fall with a return of port 0 staged in bank 0. -/
def staging (ret : Option Return) : State :=
  st .fall stagedBank none ret DsPort.reset

theorem staging_routesOk {ret : Option Return} (h : ∀ r ∈ ret, r.port.toNat = 0) : (staging ret).RoutesOk :=
  st_routesOk (by decide) h (by decide) (by decide) _ _

/-- NBC in a fall with a sub-request of port 0 ready in bank 0 and its return stage empty. -/
def returning : State :=
  st .fall filledBank none none DsPort.reset

/-- A return staged before, one staged in the same fall, a full slot, and nothing staged. -/
theorem witness_RoutingDeliversAStagedReturn :
    ((staging none).Healthy ∧ (staging none).WellSized ∧ (staging none).RoutesOk ∧ 0 < tiny.numPorts ∧
      (∃ t, exec .clockFall (staging none) = .next t) ∧ (staging none).retSlot 0 = none ∧
      (fallBanks (List.range 2) (staging none)).stagedFor 0 0 = true) ∧
    (returning.WellSized ∧ returning.RoutesOk ∧ (∃ t, exec .clockFall returning = .next t) ∧
      returning.stagedFor 0 0 = false ∧ (fallBanks (List.range 2) returning).stagedFor 0 0 = true) ∧
    ((staging (some staged)).WellSized ∧ (staging (some staged)).RoutesOk ∧
      (staging (some staged)).retSlot 0 ≠ none ∧ ∃ t, exec .clockFall (staging (some staged)) = .next t) ∧
    (staging none).retSlot 1 = none ∧ ∀ b, (fallBanks (List.range 2) (staging none)).stagedFor 1 b = false :=
  ⟨⟨rfl, st_wellSized (bank_wellSized (by decide)) _ _ _ _, staging_routesOk (by decide), by decide, ⟨_, rfl⟩, rfl,
      by decide⟩,
    ⟨st_wellSized (bank_wellSized (by decide)) _ _ _ _,
      st_routesOk (by decide) (by decide) (by decide) (by decide) _ _, ⟨_, rfl⟩, by decide, by decide⟩,
    ⟨st_wellSized (bank_wellSized (by decide)) _ _ _ _, staging_routesOk (by decide), by decide, ⟨_, rfl⟩⟩,
    rfl, fun b => match b with
      | 0 => by decide
      | 1 => by decide
      | _ + 2 => rfl⟩

theorem witness_AnIdleCycleChangesNothing :
    (quiet .rise).Healthy ∧ (quiet .rise).WellSized ∧ (quiet .rise).busy = false ∧
    (∀ b < tiny.numBanks, (quiet .rise).dsHead b = none) ∧ (quiet .rise).phase = .rise ∧
    (quiet .fall).Healthy ∧ (quiet .fall).WellSized ∧ (quiet .fall).busy = false ∧
    (∀ b < tiny.numBanks, (quiet .fall).dsHead b = none) ∧ (quiet .fall).phase = .fall :=
  ⟨rfl, quiet_wellSized _, by decide, by decide, rfl, rfl, quiet_wellSized _, by decide, by decide, rfl⟩

theorem witness_ConstructionMeetsTheInvariants : exampleCfg.valid = true := by decide

/-- The field widths of a state of `tiny` from its parts. -/
theorem st_fieldsFit {bk : Bank} {req : Option Request} {d : DsPort}
    (hq : ∀ r ∈ req, r.address < 256 ∧ r.writeMask < 16 ∧ r.payload.length = 4 ∧ fitsBlock tiny r = true)
    (hl : ∀ l ∈ bk.lfbs, l.blockAddress < 256 ∧ tiny.offset l.blockAddress = 0 ∧ l.byteWriteMask < 16)
    (hs : bk.rstage = none)
    (ht : ∀ ways ∈ bk.tags, ∀ e ∈ ways, e.tag < 2 ^ (tiny.addrWidth - tiny.offsetBits)) (hd : d.req = none)
    (hr : ∀ r ∈ d.rets, r.address < 256 ∧ r.payload.length = 4) (ph : Phase) :
    (st ph bk req none d).FieldsFit := by
  refine ⟨?_, ?_, ?_, ?_, ?_⟩
  · intro i r h
    match i, h with
    | 0, h => exact ⟨⟨(hq r h).1, (hq r h).2.1, (hq r h).2.2.1⟩, (hq r h).2.2.2⟩
    | 1, h => cases h
    | _ + 2, h => cases h
  · intro p r h
    match p, h with
    | 0, h => cases h
    | 1, h => cases h
    | _ + 2, h => cases h
  · intro b hb
    rcases List.mem_cons.1 hb with rfl | hb
    · exact ⟨fun l h => ⟨(hl l h).1, (hl l h).2.1, (hl l h).2.2⟩, fun r h => (by rw [hs] at h; cases h), ht⟩
    · rw [List.mem_singleton.1 hb]
      have h0 : (∀ l ∈ idleBank.lfbs, l.blockAddress < 256 ∧ tiny.offset l.blockAddress = 0 ∧
          l.byteWriteMask < 16) ∧ ∀ ways ∈ idleBank.tags, ∀ e ∈ ways, e.tag < 2 ^ (tiny.addrWidth - tiny.offsetBits) := by decide
      exact ⟨fun l h => ⟨(h0.1 l h).1, (h0.1 l h).2.1, (h0.1 l h).2.2⟩, fun r h => (by cases h), h0.2⟩
  · intro b r h
    match b, h with
    | 0, h => have h' : d.req = some r := h; rw [hd] at h'; cases h'
    | 1, h => cases h
    | _ + 2, h => cases h
  · intro b r h
    match b, h with
    | 0, h => exact ⟨(hr r h).1, (hr r h).2⟩
    | 1, h => cases h
    | _ + 2, h => cases h

theorem witness_StepKeepsTheSizes :
    answered.WellSized ∧ answered.FieldsFit ∧ (∃ t, step answered = .next t) ∧
    (withLoad busyBank).WellSized ∧ (withLoad busyBank).FieldsFit ∧ ∃ t, step (withLoad busyBank) = .next t :=
  ⟨st_wellSized (bank_wellSized (by decide)) _ _ _ _,
    st_fieldsFit (by decide) (by decide) rfl (by decide) rfl (by decide) _, ⟨_, rfl⟩,
    st_wellSized busyBank_wellSized _ _ _ _,
    st_fieldsFit (by decide) (by decide) rfl (by decide) rfl (by decide) _, ⟨_, rfl⟩⟩

/-- An invariant of the banks holds on both banks of a state of `tiny`. -/
theorem st_banks {P : Bank → Prop} {bk : Bank} (h0 : P bk) (h1 : P idleBank) (ph : Phase) (req : Option Request)
    (ret : Option Return) (d : DsPort) :
    ∀ b < (st ph bk req ret d).banks.length, P ((st ph bk req ret d).bank b) := by
  intro b hb
  match b, hb with
  | 0, _ => exact h0
  | 1, _ => exact h1
  | _ + 2, h => exact absurd h (by simp [st])

theorem witness_StepKeepsAtMostOneLfb :
    (withLoad busyBank).WellSized ∧
    (∀ b < (withLoad busyBank).banks.length, ((withLoad busyBank).bank b).AtMostOneLfb) ∧
    ∃ t, step (withLoad busyBank) = .next t :=
  ⟨st_wellSized busyBank_wellSized _ _ _ _,
    st_banks (bank_atMostOne (by decide)) (bank_atMostOne (by decide)) _ _ _ _, ⟨_, rfl⟩⟩

theorem witness_StepKeepsThePoolInvariant :
    (withLoad busyBank).WellSized ∧
    (∀ b < (withLoad busyBank).banks.length, ((withLoad busyBank).bank b).PoolOk (withLoad busyBank).cfg) ∧
    ∃ t, step (withLoad busyBank) = .next t :=
  ⟨st_wellSized busyBank_wellSized _ _ _ _, st_banks (P := (Bank.PoolOk tiny)) busyBank_poolOk idleBank_poolOk _ _ _ _,
    ⟨_, rfl⟩⟩

/-- The ages of a bank of `tiny`, from a check. -/
theorem bank_agesOk {bk : Bank}
    (h : (bk.lfbs.map Lfb.lru).Perm (List.range (bk.lfbs.map Lfb.lru).length) ∧
      ∀ ways ∈ bk.tags, (ways.map TagEntry.lru).Perm (List.range (ways.map TagEntry.lru).length)) : bk.AgesOk :=
  ⟨h.1, h.2⟩

theorem witness_StepKeepsTheAges :
    (∀ b < (withLoad residentBank).banks.length, ((withLoad residentBank).bank b).AgesOk) ∧
    ∃ t, step (withLoad residentBank) = .next t :=
  ⟨st_banks (bank_agesOk (by decide)) (bank_agesOk (by decide)) _ _ _ _, ⟨_, rfl⟩⟩

/-- The tags of a bank of `tiny` are distinct, from a check. -/
theorem bank_tagsUnique {bk : Bank}
    (h : ∀ ways ∈ bk.tags, List.Pairwise
      (fun e f : TagEntry => e.valid = true → f.valid = true → e.tag ≠ f.tag) ways) : bk.TagsUnique :=
  h

theorem witness_StepKeepsTheTagsUnique :
    (∀ b < (withLoad residentBank).banks.length, ((withLoad residentBank).bank b).TagsUnique) ∧
    ∃ t, step (withLoad residentBank) = .next t :=
  ⟨st_banks (bank_tagsUnique (by decide)) (bank_tagsUnique (by decide)) _ _ _ _, ⟨_, rfl⟩⟩

theorem witness_InstructionsKeepTheRoutes :
    isArbOp .clockRise = false ∧ tiny.valid = true ∧ (withLoad busyBank).WellSized ∧ (withLoad busyBank).RoutesOk ∧
    ∃ t, exec .clockRise (withLoad busyBank) = .next t :=
  ⟨rfl, by decide, st_wellSized busyBank_wellSized _ _ _ _, withLoad_routesOk (by decide) (by decide), ⟨_, rfl⟩⟩

end Sys2Proof.Machine.Tests
end

section
/-! PROOFS. What one instruction and one step can do to the state, said once: a sequence of the moves of
`StateMove`. An invariant of the state that every move keeps is kept by every instruction (`exec_stateMoves`). -/

namespace Sys2Proof.Machine

/-! ### Admitted requests and returns -/

theorem two_pow_recordAddrWidth_le (cfg : Config) : 2 ^ cfg.recordAddrWidth ≤ 2 ^ cfg.addrWidth :=
  Nat.pow_le_pow_right (by decide) (Nat.min_le_left _ _)

/-- A request that the configuration admits has its widths (30_encoding.md R77). -/
theorem RequestFits.of_check {cfg : Config} {req : Request} (h : req.toReqBody.check cfg = none) :
    RequestFits cfg req := by
  unfold ReqBody.check at h
  split at h
  · cases h
  · rename_i haddr
    split at h
    · cases h
    · rename_i hmask
      split at h
      · cases h
      · rename_i hlen
        exact ⟨lt_of_lt_of_le (not_le.mp haddr) (two_pow_recordAddrWidth_le cfg), not_le.mp hmask, not_not.mp hlen⟩

/-- A return that the configuration admits has its widths (30_encoding.md R83). -/
theorem ReturnFits.of_check {cfg : Config} {r : Return} (h : r.toRetBody.check cfg = none) : ReturnFits cfg r := by
  unfold RetBody.check at h
  split at h
  · cases h
  · rename_i haddr
    split at h
    · cases h
    · rename_i hlen
      exact ⟨lt_of_lt_of_le (not_le.mp haddr) (two_pow_recordAddrWidth_le cfg), not_not.mp hlen⟩

/-! ### The moves -/

/-- One move that the instruction `i` makes on the state. -/
inductive StateMove (i : Instr) : State → State → Prop
  /-- What no invariant of the paths and sizes reads. -/
  | note (s : State) (f : Option FaultCode) (st : Stats) (n : Nat) (p : Phase) (r : Response) :
      StateMove i s { s with fault := f, stats := st, cycle := n, phase := p, resp := r }
  /-- `write_request` stores a request that passed its checks (40_port_contract.md R97, R98). -/
  | store (s : State) (req : Request) (hp : req.port.toNat < s.cfg.numPorts)
      (hslot : s.reqSlot req.port.toNat = none) (ht : req.type = .load ∨ req.type = .store)
      (hfits : fitsBlock s.cfg req = true) (hw : i.check s.cfg = none → RequestFits s.cfg req) :
      StateMove i s { s with reqIn := s.reqIn.set req.port.toNat (some req) }
  /-- `read_return` empties a return slot (R102). -/
  | take (s : State) (p : Nat) : StateMove i s { s with retOut := s.retOut.set p none }
  /-- The downstream unit makes a return available (47_cycle.md R149). -/
  | receive (s : State) (b : Nat) (r : Return) (hw : i.check s.cfg = none → ReturnFits s.cfg r) :
      StateMove i s (s.setDsPort b { s.dsPort b with rets := (s.dsPort b).rets ++ [r] })
  /-- An arbitrator operation (41_round_robin.md R106 to R108). -/
  | arb (s : State) (a : ArbRef) (v : Arb) (hi : isArbOp i = true)
      (hv : (s.arb a).Fits (s.cfg.arbWidth a) → v.Fits (s.cfg.arbWidth a)) : StateMove i s (s.setArb a v)
  /-- A port registers its request (42_crossbar.md R115). -/
  | register (s : State) (p : Nat) : StateMove i s (registerPort s p)
  /-- The request arbitrators advance (R115). -/
  | advance (s : State) : StateMove i s { s with xreqArb := s.xreqArb.map (Arb.advance s.cfg.numPorts) }
  /-- The pipeline advance (44_bank_accept.md R133). -/
  | pipe (s : State) (b : Nat) : StateMove i s (s.setBank b (pipelineAdvance (s.bank b)))
  /-- The write-back hand-off (R134). -/
  | handOff (s : State) (b : Nat) (bk : Bank) (h : handOff (s.bank b) = some bk) : StateMove i s (s.setBank b bk)
  /-- A bank accepts the granted request and reads it out of its slot (R135; 42_crossbar.md R117). -/
  | accept (s : State) (b g : Nat) (req : Request) (bk : Bank) (c : Option Counter)
      (hg : (s.xreq b).current = some g) (hreq : s.reqSlot g = some req)
      (ha : acceptRequest s.cfg b (s.bank b) req = .accepted bk c) :
      StateMove i s { s.setBank b bk with
        reqIn := s.reqIn.set g none
        xreqArb := s.xreqArb.set b ((s.xreq b).remove g) }
  /-- A downstream return is read (45_bank_fill.md R151). -/
  | pop (s : State) (b : Nat) : StateMove i s (s.dsPop b)
  /-- A fill (R152). -/
  | fill (s : State) (b : Nat) (r : Return) (bk : Bank) (h : fillBank s.cfg b (s.bank b) r = .ok bk) :
      StateMove i s (s.setBank b bk)
  /-- A downstream request (46_bank_issue.md R157). -/
  | issue (s : State) (b : Nat) (j : Issue) (h : due s.cfg b (s.bank b) = some j) : StateMove i s (s.issue b j)
  /-- The sub-request return (R161). -/
  | ret (s : State) (b : Nat) : StateMove i s (s.setBank b (returnStep s.cfg (s.bank b)))
  /-- Return routing for one port (42_crossbar.md R118). -/
  | route (s : State) (p : Nat) (hp : p < s.cfg.numPorts) : StateMove i s (routePort s p)
  /-- The fall phase is over (40_port_contract.md R105). -/
  | endFall (s : State) : StateMove i s s.dsEndFall

/-- A sequence of moves of the instruction `i`. -/
abbrev StateMoves (i : Instr) : State → State → Prop :=
  Relation.ReflTransGen (StateMove i)

/-- A predicate that every move keeps is kept by a sequence of them. -/
theorem StateMoves.keep {i : Instr} {s t : State} {P : State → Prop} (h : StateMoves i s t)
    (hP : ∀ s t, StateMove i s t → P s → P t) (hs : P s) : P t := by
  induction h with
  | refl => exact hs
  | tail _ hm ih => exact hP _ _ hm ih

/-- A move leaves the configuration alone. -/
theorem StateMove.cfg {i : Instr} {s t : State} (h : StateMove i s t) : t.cfg = s.cfg := by
  cases h with
  | arb a v => exact (s.setArb_rest a v).1
  | register p => unfold registerPort; split <;> rfl
  | route p => exact (routePort_frame s p).cfg
  | _ => rfl

/-- Folding over a list a function whose every application, to an element of the list, is a sequence of moves. -/
theorem foldl_stateMoves {i : Instr} {f : State → Nat → State} {l : List Nat} {s : State} {cfg : Config}
    (hc : s.cfg = cfg) (hf : ∀ s, s.cfg = cfg → ∀ x ∈ l, StateMoves i s (f s x)) : StateMoves i s (l.foldl f s) := by
  induction l generalizing s with
  | nil => exact .refl
  | cons x l ih =>
    have hx : StateMoves i s (f s x) := hf s hc x List.mem_cons_self
    have hcx : (f s x).cfg = cfg := hx.keep (P := fun u => u.cfg = cfg) (fun _ _ hm h => hm.cfg.trans h) hc
    exact hx.trans (ih hcx fun s hs y hy => hf s hs y (List.mem_cons_of_mem x hy))

/-! ### The rise -/

theorem registerRequests_stateMoves (i : Instr) (s : State) : StateMoves i s (registerRequests s) := by
  have hports : StateMoves i s ((List.range s.cfg.numPorts).foldl registerPort s) :=
    foldl_stateMoves rfl fun s _ p _ => .single (.register s p)
  exact hports.tail (.advance _)

theorem acceptStep_stateMoves {i : Instr} {b : Nat} {s t : State} (h : acceptStep b s = .ok t) :
    StateMoves i s t := by
  rcases acceptStep_ok h with rfl | rfl | ⟨g, req, bk, counts, hg, hreq, ha, rfl⟩
  · exact .refl
  · exact .single (.note s s.fault (s.stats.bump .lfbStalls) s.cycle s.phase s.resp)
  · exact (Relation.ReflTransGen.single (.accept s b g req bk counts hg hreq ha)).tail
      (.note _ s.fault (counts.elim s.stats s.stats.bump) s.cycle s.phase s.resp)

theorem fillStep_stateMoves {i : Instr} {b : Nat} {s t : State} (h : fillStep b s = .ok t) : StateMoves i s t := by
  rcases fillStep_ok h with ⟨-, rfl⟩ | ⟨r, bk, -, hf, rfl⟩
  · exact .refl
  · exact (Relation.ReflTransGen.single (.pop s b)).tail (.fill (s.dsPop b) b r bk hf)

theorem riseBank_stateMoves {i : Instr} {b : Nat} {s t : State} (h : riseBank b s = .ok t) : StateMoves i s t := by
  obtain ⟨u, hu, hfill⟩ := riseBank_ok h
  have hpipe : StateMoves i s (s.setBank b (pipelineAdvance (s.bank b))) := .single (.pipe s b)
  rcases handOffOrAccept_ok hu with ⟨bk, hbk, rfl⟩ | ⟨-, hacc⟩
  · exact (hpipe.tail (.handOff _ b bk hbk)).trans (fillStep_stateMoves hfill)
  · exact (hpipe.trans (acceptStep_stateMoves hacc)).trans (fillStep_stateMoves hfill)

theorem riseBanks_stateMoves {i : Instr} {bs : List Nat} {s t : State} (h : riseBanks bs s = .ok t) :
    StateMoves i s t := by
  induction bs generalizing s with
  | nil => cases h; exact .refl
  | cons b bs ih =>
    rw [riseBanks] at h
    split at h
    · rename_i u hu; exact (riseBank_stateMoves hu).trans (ih h)
    · cases h

/-! ### The downstream returns that a rise reads -/

/-- From `d` to `d'` returns are read off the downstream slots, and nothing else (60_exceptions.md R170). -/
abbrev DsReads : List DsPort → List DsPort → Prop :=
  Relation.ReflTransGen fun d d' =>
    ∃ b, d' = d.set b { d.getD b DsPort.reset with rets := (d.getD b DsPort.reset).rets.tail }

theorem DsReads.stateMoves {i : Instr} {s : State} {ds : List DsPort} (h : DsReads s.ds ds) :
    StateMoves i s { s with ds := ds } := by
  induction h with
  | refl => exact .refl
  | tail _ hb ih =>
    obtain ⟨b, rfl⟩ := hb
    exact ih.tail (.pop _ b)

theorem dsPop_reads (s : State) (b : Nat) : DsReads s.ds (s.dsPop b).ds :=
  .single ⟨b, rfl⟩

theorem acceptStep_reads {b : Nat} {s : State} :
    (∀ t, acceptStep b s = .ok t → t.ds = s.ds) ∧ ∀ c ds, acceptStep b s = .error (c, ds) → ds = s.ds := by
  constructor
  · intro t h
    rcases acceptStep_ok h with rfl | rfl | ⟨g, req, bk, counts, -, -, -, rfl⟩ <;> rfl
  · intro c ds h
    unfold acceptStep at h
    split at h
    · cases h
    · split at h
      · cases h
      · split at h
        · cases h
        · cases h; rfl
        · cases h

theorem handOffOrAccept_reads {b : Nat} {s : State} :
    (∀ t, handOffOrAccept b s = .ok t → t.ds = s.ds) ∧
      ∀ c ds, handOffOrAccept b s = .error (c, ds) → ds = s.ds := by
  unfold handOffOrAccept
  split
  · exact ⟨fun t h => by cases h; rfl, fun c ds h => by cases h⟩
  · exact acceptStep_reads

theorem fillStep_reads {b : Nat} {s : State} :
    (∀ t, fillStep b s = .ok t → DsReads s.ds t.ds) ∧ ∀ c ds, fillStep b s = .error (c, ds) → DsReads s.ds ds := by
  constructor
  · intro t h
    rcases fillStep_ok h with ⟨-, rfl⟩ | ⟨r, bk, -, -, rfl⟩
    · exact .refl
    · exact dsPop_reads s b
  · intro c ds h
    unfold fillStep at h
    split at h
    · cases h
    · simp only at h
      split at h
      · cases h
      · cases h; exact dsPop_reads s b

theorem riseBank_reads {b : Nat} {s : State} :
    (∀ t, riseBank b s = .ok t → DsReads s.ds t.ds) ∧ ∀ c ds, riseBank b s = .error (c, ds) → DsReads s.ds ds := by
  have hacc := handOffOrAccept_reads (b := b) (s := s.setBank b (pipelineAdvance (s.bank b)))
  unfold riseBank
  cases hu : handOffOrAccept b (s.setBank b (pipelineAdvance (s.bank b))) with
  | ok u =>
    have hds : u.ds = s.ds := hacc.1 u hu
    rw [← hds]
    exact fillStep_reads
  | error e =>
    refine ⟨fun t h => (by cases h), fun c ds h => ?_⟩
    cases h
    have hds : ds = s.ds := hacc.2 c ds hu
    rw [hds]

/-- A rise that faults has read downstream returns and changed nothing else that stays (R170). -/
theorem riseBanks_error_reads {bs : List Nat} {s : State} {c : FaultCode} {ds : List DsPort}
    (h : riseBanks bs s = .error (c, ds)) : DsReads s.ds ds := by
  induction bs generalizing s with
  | nil => cases h
  | cons b bs ih =>
    rw [riseBanks] at h
    split at h
    · rename_i u hu; exact (riseBank_reads.1 u hu).trans (ih h)
    · rename_i e he; cases h; exact riseBank_reads.2 c ds he

theorem registerRequests_ds (s : State) : (registerRequests s).ds = s.ds := by
  obtain ⟨arbs, -, h⟩ := registerRequests_eq s
  rw [h]

/-! ### The fall -/

theorem fallBank_stateMoves (i : Instr) (b : Nat) (s : State) : StateMoves i s (fallBank b s) := by
  have hissue : StateMoves i s (issueStep b s) := by
    rcases issueStep_spec b s with h | ⟨j, -, hj, h⟩ <;> rw [h]
    exact .single (.issue s b j hj)
  exact hissue.tail (.ret _ b)

theorem fallBanks_stateMoves (i : Instr) (bs : List Nat) (s : State) : StateMoves i s (fallBanks bs s) :=
  foldl_stateMoves (f := fun s b => fallBank b s) rfl fun s _ b _ => fallBank_stateMoves i b s

theorem routeReturns_stateMoves (i : Instr) (s : State) : StateMoves i s (routeReturns s) :=
  foldl_stateMoves rfl fun u hu p hp => .single (.route u p (by rw [hu]; exact List.mem_range.mp hp))

/-! ### The instructions -/

/-- An operation that only sets FAULT and answers. -/
theorem note_stateMoves (i : Instr) (s : State) (f : Option FaultCode) (r : Response) :
    StateMoves i s { s with fault := f, resp := r } :=
  .single (.note s f s.stats s.cycle s.phase r)

theorem raise_stateMoves {i : Instr} {s t : State} {c : FaultCode} (h : s.raise c = .next t) : StateMoves i s t := by
  cases h; exact note_stateMoves i s (some c) .nothing

theorem finish_stateMoves {i : Instr} {s u t : State} {r : Response} (hm : StateMoves i s u)
    (h : u.finish r = .next t) : StateMoves i s t := by
  cases h; exact hm.trans (note_stateMoves i u u.fault r)

theorem whenRunning_stateMoves {i : Instr} {s t : State} {op : State → Result} (h : s.whenRunning op = .next t)
    (hop : op s = .next t → StateMoves i s t) : StateMoves i s t := by
  rcases whenRunning_next h with ⟨-, rfl⟩ | ⟨-, h⟩
  · exact note_stateMoves i s s.fault .nothing
  · exact hop h

theorem onPort_stateMoves {i : Instr} {s t : State} {port : BitVec 16} {ph : Phase} {op : State → Result}
    (h : s.onPort port ph op = .next t) (hop : op s = .next t → StateMoves i s t) : StateMoves i s t := by
  refine whenRunning_stateMoves h fun h => ?_
  split at h
  · exact raise_stateMoves h
  · split at h
    · exact raise_stateMoves h
    · exact hop h

/-- `write_request` of an instruction whose admission admits the request. -/
theorem writeRequest_stateMoves {i : Instr} {s t : State} {port : BitVec 16} {req : Request}
    (h : s.writeRequest port req = .next t)
    (hw : i.check s.cfg = none → req.toReqBody.check s.cfg = none) : StateMoves i s t := by
  rcases writeRequest_next h with ⟨f, rfl⟩ | ⟨-, hp, -, hslot, rfl, ht, hfits, rfl⟩
  · exact note_stateMoves i s f .nothing
  · exact (Relation.ReflTransGen.single (.store s req hp hslot ht hfits fun hc => .of_check (hw hc))).trans
      (note_stateMoves i _ s.fault .nothing)

/-- The reception of a return by an instruction whose admission admits the return. -/
theorem receive_stateMoves {i : Instr} {s t : State} {q : BitVec 16} {r : Return} (h : s.receive q r = .next t)
    (hw : i.check s.cfg = none → r.toRetBody.check s.cfg = none) : StateMoves i s t := by
  refine whenRunning_stateMoves h fun h => ?_
  split at h
  · exact finish_stateMoves .refl h
  · rename_i b _
    exact finish_stateMoves (.single (.receive s b r fun hc => .of_check (hw hc))) h

theorem writeDownstream_stateMoves {i : Instr} {s t : State} {req : Request}
    (h : s.writeDownstream req = .next t) : StateMoves i s t := by
  rcases writeDownstream_next h with rfl | ⟨b, j, -, -, -, -, hj, -, rfl⟩
  · exact note_stateMoves i s s.fault .nothing
  · exact (Relation.ReflTransGen.single (.issue s b j hj)).trans (note_stateMoves i _ s.fault .nothing)

theorem execRequestPortWriteValid_stateMoves {i : Instr} {s t : State} {port : BitVec 16}
    (h : execRequestPortWriteValid port s = .next t) : StateMoves i s t :=
  onPort_stateMoves h (finish_stateMoves .refl)

theorem execReturnPortReadValid_stateMoves {i : Instr} {s t : State} {port : BitVec 16}
    (h : execReturnPortReadValid port s = .next t) : StateMoves i s t :=
  onPort_stateMoves h (finish_stateMoves .refl)

theorem execReadReturn_stateMoves {i : Instr} {s t : State} {port : BitVec 16}
    (h : execReadReturn port s = .next t) : StateMoves i s t := by
  refine onPort_stateMoves h fun h => ?_
  split at h
  · exact raise_stateMoves h
  · exact finish_stateMoves (.single (.take s port.toNat)) h

theorem execPeekReturn_stateMoves {i : Instr} {s t : State} {port : BitVec 16}
    (h : execPeekReturn port s = .next t) : StateMoves i s t := by
  refine onPort_stateMoves h fun h => ?_
  split at h
  · exact raise_stateMoves h
  · exact finish_stateMoves .refl h

theorem onArb_stateMoves {i : Instr} {s t : State} {a : ArbRef} {op : State → Result} (h : s.onArb a op = .next t)
    (hop : op s = .next t → StateMoves i s t) : StateMoves i s t := by
  refine whenRunning_stateMoves h fun h => ?_
  split at h
  · cases h
  · exact hop h

theorem execArbAdd_stateMoves {s t : State} {a : ArbRef} {j : BitVec 8} (h : execArbAdd a j s = .next t) :
    StateMoves (.arbAdd a j) s t := by
  refine onArb_stateMoves h fun h => ?_
  split at h
  · cases h
  · rename_i hj
    exact finish_stateMoves (.single (.arb s a _ rfl fun hf => hf.add (not_le.mp hj))) h

theorem execArbRemove_stateMoves {s t : State} {a : ArbRef} {j : BitVec 8} (h : execArbRemove a j s = .next t) :
    StateMoves (.arbRemove a j) s t := by
  refine onArb_stateMoves h fun h => ?_
  split at h
  · cases h
  · exact finish_stateMoves (.single (.arb s a _ rfl fun hf => hf.remove _)) h

theorem execArbAdvance_stateMoves {s t : State} {a : ArbRef} (h : execArbAdvance a s = .next t) :
    StateMoves (.arbAdvance a) s t :=
  onArb_stateMoves h fun h => finish_stateMoves (.single (.arb s a _ rfl fun hf => hf.advance)) h

theorem execArbCurrent_stateMoves {i : Instr} {s t : State} {a : ArbRef} (h : execArbCurrent a s = .next t) :
    StateMoves i s t :=
  onArb_stateMoves h (finish_stateMoves .refl)

theorem execClockRise_stateMoves {i : Instr} {s t : State} (h : execClockRise s = .next t) : StateMoves i s t := by
  rcases execClockRise_next h with ⟨-, rfl⟩ | ⟨-, -, rfl⟩ | ⟨-, -, c, ds, hr, rfl⟩ | ⟨-, -, u, hr, rfl⟩
  · exact note_stateMoves i s s.fault .nothing
  · exact note_stateMoves i s _ .nothing
  · have hreads : DsReads s.ds ds := registerRequests_ds s ▸ riseBanks_error_reads hr
    exact hreads.stateMoves.trans (note_stateMoves i _ (some c) .nothing)
  · exact ((registerRequests_stateMoves i s).trans (riseBanks_stateMoves hr)).tail
      (.note u u.fault u.stats u.cycle .fall .nothing)

theorem execClockFall_stateMoves {i : Instr} {s t : State} (h : execClockFall s = .next t) : StateMoves i s t := by
  rcases execClockFall_next h with ⟨-, rfl⟩ | ⟨-, -, rfl⟩ | ⟨-, -, rfl⟩
  · exact note_stateMoves i s s.fault .nothing
  · exact note_stateMoves i s _ .nothing
  · have hbanks := fallBanks_stateMoves i (List.range s.cfg.numBanks) s
    have hends := (hbanks.trans (routeReturns_stateMoves i _)).tail (.endFall _)
    exact hends.tail (.note _ _ _ (s.cycle + 1) .rise .nothing)

/-- Whatever an instruction does is a sequence of moves. -/
theorem exec_stateMoves {i : Instr} {s t : State} (h : exec i s = .next t) : StateMoves i s t := by
  cases i with
  | dsLoad _ => exact writeDownstream_stateMoves h
  | dsStore _ => exact writeDownstream_stateMoves h
  | na _ _ => exact receive_stateMoves h id
  | loadReturn _ _ => exact receive_stateMoves h id
  | retReserved02 _ _ _ => exact receive_stateMoves h id
  | retReserved04 _ _ _ => exact receive_stateMoves h id
  | retReserved08 _ _ _ => exact receive_stateMoves h id
  | retReserved10 _ _ _ => exact receive_stateMoves h id
  | retReserved20 _ _ _ => exact receive_stateMoves h id
  | retReserved40 _ _ _ => exact receive_stateMoves h id
  | retReserved80 _ _ _ => exact receive_stateMoves h id
  | requestPortWriteValid _ => exact execRequestPortWriteValid_stateMoves h
  | returnPortReadValid _ => exact execReturnPortReadValid_stateMoves h
  | peekReturn _ => exact execPeekReturn_stateMoves h
  | readReturn _ => exact execReadReturn_stateMoves h
  | arbAdd _ _ => exact execArbAdd_stateMoves h
  | arbRemove _ _ => exact execArbRemove_stateMoves h
  | arbAdvance _ => exact execArbAdvance_stateMoves h
  | arbCurrent _ => exact execArbCurrent_stateMoves h
  | clockRise => exact execClockRise_stateMoves h
  | clockFall => exact execClockFall_stateMoves h
  | _ => exact writeRequest_stateMoves h id

/-! ### The steps -/

/-- What `decode` answers is an instruction that the configuration admits. -/
theorem check_of_decode {cfg : Config} {ch : Channel} {bytes : List Byte} {i : Instr}
    (h : decode cfg ch bytes = .ok i) : i.check cfg = none := by
  unfold decode at h
  split at h
  · cases h
  · split at h
    · cases h
    · rename_i hc; cases h; exact hc

/-- Everything a step can do: run an admitted instruction, or an act of the downstream unit, on the state whose event
list is one shorter, if an event waited (log 1, log 7). -/
theorem step_next {s t : State} (h : step s = .next t) :
    ∃ es, (∃ i : Instr, i.check s.cfg = none ∧ exec i { s with events := es } = .next t) ∨
      (∃ b, t = State.dsTake { s with events := es } b) ∨
      ∃ b blocked, t = State.dsBlock { s with events := es } b blocked := by
  unfold step at h
  split at h
  · refine ⟨s.events, .inl ?_⟩
    unfold clockTick at h
    split at h
    · exact ⟨.clockRise, rfl, h⟩
    · exact ⟨.clockFall, rfl, h⟩
  · rename_i e rest _
    refine ⟨rest, ?_⟩
    cases e with
    | record ch bytes =>
      unfold runEvent runRecord at h
      simp only at h
      split at h
      · rename_i i hi; exact .inl ⟨i, check_of_decode hi, h⟩
      · cases h
    | dsTake b => cases h; exact .inr (.inl ⟨b, rfl⟩)
    | dsBlock b blocked => cases h; exact .inr (.inr ⟨b, blocked, rfl⟩)

end Sys2Proof.Machine
end

section
/-! PROOFS. FAULT is sticky (10_state.md R41; 60_exceptions.md R170). -/

namespace Sys2Proof.Machine

theorem whenRunning_stuck {s : State} {c : FaultCode} (h : s.fault = some c) (op : State → Result) :
    s.whenRunning op = .next { s with resp := .nothing } := by
  simp [State.whenRunning, State.finish, h]

theorem onPort_stuck {s : State} {c : FaultCode} (h : s.fault = some c) (port : BitVec 16) (ph : Phase)
    (op : State → Result) : s.onPort port ph op = .next { s with resp := .nothing } :=
  whenRunning_stuck h _

theorem onArb_stuck {s : State} {c : FaultCode} (h : s.fault = some c) (a : ArbRef) (op : State → Result) :
    s.onArb a op = .next { s with resp := .nothing } :=
  whenRunning_stuck h _

theorem writeRequest_stuck {s : State} {c : FaultCode} (h : s.fault = some c) (port : BitVec 16) (req : Request) :
    s.writeRequest port req = .next { s with resp := .nothing } :=
  onPort_stuck h port .fall _

theorem receive_stuck {s : State} {c : FaultCode} (h : s.fault = some c) (q : BitVec 16) (r : Return) :
    s.receive q r = .next { s with resp := .nothing } :=
  whenRunning_stuck h _

theorem writeDownstream_stuck {s : State} {c : FaultCode} (h : s.fault = some c) (req : Request) :
    s.writeDownstream req = .next { s with resp := .nothing } :=
  whenRunning_stuck h _

/-- When NBC is stuck every instruction changes nothing and answers nothing. -/
theorem exec_stuck (i : Instr) {s : State} {c : FaultCode} (h : s.fault = some c) :
    exec i s = .next { s with resp := .nothing } := by
  cases i with
  | dsLoad _ => exact writeDownstream_stuck h _
  | dsStore _ => exact writeDownstream_stuck h _
  | na _ _ => exact receive_stuck h _ _
  | loadReturn _ _ => exact receive_stuck h _ _
  | retReserved02 _ _ _ => exact receive_stuck h _ _
  | retReserved04 _ _ _ => exact receive_stuck h _ _
  | retReserved08 _ _ _ => exact receive_stuck h _ _
  | retReserved10 _ _ _ => exact receive_stuck h _ _
  | retReserved20 _ _ _ => exact receive_stuck h _ _
  | retReserved40 _ _ _ => exact receive_stuck h _ _
  | retReserved80 _ _ _ => exact receive_stuck h _ _
  | requestPortWriteValid _ => simp only [exec, execRequestPortWriteValid, onPort_stuck h]
  | returnPortReadValid _ => simp only [exec, execReturnPortReadValid, onPort_stuck h]
  | peekReturn _ => simp only [exec, execPeekReturn, onPort_stuck h]
  | readReturn _ => simp only [exec, execReadReturn, onPort_stuck h]
  | arbAdd _ _ => simp only [exec, execArbAdd, onArb_stuck h]
  | arbRemove _ _ => simp only [exec, execArbRemove, onArb_stuck h]
  | arbAdvance _ => simp only [exec, execArbAdvance, onArb_stuck h]
  | arbCurrent _ => simp only [exec, execArbCurrent, onArb_stuck h]
  | clockRise => simp only [exec, execClockRise, whenRunning_stuck h]
  | clockFall => simp only [exec, execClockFall, whenRunning_stuck h]
  | _ => exact writeRequest_stuck h _ _

/-- Once set, FAULT stays as it is. -/
theorem step_fault {s t : State} {c : FaultCode} (hf : s.fault = some c) (h : step s = .next t) :
    t.fault = some c := by
  obtain ⟨es, ⟨i, -, hi⟩ | ⟨b, rfl⟩ | ⟨b, blocked, rfl⟩⟩ := step_next h
  · rw [exec_stuck i (s := { s with events := es }) hf] at hi
    cases hi
    exact hf
  · exact hf
  · exact hf

/-- Settles O15: a stuck NBC runs no operation, and the downstream unit's own acts do not touch FAULT. -/
theorem noStepClearsAFault : Obligations.NoStepClearsAFault :=
  ⟨fun cfg hv => by simp [State.construct, hv], fun _ _ _ hf h => step_fault hf h⟩

end Sys2Proof.Machine
end

section
/-! PROOFS. Every move of a bank keeps the sizes of its elements (10_state.md R30 to R39). -/

namespace Sys2Proof.Machine

/-! ### Lists -/

/-- A property of every element survives a write, when what is written inside the list has it. -/
theorem forall_mem_set {α : Type} {l : List α} {P : α → Prop} (h : ∀ x ∈ l, P x) {i : Nat} {a : α}
    (ha : i < l.length → P a) : ∀ x ∈ l.set i a, P x := by
  intro x hx
  by_cases hi : i < l.length
  · rcases List.mem_or_eq_of_mem_set hx with hx | rfl
    · exact h x hx
    · exact ha hi
  · rw [List.set_eq_of_length_le (not_lt.mp hi)] at hx
    exact h x hx

/-- A property of every LFB, read by index and as a member. -/
theorem Bank.forall_lfb {bk : Bank} {P : Lfb → Prop} : (∀ l ∈ bk.lfbs, P l) ↔ ∀ k < bk.lfbs.length, P (bk.lfb k) := by
  constructor
  · exact fun h k hk => h _ (bk.lfb_mem hk)
  · intro h l hl
    obtain ⟨k, hk, rfl⟩ := bk.exists_lfb hl
    exact h k hk

@[simp] theorem freeBlock_length (cfg : Config) (b n : Nat) : (freeBlock cfg b n).length = cfg.blockSize := by
  simp [freeBlock]

/-! ### One rule per write to a bank -/

theorem Bank.WellSized.lfb {cfg : Config} {bk : Bank} (h : bk.WellSized cfg) {k : Nat} (hk : k < bk.lfbs.length) :
    (bk.lfb k).data.length = cfg.blockSize :=
  h.lfbData _ (bk.lfb_mem hk)

theorem Bank.WellSized.setLfb {cfg : Config} {bk : Bank} (h : bk.WellSized cfg) {k : Nat} {l : Lfb}
    (hl : k < bk.lfbs.length → l.data.length = cfg.blockSize) : (bk.setLfb k l).WellSized cfg where
  lfbs := by simpa using h.lfbs
  lfbData := forall_mem_set h.lfbData hl
  lfbArb := h.lfbArb
  tags := h.tags
  ways := h.ways
  data := h.data
  lines := h.lines
  bytes := h.bytes

/-- The sizes of a bank read only its LFBs, its arbitrator and its arrays. -/
theorem Bank.WellSized.congr {cfg : Config} {bk bk' : Bank} (h : bk.WellSized cfg) (hl : bk'.lfbs = bk.lfbs)
    (ha : bk'.lfbArb = bk.lfbArb) (ht : bk'.tags = bk.tags) (hd : bk'.data = bk.data) : bk'.WellSized cfg where
  lfbs := hl ▸ h.lfbs
  lfbData := hl ▸ h.lfbData
  lfbArb := ha ▸ h.lfbArb
  tags := ht ▸ h.tags
  ways := ht ▸ h.ways
  data := hd ▸ h.data
  lines := hd ▸ h.lines
  bytes := hd ▸ h.bytes

/-- A set of the tag array replaced by one of as many ways. -/
theorem Bank.WellSized.setTags {cfg : Config} {bk : Bank} (h : bk.WellSized cfg) (i : Nat) {ways : List TagEntry}
    (hw : ways.length = (bk.tagSet i).length) : ({ bk with tags := bk.tags.set i ways } : Bank).WellSized cfg :=
  { h with
    tags := by simpa using h.tags
    ways := forall_mem_set h.ways fun hi => hw.trans (h.ways _ (bk.tagSet_mem hi)) }

/-- A line of the data array replaced by one of a block. -/
theorem Bank.WellSized.setLine {cfg : Config} {bk : Bank} (h : bk.WellSized cfg) (i w : Nat) {line : Block}
    (hline : line.length = cfg.blockSize) :
    ({ bk with data := bk.data.set i ((bk.data.getD i []).set w line) } : Bank).WellSized cfg := by
  have hrow : i < bk.data.length → bk.data.getD i [] ∈ bk.data := fun hi => by simp [hi]
  exact
    { h with
      data := by simpa using h.data
      lines := forall_mem_set h.lines fun hi => by simpa using h.lines _ (hrow hi)
      bytes := forall_mem_set h.bytes fun hi => forall_mem_set (h.bytes _ (hrow hi)) fun _ => hline }

/-- The line of a way that a lookup answers is a block. -/
theorem Bank.WellSized.readLine {cfg : Config} {bk : Bank} (h : bk.WellSized cfg) {a w : Nat}
    (hw : lookup cfg bk a = some w) : (readLine cfg bk a w).length = cfg.blockSize := by
  obtain ⟨hlt, -, -⟩ := lookup_eq_some hw
  have hset : cfg.set a < bk.data.length := by
    rw [h.data, ← h.tags]
    exact bk.lt_of_tagSet hlt
  have hrow : bk.data.getD (cfg.set a) [] ∈ bk.data := by simp [hset]
  have hway : w < (bk.data.getD (cfg.set a) []).length := by
    rw [h.lines _ hrow, ← h.ways _ (bk.tagSet_mem (bk.lt_of_tagSet hlt))]
    exact hlt
  have hline : (bk.data.getD (cfg.set a) []).getD w [] ∈ bk.data.getD (cfg.set a) [] := by
    rw [List.getD_eq_getElem _ _ hway]
    exact List.getElem_mem hway
  exact h.bytes _ hrow _ hline

/-! ### One rule per move -/

theorem Bank.WellSized.pipelineAdvance {cfg : Config} {bk : Bank} (h : bk.WellSized cfg) :
    (pipelineAdvance bk).WellSized cfg :=
  { h with
    lfbs := by simpa using h.lfbs
    lfbData := Bank.forall_lfb.mpr fun k hk => by
      rw [pipelineAdvance_lfb, Lfb.advancePipe_data]
      exact h.lfb (by simpa using hk) }

/-- Whatever an acceptance leaves of the LFB that serves the request, its data is a block. -/
theorem ServedBy.data_length {cfg : Config} {bk bk' : Bank} {req : Request} {v : Nat}
    (h : ServedBy cfg bk bk' req v) (hs : bk.WellSized cfg) (hv : v < bk.lfbs.length) :
    (bk'.lfb v).data.length = cfg.blockSize := by
  cases h with
  | mergedLoad _ _ _ hl => rw [hl]; exact hs.lfb hv
  | hit _ _ _ w hw hl => rw [hl]; exact hs.readLine hw
  | missed _ _ _ _ _ hd => exact hd
  | mergedStore _ _ _ hl => rw [hl]; simp
  | newStore _ _ _ _ _ hd => rw [hd]; simp

theorem Served.wellSized {cfg : Config} {bk bk' : Bank} {req : Request} {v : Nat} (h : Served cfg bk bk' req v)
    (hs : bk.WellSized cfg) : bk'.WellSized cfg := by
  have hlfbs : ∀ k < bk'.lfbs.length, (bk'.lfb k).data.length = cfg.blockSize := by
    intro k hk
    by_cases hkv : k = v
    · exact hkv ▸ h.by_.data_length hs h.inPool
    · rcases h.otherData k hkv with ⟨hd, -⟩ | ⟨-, hd, -⟩ <;> rw [hd]
      · exact hs.lfb (h.count ▸ hk)
      · simp
  have htags : ({ bk with tags := bk'.tags } : Bank).WellSized cfg := by
    rcases h.tags with ht | ⟨w, -, ht⟩ <;> rw [ht]
    · exact hs
    · exact hs.setTags _ (by simp)
  have hdata : ({ bk with data := bk'.data } : Bank).WellSized cfg := by
    rcases h.data with hd | ⟨-, w, -, hd⟩ <;> rw [hd]
    · exact hs
    · exact hs.setLine _ _ (by simp)
  exact ⟨h.count.trans hs.lfbs, Bank.forall_lfb.mpr hlfbs, h.lfbArb ▸ hs.lfbArb, htags.tags, htags.ways, hdata.data,
    hdata.lines, hdata.bytes⟩

theorem acceptRequest_wellSized {cfg : Config} {b : Nat} {bk bk' : Bank} {req : Request} {c : Option Counter}
    (ha : acceptRequest cfg b bk req = .accepted bk' c) (h : bk.WellSized cfg) : bk'.WellSized cfg := by
  rcases acceptRequest_served ha with ⟨-, -, rfl, -⟩ | ⟨v, hs⟩
  · exact h
  · exact hs.wellSized h

theorem insertLine_wellSized {cfg : Config} {bk : Bank} (h : bk.WellSized cfg) (blk : Nat) {line : Block}
    (hline : line.length = cfg.blockSize) : (insertLine cfg bk blk line).WellSized cfg := by
  have htags := h.setTags (cfg.set blk)
    (ways := touchWays (fillWay (bk.tagSet (cfg.set blk)) (insertWay cfg bk blk) (cfg.tag blk))
      (insertWay cfg bk blk)) (by simp)
  exact (htags.setLine (cfg.set blk) (insertWay cfg bk blk) hline).congr rfl rfl (insertLine_tags cfg bk blk line)
    (insertLine_data cfg bk blk line)

theorem fillBank_wellSized {cfg : Config} {b : Nat} {bk bk' : Bank} {r : Return}
    (hf : fillBank cfg b bk r = .ok bk') (h : bk.WellSized cfg) : bk'.WellSized cfg := by
  obtain ⟨-, k, -, -, rfl⟩ := fillBank_ok hf
  exact (insertLine_wellSized h _ (by simp)).setLfb fun _ => by simp

theorem drainTo_wellSized {cfg : Config} {bk : Bank} (h : bk.WellSized cfg) (b k m : Nat) :
    (drainTo cfg b bk k m).WellSized cfg := by
  rcases drainTo_spec cfg b bk k m with ⟨-, he⟩ | ⟨-, he⟩ <;> rw [he]
  · exact (h.setLfb (k := k) (l := drainedLfb cfg b bk.freeCount (bk.lfb k)) fun _ => freeBlock_length _ _ _).congr
      rfl rfl rfl rfl
  · exact h.setLfb fun hk => h.lfb hk

theorem due_wellSized {cfg : Config} {b : Nat} {bk : Bank} {i : Issue} (hi : due cfg b bk = some i)
    (h : bk.WellSized cfg) : i.bank.WellSized cfg := by
  rcases due_eq_some.mp hi with hi | ⟨-, hi⟩
  · obtain ⟨k, rest, -, rfl⟩ := dueFetch_eq_some.mp hi
    exact h.congr rfl rfl rfl rfl
  · obtain ⟨k, st, -, -, rfl⟩ := dueDrain_eq_some.mp hi
    exact drainTo_wellSized h _ _ _

theorem Bank.WellSized.setArb {cfg : Config} {bk : Bank} (h : bk.WellSized cfg) {a : Arb}
    (ha : a.Fits cfg.numLfbs) : ({ bk with lfbArb := a } : Bank).WellSized cfg :=
  { h with lfbArb := ha }

theorem returnStep_wellSized {cfg : Config} {bk : Bank} (h : bk.WellSized cfg) :
    (returnStep cfg bk).WellSized cfg := by
  have hfits : ((registerReturns cfg bk).advance cfg.numLfbs).Fits cfg.numLfbs := h.lfbArb.registerReturns.advance
  rcases returnStep_spec cfg bk with he | ⟨k, sr, rest, -, -, -, he⟩ <;> rw [he]
  · exact h.setArb hfits
  · have hpop := h.setLfb (k := k) (l := (bk.lfb k).popSubReq) fun hk => h.lfb hk
    exact (hpop.setArb hfits).congr rfl rfl rfl rfl

/-- Every move of a bank keeps its sizes. -/
theorem BankMove.wellSized {cfg : Config} {b : Nat} {bk bk' : Bank} (hm : BankMove cfg b bk bk')
    (h : bk.WellSized cfg) : bk'.WellSized cfg := by
  cases hm with
  | pipe => exact h.pipelineAdvance
  | handOff hh =>
    obtain ⟨k, rest, -, -, rfl⟩ := handOff_eq_some hh
    exact h.congr rfl rfl rfl rfl
  | accept ha => exact acceptRequest_wellSized ha h
  | fill hf => exact fillBank_wellSized hf h
  | issue hi => exact due_wellSized hi h
  | ret => exact returnStep_wellSized h
  | unstage => exact h.congr rfl rfl rfl rfl
  | arb a ha => exact h.setArb (ha h.lfbArb)

theorem State.WellSized.bank {s : State} (h : s.WellSized) {b : Nat} (hb : b < s.banks.length) :
    (s.bank b).WellSized s.cfg :=
  h.banks _ (s.bank_mem hb)

end Sys2Proof.Machine
end

section
/-! PROOFS. At most one live LFB per key (10_state.md R46): a move gives an LFB a new key only by an acceptance, and
only when no live LFB has it. -/

namespace Sys2Proof.Machine

/-- LFB `k` is live in `bk'` only as it was in `bk`, with the same key. -/
def Bank.KeptKey (bk bk' : Bank) (k : Nat) : Prop :=
  (bk'.lfb k).live = true →
    (bk.lfb k).live = true ∧ (bk'.lfb k).type = (bk.lfb k).type ∧
      (bk'.lfb k).blockAddress = (bk.lfb k).blockAddress

/-- Every LFB is live in `bk'` only as it was in `bk`, with the same key. -/
structure Bank.KeepsKeys (bk bk' : Bank) : Prop where
  count : bk'.lfbs.length = bk.lfbs.length
  kept : ∀ k < bk.lfbs.length, bk.KeptKey bk' k

theorem Bank.KeptKey.of_eq {bk bk' : Bank} {k : Nat} (h : bk'.lfb k = bk.lfb k) : bk.KeptKey bk' k := by
  intro hl
  rw [h] at hl ⊢
  exact ⟨hl, rfl, rfl⟩

theorem Bank.KeptKey.of_sameRecord {bk bk' : Bank} {k : Nat} (h : (bk.lfb k).SameRecord (bk'.lfb k)) :
    bk.KeptKey bk' k := fun hl =>
  ⟨h.live ▸ hl, h.type, h.blockAddress⟩

/-- The keys read the pool only. -/
theorem Bank.KeepsKeys.of_lfbs {bk bk' : Bank} (h : bk'.lfbs = bk.lfbs) : bk.KeepsKeys bk' :=
  ⟨by rw [h], fun k _ => .of_eq (by simp only [Bank.lfb, h])⟩

/-- A write to one LFB, which is live only as it was. -/
theorem Bank.KeepsKeys.setLfb {bk : Bank} {k : Nat} {l : Lfb}
    (h : k < bk.lfbs.length → l.live = true →
      (bk.lfb k).live = true ∧ l.type = (bk.lfb k).type ∧ l.blockAddress = (bk.lfb k).blockAddress) :
    bk.KeepsKeys (bk.setLfb k l) := by
  refine ⟨by simp, fun j hj => ?_⟩
  by_cases hkj : k = j
  · subst hkj
    intro hl
    rw [Bank.lfb_setLfb, if_pos ⟨rfl, hj⟩] at hl ⊢
    exact h hj hl
  · exact .of_eq (by rw [Bank.lfb_setLfb, if_neg fun hc => hkj hc.1])

theorem Bank.KeepsKeys.trans {bk bk' bk'' : Bank} (h : bk.KeepsKeys bk') (g : bk'.KeepsKeys bk'') :
    bk.KeepsKeys bk'' := by
  refine ⟨g.count.trans h.count, fun k hk hl => ?_⟩
  obtain ⟨hl', ht', hb'⟩ := g.kept k (h.count ▸ hk) hl
  obtain ⟨hl0, ht0, hb0⟩ := h.kept k hk hl'
  exact ⟨hl0, ht'.trans ht0, hb'.trans hb0⟩

/-! ### The moves but the acceptance -/

theorem pipelineAdvance_keepsKeys (bk : Bank) : bk.KeepsKeys (pipelineAdvance bk) := by
  refine ⟨by simp, fun k _ hl => ?_⟩
  rw [pipelineAdvance_lfb] at hl ⊢
  exact ⟨by simpa using hl, by simp, by simp⟩

theorem handOff_keepsKeys {bk bk' : Bank} (h : handOff bk = some bk') : bk.KeepsKeys bk' := by
  obtain ⟨k, rest, -, -, rfl⟩ := handOff_eq_some h
  exact .of_lfbs rfl

/-- An ISSUED LFB is live, so the fill makes no LFB live (45_bank_fill.md R152). -/
theorem fillBank_keepsKeys {cfg : Config} {b : Nat} {bk bk' : Bank} {r : Return}
    (h : fillBank cfg b bk r = .ok bk') : bk.KeepsKeys bk' := by
  obtain ⟨-, k, hk, -, rfl⟩ := fillBank_ok h
  obtain ⟨-, -, hmissed, -, -⟩ := issuedLfb_eq_some hk
  have hins : bk.KeepsKeys (insertLine cfg bk (bk.lfb k).blockAddress
      (overlay cfg.blockSize r.payload 0 (bk.lfb k).byteWriteMask (bk.lfb k).data)) := .of_lfbs rfl
  exact hins.trans (.setLfb fun _ _ => ⟨by simp [Lfb.live_iff, hmissed], rfl, rfl⟩)

theorem due_keepsKeys {cfg : Config} {b : Nat} {bk : Bank} {i : Issue} (h : due cfg b bk = some i) :
    bk.KeepsKeys i.bank := by
  rcases due_eq_some.mp h with h | ⟨-, h⟩
  · obtain ⟨k, rest, -, rfl⟩ := dueFetch_eq_some.mp h
    exact .of_lfbs rfl
  · obtain ⟨k, st, -, -, rfl⟩ := dueDrain_eq_some.mp h
    rcases drainTo_spec cfg b bk k (clearBits (bk.lfb k).byteWriteMask
        (ones (runLength (cfg.blockSize - st) (bk.lfb k).byteWriteMask st) <<< st)) with ⟨-, he⟩ | ⟨-, he⟩ <;>
      simp only [he]
    · have hdead : (drainedLfb cfg b bk.freeCount (bk.lfb k)).live = false := rfl
      exact (Bank.KeepsKeys.setLfb (k := k) (l := drainedLfb cfg b bk.freeCount (bk.lfb k))
        fun _ hl => by rw [hdead] at hl; cases hl).trans (.of_lfbs rfl)
    · exact .setLfb fun _ hl => ⟨hl, rfl, rfl⟩

/-- The LFB that returns a sub-request is FILLED, so it was live (46_bank_issue.md R161). -/
theorem returnStep_keepsKeys {cfg : Config} {bk : Bank} (hs : bk.WellSized cfg) :
    bk.KeepsKeys (returnStep cfg bk) := by
  rcases returnStep_spec cfg bk with he | ⟨k, sr, rest, -, hk, -, he⟩ <;> rw [he]
  · exact .of_lfbs rfl
  · obtain ⟨-, -, hfilled, -⟩ := returnStep_granted hs.lfbArb hk
    exact (Bank.KeepsKeys.setLfb (k := k) (l := (bk.lfb k).popSubReq) fun _ _ =>
      ⟨by simp [Lfb.live_iff, hfilled], rfl, rfl⟩).trans (.of_lfbs rfl)

/-! ### The acceptance -/

/-- An acceptance gives at most one LFB a new key, of the request's block, and only when no live LFB has that key. -/
theorem Served.keys {cfg : Config} {bk bk' : Bank} {req : Request} {v : Nat} (h : Served cfg bk bk' req v) :
    bk.KeptKey bk' v ∨
      ((bk'.lfb v).blockAddress = cfg.block req.address ∧
        findLfb bk (cfg.block req.address) (bk'.lfb v).type = none) := by
  cases h.by_ with
  | mergedLoad _ hf _ hl =>
    left
    intro _
    rw [hl]
    exact ⟨(findLfb_eq_some hf).2.1, rfl, rfl⟩
  | hit _ hf _ w _ hl => right; rw [hl]; exact ⟨rfl, hf⟩
  | missed _ hf _ _ hl => right; rw [hl]; exact ⟨rfl, hf⟩
  | mergedStore _ _ hf hl =>
    left
    intro _
    rw [hl]
    exact ⟨(findLfb_eq_some hf).2.1, rfl, rfl⟩
  | newStore _ _ hf _ hl => right; rw [hl]; exact ⟨rfl, hf⟩

theorem Bank.AtMostOneLfb.keepsKeys {bk bk' : Bank} (h : bk.AtMostOneLfb) (hk : bk.KeepsKeys bk') :
    bk'.AtMostOneLfb := by
  intro i j hi hj hli hlj ht hb
  rw [hk.count] at hi hj
  obtain ⟨hli', hti, hbi⟩ := hk.kept i hi hli
  obtain ⟨hlj', htj, hbj⟩ := hk.kept j hj hlj
  exact h i j hi hj hli' hlj' (hti.symm.trans (ht.trans htj)) (hbi.symm.trans (hb.trans hbj))

theorem Bank.AtMostOneLfb.served {cfg : Config} {bk bk' : Bank} {req : Request} {v : Nat} (h : bk.AtMostOneLfb)
    (hs : Served cfg bk bk' req v) : bk'.AtMostOneLfb := by
  have hother : ∀ j, j ≠ v → bk.KeptKey bk' j := fun j hj => .of_sameRecord (hs.others j hj)
  rcases hs.keys with hv | ⟨hblk, hnone⟩
  · exact h.keepsKeys ⟨hs.count, fun k _ => if hkv : k = v then hkv ▸ hv else hother k hkv⟩
  · -- no other LFB has the key that `v` takes
    have hfresh : ∀ j < bk.lfbs.length, j ≠ v → (bk'.lfb j).live = true → (bk'.lfb j).type = (bk'.lfb v).type →
        (bk'.lfb j).blockAddress ≠ (bk'.lfb v).blockAddress := by
      intro j hj hjv hl ht
      obtain ⟨hl', ht', hb'⟩ := hother j hjv hl
      rw [hb', hblk]
      exact findLfb_eq_none.mp hnone j hj hl' (ht'.symm.trans ht)
    intro i j hi hj hli hlj ht hb
    rw [hs.count] at hi hj
    by_cases hiv : i = v
    · subst hiv
      by_contra hij
      exact hfresh j hj (Ne.symm hij) hlj ht.symm hb.symm
    · by_cases hjv : j = v
      · subst hjv
        exact absurd hb (hfresh i hi hiv hli ht)
      · obtain ⟨hli', hti, hbi⟩ := hother i hiv hli
        obtain ⟨hlj', htj, hbj⟩ := hother j hjv hlj
        exact h i j hi hj hli' hlj' (hti.symm.trans (ht.trans htj)) (hbi.symm.trans (hb.trans hbj))

/-- Every move of a well-sized bank keeps at most one live LFB per key. -/
theorem BankMove.atMostOneLfb {cfg : Config} {b : Nat} {bk bk' : Bank} (hm : BankMove cfg b bk bk')
    (hs : bk.WellSized cfg) (h : bk.AtMostOneLfb) : bk'.AtMostOneLfb := by
  cases hm with
  | pipe => exact h.keepsKeys (pipelineAdvance_keepsKeys bk)
  | handOff hh => exact h.keepsKeys (handOff_keepsKeys hh)
  | accept ha =>
    rcases acceptRequest_served ha with ⟨-, -, rfl, -⟩ | ⟨v, hv⟩
    · exact h
    · exact h.served hv
  | fill hf => exact h.keepsKeys (fillBank_keepsKeys hf)
  | issue hi => exact h.keepsKeys (due_keepsKeys hi)
  | ret => exact h.keepsKeys (returnStep_keepsKeys hs)
  | unstage => exact h.keepsKeys (.of_lfbs rfl)
  | arb a _ => exact h.keepsKeys (.of_lfbs rfl)

/-- An invariant of a well-sized bank that every move keeps is kept by every step. -/
theorem step_keeps_banks {s t : State} (h : step s = .next t) (hs : s.WellSized) {P : Bank → Prop}
    (hP : ∀ b bk bk', BankMove s.cfg b bk bk' → bk.WellSized s.cfg → P bk → P bk')
    (hb : ∀ b < s.banks.length, P (s.bank b)) : ∀ b < t.banks.length, P (t.bank b) := by
  intro b hlt
  have hm := step_moves h
  rw [hm.count] at hlt
  have hkeep := hm.keep (b := b) (P := fun bk => bk.WellSized s.cfg ∧ P bk)
    (fun bk bk' hbm hbk => ⟨hbm.wellSized hbk.1, hP b bk bk' hbm hbk.1 hbk.2⟩) ⟨hs.bank hlt, hb b hlt⟩
  exact hkeep.2

/-- Settles O56: only an acceptance gives an LFB a new key, and it searches for the key first. -/
theorem stepKeepsAtMostOneLfb : Obligations.StepKeepsAtMostOneLfb :=
  fun _ _ hs hb h => step_keeps_banks h hs (fun _ _ _ hm hw hk => hm.atMostOneLfb hw hk) hb

end Sys2Proof.Machine
end

section
/-! PROOFS. The lifecycle of the LFBs and what the queues say of them (10_state.md R47 items 1 to 5). -/

namespace Sys2Proof.Machine

/-! ### What the invariant says of one LFB -/

/-- LFB `k` is live and write-combining: it stands in a write-back queue (10_state.md R35, R36). -/
def Bank.Combining (bk : Bank) (k : Nat) : Prop :=
  (bk.lfb k).live = true ∧ (bk.lfb k).type = .writeCombining

theorem not_combining_of_read {bk : Bank} {k : Nat} (h : (bk.lfb k).type = .read) : ¬ bk.Combining k := by
  rintro ⟨-, hc⟩
  rw [h] at hc
  cases hc

/-- The lifecycle reads the state, the type, the sub-requests and the pipe count. -/
theorem Lfb.LifecycleOk.sameRecord {cfg : Config} {l m : Lfb} (h : l.LifecycleOk cfg) (hm : l.SameRecord m) :
    m.LifecycleOk cfg where
  notEmpty := hm.state ▸ h.notEmpty
  pending := by rw [hm.type, hm.state, hm.subq]; exact h.pending
  served := by rw [hm.state, hm.subq]; exact h.served
  noPipe := by rw [hm.state, hm.pipeCount]; exact h.noPipe
  pipe := by rw [hm.state, hm.pipeCount]; exact h.pipe

/-- An LFB outside DATA_ARRAY with sub-requests waiting. -/
theorem Lfb.LifecycleOk.of_waiting {cfg : Config} {l : Lfb} (hs : l.state = .missed ∨ l.state = .filled)
    (hq : l.subq ≠ []) (hp : l.pipeCount = 0) : l.LifecycleOk cfg := by
  constructor <;> rcases hs with hs | hs <;> simp [hs, hq, hp]

/-- The pipeline advance ends DATA_ARRAY when its count runs out (44_bank_accept.md R133). -/
theorem Lfb.LifecycleOk.advancePipe {cfg : Config} {l : Lfb} (h : l.LifecycleOk cfg) :
    l.advancePipe.LifecycleOk cfg := by
  rcases l.advancePipe_spec with ⟨-, he⟩ | ⟨hs, -, he⟩ | ⟨hs, hp, he⟩ <;> rw [he]
  · exact h
  · exact
      { notEmpty := by simp
        pending := fun ht _ => h.pending ht (.inl hs)
        served := by simp
        noPipe := by simp
        pipe := by simp }
  · have hle := (h.pipe hs).2
    exact
      { notEmpty := h.notEmpty
        pending := h.pending
        served := h.served
        noPipe := fun hn => absurd hs hn
        pipe := fun _ => ⟨by simp only; omega, by simp only; omega⟩ }

/-- A pop of the last sub-request retires the LFB (46_bank_issue.md R162). -/
theorem Lfb.LifecycleOk.popSubReq {cfg : Config} {l : Lfb} (h : l.LifecycleOk cfg) (hs : l.state = .filled) :
    l.popSubReq.LifecycleOk cfg := by
  have hp : l.pipeCount = 0 := h.noPipe (by simp [hs])
  cases hq : l.subq.tail with
  | nil => constructor <;> simp [Lfb.popSubReq, hq, hp]
  | cons sr rest => exact .of_waiting (.inr (by simp [Lfb.popSubReq, hq, hs])) (by simp [Lfb.popSubReq, hq]) hp

/-- A LOAD that merges makes a RETIRED LFB FILLED again (44_bank_accept.md R136). -/
theorem Lfb.LifecycleOk.appendSubReq {cfg : Config} {l : Lfb} (h : l.LifecycleOk cfg) (sr : SubReq) (age : Nat) :
    ({ l with
      subq := l.subq ++ [sr]
      state := if l.state = .retired then .filled else l.state
      lru := age } : Lfb).LifecycleOk cfg := by
  by_cases hr : l.state = .retired
  · exact .of_waiting (.inr (by simp [hr])) (by simp) (h.noPipe (by simp [hr]))
  · simp only [if_neg hr]
    exact
      { notEmpty := h.notEmpty
        pending := by simp
        served := fun hc => absurd hc hr
        noPipe := h.noPipe
        pipe := h.pipe }

/-- A slot that `alloc_slot` answers is in no queue. -/
theorem Bank.PoolOk.idle {cfg : Config} {bk : Bank} (h : bk.PoolOk cfg) {v : Nat} (hv : allocSlot bk = some v) :
    ¬ bk.Combining v ∧ v ∉ bk.mq := by
  obtain ⟨hlt, hstate⟩ := allocSlot_eq_some hv
  constructor
  · rintro ⟨hl, ht⟩
    obtain ⟨hfilled, -⟩ := h.combining v hlt hl ht
    rw [hfilled] at hstate
    simp at hstate
  · intro hmq
    obtain ⟨-, -, hmissed⟩ := h.misses.2 v hmq
    rw [hmissed] at hstate
    simp at hstate

theorem Bank.PoolOk.not_mem_wbq {cfg : Config} {bk : Bank} (h : bk.PoolOk cfg) {v : Nat} (hv : ¬ bk.Combining v) :
    v ∉ bk.wbq ∧ bk.wbActive ≠ some v :=
  ⟨fun hm => hv (h.writeBacks.2 v hm).2, fun ha => hv (h.active v ha).2⟩

/-- A write-combining LFB has bytes to write back. -/
theorem Bank.PoolOk.combining_mask {cfg : Config} {bk : Bank} (h : bk.PoolOk cfg) {k : Nat}
    (hk : k < bk.lfbs.length) (hc : bk.Combining k) : (bk.lfb k).byteWriteMask ≠ 0 := by
  obtain ⟨-, -, hm, -⟩ := h.combining k hk hc.1 hc.2
  exact hm

/-! ### The rules for a write to the pool -/

/-- The invariant survives what leaves the queues and the record of every LFB alone, and clears no mask. -/
theorem Bank.PoolOk.sameRecords {cfg : Config} {bk bk' : Bank} (h : bk.PoolOk cfg)
    (hcount : bk'.lfbs.length = bk.lfbs.length) (hrec : ∀ k, (bk.lfb k).SameRecord (bk'.lfb k))
    (hmask : ∀ k < bk.lfbs.length, bk.Combining k → (bk'.lfb k).byteWriteMask ≠ 0)
    (hmq : bk'.mq = bk.mq) (hwbq : bk'.wbq = bk.wbq) (hact : bk'.wbActive = bk.wbActive) : bk'.PoolOk cfg where
  lifecycle k hk := (h.lifecycle k (hcount ▸ hk)).sameRecord (hrec k)
  combining k hk hl ht := by
    rw [hcount] at hk
    rw [(hrec k).live] at hl
    rw [(hrec k).type] at ht
    obtain ⟨hs, hq, -, hwb⟩ := h.combining k hk hl ht
    rw [(hrec k).state, (hrec k).subq, hwbq, hact]
    exact ⟨hs, hq, hmask k hk ⟨hl, ht⟩, hwb⟩
  writeBacks := by
    rw [hwbq, hcount]
    refine ⟨h.writeBacks.1, fun k hk => ?_⟩
    rw [(hrec k).live, (hrec k).type]
    exact h.writeBacks.2 k hk
  active k hk := by
    rw [hcount, (hrec k).live, (hrec k).type]
    exact h.active k (hact ▸ hk)
  misses := by
    rw [hmq, hcount]
    refine ⟨h.misses.1, fun k hk => ?_⟩
    rw [(hrec k).type, (hrec k).state]
    exact h.misses.2 k hk

/-- The invariant survives what changes the record of one LFB `v` alone that is write-combining neither before nor
after, when the miss queue stays true. -/
theorem Bank.PoolOk.changeRead {cfg : Config} {bk bk' : Bank} (h : bk.PoolOk cfg) {v : Nat}
    (hcount : bk'.lfbs.length = bk.lfbs.length) (hrec : ∀ k, k ≠ v → (bk.lfb k).SameRecord (bk'.lfb k))
    (hmask : ∀ k, k ≠ v → bk.Combining k → (bk.lfb k).byteWriteMask ≠ 0 → (bk'.lfb k).byteWriteMask ≠ 0)
    (hold : ¬ bk.Combining v) (hnew : ¬ bk'.Combining v) (hlife : (bk'.lfb v).LifecycleOk cfg)
    (hwbq : bk'.wbq = bk.wbq) (hact : bk'.wbActive = bk.wbActive) (hnodup : bk'.mq.Nodup)
    (hmq : ∀ k ∈ bk'.mq, k ≠ v → k ∈ bk.mq)
    (hv : v ∈ bk'.mq → v < bk.lfbs.length ∧ (bk'.lfb v).type = .read ∧ (bk'.lfb v).state = .missed) :
    bk'.PoolOk cfg where
  lifecycle k hk := by
    by_cases hkv : k = v
    · exact hkv ▸ hlife
    · exact (h.lifecycle k (hcount ▸ hk)).sameRecord (hrec k hkv)
  combining k hk hl ht := by
    have hkv : k ≠ v := fun he => hnew (he ▸ ⟨hl, ht⟩)
    rw [hcount] at hk
    rw [(hrec k hkv).live] at hl
    rw [(hrec k hkv).type] at ht
    obtain ⟨hs, hq, hm, hwb⟩ := h.combining k hk hl ht
    rw [(hrec k hkv).state, (hrec k hkv).subq, hwbq, hact]
    exact ⟨hs, hq, hmask k hkv ⟨hl, ht⟩ hm, hwb⟩
  writeBacks := by
    rw [hwbq, hcount]
    refine ⟨h.writeBacks.1, fun k hk => ?_⟩
    have hkv : k ≠ v := fun he => (h.not_mem_wbq hold).1 (he ▸ hk)
    rw [(hrec k hkv).live, (hrec k hkv).type]
    exact h.writeBacks.2 k hk
  active k hk := by
    rw [hact] at hk
    have hkv : k ≠ v := fun he => (h.not_mem_wbq hold).2 (he ▸ hk)
    rw [hcount, (hrec k hkv).live, (hrec k hkv).type]
    exact h.active k hk
  misses := by
    refine ⟨hnodup, fun k hk => ?_⟩
    rw [hcount]
    by_cases hkv : k = v
    · exact hkv ▸ hv (hkv ▸ hk)
    · rw [(hrec k hkv).type, (hrec k hkv).state]
      exact h.misses.2 k (hmq k hk hkv)

/-- A write to one LFB leaves the records of the others. -/
theorem Bank.setLfb_others (bk : Bank) (v : Nat) (l : Lfb) {k : Nat} (hk : k ≠ v) : (bk.setLfb v l).lfb k = bk.lfb k := by
  rw [Bank.lfb_setLfb, if_neg fun hc => hk hc.1.symm]

theorem Bank.setLfb_self {bk : Bank} {v : Nat} (l : Lfb) (hv : v < bk.lfbs.length) : (bk.setLfb v l).lfb v = l := by
  rw [Bank.lfb_setLfb, if_pos ⟨rfl, hv⟩]

/-- The invariant survives a write to a READ LFB that is in no queue. -/
theorem Bank.PoolOk.setRead {cfg : Config} {bk : Bank} (h : bk.PoolOk cfg) {v : Nat} {l : Lfb}
    (hv : v < bk.lfbs.length) (hold : (bk.lfb v).type = .read) (hmq : v ∉ bk.mq) (ht : l.type = .read)
    (hlife : l.LifecycleOk cfg) : (bk.setLfb v l).PoolOk cfg := by
  have hself := Bank.setLfb_self l hv
  have hothers : ∀ k, k ≠ v → (bk.setLfb v l).lfb k = bk.lfb k := fun k => bk.setLfb_others v l
  refine h.changeRead (v := v) (by simp) (fun k hk => ?_) (fun k hk _ hm => ?_) (not_combining_of_read hold)
    (not_combining_of_read (by rw [hself]; exact ht)) (by rw [hself]; exact hlife) rfl rfl h.misses.1
    (fun _ hk _ => hk) (fun hc => absurd hc hmq)
  · rw [hothers k hk]; exact .refl _
  · rw [hothers k hk]; exact hm

/-- The invariant reads the pool and the three queues. -/
theorem Bank.PoolOk.congr {cfg : Config} {bk bk' : Bank} (h : bk.PoolOk cfg) (hl : bk'.lfbs = bk.lfbs)
    (hmq : bk'.mq = bk.mq) (hwbq : bk'.wbq = bk.wbq) (hact : bk'.wbActive = bk.wbActive) : bk'.PoolOk cfg := by
  have hlfb : ∀ k, bk'.lfb k = bk.lfb k := fun k => by simp only [Bank.lfb, hl]
  refine h.sameRecords (by rw [hl]) (fun k => ?_) (fun k hk hc => ?_) hmq hwbq hact
  · rw [hlfb]; exact .refl _
  · rw [hlfb]; exact h.combining_mask hk hc

/-! ### The moves -/

theorem Bank.PoolOk.pipelineAdvance {cfg : Config} {bk : Bank} (h : bk.PoolOk cfg) :
    (pipelineAdvance bk).PoolOk cfg where
  lifecycle k hk := by
    rw [pipelineAdvance_lfb]
    exact (h.lifecycle k (by simpa using hk)).advancePipe
  combining k hk hl ht := by
    rw [pipelineAdvance_lfb] at hl ht ⊢
    obtain ⟨hs, hq, hm, hwb⟩ := h.combining k (by simpa using hk) (by simpa using hl) (by simpa using ht)
    have hkeep : (bk.lfb k).advancePipe = bk.lfb k := by simp [Lfb.advancePipe, hs]
    rw [hkeep]
    exact ⟨hs, hq, hm, hwb⟩
  writeBacks := by
    refine ⟨h.writeBacks.1, fun k hk => ?_⟩
    simpa [pipelineAdvance_lfb] using h.writeBacks.2 k hk
  active k hk := by simpa [pipelineAdvance_lfb] using h.active k hk
  misses := by
    refine ⟨h.misses.1, fun k hk => ?_⟩
    obtain ⟨hlt, ht, hs⟩ := h.misses.2 k hk
    have hkeep : (bk.lfb k).advancePipe = bk.lfb k := by simp [Lfb.advancePipe, hs]
    rw [pipelineAdvance_lfb, hkeep]
    exact ⟨by simpa using hlt, ht, hs⟩

/-- The head of the queue becomes the active write-back (44_bank_accept.md R134). -/
theorem handOff_poolOk {cfg : Config} {bk bk' : Bank} (hh : handOff bk = some bk') (h : bk.PoolOk cfg) :
    bk'.PoolOk cfg := by
  obtain ⟨k, rest, hq, ha, rfl⟩ := handOff_eq_some hh
  have hnodup := h.writeBacks.1
  rw [hq, List.nodup_cons] at hnodup
  obtain ⟨hk, hrest⟩ := hnodup
  have hmem : ∀ j, j ∈ bk.wbq ↔ j = k ∨ j ∈ rest := fun j => by rw [hq, List.mem_cons]
  exact
    { h with
      combining := fun j hj hl ht => by
        obtain ⟨hs, hsub, hm, hwb⟩ := h.combining j hj hl ht
        refine ⟨hs, hsub, hm, ?_⟩
        have hin : j = k ∨ j ∈ rest := (hmem j).mp (hwb.mpr (by simp [ha]))
        constructor
        · rintro hj hc
          cases hc
          exact hk hj
        · exact fun hc => hin.resolve_left fun he => hc (by rw [he])
      writeBacks := ⟨hrest, fun j hj => h.writeBacks.2 j ((hmem j).mpr (.inr hj))⟩
      active := fun j hj => by
        cases hj
        exact h.writeBacks.2 k ((hmem k).mpr (.inl rfl)) }

/-- A STORE writes at least one byte: its mask, moved to its offset, is not zero. -/
theorem shiftLeft_ne_zero {m : Nat} (hm : m ≠ 0) (k : Nat) : m <<< k ≠ 0 := by
  rw [Nat.shiftLeft_eq]
  exact Nat.mul_ne_zero hm (by positivity)

/-- The masks of the LFBs that an acceptance does not serve only grow. -/
theorem Served.mask_ne_zero {cfg : Config} {bk bk' : Bank} {req : Request} {v : Nat} (h : Served cfg bk bk' req v)
    {k : Nat} (hk : k ≠ v) (hm : (bk.lfb k).byteWriteMask ≠ 0) : (bk'.lfb k).byteWriteMask ≠ 0 := by
  rcases h.otherData k hk with ⟨-, he⟩ | ⟨-, -, he⟩ <;> rw [he]
  · exact hm
  · simp [Nat.or_eq_zero_iff, hm]

/-- A STORE that takes slot `v` makes it a write-combining LFB and queues it (R141). -/
theorem Bank.PoolOk.newStore {cfg : Config} {bk bk' : Bank} {req : Request} {v : Nat} (h : bk.PoolOk cfg)
    (hs : Served cfg bk bk' req v) (hv : allocSlot bk = some v) (hstate : (bk'.lfb v).state = .filled)
    (htype : (bk'.lfb v).type = .writeCombining) (hsubq : (bk'.lfb v).subq = [])
    (hpipe : (bk'.lfb v).pipeCount = 0) (hmask : (bk'.lfb v).byteWriteMask ≠ 0) (hmq : bk'.mq = bk.mq)
    (hwbq : bk'.wbq = bk.wbq ++ [v]) : bk'.PoolOk cfg := by
  obtain ⟨hidle, hnmq⟩ := h.idle hv
  obtain ⟨hnwbq, hnact⟩ := h.not_mem_wbq hidle
  have hmem : ∀ k, k ≠ v → (k ∈ bk'.wbq ↔ k ∈ bk.wbq) := fun k hk => by simp [hwbq, hk]
  exact
    { lifecycle := fun k hk => by
        by_cases hkv : k = v
        · subst hkv
          constructor <;> simp [hstate, htype, hpipe]
        · exact (h.lifecycle k (hs.count ▸ hk)).sameRecord (hs.others k hkv)
      combining := fun k hk hl ht => by
        by_cases hkv : k = v
        · subst hkv
          refine ⟨hstate, hsubq, hmask, ?_⟩
          rw [hwbq, hs.wbActive]
          simp [hnact]
        · rw [(hs.others k hkv).live] at hl
          rw [(hs.others k hkv).type] at ht
          obtain ⟨hst, hsq, hm, hwb⟩ := h.combining k (hs.count ▸ hk) hl ht
          rw [(hs.others k hkv).state, (hs.others k hkv).subq, hmem k hkv, hs.wbActive]
          exact ⟨hst, hsq, hs.mask_ne_zero hkv hm, hwb⟩
      writeBacks := by
        refine ⟨?_, fun k hk => ?_⟩
        · rw [hwbq, List.nodup_append_comm]
          exact List.nodup_cons.mpr ⟨hnwbq, h.writeBacks.1⟩
        · rw [hs.count]
          by_cases hkv : k = v
          · subst hkv
            exact ⟨hs.inPool, by simp [Lfb.live_iff, hstate], htype⟩
          · rw [(hs.others k hkv).live, (hs.others k hkv).type]
            exact h.writeBacks.2 k ((hmem k hkv).mp hk)
      active := fun k hk => by
        rw [hs.wbActive] at hk
        have hkv : k ≠ v := fun he => hnact (he ▸ hk)
        rw [hs.count, (hs.others k hkv).live, (hs.others k hkv).type]
        exact h.active k hk
      misses := by
        rw [hmq, hs.count]
        refine ⟨h.misses.1, fun k hk => ?_⟩
        have hkv : k ≠ v := fun he => hnmq (he ▸ hk)
        rw [(hs.others k hkv).type, (hs.others k hkv).state]
        exact h.misses.2 k hk }

theorem Bank.PoolOk.served {cfg : Config} {bk bk' : Bank} {req : Request} {v : Nat} (h : bk.PoolOk cfg)
    (hs : Served cfg bk bk' req v) : bk'.PoolOk cfg := by
  have hmask : ∀ k, k ≠ v → bk.Combining k → (bk.lfb k).byteWriteMask ≠ 0 → (bk'.lfb k).byteWriteMask ≠ 0 :=
    fun _ hk _ => hs.mask_ne_zero hk
  cases hs.by_ with
  | mergedLoad _ hf _ hl hmq hwbq =>
    obtain ⟨hlt, -, ht, -⟩ := findLfb_eq_some hf
    refine h.changeRead hs.count hs.others hmask (not_combining_of_read ht)
      (not_combining_of_read (by rw [hl]; exact ht)) ?_ hwbq hs.wbActive
      (hmq ▸ h.misses.1) (fun k hk _ => hmq ▸ hk) fun hv => ?_
    · rw [hl]; exact (h.lifecycle v hlt).appendSubReq _ _
    · obtain ⟨-, -, hmissed⟩ := h.misses.2 v (hmq ▸ hv)
      rw [hl]
      simp [hlt, ht, hmissed]
  | hit _ _ hv w _ hl hmq hwbq =>
    obtain ⟨hidle, hnmq⟩ := h.idle hv
    refine h.changeRead hs.count hs.others hmask hidle (not_combining_of_read (by rw [hl])) ?_ hwbq hs.wbActive
      (hmq ▸ h.misses.1) (fun k hk _ => hmq ▸ hk) fun hc => absurd (hmq ▸ hc) hnmq
    rw [hl]
    by_cases hlat : cfg.latency = 0
    · exact .of_waiting (.inr (by simp [hlat])) (by simp) hlat
    · constructor <;> simp [hlat]
      omega
  | missed _ _ hv _ hl _ hmq hwbq =>
    obtain ⟨hidle, hnmq⟩ := h.idle hv
    refine h.changeRead hs.count hs.others hmask hidle (not_combining_of_read (by rw [hl])) ?_ hwbq hs.wbActive ?_ ?_
      fun _ => ?_
    · exact .of_waiting (.inl (by rw [hl])) (by rw [hl]; simp) (by rw [hl])
    · rw [hmq, List.nodup_append_comm]
      exact List.nodup_cons.mpr ⟨hnmq, h.misses.1⟩
    · intro k hk hkv
      simpa [hmq, hkv] using hk
    · rw [hl]
      exact ⟨hs.inPool, rfl, rfl⟩
  | mergedStore _ hm _ hl hmq hwbq =>
    refine h.sameRecords hs.count (fun k => ?_) (fun k hk hc => ?_) hmq hwbq hs.wbActive
    · by_cases hkv : k = v
      · subst hkv; rw [hl]; exact ⟨rfl, rfl, rfl, rfl, rfl⟩
      · exact hs.others k hkv
    · have hmk := h.combining_mask hk hc
      by_cases hkv : k = v
      · subst hkv; rw [hl]; simp [Nat.or_eq_zero_iff, hmk]
      · exact hs.mask_ne_zero hkv hmk
  | newStore _ hm _ hv hl _ hmq hwbq =>
    exact h.newStore hs hv (by rw [hl]) (by rw [hl]) (by rw [hl]) (by rw [hl])
      (by rw [hl]; exact shiftLeft_ne_zero hm _) hmq hwbq

/-- The ISSUED LFB is FILLED, its sub-requests still waiting (45_bank_fill.md R152). -/
theorem fillBank_poolOk {cfg : Config} {b : Nat} {bk bk' : Bank} {r : Return} (hf : fillBank cfg b bk r = .ok bk')
    (h : bk.PoolOk cfg) : bk'.PoolOk cfg := by
  obtain ⟨-, k, hk, -, rfl⟩ := fillBank_ok hf
  obtain ⟨hlt, ht, hmissed, hnmq, -⟩ := issuedLfb_eq_some hk
  have hlife := h.lifecycle k hlt
  have hins : (insertLine cfg bk (bk.lfb k).blockAddress
      (overlay cfg.blockSize r.payload 0 (bk.lfb k).byteWriteMask (bk.lfb k).data)).PoolOk cfg :=
    h.congr rfl rfl rfl rfl
  exact hins.setRead hlt ht hnmq ht
    (.of_waiting (.inr rfl) (hlife.pending ht (.inr (.inl hmissed))) (hlife.noPipe (by simp [hmissed])))

/-- The head of the miss queue is fetched (46_bank_issue.md R158). -/
theorem Bank.PoolOk.popMiss {cfg : Config} {bk : Bank} (h : bk.PoolOk cfg) {k : Nat} {rest : List Nat}
    (hq : bk.mq = k :: rest) : ({ bk with mq := rest } : Bank).PoolOk cfg := by
  have hm := h.misses
  rw [hq, List.nodup_cons] at hm
  exact { h with misses := ⟨hm.1.2, fun j hj => hm.2 j (List.mem_cons_of_mem k hj)⟩ }

/-- The active LFB becomes INVALID and no write-back is active (R160). -/
theorem Bank.PoolOk.endActive {cfg : Config} {bk bk' : Bank} (h : bk.PoolOk cfg) {k : Nat}
    (ha : bk.wbActive = some k) (hcount : bk'.lfbs.length = bk.lfbs.length)
    (hothers : ∀ j, j ≠ k → bk'.lfb j = bk.lfb j) (hstate : (bk'.lfb k).state = .invalid)
    (hpipe : (bk'.lfb k).pipeCount = (bk.lfb k).pipeCount) (hmq : bk'.mq = bk.mq) (hwbq : bk'.wbq = bk.wbq)
    (hact : bk'.wbActive = none) : bk'.PoolOk cfg := by
  obtain ⟨hlt, hlive, htype⟩ := h.active k ha
  obtain ⟨hfilled, -, -, hwb⟩ := h.combining k hlt hlive htype
  have hpipe0 : (bk'.lfb k).pipeCount = 0 := hpipe.trans ((h.lifecycle k hlt).noPipe (by simp [hfilled]))
  exact
    { lifecycle := fun j hj => by
        by_cases hjk : j = k
        · subst hjk
          constructor <;> simp [hstate, hpipe0]
        · rw [hothers j hjk]
          exact h.lifecycle j (hcount ▸ hj)
      combining := fun j hj hl ht => by
        have hjk : j ≠ k := fun he => by rw [he, Lfb.live_iff, hstate] at hl; exact hl rfl
        rw [hothers j hjk] at hl ht ⊢
        obtain ⟨hs, hq, hm, hjwb⟩ := h.combining j (hcount ▸ hj) hl ht
        have hin : j ∈ bk.wbq := hjwb.mpr (by rw [ha]; simpa using Ne.symm hjk)
        exact ⟨hs, hq, hm, by simp [hwbq, hact, hin]⟩
      writeBacks := by
        rw [hwbq, hcount]
        refine ⟨h.writeBacks.1, fun j hj => ?_⟩
        have hjk : j ≠ k := fun he => hwb.mp (he ▸ hj) ha
        rw [hothers j hjk]
        exact h.writeBacks.2 j hj
      active := fun j hj => by rw [hact] at hj; cases hj
      misses := by
        rw [hmq, hcount]
        refine ⟨h.misses.1, fun j hj => ?_⟩
        obtain ⟨hjlt, hread, hmissed⟩ := h.misses.2 j hj
        have hjk : j ≠ k := fun he => by rw [he, htype] at hread; cases hread
        rw [hothers j hjk]
        exact ⟨hjlt, hread, hmissed⟩ }

theorem drainTo_poolOk {cfg : Config} {bk : Bank} (h : bk.PoolOk cfg) (b m : Nat) {k : Nat}
    (ha : bk.wbActive = some k) : (drainTo cfg b bk k m).PoolOk cfg := by
  rcases drainTo_spec cfg b bk k m with ⟨-, he⟩ | ⟨hm, he⟩ <;> rw [he]
  · have hself := Bank.setLfb_self (drainedLfb cfg b bk.freeCount (bk.lfb k)) (h.active k ha).1
    exact h.endActive ha (by simp) (fun j hj => bk.setLfb_others k _ hj) (congrArg Lfb.state hself)
      ((congrArg Lfb.pipeCount hself).trans rfl) rfl rfl rfl
  · refine h.sameRecords (by simp) (fun j => ?_) (fun j hj hc => ?_) rfl rfl rfl
    · rw [Bank.lfb_setLfb]
      split
      · rename_i hjk
        obtain ⟨rfl, -⟩ := hjk
        exact ⟨rfl, rfl, rfl, rfl, rfl⟩
      · exact .refl _
    · rw [Bank.lfb_setLfb]
      split
      · exact hm
      · exact h.combining_mask hj hc

theorem due_poolOk {cfg : Config} {b : Nat} {bk : Bank} {i : Issue} (hi : due cfg b bk = some i)
    (h : bk.PoolOk cfg) : i.bank.PoolOk cfg := by
  rcases due_eq_some.mp hi with hi | ⟨-, hi⟩
  · obtain ⟨k, rest, hq, rfl⟩ := dueFetch_eq_some.mp hi
    exact h.popMiss hq
  · obtain ⟨k, st, ha, -, rfl⟩ := dueDrain_eq_some.mp hi
    exact drainTo_poolOk h b _ ha

/-- A FILLED READ LFB returns its oldest sub-request (R161, R162). -/
theorem returnStep_poolOk {cfg : Config} {bk : Bank} (hs : bk.WellSized cfg) (h : bk.PoolOk cfg) :
    (returnStep cfg bk).PoolOk cfg := by
  rcases returnStep_spec cfg bk with he | ⟨k, sr, rest, -, hk, -, he⟩ <;> rw [he]
  · exact h.congr rfl rfl rfl rfl
  · obtain ⟨hlt, ht, hfilled, -⟩ := returnStep_granted hs.lfbArb hk
    rw [← hs.lfbs] at hlt
    have hnmq : k ∉ bk.mq := fun hc => by
      obtain ⟨-, -, hmissed⟩ := h.misses.2 k hc
      rw [hfilled] at hmissed
      cases hmissed
    exact (h.setRead (l := (bk.lfb k).popSubReq) hlt ht hnmq ht ((h.lifecycle k hlt).popSubReq hfilled)).congr rfl rfl rfl rfl

/-- Every move of a well-sized bank keeps the pool invariant. -/
theorem BankMove.poolOk {cfg : Config} {b : Nat} {bk bk' : Bank} (hm : BankMove cfg b bk bk')
    (hs : bk.WellSized cfg) (h : bk.PoolOk cfg) : bk'.PoolOk cfg := by
  cases hm with
  | pipe => exact h.pipelineAdvance
  | handOff hh => exact handOff_poolOk hh h
  | accept ha =>
    rcases acceptRequest_served ha with ⟨-, -, rfl, -⟩ | ⟨v, hv⟩
    · exact h
    · exact h.served hv
  | fill hf => exact fillBank_poolOk hf h
  | issue hi => exact due_poolOk hi h
  | ret => exact returnStep_poolOk hs h
  | unstage => exact h.congr rfl rfl rfl rfl
  | arb a _ => exact h.congr rfl rfl rfl rfl

/-- Settles O57: every move of a bank keeps the lifecycle and the queues true to each other. -/
theorem stepKeepsThePoolInvariant : Obligations.StepKeepsThePoolInvariant := by
  intro s t hs hb h
  rw [(step_moves h).cfg]
  exact step_keeps_banks h hs (fun _ _ _ hm hw hk => hm.poolOk hw hk) hb

end Sys2Proof.Machine
end

section
/-! PROOFS. The LRU ages stay permutations (10_state.md R47 item 6; 43_tag_data_array.md R127). -/

namespace Sys2Proof.Machine

/-! ### Touching keeps a permutation -/

/-- The ages of a group after entry `x` is touched (R127). -/
def touchedAges (ages : List Nat) (x : Nat) : List Nat :=
  ages.mapIdx fun y age => touchedAge x (ages.getD x 0) y age

@[simp] theorem touchedAges_length (ages : List Nat) (x : Nat) : (touchedAges ages x).length = ages.length := by
  simp [touchedAges]

theorem touchWays_lru (ways : List TagEntry) (w : Nat) :
    (touchWays ways w).map TagEntry.lru = touchedAges (ways.map TagEntry.lru) w := by
  apply List.ext_getElem <;> simp [touchWays, touchedAges]

/-- Ages of `n` entries: `n` different numbers below `n`. -/
theorem isAges_iff {ages : List Nat} : IsAges ages ↔ ages.Nodup ∧ ∀ a ∈ ages, a < ages.length := by
  constructor
  · intro h
    exact ⟨h.nodup_iff.mpr List.nodup_range, fun a ha => List.mem_range.mp (h.mem_iff.mp ha)⟩
  · rintro ⟨hnd, hlt⟩
    have hsub : ages.Subperm (List.range ages.length) :=
      List.subperm_of_subset hnd fun a ha => List.mem_range.mpr (hlt a ha)
    exact hsub.perm_of_length_le (by simp)

/-- Touching an entry keeps different ages different: the touched one becomes 0, and those below it move up one. -/
theorem touchedAge_injective {x old i j a a' : Nat} (hne : i ≠ j → a ≠ a') (hi : i ≠ x → a ≠ old)
    (hj : j ≠ x → a' ≠ old) (h : touchedAge x old i a = touchedAge x old j a') : i = j := by
  by_contra hij
  have haa := hne hij
  by_cases hix : i = x
  · have hjx : j ≠ x := fun hc => hij (hix.trans hc.symm)
    have ha' := hj hjx
    simp only [touchedAge, if_pos hix, if_neg hjx] at h
    split at h <;> omega
  · have ha := hi hix
    by_cases hjx : j = x
    · simp only [touchedAge, if_neg hix, if_pos hjx] at h
      split at h <;> omega
    · have ha' := hj hjx
      simp only [touchedAge, if_neg hix, if_neg hjx] at h
      split at h <;> split at h <;> omega

/-- The ages after a touch are a permutation again (R127). -/
theorem IsAges.touched {ages : List Nat} (h : IsAges ages) {x : Nat} (hx : x < ages.length) :
    IsAges (touchedAges ages x) := by
  obtain ⟨hnd, hlt⟩ := isAges_iff.mp h
  have hold : ages.getD x 0 = ages[x] := List.getD_eq_getElem _ _ hx
  have hinj : ∀ i j (hi : i < ages.length) (hj : j < ages.length), ages[i] = ages[j] → i = j :=
    fun i j hi hj he => (List.Nodup.getElem_inj_iff hnd).mp he
  rw [isAges_iff]
  constructor
  · rw [List.nodup_iff_injective_getElem]
    rintro ⟨i, hi⟩ ⟨j, hj⟩ he
    rw [touchedAges_length] at hi hj
    simp only [touchedAges, List.getElem_mapIdx, hold] at he
    have hij : i = j := touchedAge_injective (x := x) (old := ages[x])
      (fun hc ha => hc (hinj i j hi hj ha)) (fun hc ha => hc (hinj i x hi hx ha))
      (fun hc ha => hc (hinj j x hj hx ha)) he
    simpa using hij
  · intro a ha
    rw [touchedAges_length]
    obtain ⟨i, hi, rfl⟩ := List.mem_iff_getElem.mp ha
    rw [touchedAges_length] at hi
    have hage := hlt _ (List.getElem_mem hi)
    have hageX := hlt _ (List.getElem_mem hx)
    simp only [touchedAges, List.getElem_mapIdx, hold, touchedAge]
    split
    · omega
    · split <;> omega

/-- Touching an entry outside the group changes no age. -/
theorem touchedAges_outside {ages : List Nat} {x : Nat} (hx : ages.length ≤ x) : touchedAges ages x = ages := by
  apply List.ext_getElem
  · simp
  · intro i hi _
    have hix : i ≠ x := by
      rw [touchedAges_length] at hi
      omega
    simp [touchedAges, touchedAge, hix, hx]

theorem IsAges.touch {ages : List Nat} (h : IsAges ages) (x : Nat) : IsAges (touchedAges ages x) := by
  by_cases hx : x < ages.length
  · exact h.touched hx
  · rwa [touchedAges_outside (not_lt.mp hx)]

/-! ### The moves -/

theorem fillWay_lru (ways : List TagEntry) (w t : Nat) :
    (fillWay ways w t).map TagEntry.lru = ways.map TagEntry.lru := by
  apply List.ext_getElem
  · simp
  · intro y hy _
    rw [List.getElem_map, List.getElem_map, fillWay_getElem]
    split <;> rfl

/-- The ages of the pool, and the tag array, when a move touches neither. -/
theorem Bank.AgesOk.congr {bk bk' : Bank} (h : bk.AgesOk) (hl : bk'.lfbs.map Lfb.lru = bk.lfbs.map Lfb.lru)
    (ht : bk'.tags = bk.tags) : bk'.AgesOk :=
  ⟨hl ▸ h.pool, ht ▸ h.sets⟩

/-- One set of the tag array replaced by one whose ages are ages. -/
theorem Bank.AgesOk.setTags {bk : Bank} (h : bk.AgesOk) {i : Nat} {ways : List TagEntry}
    (hw : i < bk.tags.length → IsAges (ways.map TagEntry.lru)) :
    ∀ ws ∈ bk.tags.set i ways, IsAges (ws.map TagEntry.lru) :=
  forall_mem_set h.sets hw

/-- A write to an LFB that keeps its age keeps the ages of the pool. -/
theorem setLfb_lru (bk : Bank) (k : Nat) {l : Lfb} (hl : k < bk.lfbs.length → l.lru = (bk.lfb k).lru) :
    (bk.setLfb k l).lfbs.map Lfb.lru = bk.lfbs.map Lfb.lru := by
  apply List.ext_getElem
  · simp
  · intro j hj _
    rw [List.getElem_map, List.getElem_map]
    simp only [Bank.setLfb_lfbs, List.getElem_set]
    split
    · rename_i hkj
      subst hkj
      have hk : k < bk.lfbs.length := by simpa using hj
      rw [hl hk]
      simp [Bank.lfb, hk]
    · rfl

/-- The ages of the pool after an acceptance: the LFB that serves the request is touched. -/
theorem Served.lru {cfg : Config} {bk bk' : Bank} {req : Request} {v : Nat} (h : Served cfg bk bk' req v) :
    bk'.lfbs.map Lfb.lru = touchedAges (bk.lfbs.map Lfb.lru) v := by
  have hlfb : ∀ (x : Bank) (j : Nat) (hj : j < x.lfbs.length), x.lfbs[j] = x.lfb j := fun x j hj => by
    simp [Bank.lfb, hj]
  apply List.ext_getElem
  · simp [h.count]
  · intro j hj _
    have hj' : j < bk'.lfbs.length := by simpa using hj
    have hj0 : j < bk.lfbs.length := h.count ▸ hj'
    have hage := h.ages j hj0
    simp [touchedAges, hlfb bk' j hj', hlfb bk j hj0, hlfb bk v h.inPool, h.inPool, hage]

theorem Bank.AgesOk.served {cfg : Config} {bk bk' : Bank} {req : Request} {v : Nat} (h : bk.AgesOk)
    (hs : Served cfg bk bk' req v) : bk'.AgesOk where
  pool := by rw [hs.lru]; exact h.pool.touch v
  sets := by
    rcases hs.tags with ht | ⟨w, -, ht⟩ <;> rw [ht]
    · exact h.sets
    · refine h.setTags fun hi => ?_
      rw [touchWays_lru]
      exact (h.sets _ (bk.tagSet_mem hi)).touch w

theorem insertLine_agesOk {bk : Bank} (h : bk.AgesOk) (cfg : Config) (blk : Nat) (line : Block) :
    (insertLine cfg bk blk line).AgesOk where
  pool := h.pool
  sets := by
    rw [insertLine_tags]
    refine h.setTags fun hi => ?_
    rw [touchWays_lru, fillWay_lru]
    exact (h.sets _ (bk.tagSet_mem hi)).touch _

theorem fillBank_agesOk {cfg : Config} {b : Nat} {bk bk' : Bank} {r : Return} (hf : fillBank cfg b bk r = .ok bk')
    (h : bk.AgesOk) : bk'.AgesOk := by
  obtain ⟨-, k, -, -, rfl⟩ := fillBank_ok hf
  exact (insertLine_agesOk h cfg _ _).congr (setLfb_lru _ k fun _ => rfl) rfl

theorem drainTo_agesOk {bk : Bank} (h : bk.AgesOk) (cfg : Config) (b k m : Nat) : (drainTo cfg b bk k m).AgesOk := by
  rcases drainTo_spec cfg b bk k m with ⟨-, he⟩ | ⟨-, he⟩ <;> rw [he]
  · exact h.congr (setLfb_lru bk k (l := drainedLfb cfg b bk.freeCount (bk.lfb k)) fun _ => rfl) rfl
  · exact h.congr (setLfb_lru bk k fun _ => rfl) rfl

theorem due_agesOk {cfg : Config} {b : Nat} {bk : Bank} {i : Issue} (hi : due cfg b bk = some i) (h : bk.AgesOk) :
    i.bank.AgesOk := by
  rcases due_eq_some.mp hi with hi | ⟨-, hi⟩
  · obtain ⟨k, rest, -, rfl⟩ := dueFetch_eq_some.mp hi
    exact h.congr rfl rfl
  · obtain ⟨k, st, -, -, rfl⟩ := dueDrain_eq_some.mp hi
    exact drainTo_agesOk h cfg b k _

theorem returnStep_agesOk {bk : Bank} (h : bk.AgesOk) (cfg : Config) : (returnStep cfg bk).AgesOk := by
  rcases returnStep_spec cfg bk with he | ⟨k, sr, rest, -, -, -, he⟩ <;> rw [he]
  · exact h.congr rfl rfl
  · exact h.congr (setLfb_lru bk k (l := (bk.lfb k).popSubReq) fun _ => rfl) rfl

/-- Every move of a bank keeps its ages permutations. -/
theorem BankMove.agesOk {cfg : Config} {b : Nat} {bk bk' : Bank} (hm : BankMove cfg b bk bk') (h : bk.AgesOk) :
    bk'.AgesOk := by
  cases hm with
  | pipe => exact h.congr (by simp [pipelineAdvance]) rfl
  | handOff hh =>
    obtain ⟨k, rest, -, -, rfl⟩ := handOff_eq_some hh
    exact h.congr rfl rfl
  | accept ha =>
    rcases acceptRequest_served ha with ⟨-, -, rfl, -⟩ | ⟨v, hv⟩
    · exact h
    · exact h.served hv
  | fill hf => exact fillBank_agesOk hf h
  | issue hi => exact due_agesOk hi h
  | ret => exact returnStep_agesOk h cfg
  | unstage => exact h.congr rfl rfl
  | arb a _ => exact h.congr rfl rfl

/-- Settles O58: ages change by touches only, and a touch keeps a permutation. -/
theorem stepKeepsTheAges : Obligations.StepKeepsTheAges := by
  intro s t hb h b hlt
  have hm := step_moves h
  exact hm.keep (fun _ _ hbm hk => hbm.agesOk hk) (hb b (hm.count ▸ hlt))

end Sys2Proof.Machine
end

section
/-! PROOFS. The tags of the valid ways of a set stay distinct (10_state.md R47 item 7). -/

namespace Sys2Proof.Machine

/-- Two ways of a set are valid and hold one tag only if they are the same way. -/
theorem uniqueTags_iff {ways : List TagEntry} :
    UniqueTags ways ↔ ∀ i j (hi : i < ways.length) (hj : j < ways.length), ways[i].valid = true →
      ways[j].valid = true → ways[i].tag = ways[j].tag → i = j := by
  unfold UniqueTags
  rw [List.pairwise_iff_getElem]
  constructor
  · intro h i j hi hj hvi hvj ht
    rcases Nat.lt_trichotomy i j with hij | hij | hij
    · exact absurd ht (h i j hi hj hij hvi hvj)
    · exact hij
    · exact absurd ht.symm (h j i hj hi hij hvj hvi)
  · intro h i j hi hj hij hvi hvj ht
    exact absurd (h i j hi hj hvi hvj ht) (Nat.ne_of_lt hij)

/-- A touch changes ages only. -/
theorem UniqueTags.touch {ways : List TagEntry} (h : UniqueTags ways) (w : Nat) : UniqueTags (touchWays ways w) := by
  rw [uniqueTags_iff] at h ⊢
  intro i j hi hj
  rw [touchWays_getElem, touchWays_getElem]
  exact h i j _ _

/-- A way may take a tag that no other valid way of the set holds. -/
theorem UniqueTags.fill {ways : List TagEntry} (h : UniqueTags ways) {w t : Nat}
    (hw : ∀ i (hi : i < ways.length), i ≠ w → ways[i].valid = true → ways[i].tag ≠ t) :
    UniqueTags (fillWay ways w t) := by
  rw [uniqueTags_iff] at h ⊢
  intro i j hi hj
  rw [fillWay_length] at hi hj
  rw [fillWay_getElem, fillWay_getElem]
  by_cases hwi : w = i
  · by_cases hwj : w = j
    · exact fun _ _ _ => hwi.symm.trans hwj
    · rw [if_pos hwi, if_neg hwj]
      exact fun _ hv ht => absurd ht.symm (hw j hj (Ne.symm hwj) hv)
  · by_cases hwj : w = j
    · rw [if_neg hwi, if_pos hwj]
      exact fun hv _ ht => absurd ht (hw i hi (Ne.symm hwi) hv)
    · rw [if_neg hwi, if_neg hwj]
      exact h i j hi hj

theorem Bank.TagsUnique.congr {bk bk' : Bank} (h : bk.TagsUnique) (ht : bk'.tags = bk.tags) : bk'.TagsUnique :=
  fun ways hw => h ways (ht ▸ hw)

theorem Bank.TagsUnique.served {cfg : Config} {bk bk' : Bank} {req : Request} {v : Nat} (h : bk.TagsUnique)
    (hs : Served cfg bk bk' req v) : bk'.TagsUnique := by
  rcases hs.tags with ht | ⟨w, -, ht⟩
  · exact h.congr ht
  · unfold Bank.TagsUnique
    rw [ht]
    exact forall_mem_set h fun hi => (h _ (bk.tagSet_mem hi)).touch w

/-- `insert` writes the way that holds the block, or another one when no way holds it (43_tag_data_array.md R125). -/
theorem insertWay_only {cfg : Config} {bk : Bank} {blk : Nat} (h : UniqueTags (bk.tagSet (cfg.set blk))) :
    ∀ i (hi : i < (bk.tagSet (cfg.set blk)).length), i ≠ insertWay cfg bk blk →
      (bk.tagSet (cfg.set blk))[i].valid = true → (bk.tagSet (cfg.set blk))[i].tag ≠ cfg.tag blk := by
  intro i hi hne hv ht
  cases hl : lookup cfg bk blk with
  | none => exact lookup_eq_none.mp hl _ (List.getElem_mem hi) hv ht
  | some w =>
    obtain ⟨hw, hwv, hwt⟩ := lookup_eq_some hl
    have hway : insertWay cfg bk blk = w := by simp [insertWay, hl]
    exact hne (hway ▸ uniqueTags_iff.mp h i w hi hw hv hwv (ht.trans hwt.symm))

theorem insertLine_tagsUnique {bk : Bank} (h : bk.TagsUnique) (cfg : Config) (blk : Nat) (line : Block) :
    (insertLine cfg bk blk line).TagsUnique := by
  unfold Bank.TagsUnique
  rw [insertLine_tags]
  refine forall_mem_set h fun hi => ?_
  have hset := h _ (bk.tagSet_mem hi)
  exact (hset.fill (insertWay_only hset)).touch _

theorem fillBank_tagsUnique {cfg : Config} {b : Nat} {bk bk' : Bank} {r : Return}
    (hf : fillBank cfg b bk r = .ok bk') (h : bk.TagsUnique) : bk'.TagsUnique := by
  obtain ⟨-, k, -, -, rfl⟩ := fillBank_ok hf
  exact (insertLine_tagsUnique h cfg _ _).congr rfl

theorem drainTo_tags (cfg : Config) (b : Nat) (bk : Bank) (k m : Nat) : (drainTo cfg b bk k m).tags = bk.tags := by
  rcases drainTo_spec cfg b bk k m with ⟨-, he⟩ | ⟨-, he⟩
  · rw [he]; rfl
  · rw [he]; rfl

/-- A downstream request leaves the tag array alone. -/
theorem due_tags {cfg : Config} {b : Nat} {bk : Bank} {i : Issue} (hi : due cfg b bk = some i) :
    i.bank.tags = bk.tags := by
  rcases due_eq_some.mp hi with hi | ⟨-, hi⟩
  · obtain ⟨k, rest, -, rfl⟩ := dueFetch_eq_some.mp hi
    rfl
  · obtain ⟨k, st, -, -, rfl⟩ := dueDrain_eq_some.mp hi
    exact drainTo_tags cfg b bk k _

/-- A sub-request return leaves the tag array alone. -/
theorem returnStep_tags (cfg : Config) (bk : Bank) : (returnStep cfg bk).tags = bk.tags := by
  rcases returnStep_spec cfg bk with he | ⟨k, sr, rest, -, -, -, he⟩
  · rw [he]
  · rw [he]; rfl

/-- Every move of a bank keeps the tags of its sets distinct. -/
theorem BankMove.tagsUnique {cfg : Config} {b : Nat} {bk bk' : Bank} (hm : BankMove cfg b bk bk')
    (h : bk.TagsUnique) : bk'.TagsUnique := by
  cases hm with
  | pipe => exact h.congr rfl
  | handOff hh =>
    obtain ⟨k, rest, -, -, rfl⟩ := handOff_eq_some hh
    exact h.congr rfl
  | accept ha =>
    rcases acceptRequest_served ha with ⟨-, -, rfl, -⟩ | ⟨v, hv⟩
    · exact h
    · exact h.served hv
  | fill hf => exact fillBank_tagsUnique hf h
  | issue hi => exact h.congr (due_tags hi)
  | ret => exact h.congr (returnStep_tags cfg bk)
  | unstage => exact h.congr rfl
  | arb a _ => exact h.congr rfl

/-- Settles O59: only a fill writes a tag, into the way that holds the block or when no way does. -/
theorem stepKeepsTheTagsUnique : Obligations.StepKeepsTheTagsUnique := by
  intro s t hb h b hlt
  have hm := step_moves h
  exact hm.keep (fun _ _ hbm hk => hbm.tagsUnique hk) (hb b (hm.count ▸ hlt))

end Sys2Proof.Machine
end

section
/-! PROOFS. Every move of the state keeps the sizes of its elements (10_state.md R25 to R39). -/

namespace Sys2Proof.Machine

/-! ### Elements read by index -/

/-- An element read from a list is the default or a member. -/
theorem getD_default_or_mem {α : Type} (l : List α) (i : Nat) (d : α) : l.getD i d = d ∨ l.getD i d ∈ l := by
  by_cases hi : i < l.length
  · right
    rw [List.getD_eq_getElem _ _ hi]
    exact List.getElem_mem hi
  · left
    exact List.getD_eq_default _ _ (not_lt.mp hi)

theorem getD_mem {α : Type} {l : List α} {i : Nat} (d : α) (hi : i < l.length) : l.getD i d ∈ l := by
  rw [List.getD_eq_getElem _ _ hi]
  exact List.getElem_mem hi

/-- A list read back after a write. -/
theorem getD_set {α : Type} (l : List α) (i j : Nat) (a d : α) :
    (l.set i a).getD j d = if i = j ∧ j < l.length then a else l.getD j d := by
  simp only [List.getD_eq_getElem?_getD, List.getElem?_set]
  by_cases h : i = j
  · subst h
    by_cases hl : i < l.length <;> simp [hl]
  · simp [h]

theorem State.WellSized.xreq {s : State} (h : s.WellSized) {b : Nat} (hb : b < s.xreqArb.length) :
    (s.xreq b).Fits s.cfg.numPorts :=
  h.xreqArb _ (getD_mem _ hb)

theorem State.WellSized.xret {s : State} (h : s.WellSized) {p : Nat} (hp : p < s.xretArb.length) :
    (s.xret p).Fits s.cfg.numBanks :=
  h.xretArb _ (getD_mem _ hp)

/-! ### One rule per write to the state -/

theorem State.WellSized.setBank {s : State} (h : s.WellSized) {b : Nat} {bk : Bank}
    (hb : b < s.banks.length → bk.WellSized s.cfg) : (s.setBank b bk).WellSized :=
  { h with
    bankCount := by simpa using h.bankCount
    banks := forall_mem_set h.banks hb }

theorem State.WellSized.setDsPort {s : State} (h : s.WellSized) (b : Nat) (d : DsPort) : (s.setDsPort b d).WellSized :=
  { h with ds := by simpa using h.ds }

theorem State.WellSized.setReqIn {s : State} (h : s.WellSized) (p : Nat) (req : Option Request) :
    ({ s with reqIn := s.reqIn.set p req } : State).WellSized :=
  { h with reqIn := by simpa using h.reqIn }

theorem State.WellSized.setRetOut {s : State} (h : s.WellSized) (p : Nat) (r : Option Return) :
    ({ s with retOut := s.retOut.set p r } : State).WellSized :=
  { h with retOut := by simpa using h.retOut }

theorem State.WellSized.setXreq {s : State} (h : s.WellSized) {b : Nat} {a : Arb}
    (ha : b < s.xreqArb.length → a.Fits s.cfg.numPorts) :
    ({ s with xreqArb := s.xreqArb.set b a } : State).WellSized :=
  { h with
    xreqCount := by simpa using h.xreqCount
    xreqArb := forall_mem_set h.xreqArb ha }

theorem State.WellSized.setXret {s : State} (h : s.WellSized) {p : Nat} {a : Arb}
    (ha : p < s.xretArb.length → a.Fits s.cfg.numBanks) :
    ({ s with xretArb := s.xretArb.set p a } : State).WellSized :=
  { h with
    xretCount := by simpa using h.xretCount
    xretArb := forall_mem_set h.xretArb ha }

/-! ### The moves -/

theorem setArb_wellSized {s : State} (h : s.WellSized) (a : ArbRef) {v : Arb}
    (hv : (s.arb a).Fits (s.cfg.arbWidth a) → v.Fits (s.cfg.arbWidth a)) : (s.setArb a v).WellSized := by
  cases a with
  | xreq b => exact h.setXreq fun hb => hv (h.xreq hb)
  | xret p => exact h.setXret fun hp => hv (h.xret hp)
  | lfb b => exact h.setBank fun hb => (h.bank hb).setArb (hv (h.bank hb).lfbArb)

/-- A slot that holds a request is one of the ports. -/
theorem State.WellSized.lt_of_reqSlot {s : State} (h : s.WellSized) {p : Nat} {req : Request}
    (hp : s.reqSlot p = some req) : p < s.cfg.numPorts := by
  by_contra hc
  rw [State.reqSlot, List.getD_eq_default _ _ (by rw [h.reqIn]; omega)] at hp
  cases hp

theorem registerPort_wellSized {s : State} (h : s.WellSized) (p : Nat) : (registerPort s p).WellSized := by
  unfold registerPort
  split
  · exact h
  · rename_i req hreq
    exact h.setXreq fun hb => (h.xreq hb).add (h.lt_of_reqSlot hreq)

theorem advanceRequests_wellSized {s : State} (h : s.WellSized) :
    ({ s with xreqArb := s.xreqArb.map (Arb.advance s.cfg.numPorts) } : State).WellSized :=
  { h with
    xreqCount := by simpa using h.xreqCount
    xreqArb := by
      intro a ha
      obtain ⟨a, ha', rfl⟩ := List.mem_map.mp ha
      exact (h.xreqArb a ha').advance }

/-- The banks that stage a return are banks: the registration keeps the width (42_crossbar.md R118). -/
theorem registerStages_fits {s : State} {p : Nat} (h : (s.xret p).Fits s.cfg.numBanks) :
    (registerStages s p).Fits s.cfg.numBanks := by
  obtain ⟨m, hm, he⟩ := registerStages_spec s p
  rw [he]
  refine Arb.Fits.advance ⟨Nat.lt_pow_two_of_testBit m fun j hj => ?_, h.2⟩
  have hold : (s.xret p).mask.testBit j = false :=
    Nat.testBit_lt_two_pow (lt_of_lt_of_le h.1 (Nat.pow_le_pow_right (by decide) hj))
  rw [hm, hold]
  simp [not_lt.mpr hj]

theorem routePort_wellSized {s : State} (h : s.WellSized) (p : Nat) : (routePort s p).WellSized := by
  have hfits : p < s.xretArb.length → (registerStages s p).Fits s.cfg.numBanks := fun hp =>
    registerStages_fits (h.xret hp)
  rcases routePort_spec s p with he | ⟨g, -, -, he⟩ <;> rw [he]
  · exact h.setXret hfits
  · have hunstage : (s.setBank g { s.bank g with rstage := none }).WellSized :=
      h.setBank fun hg => (h.bank hg).congr rfl rfl rfl rfl
    exact (hunstage.setRetOut p (s.bank g).rstage).setXret fun hp => (hfits hp).remove g

theorem acceptMove_wellSized {s : State} (h : s.WellSized) {b g : Nat} {req : Request} {bk : Bank}
    {c : Option Counter} (ha : acceptRequest s.cfg b (s.bank b) req = .accepted bk c) :
    ({ s.setBank b bk with
      reqIn := s.reqIn.set g none
      xreqArb := s.xreqArb.set b ((s.xreq b).remove g) } : State).WellSized := by
  have hbank : (s.setBank b bk).WellSized := h.setBank fun hb => acceptRequest_wellSized ha (h.bank hb)
  exact (hbank.setReqIn g none).setXreq fun hb => (h.xreq hb).remove g

/-- Every move keeps the sizes of the state's elements. -/
theorem StateMove.wellSized {i : Instr} {s t : State} (hm : StateMove i s t) (h : s.WellSized) : t.WellSized := by
  cases hm with
  | note => exact { h with }
  | store req => exact h.setReqIn _ _
  | take p => exact h.setRetOut p none
  | receive b r => exact h.setDsPort b _
  | arb a v _ hv => exact setArb_wellSized h a hv
  | register p => exact registerPort_wellSized h p
  | advance => exact advanceRequests_wellSized h
  | pipe b => exact h.setBank fun hb => (h.bank hb).pipelineAdvance
  | handOff b bk hh => exact h.setBank fun hb => BankMove.wellSized (b := b) (.handOff hh) (h.bank hb)
  | accept b g req bk c _ _ ha => exact acceptMove_wellSized h ha
  | pop b => exact h.setDsPort b _
  | fill b r bk hf => exact h.setBank fun hb => fillBank_wellSized hf (h.bank hb)
  | issue b j hj =>
    have hds : (s.dsWrite b j.request).WellSized := h.setDsPort b _
    have hbank : ((s.dsWrite b j.request).setBank b j.bank).WellSized :=
      hds.setBank fun hb => due_wellSized hj (h.bank hb)
    exact { hbank with }
  | ret b => exact h.setBank fun hb => returnStep_wellSized (h.bank hb)
  | route p => exact routePort_wellSized h p
  | endFall => exact { h with ds := by simpa using h.ds }

theorem exec_wellSized {i : Instr} {s t : State} (h : exec i s = .next t) (hs : s.WellSized) : t.WellSized :=
  (exec_stateMoves h).keep (fun _ _ hm => hm.wellSized) hs

theorem step_wellSized {s t : State} (h : step s = .next t) (hs : s.WellSized) : t.WellSized := by
  obtain ⟨es, ⟨i, -, hi⟩ | ⟨b, rfl⟩ | ⟨b, blocked, rfl⟩⟩ := step_next h
  · exact exec_wellSized hi { hs with }
  · exact { hs.setDsPort b { s.dsPort b with req := none } with }
  · exact { hs.setDsPort b { s.dsPort b with blocked := blocked } with }

end Sys2Proof.Machine
end

section
/-! PROOFS. Every step keeps the fields in their widths (10_state.md R30, R38; 30_encoding.md R77, R83). -/

namespace Sys2Proof.Machine

/-! ### Addresses, tags and masks -/

theorem block_le (cfg : Config) (a : Nat) : cfg.block a ≤ a :=
  Nat.sub_le _ _

/-- A block starts at offset zero (20_memory.md R51). -/
@[simp] theorem offset_block (cfg : Config) (a : Nat) : cfg.offset (cfg.block a) = 0 :=
  Nat.sub_mod_eq_zero_of_mod_eq (Nat.mod_mod a _).symm

/-- A tag has ADDR_WIDTH - OFFSET_BITS bits (R55). -/
theorem tag_lt (cfg : Config) (a : Nat) : cfg.tag a < 2 ^ (cfg.addrWidth - cfg.offsetBits) := by
  have hmod : a % 2 ^ cfg.addrWidth < 2 ^ cfg.addrWidth := Nat.mod_lt _ (by positivity)
  refine Nat.div_lt_of_lt_mul (lt_of_lt_of_le hmod ?_)
  rw [← Nat.pow_add]
  exact Nat.pow_le_pow_right (by decide) (by omega)

theorem addrAdd_lt (cfg : Config) (a k : Nat) : cfg.addrAdd a k < 2 ^ cfg.addrWidth :=
  Nat.mod_lt _ (by positivity)

theorem ones_lt {n w : Nat} (h : n ≤ w) : ones n < 2 ^ w := by
  have hle := Nat.pow_le_pow_right (n := 2) (by decide) h
  have hpos : 0 < 2 ^ n := by positivity
  simp only [ones]
  omega

/-- The mask of a request inside one block, moved to its offset, has BLOCK_SIZE bits. -/
theorem effectiveMask_shift_lt {cfg : Config} {req : Request} (h : fitsBlock cfg req = true) :
    effectiveMask req <<< cfg.offset req.address < 2 ^ cfg.blockSize := by
  simp only [fitsBlock, Bool.and_eq_true, decide_eq_true_eq] at h
  have hmask : effectiveMask req < 2 ^ req.size.toNat :=
    lt_of_le_of_lt Nat.and_le_right (ones_lt (le_refl _))
  rw [Nat.shiftLeft_eq]
  calc effectiveMask req * 2 ^ cfg.offset req.address
      < 2 ^ req.size.toNat * 2 ^ cfg.offset req.address := Nat.mul_lt_mul_of_pos_right hmask (by positivity)
    _ = 2 ^ (cfg.offset req.address + req.size.toNat) := by rw [← Nat.pow_add, Nat.add_comm]
    _ ≤ 2 ^ cfg.blockSize := Nat.pow_le_pow_right (by decide) h.2

/-! ### An LFB's fields -/

theorem Lfb.FieldsFit.of_eq {cfg : Config} {l m : Lfb} (h : l.FieldsFit cfg) (hb : m.blockAddress = l.blockAddress)
    (hm : m.byteWriteMask < 2 ^ cfg.blockSize) : m.FieldsFit cfg :=
  ⟨hb ▸ h.blockAddress, hb ▸ h.aligned, hm⟩

/-- An LFB of the block of a request that fits. -/
theorem Lfb.FieldsFit.of_block {cfg : Config} {l : Lfb} {req : Request} (h : RequestFits cfg req)
    (hb : l.blockAddress = cfg.block req.address) (hm : l.byteWriteMask < 2 ^ cfg.blockSize) : l.FieldsFit cfg :=
  ⟨by rw [hb]; exact lt_of_le_of_lt (block_le cfg _) h.address, by rw [hb]; simp, hm⟩

theorem Lfb.absent_fieldsFit (cfg : Config) : Lfb.absent.FieldsFit cfg :=
  ⟨by simp [Lfb.absent], by simp [Lfb.absent, Config.offset], by simp [Lfb.absent]⟩

theorem drainedLfb_fieldsFit (cfg : Config) (b n : Nat) (l : Lfb) : (drainedLfb cfg b n l).FieldsFit cfg where
  blockAddress := lt_of_le_of_lt (block_le cfg _) (Nat.mod_lt _ (by positivity))
  aligned := offset_block cfg _
  byteWriteMask := by simp [drainedLfb]

theorem Bank.FieldsFit.lfb {cfg : Config} {bk : Bank} (h : bk.FieldsFit cfg) (k : Nat) : (bk.lfb k).FieldsFit cfg := by
  rcases getD_default_or_mem bk.lfbs k Lfb.absent with he | hm
  · rw [Bank.lfb, he]; exact Lfb.absent_fieldsFit cfg
  · exact h.lfbs _ hm

/-! ### One rule per write to a bank -/

theorem Bank.FieldsFit.setLfb {cfg : Config} {bk : Bank} (h : bk.FieldsFit cfg) {k : Nat} {l : Lfb}
    (hl : l.FieldsFit cfg) : (bk.setLfb k l).FieldsFit cfg :=
  { h with lfbs := forall_mem_set h.lfbs fun _ => hl }

/-- The fields of a bank read only its LFBs, its return stage and its tags. -/
theorem Bank.FieldsFit.congr {cfg : Config} {bk bk' : Bank} (h : bk.FieldsFit cfg) (hl : bk'.lfbs = bk.lfbs)
    (hr : bk'.rstage = bk.rstage) (ht : bk'.tags = bk.tags) : bk'.FieldsFit cfg :=
  ⟨hl ▸ h.lfbs, hr ▸ h.rstage, ht ▸ h.tags⟩

/-- The tag array after one set is replaced by ways whose tags fit. -/
theorem Bank.FieldsFit.setTags {cfg : Config} {bk : Bank} (h : bk.FieldsFit cfg) {i : Nat} {ways : List TagEntry}
    (hw : ∀ e ∈ ways, e.tag < 2 ^ (cfg.addrWidth - cfg.offsetBits)) :
    ∀ ws ∈ bk.tags.set i ways, ∀ e ∈ ws, e.tag < 2 ^ (cfg.addrWidth - cfg.offsetBits) :=
  forall_mem_set h.tags fun _ => hw

theorem Bank.FieldsFit.tagSet {cfg : Config} {bk : Bank} (h : bk.FieldsFit cfg) (i : Nat) :
    ∀ e ∈ bk.tagSet i, e.tag < 2 ^ (cfg.addrWidth - cfg.offsetBits) := by
  rcases getD_default_or_mem bk.tags i [] with he | hm
  · rw [Bank.tagSet, he]; simp
  · exact h.tags _ hm

/-- A touch keeps every tag. -/
theorem touchWays_tag_lt {ways : List TagEntry} {n : Nat} (h : ∀ e ∈ ways, e.tag < n) (w : Nat) :
    ∀ e ∈ touchWays ways w, e.tag < n := by
  intro e he
  obtain ⟨y, hy, rfl⟩ := List.mem_iff_getElem.mp he
  have hold := h _ (List.getElem_mem (by simpa using hy))
  rwa [touchWays_getElem]

theorem fillWay_tag_lt {ways : List TagEntry} {n t : Nat} (h : ∀ e ∈ ways, e.tag < n) (ht : t < n) (w : Nat) :
    ∀ e ∈ fillWay ways w t, e.tag < n := by
  intro e he
  obtain ⟨y, hy, rfl⟩ := List.mem_iff_getElem.mp he
  rw [fillWay_getElem]
  split
  · exact ht
  · exact h _ (List.getElem_mem _)

/-! ### The moves of a bank -/

theorem Bank.FieldsFit.pipelineAdvance {cfg : Config} {bk : Bank} (h : bk.FieldsFit cfg) :
    (pipelineAdvance bk).FieldsFit cfg :=
  { h with
    lfbs := Bank.forall_lfb.mpr fun k _ => by
      rw [pipelineAdvance_lfb]
      exact (h.lfb k).of_eq (by simp) (by simpa using (h.lfb k).byteWriteMask) }

theorem handOff_fieldsFit {cfg : Config} {bk bk' : Bank} (hh : handOff bk = some bk') (h : bk.FieldsFit cfg) :
    bk'.FieldsFit cfg := by
  obtain ⟨k, rest, -, -, rfl⟩ := handOff_eq_some hh
  exact h.congr rfl rfl rfl

/-- The mask of a LOAD that misses: zero, or that of a write-combining LFB of the block (44_bank_accept.md R138). -/
theorem missLoad_mask {cfg : Config} {bk : Bank} {v blk : Nat} (h : ∀ k, (bk.lfb k).byteWriteMask < 2 ^ cfg.blockSize) :
    ((missLoad cfg bk v blk).lfb v).byteWriteMask < 2 ^ cfg.blockSize := by
  rw [missLoad_lfb]
  split
  · split
    · exact h _
    · exact h v
  · exact h v

theorem newReadLfb_mask {cfg : Config} {bk : Bank} (h : bk.FieldsFit cfg) (b v blk : Nat) (sr : SubReq) (k : Nat) :
    ((newReadLfb cfg b bk v blk sr).lfb k).byteWriteMask < 2 ^ cfg.blockSize := by
  rw [newReadLfb_lfb]
  split
  · simp
  · exact (h.lfb k).byteWriteMask

theorem evictRetired_fieldsFit {cfg : Config} {bk : Bank} (h : bk.FieldsFit cfg) (v : Nat) :
    (evictRetired bk v).FieldsFit cfg := by
  unfold evictRetired
  split
  · exact h.setLfb ((h.lfb v).of_eq rfl (h.lfb v).byteWriteMask)
  · exact h

/-- The mask of the LFB that an accepted request is served by. -/
theorem acceptRequest_mask {cfg : Config} {b : Nat} {bk bk' : Bank} {req : Request} {c : Option Counter}
    (ha : acceptRequest cfg b bk req = .accepted bk' c) (h : bk.FieldsFit cfg) (hfits : fitsBlock cfg req = true)
    {v : Nat} (hs : Served cfg bk bk' req v) : (bk'.lfb v).byteWriteMask < 2 ^ cfg.blockSize := by
  cases hs.by_ with
  | mergedLoad _ _ _ hl => rw [hl]; exact (h.lfb v).byteWriteMask
  | hit _ _ _ w _ hl => rw [hl]; simp
  | missed ht hf hv hw _ _ _ _ =>
    rw [acceptRequest, if_pos ht] at ha
    rcases acceptLoad_accepted ha with ⟨k, hk, -⟩ | ⟨u, -, hu, -, ⟨w, hw', -⟩ | ⟨-, -, rfl⟩⟩
    · rw [hf] at hk; cases hk
    · rw [hw] at hw'; cases hw'
    · rw [hv] at hu
      cases hu
      refine missLoad_mask fun k => ?_
      rw [touchLfb_lfb_byteWriteMask]
      exact newReadLfb_mask (evictRetired_fieldsFit h v) _ _ _ _ k
  | mergedStore _ _ _ hl =>
    rw [hl]
    exact Nat.or_lt_two_pow (h.lfb v).byteWriteMask (effectiveMask_shift_lt hfits)
  | newStore _ _ _ _ hl => rw [hl]; exact effectiveMask_shift_lt hfits

/-- The block address of the LFB that serves a request: the one it had, or the request's block. -/
theorem ServedBy.blockAddress {cfg : Config} {bk bk' : Bank} {req : Request} {v : Nat}
    (h : ServedBy cfg bk bk' req v) :
    (bk'.lfb v).blockAddress = (bk.lfb v).blockAddress ∨ (bk'.lfb v).blockAddress = cfg.block req.address := by
  cases h with
  | mergedLoad _ _ _ hl => rw [hl]; exact .inl rfl
  | hit _ _ _ w _ hl => rw [hl]; exact .inr rfl
  | missed _ _ _ _ hl => rw [hl]; exact .inr rfl
  | mergedStore _ _ _ hl => rw [hl]; exact .inl rfl
  | newStore _ _ _ _ hl => rw [hl]; exact .inr rfl

theorem acceptRequest_fieldsFit {cfg : Config} {b : Nat} {bk bk' : Bank} {req : Request} {c : Option Counter}
    (ha : acceptRequest cfg b bk req = .accepted bk' c) (hreq : RequestFits cfg req)
    (hfits : fitsBlock cfg req = true) (h : bk.FieldsFit cfg) : bk'.FieldsFit cfg := by
  rcases acceptRequest_served ha with ⟨-, -, rfl, -⟩ | ⟨v, hs⟩
  · exact h
  · refine ⟨Bank.forall_lfb.mpr fun k _ => ?_, fun r hr => h.rstage r (hs.rstage ▸ hr), ?_⟩
    · by_cases hkv : k = v
      · subst hkv
        have hmask := acceptRequest_mask ha h hfits hs
        rcases hs.by_.blockAddress with hb | hb
        · exact (h.lfb k).of_eq hb hmask
        · exact .of_block hreq hb hmask
      · refine (h.lfb k).of_eq (hs.others k hkv).blockAddress ?_
        rcases hs.otherData k hkv with ⟨-, hm⟩ | ⟨-, -, hm⟩ <;> rw [hm]
        · exact (h.lfb k).byteWriteMask
        · exact Nat.or_lt_two_pow (h.lfb k).byteWriteMask (effectiveMask_shift_lt hfits)
    · rcases hs.tags with ht | ⟨w, -, ht⟩ <;> rw [ht]
      · exact h.tags
      · exact h.setTags (touchWays_tag_lt (h.tagSet _) w)

theorem insertLine_fieldsFit {cfg : Config} {bk : Bank} (h : bk.FieldsFit cfg) (blk : Nat) (line : Block) :
    (insertLine cfg bk blk line).FieldsFit cfg where
  lfbs := h.lfbs
  rstage := h.rstage
  tags := by
    rw [insertLine_tags]
    exact h.setTags (touchWays_tag_lt (fillWay_tag_lt (h.tagSet _) (tag_lt cfg blk) _) _)

theorem fillBank_fieldsFit {cfg : Config} {b : Nat} {bk bk' : Bank} {r : Return}
    (hf : fillBank cfg b bk r = .ok bk') (h : bk.FieldsFit cfg) : bk'.FieldsFit cfg := by
  obtain ⟨-, k, -, -, rfl⟩ := fillBank_ok hf
  exact (insertLine_fieldsFit h _ _).setLfb ((h.lfb k).of_eq rfl (by simp))

theorem drainTo_fieldsFit {cfg : Config} {bk : Bank} (h : bk.FieldsFit cfg) (b k : Nat) {m : Nat}
    (hm : m < 2 ^ cfg.blockSize) : (drainTo cfg b bk k m).FieldsFit cfg := by
  rcases drainTo_spec cfg b bk k m with ⟨-, he⟩ | ⟨-, he⟩ <;> rw [he]
  · exact (h.setLfb (k := k) (drainedLfb_fieldsFit cfg b bk.freeCount (bk.lfb k))).congr rfl rfl rfl
  · exact h.setLfb ((h.lfb k).of_eq rfl hm)

/-- A downstream request has the widths of the configuration, and the bank after it too (46_bank_issue.md R158,
R159). -/
theorem due_fieldsFit {cfg : Config} {b : Nat} {bk : Bank} {i : Issue} (hi : due cfg b bk = some i)
    (h : bk.FieldsFit cfg) : RequestFits cfg i.request ∧ i.bank.FieldsFit cfg := by
  rcases due_eq_some.mp hi with hi | ⟨-, hi⟩
  · obtain ⟨k, rest, -, rfl⟩ := dueFetch_eq_some.mp hi
    exact ⟨⟨(h.lfb k).blockAddress, by simp [fetchRequest], by simp [fetchRequest]⟩, h.congr rfl rfl rfl⟩
  · obtain ⟨k, st, -, -, rfl⟩ := dueDrain_eq_some.mp hi
    have hrun := runLength_le (cfg.blockSize - st) (bk.lfb k).byteWriteMask st
    exact ⟨⟨addrAdd_lt cfg _ _, ones_lt (by omega), by simp [drainRequest]⟩,
      drainTo_fieldsFit h b k (clearBits_lt (h.lfb k).byteWriteMask)⟩

theorem returnOf_fits (cfg : Config) (l : Lfb) (sr : SubReq) : ReturnFits cfg (returnOf cfg l sr) :=
  ⟨addrAdd_lt cfg _ _, by simp [returnOf]⟩

theorem returnStep_fieldsFit {cfg : Config} {bk : Bank} (h : bk.FieldsFit cfg) : (returnStep cfg bk).FieldsFit cfg := by
  rcases returnStep_spec cfg bk with he | ⟨k, sr, rest, -, -, -, he⟩ <;> rw [he]
  · exact h.congr rfl rfl rfl
  · have hpop := h.setLfb (k := k) (l := (bk.lfb k).popSubReq) ((h.lfb k).of_eq rfl (h.lfb k).byteWriteMask)
    exact
      { lfbs := hpop.lfbs
        rstage := fun r hr => by cases hr; exact returnOf_fits cfg _ sr
        tags := h.tags }

/-! ### One rule per write to the state -/

theorem State.FieldsFit.bank {s : State} (h : s.FieldsFit) (b : Nat) : (s.bank b).FieldsFit s.cfg := by
  rcases getD_default_or_mem s.banks b Bank.absent with he | hm
  · rw [State.bank, he]
    exact ⟨by simp [Bank.absent], by simp [Bank.absent], by simp [Bank.absent]⟩
  · exact h.banks _ hm

theorem State.FieldsFit.setBank {s : State} (h : s.FieldsFit) {b : Nat} {bk : Bank} (hb : bk.FieldsFit s.cfg) :
    (s.setBank b bk).FieldsFit :=
  { h with banks := forall_mem_set h.banks fun _ => hb }

theorem State.FieldsFit.setDsPort {s : State} (h : s.FieldsFit) {b : Nat} {d : DsPort}
    (hreq : ∀ req, d.req = some req → RequestFits s.cfg req) (hrets : ∀ r ∈ d.rets, ReturnFits s.cfg r) :
    (s.setDsPort b d).FieldsFit :=
  { h with
    dsRequests := fun c req hc => by
      rw [State.dsPort_setDsPort] at hc
      split at hc
      · exact hreq req hc
      · exact h.dsRequests c req hc
    dsReturns := fun c r hc => by
      rw [State.dsPort_setDsPort] at hc
      split at hc
      · exact hrets r hc
      · exact h.dsReturns c r hc }

theorem State.FieldsFit.setReqIn {s : State} (h : s.FieldsFit) {p : Nat} {req : Option Request}
    (hreq : ∀ r, req = some r → RequestFits s.cfg r ∧ fitsBlock s.cfg r = true) :
    ({ s with reqIn := s.reqIn.set p req } : State).FieldsFit :=
  { h with
    requests := fun i r hi => by
      rw [State.reqSlot, getD_set] at hi
      split at hi
      · exact hreq r hi
      · exact h.requests i r hi }

theorem State.FieldsFit.setRetOut {s : State} (h : s.FieldsFit) {p : Nat} {ret : Option Return}
    (hret : ∀ r, ret = some r → ReturnFits s.cfg r) : ({ s with retOut := s.retOut.set p ret } : State).FieldsFit :=
  { h with
    returns := fun i r hi => by
      rw [State.retSlot, getD_set] at hi
      split at hi
      · exact hret r hi
      · exact h.returns i r hi }

/-! ### The moves of the state -/

theorem registerPort_fieldsFit {s : State} (h : s.FieldsFit) (p : Nat) : (registerPort s p).FieldsFit := by
  unfold registerPort
  split
  · exact h
  · exact { h with }

theorem setArb_fieldsFit {s : State} (h : s.FieldsFit) (a : ArbRef) (v : Arb) : (s.setArb a v).FieldsFit := by
  cases a with
  | xreq b => exact { h with }
  | xret p => exact { h with }
  | lfb b => exact h.setBank ((h.bank _).congr rfl rfl rfl)

theorem routePort_fieldsFit {s : State} (h : s.FieldsFit) (p : Nat) : (routePort s p).FieldsFit := by
  rcases routePort_spec s p with he | ⟨g, -, -, he⟩ <;> rw [he]
  · exact { h with }
  · have hunstage : (s.setBank g { s.bank g with rstage := none }).FieldsFit :=
      h.setBank { h.bank g with rstage := fun r hr => by cases hr }
    exact { hunstage.setRetOut (p := p) (ret := (s.bank g).rstage) (h.bank g).rstage with }

/-- Every move of an instruction that the configuration admits keeps the fields in their widths. -/
theorem StateMove.fieldsFit {i : Instr} {s t : State} (hm : StateMove i s t) (hi : i.check s.cfg = none)
    (h : s.FieldsFit) : t.FieldsFit := by
  cases hm with
  | note => exact { h with }
  | store req _ _ _ hfits hw => exact h.setReqIn fun r hr => by cases hr; exact ⟨hw hi, hfits⟩
  | take p => exact h.setRetOut fun r hr => by cases hr
  | receive b r hw =>
    refine h.setDsPort (h.dsRequests b) fun x hx => ?_
    rcases List.mem_append.mp hx with hx | hx
    · exact h.dsReturns b x hx
    · rw [List.mem_singleton.mp hx]; exact hw hi
  | arb a v => exact setArb_fieldsFit h a v
  | register p => exact registerPort_fieldsFit h p
  | advance => exact { h with }
  | pipe b => exact h.setBank (h.bank b).pipelineAdvance
  | handOff b bk hh => exact h.setBank (handOff_fieldsFit hh (h.bank b))
  | accept b g req bk c _ hreq ha =>
    obtain ⟨hfit, hblock⟩ := h.requests g req hreq
    have hbank : (s.setBank b bk).FieldsFit := h.setBank (acceptRequest_fieldsFit ha hfit hblock (h.bank b))
    have hslot := hbank.setReqIn (p := g) (req := none) fun r hr => by cases hr
    exact { hslot with }
  | pop b => exact h.setDsPort (h.dsRequests b) fun x hx => h.dsReturns b x (List.mem_of_mem_tail hx)
  | fill b r bk hf => exact h.setBank (fillBank_fieldsFit hf (h.bank b))
  | issue b j hj =>
    obtain ⟨hreq, hbank⟩ := due_fieldsFit hj (h.bank b)
    have hds : (s.dsWrite b j.request).FieldsFit :=
      h.setDsPort (fun r hr => by cases hr; exact hreq) (h.dsReturns b)
    exact { hds.setBank (b := b) hbank with }
  | ret b => exact h.setBank (returnStep_fieldsFit (h.bank b))
  | route p => exact routePort_fieldsFit h p
  | endFall =>
    exact
      { h with
        dsRequests := fun b req hb => h.dsRequests b req (by simpa using hb)
        dsReturns := fun b r hb => h.dsReturns b r (by simpa using hb) }

theorem exec_fieldsFit {i : Instr} {s t : State} (h : exec i s = .next t) (hi : i.check s.cfg = none)
    (hs : s.FieldsFit) : t.FieldsFit := by
  have hkeep := (exec_stateMoves h).keep (P := fun u => u.cfg = s.cfg ∧ u.FieldsFit)
    (fun u u' hm hu => ⟨hm.cfg.trans hu.1, hm.fieldsFit (hu.1 ▸ hi) hu.2⟩) ⟨rfl, hs⟩
  exact hkeep.2

theorem step_fieldsFit {s t : State} (h : step s = .next t) (hs : s.FieldsFit) : t.FieldsFit := by
  obtain ⟨es, ⟨i, hc, hi⟩ | ⟨b, rfl⟩ | ⟨b, blocked, rfl⟩⟩ := step_next h
  · exact exec_fieldsFit hi hc { hs with }
  · have htaken := hs.setDsPort (b := b) (d := { s.dsPort b with req := none }) (fun _ hr => by cases hr)
      (hs.dsReturns b)
    exact { htaken with }
  · have hblocked := hs.setDsPort (b := b) (d := { s.dsPort b with blocked := blocked }) (hs.dsRequests b)
      (hs.dsReturns b)
    exact { hblocked with }

/-- Settles O55: every move keeps the sizes and, for an admitted instruction, the widths. -/
theorem stepKeepsTheSizes : Obligations.StepKeepsTheSizes :=
  fun _ _ hs h => ⟨⟨step_wellSized h hs, (step_moves h).cfg⟩, step_fieldsFit h⟩

end Sys2Proof.Machine
end

section
/-! PROOFS. The paths of requests and returns stay true (10_state.md R32, R47 item 8; 42_crossbar.md R115, R117,
R118). -/

namespace Sys2Proof.Machine

/-! ### What a valid configuration gives (70_reset_and_hazards.md R192) -/

/-- The ranges of R192 that the sizes of the elements rest on. -/
theorem Config.valid_ranges {cfg : Config} (h : cfg.valid = true) :
    1 ≤ cfg.subqDepth ∧ 1 ≤ cfg.numLfbs ∧ 1 ≤ cfg.numPorts ∧ 1 ≤ cfg.numBanks := by
  simp only [Config.valid, Config.validRanges, Config.validSizes, isPow2, Bool.and_eq_true, decide_eq_true_eq] at h
  omega

/-- BANK_SELECT_MASK selects no offset bit. -/
theorem Config.valid_bankMask {cfg : Config} (h : cfg.valid = true) :
    cfg.bankSelectMask % 2 ^ cfg.offsetBits = 0 := by
  simp only [Config.valid, Config.validBankMask, Bool.and_eq_true, decide_eq_true_eq] at h
  exact h.1.1.2.1.2

/-- `pext` reads the bits that the mask selects only. -/
theorem pext_congr {w a a' m : Nat} (h : ∀ i, m.testBit i = true → a.testBit i = a'.testBit i) :
    pext w a m = pext w a' m := by
  induction w generalizing a a' m with
  | zero => rfl
  | succ w ih =>
    have hrest : pext w (a / 2) (m / 2) = pext w (a' / 2) (m / 2) :=
      ih fun i hi => by simpa [Nat.testBit_div_two] using h (i + 1) (by simpa [Nat.testBit_div_two] using hi)
    simp only [pext, hrest]
    split
    · rename_i hm
      have hbit := h 0 (by simpa [Nat.testBit_zero] using hm)
      simp only [Nat.testBit_zero, decide_eq_decide] at hbit
      omega
    · rfl

/-- A block has the bits of its address from OFFSET_BITS up. -/
theorem block_testBit (cfg : Config) (a : Nat) {i : Nat} (hi : cfg.offsetBits ≤ i) :
    (cfg.block a).testBit i = a.testBit i := by
  have hblock : cfg.block a = 2 ^ cfg.offsetBits * (a / 2 ^ cfg.offsetBits) := by
    have := Nat.div_add_mod a (2 ^ cfg.offsetBits)
    simp only [Config.block, Config.offset]
    omega
  rw [hblock, Nat.testBit_two_pow_mul, decide_eq_true hi, Bool.true_and, Nat.testBit_div_two_pow]
  congr 1
  omega

/-- A block maps to the bank of each of its addresses (20_memory.md R53). -/
theorem bank_block {cfg : Config} (h : cfg.valid = true) (a : Nat) : cfg.bank (cfg.block a) = cfg.bank a := by
  refine pext_congr fun i hi => block_testBit cfg a ?_
  by_contra hc
  have hlow : (cfg.bankSelectMask % 2 ^ cfg.offsetBits).testBit i = true := by
    rw [Nat.testBit_mod_two_pow, decide_eq_true (not_le.mp hc), hi]
    rfl
  rw [Config.valid_bankMask h, Nat.zero_testBit] at hlow
  cases hlow

/-! ### The blocks of a bank -/

theorem Bank.BlocksMapTo.keepsKeys {cfg : Config} {b : Nat} {bk bk' : Bank} (h : bk.BlocksMapTo cfg b)
    (hk : bk.KeepsKeys bk') : bk'.BlocksMapTo cfg b := by
  intro k hlt hl
  obtain ⟨hl', -, hb⟩ := hk.kept k (hk.count ▸ hlt) hl
  rw [hb]
  exact h k (hk.count ▸ hlt) hl'

theorem Bank.BlocksMapTo.served {cfg : Config} {b : Nat} {bk bk' : Bank} {req : Request} {v : Nat}
    (h : bk.BlocksMapTo cfg b) (hs : Served cfg bk bk' req v) (hreq : cfg.bank (cfg.block req.address) = b) :
    bk'.BlocksMapTo cfg b := by
  have hother : ∀ k, k ≠ v → bk.KeptKey bk' k := fun k hk => .of_sameRecord (hs.others k hk)
  rcases hs.keys with hv | ⟨hblk, -⟩
  · exact h.keepsKeys ⟨hs.count, fun k _ => if hkv : k = v then hkv ▸ hv else hother k hkv⟩
  · intro k hlt hl
    by_cases hkv : k = v
    · rw [hkv, hblk]
      exact hreq
    · obtain ⟨hl', -, hb⟩ := hother k hkv hl
      rw [hb]
      exact h k (hs.count ▸ hlt) hl'

/-! ### The sub-requests of a bank -/

/-- The sub-request queue of one LFB as R30 and R32 have it. -/
structure Lfb.SubReqsOk (cfg : Config) (l : Lfb) : Prop where
  depth : l.subq.length ≤ cfg.subqDepth
  each : ∀ sr ∈ l.subq, sr.Ok cfg

theorem Bank.subReqsOk_iff {cfg : Config} {bk : Bank} : bk.SubReqsOk cfg ↔ ∀ l ∈ bk.lfbs, l.SubReqsOk cfg := by
  rw [Bank.forall_lfb]
  exact ⟨fun h k hk => ⟨(h k hk).1, (h k hk).2⟩, fun h k hk => ⟨(h k hk).depth, (h k hk).each⟩⟩

theorem Bank.SubReqsOk.lfb {cfg : Config} {bk : Bank} (h : bk.SubReqsOk cfg) {k : Nat} (hk : k < bk.lfbs.length) :
    (bk.lfb k).SubReqsOk cfg :=
  ⟨(h k hk).1, (h k hk).2⟩

theorem Lfb.SubReqsOk.of_subq {cfg : Config} {l m : Lfb} (h : l.SubReqsOk cfg) (hm : m.subq = l.subq) :
    m.SubReqsOk cfg :=
  ⟨hm ▸ h.depth, hm ▸ h.each⟩

theorem Bank.SubReqsOk.setLfb {cfg : Config} {bk : Bank} (h : bk.SubReqsOk cfg) {k : Nat} {l : Lfb}
    (hl : k < bk.lfbs.length → l.SubReqsOk cfg) : (bk.setLfb k l).SubReqsOk cfg :=
  Bank.subReqsOk_iff.mpr (forall_mem_set (Bank.subReqsOk_iff.mp h) hl)

theorem Bank.SubReqsOk.congr {cfg : Config} {bk bk' : Bank} (h : bk.SubReqsOk cfg) (hl : bk'.lfbs = bk.lfbs) :
    bk'.SubReqsOk cfg :=
  Bank.subReqsOk_iff.mpr (hl ▸ Bank.subReqsOk_iff.mp h)

/-- The sub-request of a stored request (44_bank_accept.md R136; 40_port_contract.md R98). -/
theorem subReqOf_ok {cfg : Config} {req : Request} (hfits : fitsBlock cfg req = true)
    (hp : req.port.toNat < cfg.numPorts) : (subReqOf cfg req).Ok cfg := by
  simp only [fitsBlock, Bool.and_eq_true, decide_eq_true_eq] at hfits
  exact ⟨hfits.1, hfits.2, hp⟩

theorem Lfb.SubReqsOk.append {cfg : Config} {l m : Lfb} (h : l.SubReqsOk cfg) {sr : SubReq} (hsr : sr.Ok cfg)
    (hroom : l.subq.length ≠ cfg.subqDepth) (hm : m.subq = l.subq ++ [sr]) : m.SubReqsOk cfg where
  depth := by
    have := h.depth
    rw [hm, List.length_append, List.length_singleton]
    omega
  each x hx := by
    rw [hm, List.mem_append, List.mem_singleton] at hx
    rcases hx with hx | rfl
    · exact h.each x hx
    · exact hsr

theorem Lfb.SubReqsOk.single {cfg : Config} {m : Lfb} {sr : SubReq} (hsr : sr.Ok cfg) (hroom : 1 ≤ cfg.subqDepth)
    (hm : m.subq = [sr]) : m.SubReqsOk cfg :=
  ⟨by rw [hm]; exact hroom, fun x hx => by rw [hm] at hx; rw [List.mem_singleton.mp hx]; exact hsr⟩

theorem Bank.SubReqsOk.served {cfg : Config} {bk bk' : Bank} {req : Request} {v : Nat} (h : bk.SubReqsOk cfg)
    (hs : Served cfg bk bk' req v) (hroom : 1 ≤ cfg.subqDepth) (hsr : (subReqOf cfg req).Ok cfg) :
    bk'.SubReqsOk cfg := by
  have hv := h.lfb hs.inPool
  have hserved : (bk'.lfb v).SubReqsOk cfg := by
    cases hs.by_ with
    | mergedLoad _ _ hq hl => exact hv.append hsr hq (by rw [hl])
    | hit _ _ _ w _ hl => exact .single hsr hroom (by rw [hl])
    | missed _ _ _ _ hl => exact .single hsr hroom (by rw [hl])
    | mergedStore _ _ _ hl => exact hv.of_subq (by rw [hl])
    | newStore _ _ _ _ hl => exact ⟨by rw [hl]; simp, by rw [hl]; simp⟩
  refine Bank.subReqsOk_iff.mpr (Bank.forall_lfb.mpr fun k hk => ?_)
  by_cases hkv : k = v
  · exact hkv ▸ hserved
  · exact (h.lfb (hs.count ▸ hk)).of_subq (hs.others k hkv).subq

theorem pipelineAdvance_subReqsOk {cfg : Config} {bk : Bank} (h : bk.SubReqsOk cfg) :
    (pipelineAdvance bk).SubReqsOk cfg :=
  Bank.subReqsOk_iff.mpr (Bank.forall_lfb.mpr fun k hk => by
    rw [pipelineAdvance_lfb]
    exact (h.lfb (by simpa using hk)).of_subq (by simp))

theorem fillBank_subReqsOk {cfg : Config} {b : Nat} {bk bk' : Bank} {r : Return}
    (hf : fillBank cfg b bk r = .ok bk') (h : bk.SubReqsOk cfg) : bk'.SubReqsOk cfg := by
  obtain ⟨-, k, -, -, rfl⟩ := fillBank_ok hf
  have hins : (insertLine cfg bk (bk.lfb k).blockAddress
      (overlay cfg.blockSize r.payload 0 (bk.lfb k).byteWriteMask (bk.lfb k).data)).SubReqsOk cfg := h.congr rfl
  exact hins.setLfb fun hk => (h.lfb hk).of_subq rfl

theorem due_subReqsOk {cfg : Config} {b : Nat} {bk : Bank} {i : Issue} (hi : due cfg b bk = some i)
    (h : bk.SubReqsOk cfg) : i.bank.SubReqsOk cfg := by
  rcases due_eq_some.mp hi with hi | ⟨-, hi⟩
  · obtain ⟨k, rest, -, rfl⟩ := dueFetch_eq_some.mp hi
    exact h.congr rfl
  · obtain ⟨k, st, -, -, rfl⟩ := dueDrain_eq_some.mp hi
    show (drainTo cfg b bk k _).SubReqsOk cfg
    rcases drainTo_spec cfg b bk k _ with ⟨-, he⟩ | ⟨-, he⟩ <;> rw [he]
    · have hend := h.setLfb (k := k) (l := drainedLfb cfg b bk.freeCount (bk.lfb k)) fun hk => (h.lfb hk).of_subq rfl
      exact hend.congr rfl
    · exact h.setLfb fun hk => (h.lfb hk).of_subq rfl

theorem returnStep_subReqsOk {cfg : Config} {bk : Bank} (h : bk.SubReqsOk cfg) : (returnStep cfg bk).SubReqsOk cfg := by
  rcases returnStep_spec cfg bk with he | ⟨k, sr, rest, -, -, -, he⟩ <;> rw [he]
  · exact h.congr rfl
  · have hpop := h.setLfb (k := k) (l := (bk.lfb k).popSubReq) fun hk =>
      ⟨le_trans (by simp [Lfb.popSubReq]) (h.lfb hk).depth,
        fun x hx => (h.lfb hk).each x (List.mem_of_mem_tail hx)⟩
    exact hpop.congr rfl

/-! ### The return stages -/

theorem State.stagedFor_iff {s : State} {p b : Nat} :
    s.stagedFor p b = true ↔ ∃ r, (s.bank b).rstage = some r ∧ r.port.toNat = p := by
  unfold State.stagedFor
  split
  · rename_i r hr; simp [hr]
  · rename_i hn; simp [hn]

/-- A bank stages a return for one port. -/
theorem State.stagedFor_port {s : State} {p q b : Nat} (hp : s.stagedFor p b = true) (hq : s.stagedFor q b = true) :
    p = q := by
  obtain ⟨r, hr, rfl⟩ := State.stagedFor_iff.mp hp
  obtain ⟨r', hr', rfl⟩ := State.stagedFor_iff.mp hq
  rw [hr] at hr'
  cases hr'
  rfl

/-- The return step fills an empty stage only (46_bank_issue.md R161). -/
theorem returnStep_keeps_rstage (cfg : Config) (bk : Bank) {r : Return} (hr : bk.rstage = some r) :
    (returnStep cfg bk).rstage = some r := by
  rcases returnStep_spec cfg bk with he | ⟨k, sr, rest, hn, -, -, -⟩
  · rw [he]; exact hr
  · rw [hn] at hr; cases hr

theorem due_rstage {cfg : Config} {b : Nat} {bk : Bank} {i : Issue} (hi : due cfg b bk = some i) :
    i.bank.rstage = bk.rstage := by
  rcases due_eq_some.mp hi with hi | ⟨-, hi⟩
  · obtain ⟨k, rest, -, rfl⟩ := dueFetch_eq_some.mp hi
    rfl
  · obtain ⟨k, st, -, -, rfl⟩ := dueDrain_eq_some.mp hi
    show (drainTo cfg b bk k _).rstage = bk.rstage
    rcases drainTo_spec cfg b bk k _ with ⟨-, he⟩ | ⟨-, he⟩ <;> rw [he] <;> rfl

theorem fillBank_rstage {cfg : Config} {b : Nat} {bk bk' : Bank} {r : Return} (hf : fillBank cfg b bk r = .ok bk') :
    bk'.rstage = bk.rstage := by
  obtain ⟨-, k, -, -, rfl⟩ := fillBank_ok hf
  rfl

/-! ### One rule per write to the state -/

/-- What `RoutesOk` says of bank `b`. -/
structure Bank.Routed (cfg : Config) (b : Nat) (bk : Bank) : Prop where
  blocks : bk.BlocksMapTo cfg b
  subReqs : bk.SubReqsOk cfg

theorem State.RoutesOk.bank {s : State} (h : s.RoutesOk) {b : Nat} (hb : b < s.banks.length) :
    (s.bank b).Routed s.cfg b :=
  ⟨h.blocks b hb, h.subReqs b hb⟩

/-- A bank written, with its own index, leaves every bank routed. -/
theorem State.RoutesOk.setBank_routed {s : State} (h : s.RoutesOk) {b : Nat} {bk : Bank}
    (hb : b < s.banks.length → bk.Routed s.cfg b) {c : Nat} (hc : c < (s.setBank b bk).banks.length) :
    ((s.setBank b bk).bank c).Routed s.cfg c := by
  have hlt : c < s.banks.length := by simpa using hc
  rw [State.bank_setBank]
  split
  · rename_i hbc
    obtain ⟨rfl, -⟩ := hbc
    exact hb hlt
  · exact h.bank hlt

/-- A bank written that keeps what it has staged. -/
theorem State.RoutesOk.setBank {s : State} (h : s.RoutesOk) {b : Nat} {bk : Bank}
    (hb : b < s.banks.length → bk.Routed s.cfg b)
    (hstage : ∀ r, (s.bank b).rstage = some r → bk.rstage = some r) : (s.setBank b bk).RoutesOk :=
  { h with
    blocks := fun _ hc => (h.setBank_routed hb hc).blocks
    subReqs := fun _ hc => (h.setBank_routed hb hc).subReqs
    staged := fun p hp c hbit => by
      obtain ⟨r, hr, hport⟩ := State.stagedFor_iff.mp (h.staged p hp c hbit)
      refine State.stagedFor_iff.mpr ⟨r, ?_, hport⟩
      rw [State.bank_setBank]
      split
      · rename_i hbc
        obtain ⟨rfl, -⟩ := hbc
        exact hstage r hr
      · exact hr }

/-! ### The request side -/

/-- A granted port is registered, and the arbitrator exists (42_crossbar.md R116). -/
theorem granted_registered {s : State} {b g : Nat} (hg : (s.xreq b).current = some g) :
    b < s.xreqArb.length ∧ (s.xreq b).mask.testBit g = true := by
  obtain ⟨-, hbit⟩ := Arb.current_eq_some.mp hg
  refine ⟨?_, hbit⟩
  by_contra hc
  rw [State.xreq, List.getD_eq_default _ _ (not_lt.mp hc)] at hbit
  simp [Arb.reset] at hbit

/-- A stored request passed its checks, and no port registers an empty slot (40_port_contract.md R98). -/
theorem storeMove_routesOk {s : State} (h : s.RoutesOk) {req : Request} (hslot : s.reqSlot req.port.toNat = none)
    (ht : req.type = .load ∨ req.type = .store) (hfits : fitsBlock s.cfg req = true) :
    ({ s with reqIn := s.reqIn.set req.port.toNat (some req) } : State).RoutesOk :=
  { h with
    stored := fun i r hr => by
      rw [State.reqSlot, getD_set] at hr
      split at hr
      · rename_i hi
        cases hr
        exact ⟨hi.1, ht, hfits⟩
      · exact h.stored i r hr
    registered := fun b hb i hbit => by
      obtain ⟨r, hr, hbank⟩ := h.registered b hb i hbit
      have hi : req.port.toNat ≠ i := fun he => by
        rw [he, hr] at hslot
        cases hslot
      exact ⟨r, by rw [State.reqSlot, getD_set, if_neg fun hc => hi hc.1]; exact hr, hbank⟩ }

/-- A port registers with the arbitrator of its request's bank (42_crossbar.md R115). -/
theorem registerPort_routesOk {s : State} (h : s.RoutesOk) (p : Nat) : (registerPort s p).RoutesOk := by
  unfold registerPort
  split
  · exact h
  · rename_i req hreq
    exact
      { h with
        registered := fun b hb i hbit => by
          rw [State.xreq, getD_set] at hbit
          split at hbit
          · rename_i hbank
            rw [Arb.add_mask_testBit, Bool.or_eq_true, decide_eq_true_eq] at hbit
            rcases hbit with hbit | rfl
            · exact h.registered b (by simpa using hb) i (hbank.1 ▸ hbit)
            · exact ⟨req, hreq, hbank.1⟩
          · exact h.registered b (by simpa using hb) i hbit }

/-- An advance registers and deregisters nothing (R108). -/
theorem advanceRequests_routesOk {s : State} (h : s.RoutesOk) :
    ({ s with xreqArb := s.xreqArb.map (Arb.advance s.cfg.numPorts) } : State).RoutesOk :=
  { h with
    registered := fun b hb i hbit => by
      have hlt : b < s.xreqArb.length := by simpa using hb
      refine h.registered b hlt i ?_
      simpa [State.xreq, hlt] using hbit }

/-- The granted request is of the bank that accepts it, so its slot may be emptied once the bank alone deregisters it
(42_crossbar.md R117). -/
theorem acceptMove_routesOk {s : State} (hv : s.cfg.valid = true) (hs : s.WellSized) (h : s.RoutesOk) {b g : Nat}
    {req : Request} {bk : Bank} {c : Option Counter} (hg : (s.xreq b).current = some g)
    (hreq : s.reqSlot g = some req) (ha : acceptRequest s.cfg b (s.bank b) req = .accepted bk c) :
    ({ s.setBank b bk with
      reqIn := s.reqIn.set g none
      xreqArb := s.xreqArb.set b ((s.xreq b).remove g) } : State).RoutesOk := by
  obtain ⟨hlt, hbit⟩ := granted_registered hg
  have howner : ∀ d < s.xreqArb.length, (s.xreq d).mask.testBit g = true → s.cfg.bank req.address = d := by
    intro d hd hbit
    obtain ⟨r, hr, hbank⟩ := h.registered d hd g hbit
    rw [hreq] at hr
    cases hr
    exact hbank
  have hbank : (s.setBank b bk).RoutesOk := by
    rcases acceptRequest_served ha with ⟨-, -, rfl, -⟩ | ⟨v, hserved⟩
    · rw [State.setBank_self]; exact h
    · obtain ⟨hport, -, hfits⟩ := h.stored g req hreq
      have hsr : (subReqOf s.cfg req).Ok s.cfg := subReqOf_ok hfits (hport ▸ hs.lt_of_reqSlot hreq)
      refine h.setBank (fun hb => ⟨?_, ?_⟩) fun r hr => hserved.rstage ▸ hr
      · exact (h.blocks b hb).served hserved ((bank_block hv _).trans (howner b hlt hbit))
      · exact (h.subReqs b hb).served hserved (Config.valid_ranges hv).1 hsr
  exact
    { hbank with
      stored := fun i r hr => by
        rw [State.reqSlot, getD_set] at hr
        split at hr
        · cases hr
        · exact h.stored i r hr
      registered := fun d hd i hi => by
        have hd' : d < s.xreqArb.length := by simpa using hd
        -- the bit is an old one, and not that of the slot that is emptied
        have hold : (s.xreq d).mask.testBit i = true ∧ i ≠ g := by
          rw [State.xreq, getD_set] at hi
          split at hi
          · rename_i hbd
            rw [Arb.remove_mask_testBit, Bool.and_eq_true, Bool.not_eq_true', decide_eq_false_iff_not] at hi
            exact ⟨hbd.1 ▸ hi.1, Ne.symm hi.2⟩
          · rename_i hbd
            refine ⟨hi, fun he => hbd ⟨?_, hd'⟩⟩
            exact (howner b hlt hbit).symm.trans (howner d hd' (he ▸ hi))
        obtain ⟨r, hr, hrb⟩ := h.registered d hd' i hold.1
        exact ⟨r, by rw [State.reqSlot, getD_set, if_neg fun hc => hold.2 hc.1.symm]; exact hr, hrb⟩ }

/-! ### The return side -/

/-- A bank that `XRET_ARB[p]` offers stages a return for `p` (42_crossbar.md R118). -/
theorem registerStages_staged {s : State} (h : s.RoutesOk) {p : Nat} (hp : p < s.xretArb.length) {b : Nat}
    (hbit : (registerStages s p).mask.testBit b = true) : s.stagedFor p b = true := by
  obtain ⟨m, hm, he⟩ := registerStages_spec s p
  rw [he, Arb.advance_mask, hm, Bool.or_eq_true, Bool.and_eq_true] at hbit
  rcases hbit with hbit | ⟨-, hbit⟩
  · exact h.staged p hp b hbit
  · exact hbit

/-- `RoutesOk` after the arbitrator of port `p` registers. -/
theorem registerMove_routesOk {s : State} (h : s.RoutesOk) (p : Nat) :
    ({ s with xretArb := s.xretArb.set p (registerStages s p) } : State).RoutesOk :=
  { h with
    staged := fun q hq b hbit => by
      have hq' : q < s.xretArb.length := by simpa using hq
      rw [State.xret, getD_set] at hbit
      split at hbit
      · rename_i hpq
        obtain ⟨rfl, -⟩ := hpq
        exact registerStages_staged h hq' hbit
      · exact h.staged q hq' b hbit }

/-- The granted bank's return goes to its own port, and no other port has that bank registered (R118). -/
theorem deliverMove_routesOk {s : State} (h : s.RoutesOk) {p g : Nat} (hp : p < s.xretArb.length)
    (hg : (registerStages s p).current = some g) :
    ({ s.setBank g { s.bank g with rstage := none } with
      retOut := s.retOut.set p (s.bank g).rstage
      xretArb := s.xretArb.set p ((registerStages s p).remove g) } : State).RoutesOk := by
  obtain ⟨-, hbit⟩ := Arb.current_eq_some.mp hg
  have hstaged : s.stagedFor p g = true := registerStages_staged h hp hbit
  have hrouted : ∀ c < (s.setBank g { s.bank g with rstage := none }).banks.length,
      ((s.setBank g { s.bank g with rstage := none }).bank c).Routed s.cfg c := fun c hc =>
    h.setBank_routed (bk := { s.bank g with rstage := none })
      (fun hlt => ⟨(h.blocks g hlt).keepsKeys (.of_lfbs rfl), (h.subReqs g hlt).congr rfl⟩) hc
  exact
    { h with
      blocks := fun c hc => (hrouted c hc).blocks
      subReqs := fun c hc => (hrouted c hc).subReqs
      staged := fun q hq b hb => by
        have hq' : q < s.xretArb.length := by simpa using hq
        -- the bank is staged for `q` and is not the one whose stage is emptied
        have hold : s.stagedFor q b = true ∧ b ≠ g := by
          rw [State.xret, getD_set] at hb
          split at hb
          · rename_i hpq
            rw [Arb.remove_mask_testBit, Bool.and_eq_true, Bool.not_eq_true', decide_eq_false_iff_not] at hb
            obtain ⟨rfl, -⟩ := hpq
            exact ⟨registerStages_staged h hq' hb.1, Ne.symm hb.2⟩
          · rename_i hpq
            have hsb := h.staged q hq' b hb
            exact ⟨hsb, fun he => hpq ⟨State.stagedFor_port hstaged (he ▸ hsb), hq'⟩⟩
        obtain ⟨r, hr, hport⟩ := State.stagedFor_iff.mp hold.1
        refine State.stagedFor_iff.mpr ⟨r, ?_, hport⟩
        exact (congrArg Bank.rstage (s.bank_setBank_ne _ (Ne.symm hold.2))).trans hr
      delivered := fun q r hr => by
        rw [State.retSlot, getD_set] at hr
        split at hr
        · rename_i hpq
          obtain ⟨r', hr', hport⟩ := State.stagedFor_iff.mp hstaged
          rw [hr] at hr'
          cases hr'
          exact hport.trans hpq.1
        · exact h.delivered q r hr }

theorem routePort_routesOk {s : State} (h : s.RoutesOk) {p : Nat} (hp : p < s.xretArb.length) :
    (routePort s p).RoutesOk := by
  rcases routePort_spec s p with he | ⟨g, -, hg, he⟩ <;> rw [he]
  · exact registerMove_routesOk h p
  · exact deliverMove_routesOk h hp hg

theorem takeMove_routesOk {s : State} (h : s.RoutesOk) (p : Nat) :
    ({ s with retOut := s.retOut.set p none } : State).RoutesOk :=
  { h with
    delivered := fun q r hr => by
      rw [State.retSlot, getD_set] at hr
      split at hr
      · cases hr
      · exact h.delivered q r hr }

/-- Every move but that of an arbitrator operation keeps the paths. -/
theorem StateMove.routesOk {i : Instr} {s t : State} (hm : StateMove i s t) (hi : isArbOp i = false)
    (hv : s.cfg.valid = true) (hs : s.WellSized) (h : s.RoutesOk) : t.RoutesOk := by
  cases hm with
  | note => exact { h with }
  | store req _ hslot ht hfits => exact storeMove_routesOk h hslot ht hfits
  | take p => exact takeMove_routesOk h p
  | receive b r => exact { h with }
  | arb a v ha => rw [hi] at ha; cases ha
  | register p => exact registerPort_routesOk h p
  | advance => exact advanceRequests_routesOk h
  | pipe b =>
    exact h.setBank (fun hb => ⟨(h.blocks b hb).keepsKeys (pipelineAdvance_keepsKeys _),
      pipelineAdvance_subReqsOk (h.subReqs b hb)⟩) fun _ hr => hr
  | handOff b bk hh =>
    obtain ⟨k, rest, -, -, rfl⟩ := handOff_eq_some hh
    exact h.setBank (fun hb => ⟨(h.blocks b hb).keepsKeys (.of_lfbs rfl), (h.subReqs b hb).congr rfl⟩) fun _ hr => hr
  | accept b g req bk c hg hreq ha => exact acceptMove_routesOk hv hs h hg hreq ha
  | pop b => exact { h with }
  | fill b r bk hf =>
    exact h.setBank (fun hb => ⟨(h.blocks b hb).keepsKeys (fillBank_keepsKeys hf),
      fillBank_subReqsOk hf (h.subReqs b hb)⟩) fun _ hr => (fillBank_rstage hf).trans hr
  | issue b j hj =>
    have hbank := h.setBank (fun hb => ⟨(h.blocks b hb).keepsKeys (due_keepsKeys hj),
      due_subReqsOk hj (h.subReqs b hb)⟩) fun _ hr => (due_rstage hj).trans hr
    exact { hbank with }
  | ret b =>
    exact h.setBank (fun hb => ⟨(h.blocks b hb).keepsKeys (returnStep_keepsKeys (hs.bank hb)),
      returnStep_subReqsOk (h.subReqs b hb)⟩) fun _ hr => returnStep_keeps_rstage s.cfg _ hr
  | route p hp => exact routePort_routesOk h (by rw [hs.xretCount]; exact hp)
  | endFall => exact { h with }

/-- Settles O60: every move of such an instruction keeps the paths, on a state of the right sizes. -/
theorem instructionsKeepTheRoutes : Obligations.InstructionsKeepTheRoutes := by
  intro i s t hi hv hs h hstep
  have hkeep := (exec_stateMoves hstep).keep (P := fun u => u.cfg.valid = true ∧ u.WellSized ∧ u.RoutesOk)
    (fun u u' hm hu => ⟨hm.cfg ▸ hu.1, hm.wellSized hu.2.1, hm.routesOk hi hu.1 hu.2.1 hu.2.2⟩) ⟨hv, hs, h⟩
  exact hkeep.2.2

end Sys2Proof.Machine
end

section
/-! PROOFS. Construction meets every invariant (10_state.md R46 to R48; 70_reset_and_hazards.md R193). -/

namespace Sys2Proof.Machine

theorem Arb.reset_fits {w : Nat} (h : 1 ≤ w) : (Arb.reset w).Fits w :=
  ⟨by simp [Arb.reset], by simp only [Arb.reset]; omega⟩

/-! ### A bank at reset -/

@[simp] theorem Bank.reset_length (cfg : Config) : (Bank.reset cfg).lfbs.length = cfg.numLfbs := by
  simp [Bank.reset]

/-- An LFB of a bank at reset. -/
theorem Bank.reset_lfb {cfg : Config} {k : Nat} (hk : k < (Bank.reset cfg).lfbs.length) :
    (Bank.reset cfg).lfb k = Lfb.reset cfg k := by
  rw [Bank.reset_length] at hk
  simp [Bank.lfb, Bank.reset, hk]

/-- No LFB is live at reset (10_state.md R48). -/
theorem Bank.reset_not_live {cfg : Config} {k : Nat} (hk : k < (Bank.reset cfg).lfbs.length) :
    ((Bank.reset cfg).lfb k).live ≠ true := by
  rw [Bank.reset_lfb hk]
  simp [Lfb.live, Lfb.reset]

/-- The ways of a set at reset. -/
theorem Bank.reset_ways {cfg : Config} {ways : List TagEntry} (h : ways ∈ (Bank.reset cfg).tags) :
    ways = (List.range cfg.assoc).map TagEntry.reset :=
  List.eq_of_mem_replicate h

theorem Bank.reset_wellSized {cfg : Config} (h : 1 ≤ cfg.numLfbs) : (Bank.reset cfg).WellSized cfg where
  lfbs := Bank.reset_length cfg
  lfbData := Bank.forall_lfb.mpr fun k hk => by rw [Bank.reset_lfb hk]; simp [Lfb.reset]
  lfbArb := Arb.reset_fits h
  tags := List.length_replicate
  ways ways hw := by rw [Bank.reset_ways hw]; simp
  data := List.length_replicate
  lines lines hl := by rw [List.eq_of_mem_replicate hl]; simp
  bytes lines hl line hline := by
    rw [List.eq_of_mem_replicate hl] at hline
    rw [List.eq_of_mem_replicate hline]
    simp

theorem Bank.reset_fieldsFit (cfg : Config) : (Bank.reset cfg).FieldsFit cfg where
  lfbs := Bank.forall_lfb.mpr fun k hk => by
    rw [Bank.reset_lfb hk]
    exact ⟨by simp [Lfb.reset], by simp [Lfb.reset, Config.offset], by simp [Lfb.reset]⟩
  rstage r hr := by cases hr
  tags ways hw e he := by
    rw [Bank.reset_ways hw] at he
    obtain ⟨w, -, rfl⟩ := List.mem_map.mp he
    simp [TagEntry.reset]

theorem Bank.reset_atMostOneLfb (cfg : Config) : (Bank.reset cfg).AtMostOneLfb :=
  fun _ _ hj _ hl => absurd hl (Bank.reset_not_live hj)

theorem Bank.reset_poolOk (cfg : Config) : (Bank.reset cfg).PoolOk cfg where
  lifecycle k hk := by
    rw [Bank.reset_lfb hk]
    constructor <;> simp [Lfb.reset]
  combining k hk hl := absurd hl (Bank.reset_not_live hk)
  writeBacks := by simp [Bank.reset]
  active k hk := by cases hk
  misses := by simp [Bank.reset]

theorem Bank.reset_agesOk (cfg : Config) : (Bank.reset cfg).AgesOk where
  pool := by
    have hages : (Bank.reset cfg).lfbs.map Lfb.lru = List.range cfg.numLfbs := by
      simp [Bank.reset, Lfb.reset, Function.comp_def]
    rw [IsAges, hages, List.length_range]
  sets ways hw := by
    have hages : ways.map TagEntry.lru = List.range cfg.assoc := by
      rw [Bank.reset_ways hw]
      simp [TagEntry.reset, Function.comp_def]
    rw [IsAges, hages, List.length_range]

theorem Bank.reset_tagsUnique (cfg : Config) : (Bank.reset cfg).TagsUnique := by
  intro ways hw
  rw [uniqueTags_iff, Bank.reset_ways hw]
  intro i j hi hj hv
  simp [TagEntry.reset] at hv

theorem Bank.reset_routed (cfg : Config) (b : Nat) : (Bank.reset cfg).Routed cfg b where
  blocks k hk hl := absurd hl (Bank.reset_not_live hk)
  subReqs k hk := by rw [Bank.reset_lfb hk]; simp [Lfb.reset]

/-! ### The state after construction -/

/-- An array whose elements are all the default reads the default everywhere. -/
theorem getD_replicate_default {α : Type} (n : Nat) (a : α) (i : Nat) : (List.replicate n a).getD i a = a := by
  rcases getD_default_or_mem (List.replicate n a) i a with h | h
  · exact h
  · exact List.eq_of_mem_replicate h

theorem State.construct_bank {cfg : Config} {b : Nat} (hb : b < cfg.numBanks) :
    (State.construct cfg).bank b = Bank.reset cfg :=
  List.getD_replicate _ hb

theorem State.construct_reqSlot (cfg : Config) (p : Nat) : (State.construct cfg).reqSlot p = none :=
  getD_replicate_default _ _ _

theorem State.construct_retSlot (cfg : Config) (p : Nat) : (State.construct cfg).retSlot p = none :=
  getD_replicate_default _ _ _

theorem State.construct_dsPort (cfg : Config) (b : Nat) : (State.construct cfg).dsPort b = DsPort.reset :=
  getD_replicate_default _ _ _

theorem State.construct_xreq (cfg : Config) (b : Nat) : (State.construct cfg).xreq b = Arb.reset cfg.numPorts :=
  getD_replicate_default _ _ _

theorem State.construct_xret (cfg : Config) (p : Nat) : (State.construct cfg).xret p = Arb.reset cfg.numBanks :=
  getD_replicate_default _ _ _

theorem State.construct_wellSized {cfg : Config} (h : cfg.valid = true) : (State.construct cfg).WellSized := by
  obtain ⟨-, hlfbs, hports, hbanks⟩ := Config.valid_ranges h
  exact
    { reqIn := List.length_replicate
      retOut := List.length_replicate
      xreqCount := List.length_replicate
      xreqArb := fun a ha => List.eq_of_mem_replicate ha ▸ Arb.reset_fits hports
      xretCount := List.length_replicate
      xretArb := fun a ha => List.eq_of_mem_replicate ha ▸ Arb.reset_fits hbanks
      bankCount := List.length_replicate
      banks := fun bk hb => List.eq_of_mem_replicate hb ▸ Bank.reset_wellSized hlfbs
      ds := List.length_replicate }

theorem State.construct_fieldsFit (cfg : Config) : (State.construct cfg).FieldsFit where
  requests i req h := by rw [State.construct_reqSlot] at h; cases h
  returns p r h := by rw [State.construct_retSlot] at h; cases h
  banks bk hb := List.eq_of_mem_replicate hb ▸ Bank.reset_fieldsFit cfg
  dsRequests b req h := by rw [State.construct_dsPort] at h; cases h
  dsReturns b r h := by rw [State.construct_dsPort] at h; cases h

theorem State.construct_routesOk (cfg : Config) : (State.construct cfg).RoutesOk := by
  have hrouted : ∀ b < (State.construct cfg).banks.length, ((State.construct cfg).bank b).Routed cfg b := by
    intro b hb
    rw [State.construct_bank (by simpa [State.construct] using hb)]
    exact Bank.reset_routed cfg b
  exact
    { stored := fun i req h => by rw [State.construct_reqSlot] at h; cases h
      registered := fun b _ i h => by rw [State.construct_xreq] at h; simp [Arb.reset] at h
      blocks := fun b hb => (hrouted b hb).blocks
      subReqs := fun b hb => (hrouted b hb).subReqs
      staged := fun p _ b h => by rw [State.construct_xret] at h; simp [Arb.reset] at h
      delivered := fun p r h => by rw [State.construct_retSlot] at h; cases h }

/-- Construction from a valid configuration meets every invariant. -/
theorem State.construct_invariants {cfg : Config} (h : cfg.valid = true) :
    (State.construct cfg).WellSized ∧ (State.construct cfg).FieldsFit ∧ (State.construct cfg).RoutesOk ∧
      ∀ b < cfg.numBanks, ((State.construct cfg).bank b).AtMostOneLfb ∧ ((State.construct cfg).bank b).PoolOk cfg ∧
        ((State.construct cfg).bank b).AgesOk ∧ ((State.construct cfg).bank b).TagsUnique := by
  refine ⟨State.construct_wellSized h, State.construct_fieldsFit cfg, State.construct_routesOk cfg, fun b hb => ?_⟩
  rw [State.construct_bank hb]
  exact ⟨Bank.reset_atMostOneLfb cfg, Bank.reset_poolOk cfg, Bank.reset_agesOk cfg, Bank.reset_tagsUnique cfg⟩

theorem Config.reference_valid : Config.reference.valid = true := by decide

/-- Settles O54: the reset state is the construction from the reference configuration. -/
theorem constructionMeetsTheInvariants : Obligations.ConstructionMeetsTheInvariants :=
  ⟨fun _ h => State.construct_invariants h, State.construct_invariants Config.reference_valid⟩

end Sys2Proof.Machine
end

section
/-! PROOFS. The address fields: the bank, the set and the tag that every address shares with its block
(20_memory.md R51, R53 to R57). -/

namespace Sys2Proof.Machine

/-! ### Counting and extracting bits (00_scope.md R12, R13) -/

@[simp] theorem popcount_zero (w : Nat) : popcount w 0 = 0 := by
  induction w with
  | zero => rfl
  | succ w ih => simp [popcount, ih]

theorem popcount_two_pow_le (w q : Nat) : popcount w (2 ^ q) ≤ 1 := by
  induction w generalizing q with
  | zero => simp [popcount]
  | succ w ih =>
    cases q with
    | zero => simp [popcount]
    | succ q => simpa [popcount, Nat.pow_succ] using ih q

theorem popcount_or_le (w m n : Nat) : popcount w (m ||| n) ≤ popcount w m + popcount w n := by
  induction w generalizing m n with
  | zero => simp [popcount]
  | succ w ih =>
    have hlow : (m ||| n) % 2 ≤ m % 2 + n % 2 := by
      have := Nat.or_mod_two_eq_one (a := m) (b := n)
      omega
    have hrest := ih (m / 2) (n / 2)
    simp only [popcount, Nat.or_div_two]
    omega

/-- `pext` gathers as many bits as the mask has. -/
theorem pext_lt (w a m : Nat) : pext w a m < 2 ^ popcount w m := by
  induction w generalizing a m with
  | zero => simp [pext, popcount]
  | succ w ih =>
    have hrest := ih (a / 2) (m / 2)
    rcases Nat.mod_two_eq_zero_or_one m with hm | hm
    · simpa [pext, popcount, hm] using hrest
    · simp only [pext, popcount, hm, if_true, Nat.pow_add]
      omega

theorem eq_two_pow_log2 {n : Nat} (h : isPow2 n = true) : n = 2 ^ Nat.log2 n := by
  simp only [isPow2, Bool.and_eq_true, decide_eq_true_eq] at h
  exact h.2.symm

/-! ### SET_SELECT_MASK (20_memory.md R54) -/

/-- The positions that the loop of R54 takes are from `q` up. -/
theorem two_pow_dvd_freePositions (bankMask fuel q need : Nat) :
    2 ^ q ∣ Config.freePositions bankMask fuel q need := by
  induction fuel generalizing q need with
  | zero => simp [Config.freePositions]
  | succ fuel ih =>
    have hup : ∀ need, 2 ^ q ∣ Config.freePositions bankMask fuel (q + 1) need := fun need =>
      (Nat.pow_dvd_pow 2 (Nat.le_succ q)).trans (ih (q + 1) need)
    cases need with
    | zero => simp [Config.freePositions]
    | succ need =>
      rw [Config.freePositions]
      split
      · exact hup _
      · exact Nat.dvd_add (dvd_refl _) (hup _)

/-- The loop of R54 takes at most as many positions as it needs. -/
theorem popcount_freePositions_le (w bankMask fuel q need : Nat) :
    popcount w (Config.freePositions bankMask fuel q need) ≤ need := by
  induction fuel generalizing q need with
  | zero => simp [Config.freePositions]
  | succ fuel ih =>
    cases need with
    | zero => simp [Config.freePositions]
    | succ need =>
      rw [Config.freePositions]
      split
      · exact ih _ _
      · obtain ⟨r, hr⟩ := two_pow_dvd_freePositions bankMask fuel (q + 1) need
        have hor : 2 ^ q + Config.freePositions bankMask fuel (q + 1) need =
            Config.freePositions bankMask fuel (q + 1) need ||| 2 ^ q := by
          rw [hr, ← Nat.two_pow_add_eq_or_of_lt (Nat.pow_lt_pow_right (by decide) (Nat.lt_succ_self q)), Nat.add_comm]
        rw [hor]
        calc popcount w (Config.freePositions bankMask fuel (q + 1) need ||| 2 ^ q)
            ≤ popcount w (Config.freePositions bankMask fuel (q + 1) need) + popcount w (2 ^ q) :=
              popcount_or_le _ _ _
          _ ≤ need + 1 := Nat.add_le_add (ih _ _) (popcount_two_pow_le _ _)

/-- SET_SELECT_MASK selects no offset bit. -/
theorem setSelectMask_mod (cfg : Config) : cfg.setSelectMask % 2 ^ cfg.offsetBits = 0 :=
  Nat.mod_eq_zero_of_dvd (two_pow_dvd_freePositions _ _ _ _)

/-! ### The fields -/

theorem block_eq (cfg : Config) (a : Nat) : cfg.block a = 2 ^ cfg.offsetBits * (a / 2 ^ cfg.offsetBits) := by
  have := Nat.div_add_mod a (2 ^ cfg.offsetBits)
  simp only [Config.block, Config.offset]
  omega

/-- A mask that selects no offset bit extracts the same from an address and from its block. -/
theorem pext_block {cfg : Config} {m : Nat} (hm : m % 2 ^ cfg.offsetBits = 0) (w a : Nat) :
    pext w (cfg.block a) m = pext w a m := by
  refine pext_congr fun i hi => block_testBit cfg a ?_
  by_contra hc
  have hlow : (m % 2 ^ cfg.offsetBits).testBit i = true := by
    rw [Nat.testBit_mod_two_pow, decide_eq_true (not_le.mp hc), hi]
    rfl
  rw [hm, Nat.zero_testBit] at hlow
  cases hlow

@[simp] theorem set_block (cfg : Config) (a : Nat) : cfg.set (cfg.block a) = cfg.set a :=
  pext_block (setSelectMask_mod cfg) _ _

@[simp] theorem tag_block (cfg : Config) (a : Nat) : cfg.tag (cfg.block a) = cfg.tag a := by
  apply Nat.eq_of_testBit_eq
  intro i
  simp only [Config.tag, Nat.testBit_div_two_pow, Nat.testBit_mod_two_pow]
  rw [block_testBit cfg a (Nat.le_add_left _ _)]

/-- The bank number is in range (R53). -/
theorem bank_lt {cfg : Config} (h : cfg.valid = true) (a : Nat) : cfg.bank a < cfg.numBanks := by
  simp only [Config.valid, Config.validBankMask, Config.validSizes, Bool.and_eq_true, decide_eq_true_eq] at h
  obtain ⟨⟨⟨⟨⟨-, ⟨-, hbanks⟩, -⟩, -⟩, ⟨hcount, -⟩, -⟩, -⟩, -⟩ := h
  calc cfg.bank a < 2 ^ popcount cfg.addrWidth cfg.bankSelectMask := pext_lt _ _ _
    _ = cfg.numBanks := by rw [hcount]; exact (eq_two_pow_log2 hbanks).symm

/-- The set number is in range (R54). -/
theorem set_lt {cfg : Config} (h : cfg.valid = true) (a : Nat) : cfg.set a < cfg.setsPerBank := by
  simp only [Config.valid, Config.validSets, Bool.and_eq_true] at h
  obtain ⟨⟨⟨⟨-, -, hsets⟩, -⟩, -⟩, -⟩ := h
  calc cfg.set a < 2 ^ popcount cfg.addrWidth cfg.setSelectMask := pext_lt _ _ _
    _ ≤ 2 ^ cfg.setBits := Nat.pow_le_pow_right (by decide) (popcount_freePositions_le _ _ _ _ _)
    _ = cfg.setsPerBank := (eq_two_pow_log2 hsets).symm

/-- Two addresses have one tag exactly when they are in one block (R55). -/
theorem tag_eq_iff_block_eq {cfg : Config} {a a' : Nat} (ha : a < 2 ^ cfg.addrWidth) (ha' : a' < 2 ^ cfg.addrWidth) :
    cfg.tag a = cfg.tag a' ↔ cfg.block a = cfg.block a' := by
  rw [Config.tag, Config.tag, Nat.mod_eq_of_lt ha, Nat.mod_eq_of_lt ha', block_eq, block_eq]
  exact (Nat.mul_right_inj (Nat.two_pow_pos _).ne').symm

/-! ### The statements -/

/-- Settles O23: OFFSET_BITS is 5 and SET_BITS is 3, and the fields are evaluated with them. -/
theorem addressFieldsOfTheExample : Obligations.AddressFieldsOfTheExample := by
  intro cfg hblock hbanks hmask hsets hwidth
  have hoffset : cfg.offsetBits = 5 := by rw [Config.offsetBits, hblock]; rfl
  have hset : cfg.setBits = 3 := by rw [Config.setBits, hsets]; rfl
  have hselect : cfg.setSelectMask = 0x380 := by
    rw [Config.setSelectMask, hmask, hwidth, hoffset, hset]
    rfl
  refine ⟨hselect, ?_, ?_, ?_, ?_, ?_⟩
  · rw [Config.offset, hoffset]; rfl
  · rw [Config.block, Config.offset, hoffset]; rfl
  · rw [Config.bank, hwidth, hmask]; rfl
  · rw [Config.set, hwidth, hselect]; rfl
  · rw [Config.tag, hwidth, hoffset]; rfl

/-- Settles O24: the masks of R53 and R54 have BANK_BITS and at most SET_BITS bits, none of them below
OFFSET_BITS. -/
theorem everyAddressHasABankAndASet : Obligations.EveryAddressHasABankAndASet := fun cfg h a =>
  ⟨bank_lt h a, set_lt h a, bank_block h a, set_block cfg a, fun _ => tag_eq_iff_block_eq⟩

end Sys2Proof.Machine
end

section
/-! PROOFS. Read-after-write at a bank (20_memory.md R69, R70 item 1): an accepted STORE leaves its bytes in every copy
of its block (44_bank_accept.md R140 to R142), and a LOAD is served from such a copy (R136 to R138). -/

namespace Sys2Proof.Machine

/-! ### The bytes of a STORE in the copies of its block -/

/-- The LFB holds the bytes of the STORE `req`, and its mask protects them from a fill. -/
def Lfb.Holds (cfg : Config) (l : Lfb) (req : Request) : Prop :=
  ∀ j, (effectiveMask req).testBit j = true →
    l.data.getD (cfg.offset req.address + j) 0 = req.payload.getD j 0 ∧
    l.byteWriteMask.testBit (cfg.offset req.address + j) = true

/-- The resident line of the STORE's block, if there is one, holds its bytes. -/
def Bank.LineHolds (cfg : Config) (bk : Bank) (req : Request) : Prop :=
  ∀ w, lookup cfg bk req.address = some w → ∀ j, (effectiveMask req).testBit j = true →
    (readLine cfg bk req.address w).getD (cfg.offset req.address + j) 0 = req.payload.getD j 0

/-- Every copy of the STORE's block that the bank has holds its bytes (R70). -/
structure Bank.Holds (cfg : Config) (bk : Bank) (req : Request) : Prop where
  line : bk.LineHolds cfg req
  lfbs : ∀ k < bk.lfbs.length, (bk.lfb k).live = true → (bk.lfb k).blockAddress = cfg.block req.address →
    (bk.lfb k).Holds cfg req

/-- A byte that a STORE inside one block writes is in the block. -/
theorem offset_add_lt {cfg : Config} {req : Request} (hfits : fitsBlock cfg req = true) {j : Nat}
    (hj : (effectiveMask req).testBit j = true) : cfg.offset req.address + j < cfg.blockSize := by
  simp only [fitsBlock, Bool.and_eq_true, decide_eq_true_eq] at hfits
  simp only [effectiveMask, Nat.testBit_and, ones_testBit, Bool.and_eq_true, decide_eq_true_eq] at hj
  omega

theorem overlay_stored {cfg : Config} {req : Request} (hfits : fitsBlock cfg req = true) (dst : Block) {j : Nat}
    (hj : (effectiveMask req).testBit j = true) :
    (overlay cfg.blockSize dst (cfg.offset req.address) (effectiveMask req) req.payload).getD
      (cfg.offset req.address + j) 0 = req.payload.getD j 0 := by
  rw [overlay_getD, if_pos (offset_add_lt hfits hj), Nat.add_sub_cancel_left, if_pos ⟨Nat.le_add_right _ _, hj⟩]

/-- An LFB that takes the bytes of a STORE and their mask holds them. -/
theorem Lfb.Holds.of_overlay {cfg : Config} {req : Request} {l : Lfb} (hfits : fitsBlock cfg req = true)
    {dst : Block} {m : Nat}
    (hd : l.data = overlay cfg.blockSize dst (cfg.offset req.address) (effectiveMask req) req.payload)
    (hm : l.byteWriteMask = m ||| effectiveMask req <<< cfg.offset req.address) : l.Holds cfg req := by
  intro j hj
  rw [hd, hm]
  exact ⟨overlay_stored hfits dst hj, by simp [Nat.testBit_or, Nat.testBit_shiftLeft, hj]⟩

/-! ### The commit (R140) -/

/-- `write_update` leaves the bytes in the resident line. -/
theorem writeUpdate_lineHolds {cfg : Config} {bk : Bank} (h : bk.WellSized cfg) {req : Request}
    (hfits : fitsBlock cfg req = true) :
    (writeUpdate cfg bk req.address (effectiveMask req) req.payload).LineHolds cfg req := by
  intro w hw j hj
  rw [lookup_congr cfg (writeUpdate_tags ..)] at hw
  obtain ⟨hway, -⟩ := lookup_eq_some hw
  have hset := bk.lt_of_tagSet hway
  rw [h.ways _ (bk.tagSet_mem hset)] at hway
  have hdata : cfg.set req.address < bk.data.length := by rw [h.data, ← h.tags]; exact hset
  have hlines : w < bk.data[cfg.set req.address].length := by rw [h.lines _ (List.getElem_mem hdata)]; exact hway
  rcases writeUpdate_spec cfg bk req.address (effectiveMask req) req.payload with ⟨hn, -⟩ | ⟨w', hw', he⟩
  · rw [hn] at hw; cases hw
  · rw [hw] at hw'
    cases hw'
    have hline : readLine cfg (writeUpdate cfg bk req.address (effectiveMask req) req.payload) req.address w =
        overlay cfg.blockSize (readLine cfg bk req.address w) (cfg.offset req.address) (effectiveMask req)
          req.payload := by
      rw [he]
      simp [readLine, hdata, hlines]
    rw [hline]
    exact overlay_stored hfits _ hj

/-- The commit leaves the bytes in the resident line and in the live READ LFB of the block. -/
theorem commitStore_holds {cfg : Config} {bk : Bank} (hs : bk.WellSized cfg) (hone : bk.AtMostOneLfb) {req : Request}
    (hfits : fitsBlock cfg req = true) :
    (commitStore cfg bk req (effectiveMask req)).LineHolds cfg req ∧
      ∀ k < bk.lfbs.length, (bk.lfb k).live = true → (bk.lfb k).type = .read →
        (bk.lfb k).blockAddress = cfg.block req.address →
        ((commitStore cfg bk req (effectiveMask req)).lfb k).Holds cfg req := by
  have hline := writeUpdate_lineHolds hs hfits
  rcases commitStore_spec cfg bk req (effectiveMask req) with ⟨hn, he⟩ | ⟨r, hr, he⟩ <;> rw [he]
  · exact ⟨hline, fun k hk hl ht hb => absurd hb (findLfb_eq_none.mp hn k hk hl ht)⟩
  · refine ⟨hline, fun k hk hl ht hb => ?_⟩
    obtain ⟨hrlt, hrl, hrt, hrb⟩ := findLfb_eq_some hr
    obtain rfl : k = r := hone k r hk hrlt hl hrl (ht.trans hrt.symm) (hb.trans hrb.symm)
    rw [Bank.setLfb_self _ (by simpa using hk)]
    exact .of_overlay hfits rfl rfl

/-! ### The STORE (R139 to R142) -/

/-- A touch changes ages only. -/
theorem touchLfb_lfb_of_eq {bk : Bank} {k j : Nat} {l : Lfb} (hl : bk.lfb j = l) :
    (touchLfb bk k).lfb j = { l with lru := ((touchLfb bk k).lfb j).lru } := by
  subst hl
  rw [touchLfb_lfb]
  split <;> rename_i h
  · rfl
  · rw [bk.lfb_absent (Nat.le_of_not_lt h)]

theorem evictRetired_keepsKeys (bk : Bank) (v : Nat) : bk.KeepsKeys (evictRetired bk v) := by
  unfold evictRetired
  split
  · exact .setLfb fun _ hl => by simp [Lfb.live] at hl
  · exact .of_lfbs rfl

theorem evictRetired_wellSized {cfg : Config} {bk : Bank} (h : bk.WellSized cfg) (v : Nat) :
    (evictRetired bk v).WellSized cfg := by
  unfold evictRetired
  split
  · exact h.setLfb fun hv => h.lfb hv
  · exact h

/-- The bank `bk'` is what the commit of the STORE leaves of `bk`, but for LFB `v`, the ages and the queues. -/
structure Committed (cfg : Config) (bk bk' : Bank) (req : Request) (v : Nat) : Prop where
  tags : bk'.tags = (commitStore cfg bk req (effectiveMask req)).tags
  data : bk'.data = (commitStore cfg bk req (effectiveMask req)).data
  others : ∀ k, k ≠ v →
    bk'.lfb k = { (commitStore cfg bk req (effectiveMask req)).lfb k with lru := (bk'.lfb k).lru }

/-- An accepted STORE of some byte commits it, after the eviction of its slot if it needs one, and then writes the
LFB that serves it. -/
theorem acceptStore_committed {cfg : Config} {b : Nat} {bk bk' : Bank} {req : Request} {c : Option Counter}
    (ha : acceptStore cfg b bk req = .accepted bk' c) (ht : req.type ≠ .load) (hm : effectiveMask req ≠ 0)
    (hs : bk.WellSized cfg) :
    ∃ bk₀ v, bk.KeepsKeys bk₀ ∧ bk₀.WellSized cfg ∧ Committed cfg bk₀ bk' req v ∧ Served cfg bk bk' req v := by
  rcases acceptStore_accepted ha with ⟨hzero, -⟩ | ⟨-, k, hk, h, -⟩ | ⟨-, hn, v, hv, h, -⟩
  · exact absurd hzero hm
  · refine ⟨bk, k, .of_lfbs rfl, hs, ?_, .of_mergeStore ht hm hk h⟩
    rw [mergeStore_accepted h]
    exact ⟨rfl, rfl, fun j hj => touchLfb_lfb_of_eq (Bank.setLfb_others _ k _ hj)⟩
  · refine ⟨evictRetired bk v, v, evictRetired_keepsKeys bk v, evictRetired_wellSized hs v, ?_,
      .of_newStore ht hm hn hv h⟩
    obtain ⟨-, -, -, -, -, -, hdata, htags, he⟩ := allocStore_accepted h
    refine ⟨htags, hdata, fun j hj => ?_⟩
    rw [he]
    exact touchLfb_lfb_of_eq
      (Bank.setLfb_others (commitStore cfg (evictRetired bk v) req (effectiveMask req)) v _ hj)

/-- The LFB that serves a STORE is the write-combining LFB of its block, and holds its bytes. -/
theorem ServedBy.combining {cfg : Config} {bk bk' : Bank} {req : Request} {v : Nat} (h : ServedBy cfg bk bk' req v)
    (ht : req.type ≠ .load) (hfits : fitsBlock cfg req = true) :
    bk'.Combining v ∧ (bk'.lfb v).blockAddress = cfg.block req.address ∧ (bk'.lfb v).Holds cfg req := by
  cases h with
  | mergedLoad hload => exact absurd hload ht
  | hit hload => exact absurd hload ht
  | missed hload => exact absurd hload ht
  | mergedStore _ _ hf hl =>
    obtain ⟨-, hlive, htype, hblock⟩ := findLfb_eq_some hf
    rw [Bank.Combining, hl]
    exact ⟨⟨hlive, htype⟩, hblock, .of_overlay hfits rfl rfl⟩
  | newStore _ _ _ _ hl hd =>
    refine ⟨?_, by rw [hl], .of_overlay (m := 0) hfits hd (by rw [hl, Nat.zero_or])⟩
    rw [Bank.Combining, hl]
    exact ⟨rfl, rfl⟩

/-- After an accepted STORE of some byte every copy of its block holds its bytes, and one of them is a live
write-combining LFB (R140 to R142). -/
theorem acceptStore_holds {cfg : Config} {b : Nat} {bk bk' : Bank} {req : Request} {c : Option Counter}
    (ha : acceptStore cfg b bk req = .accepted bk' c) (ht : req.type ≠ .load) (hm : effectiveMask req ≠ 0)
    (hfits : fitsBlock cfg req = true) (hs : bk.WellSized cfg) (hone : bk.AtMostOneLfb) :
    bk'.Holds cfg req ∧
      ∃ v < bk'.lfbs.length, bk'.Combining v ∧ (bk'.lfb v).blockAddress = cfg.block req.address := by
  obtain ⟨bk₀, v, hkeys, hs₀, hcommit, hserved⟩ := acceptStore_committed ha ht hm hs
  obtain ⟨hcomb, hblock, hholds⟩ := hserved.by_.combining ht hfits
  have hv : v < bk'.lfbs.length := hserved.count ▸ hserved.inPool
  obtain ⟨hline, hread⟩ := commitStore_holds hs₀ (hone.keepsKeys hkeys) hfits
  refine ⟨⟨?_, fun k hk hl hb => ?_⟩, v, hv, hcomb, hblock⟩
  · intro w hw
    rw [lookup_congr cfg hcommit.tags] at hw
    simpa only [readLine, hcommit.data] using hline w hw
  · by_cases hkv : k = v
    · exact hkv ▸ hholds
    · -- a second LFB of the block is no write-combining one
      have htype : (bk'.lfb k).type = .read := by
        cases htk : (bk'.lfb k).type with
        | read => rfl
        | writeCombining =>
          exact absurd (hone.served hserved k v hk hv hl hcomb.1 (htk.trans hcomb.2.symm) (hb.trans hblock.symm)) hkv
      have he := hcommit.others k hkv
      rw [he] at hl htype hb ⊢
      have hk₀ : k < bk₀.lfbs.length := by rw [hkeys.count, ← hserved.count]; exact hk
      exact hread k hk₀ (by simpa [Lfb.live] using hl) (by simpa using htype) (by simpa using hb)

/-! ### The LOAD (R136 to R138) -/

theorem Bank.AtMostOneLfb.findLfb_self {bk : Bank} (h : bk.AtMostOneLfb) {k : Nat} (hk : k < bk.lfbs.length)
    (hl : (bk.lfb k).live = true) :
    findLfb bk (bk.lfb k).blockAddress (bk.lfb k).type = some k := by
  cases hf : findLfb bk (bk.lfb k).blockAddress (bk.lfb k).type with
  | none => exact absurd rfl (findLfb_eq_none.mp hf k hk hl rfl)
  | some j =>
    obtain ⟨hj, hjl, hjt, hjb⟩ := findLfb_eq_some hf
    rw [h j k hj hk hjl hl hjt hjb]

/-- The LFB that serves a LOAD is a live READ LFB of its block with a sub-request. -/
theorem ServedBy.reading {cfg : Config} {bk bk' : Bank} {req : Request} {v : Nat} (h : ServedBy cfg bk bk' req v)
    (ht : req.type = .load) :
    (bk'.lfb v).live = true ∧ (bk'.lfb v).type = .read ∧ (bk'.lfb v).blockAddress = cfg.block req.address ∧
      (bk'.lfb v).subq ≠ [] := by
  cases h with
  | mergedLoad _ hf _ hl =>
    obtain ⟨-, hlive, htype, hblock⟩ := findLfb_eq_some hf
    rw [Lfb.live_iff] at hlive ⊢
    rw [hl]
    refine ⟨?_, htype, hblock, by simp⟩
    show (if (bk.lfb v).state = .retired then LfbState.filled else (bk.lfb v).state) ≠ .invalid
    split
    · decide
    · exact hlive
  | hit _ _ _ w _ hl =>
    rw [hl]
    refine ⟨?_, rfl, rfl, by simp⟩
    by_cases hlat : cfg.latency = 0 <;> simp [Lfb.live, hlat]
  | missed _ _ _ _ hl => rw [hl]; exact ⟨rfl, rfl, rfl, by simp⟩
  | mergedStore hstore => exact absurd ht hstore
  | newStore hstore => exact absurd ht hstore

/-- The allocation of slot `v` for a LOAD leaves every other LFB alone but its age. -/
theorem newReadLfb_others (cfg : Config) (b : Nat) (bk : Bank) (blk : Nat) (sr : SubReq) {v j : Nat} (h : j ≠ v) :
    (touchLfb (newReadLfb cfg b (evictRetired bk v) v blk sr) v).lfb j =
      { bk.lfb j with lru := ((touchLfb (newReadLfb cfg b (evictRetired bk v) v blk sr) v).lfb j).lru } := by
  apply touchLfb_lfb_of_eq
  rw [newReadLfb_lfb, if_neg fun hc => h hc.1.symm, evictRetired_lfb_ne bk h.symm]

/-- A miss copies the bytes of a write-combining LFB with their mask (R138). -/
theorem missLoad_holds {cfg : Config} {bk : Bank} {v k blk : Nat} {st : Request} (hfits : fitsBlock cfg st = true)
    (hv : v < bk.lfbs.length) (hk : findLfb bk blk .writeCombining = some k) (h : (bk.lfb k).Holds cfg st) :
    ((missLoad cfg bk v blk).lfb v).Holds cfg st := by
  intro j hj
  obtain ⟨hbyte, hmask⟩ := h j hj
  rw [missLoad_lfb, if_pos ⟨rfl, hv⟩, hk]
  refine ⟨?_, hmask⟩
  show (overlay _ _ _ _ _).getD _ 0 = _
  rw [overlay_getD, if_pos (offset_add_lt hfits hj), Nat.sub_zero, if_pos ⟨Nat.zero_le _, hmask⟩, hbyte]

/-- A LOAD that misses holds the bytes of its block that a live write-combining LFB holds. -/
theorem Bank.Holds.missed {cfg : Config} {b v k : Nat} {bk : Bank} {sr : SubReq} {st : Request}
    (h : bk.Holds cfg st) (hfits : fitsBlock cfg st = true) (hp : bk.PoolOk cfg) (hv : allocSlot bk = some v)
    (hk : k < bk.lfbs.length) (hc : bk.Combining k) (hb : (bk.lfb k).blockAddress = cfg.block st.address) :
    ((missLoad cfg (touchLfb (newReadLfb cfg b (evictRetired bk v) v (cfg.block st.address) sr) v) v
      (cfg.block st.address)).lfb v).Holds cfg st := by
  have hvlt := (allocSlot_eq_some hv).1
  have hkv : k ≠ v := fun he => (hp.idle hv).1 (he ▸ hc)
  have hother := fun j => newReadLfb_others cfg b bk (cfg.block st.address) sr (v := v) (j := j)
  have hlen : (touchLfb (newReadLfb cfg b (evictRetired bk v) v (cfg.block st.address) sr) v).lfbs.length =
      bk.lfbs.length := by simp [newReadLfb]
  have hvtype : ((touchLfb (newReadLfb cfg b (evictRetired bk v) v (cfg.block st.address) sr) v).lfb v).type =
      .read := by
    rw [touchLfb_lfb_type, newReadLfb_lfb, if_pos ⟨rfl, by simpa using hvlt⟩]
  generalize touchLfb (newReadLfb cfg b (evictRetired bk v) v (cfg.block st.address) sr) v = bk₁ at *
  cases hf : findLfb bk₁ (cfg.block st.address) .writeCombining with
  | none =>
    have hnone := findLfb_eq_none.mp hf k (hlen ▸ hk)
    rw [hother k hkv] at hnone
    exact absurd hb (hnone hc.1 hc.2)
  | some j =>
    obtain ⟨hj, hjl, hjt, hjb⟩ := findLfb_eq_some hf
    have hjv : j ≠ v := by
      rintro rfl
      rw [hvtype] at hjt
      cases hjt
    refine missLoad_holds hfits (hlen ▸ hvlt) hf ?_
    rw [hother j hjv] at hjl hjb ⊢
    exact h.lfbs j (hlen ▸ hj) hjl hjb

/-- A lookup of a block is that of each of its addresses. -/
theorem lookup_block (cfg : Config) (bk : Bank) (a : Nat) : lookup cfg bk (cfg.block a) = lookup cfg bk a := by
  simp [lookup]

theorem readLine_block (cfg : Config) (bk : Bank) (a w : Nat) :
    readLine cfg bk (cfg.block a) w = readLine cfg bk a w := by
  simp [readLine]

/-- The LFB that serves a LOAD of a block whose every copy holds the bytes of a STORE holds them too, protected from
a fill still to come: it merges into such a copy, or copies the resident line, or takes the pending bytes. -/
theorem Bank.Holds.load {cfg : Config} {b v k : Nat} {bk bk' : Bank} {st ld : Request} {c : Option Counter}
    (h : bk.Holds cfg st) (hfits : fitsBlock cfg st = true) (hp : bk.PoolOk cfg) (hk : k < bk.lfbs.length)
    (hc : bk.Combining k) (hb : (bk.lfb k).blockAddress = cfg.block st.address) (ht : ld.type = .load)
    (hblock : cfg.block ld.address = cfg.block st.address) (ha : acceptRequest cfg b bk ld = .accepted bk' c)
    (hs : Served cfg bk bk' ld v) :
    ∀ j, (effectiveMask st).testBit j = true →
      (bk'.lfb v).data.getD (cfg.offset st.address + j) 0 = st.payload.getD j 0 ∧
      ((bk'.lfb v).state = .missed → (bk'.lfb v).byteWriteMask.testBit (cfg.offset st.address + j) = true) := by
  intro j hj
  cases hs.by_ with
  | mergedLoad _ hf _ hl =>
    obtain ⟨hv, hlive, -, hvb⟩ := findLfb_eq_some hf
    obtain ⟨hbyte, hmask⟩ := h.lfbs v hv hlive (hvb.trans hblock) j hj
    rw [hl]
    exact ⟨hbyte, fun _ => hmask⟩
  | hit _ _ _ w hw hl =>
    rw [hblock, lookup_block] at hw
    have hbyte := h.line w hw j hj
    rw [hl, hblock, readLine_block]
    refine ⟨hbyte, fun hmissed => ?_⟩
    by_cases hlat : cfg.latency = 0 <;> simp [hlat] at hmissed
  | missed _ hf hv hw =>
    rw [acceptRequest, if_pos ht] at ha
    rcases acceptLoad_accepted ha with ⟨r, hr, -⟩ | ⟨u, -, hu, -, ⟨w, hw', -⟩ | ⟨-, -, rfl⟩⟩
    · rw [hf] at hr; cases hr
    · rw [hw] at hw'; cases hw'
    · rw [hv] at hu
      cases hu
      rw [hblock]
      obtain ⟨hbyte, hmask⟩ := h.missed hfits hp hv hk hc hb j hj
      exact ⟨hbyte, fun _ => hmask⟩
  | mergedStore hstore => exact absurd ht hstore
  | newStore hstore => exact absurd ht hstore

/-! ### Read-after-write -/

/-- An accepted LOAD is served by an LFB that `find_lfb` then answers for its block. -/
theorem acceptRequest_load {cfg : Config} {b : Nat} {bk bk' : Bank} {req : Request} {c : Option Counter}
    (ha : acceptRequest cfg b bk req = .accepted bk' c) (ht : req.type = .load) (hone : bk.AtMostOneLfb) :
    ∃ v, Served cfg bk bk' req v ∧ findLfb bk' (cfg.block req.address) .read = some v ∧ (bk'.lfb v).subq ≠ [] := by
  rcases acceptRequest_served ha with ⟨hstore, -⟩ | ⟨v, hs⟩
  · exact absurd ht hstore
  · obtain ⟨hlive, htype, hblock, hsubq⟩ := hs.by_.reading ht
    refine ⟨v, hs, ?_, hsubq⟩
    rw [← hblock, ← htype]
    exact (hone.served hs).findLfb_self (hs.count ▸ hs.inPool) hlive

/-- What every acceptance keeps of the pool. -/
theorem acceptRequest_pool {cfg : Config} {b : Nat} {bk bk' : Bank} {req : Request} {c : Option Counter}
    (ha : acceptRequest cfg b bk req = .accepted bk' c) (hone : bk.AtMostOneLfb) (hp : bk.PoolOk cfg) :
    bk'.AtMostOneLfb ∧ bk'.PoolOk cfg := by
  rcases acceptRequest_served ha with ⟨-, -, rfl, -⟩ | ⟨v, hs⟩
  · exact ⟨hone, hp⟩
  · exact ⟨hone.served hs, hp.served hs⟩

/-- Settles O35: the STORE leaves its bytes in every copy of the block, among them a live write-combining LFB, and
the LOAD is served from a copy. -/
theorem loadAfterStoreHoldsTheStoredBytes : Obligations.LoadAfterStoreHoldsTheStoredBytes := by
  intro cfg b bk bk1 bk2 st ld c1 c2 _ hs hone hp hst hld hfits hblock hstore hload
  obtain ⟨hone1, hp1⟩ := acceptRequest_pool hstore hone hp
  obtain ⟨v, hserved, hfind, hsubq⟩ := acceptRequest_load hload hld hone1
  refine ⟨v, hfind, hsubq, fun j hj => ?_⟩
  have htype : st.type ≠ .load := by simp [hst]
  have hm : effectiveMask st ≠ 0 := fun h => by simp [h] at hj
  rw [acceptRequest, if_neg htype] at hstore
  obtain ⟨hholds, k, hk, hcomb, hkb⟩ := acceptStore_holds hstore htype hm hfits hs hone
  exact hholds.load hfits hp1 hk hcomb hkb hld hblock hload hserved j hj

end Sys2Proof.Machine
end

section
/-! PROOFS. The layout of the records: type codes, packed requests and packed returns, read back and written again
(30_encoding.md R80, R81, R83; log 14). -/

namespace Sys2Proof

/-! ### Type codes -/

/-- A request type is the type of its code (R81); the ranges are checked on each of their free low bits. -/
@[simp] theorem ReqType.ofCode_code (t : ReqType) : ReqType.ofCode t.code = t := by
  cases t with
  | custom n => revert n; decide
  | reserved0C low => revert low; decide
  | reserved20 low => revert low; decide
  | reserved40 low => revert low; decide
  | reserved80 low => revert low; decide
  | _ => rfl

/-- Each of the 256 request codes is the code of its type (R81). -/
@[simp] theorem ReqType.code_ofCode : ∀ c : BitVec 8, (ReqType.ofCode c).code = c := by
  decide

theorem ReqType.ofCode_eq_iff {c : BitVec 8} {t : ReqType} : ReqType.ofCode c = t ↔ c = t.code :=
  ⟨fun h => by rw [← h, ReqType.code_ofCode], fun h => by rw [h, ReqType.ofCode_code]⟩

/-- A return type is the type of its code (R83); the ranges are checked on each of their free low bits. -/
@[simp] theorem RetType.ofCode_code (t : RetType) : RetType.ofCode t.code = t := by
  cases t with
  | na => rfl
  | loadReturn => rfl
  | reserved02 low => revert low; decide
  | reserved04 low => revert low; decide
  | reserved08 low => revert low; decide
  | reserved10 low => revert low; decide
  | reserved20 low => revert low; decide
  | reserved40 low => revert low; decide
  | reserved80 low => revert low; decide

/-- Each of the 256 return codes is the code of its type (R83). -/
@[simp] theorem RetType.code_ofCode : ∀ c : BitVec 8, (RetType.ofCode c).code = c := by
  decide

theorem RetType.ofCode_eq_iff {c : BitVec 8} {t : RetType} : RetType.ofCode c = t ↔ c = t.code :=
  ⟨fun h => by rw [← h, RetType.code_ofCode], fun h => by rw [h, RetType.ofCode_code]⟩

/-! ### Bytes -/

/-- A number read from bytes is bounded by their count. -/
theorem ofLeBytes_lt (bs : List Byte) : ofLeBytes bs < 256 ^ bs.length := by
  induction bs with
  | nil => simp [ofLeBytes]
  | cons b bs ih =>
    have hb := b.isLt
    simp only [ofLeBytes, List.length_cons, Nat.pow_succ]
    omega

/-- Bytes are those of the number they stand for. -/
theorem leBytes_ofLeBytes (bs : List Byte) : leBytes bs.length (ofLeBytes bs) = bs := by
  induction bs with
  | nil => rfl
  | cons b bs ih =>
    have hb := b.isLt
    have hhead : BitVec.ofNat 8 (b.toNat + 256 * ofLeBytes bs) = b := by
      apply BitVec.eq_of_toNat_eq
      rw [BitVec.toNat_ofNat]
      omega
    have htail : (b.toNat + 256 * ofLeBytes bs) / 256 = ofLeBytes bs := by omega
    simp only [List.length_cons, ofLeBytes, leBytes, hhead, htail, ih]

/-- The bytes of a number read from `n` bytes are those bytes. -/
theorem leBytes_ofLeBytes_of_length {bs : List Byte} {n : Nat} (h : bs.length = n) :
    leBytes n (ofLeBytes bs) = bs :=
  h ▸ leBytes_ofLeBytes bs

/-- A number below 2 to a count of bits fits the bytes that hold these bits. -/
theorem lt_bytes_of_lt_bits {v k n : Nat} (hv : v < 2 ^ k) (hk : k ≤ 8 * n) : v < 256 ^ n :=
  calc v < 2 ^ k := hv
    _ ≤ 2 ^ (8 * n) := Nat.pow_le_pow_right (by decide) hk
    _ = 256 ^ n := Nat.pow_mul 2 8 n

/-! ### Word 0 -/

/-- A word 0 whose reserved bits are zero is that of its fields (R80). -/
theorem packWord0_fields {w : Nat} (h : w / 2 ^ 40 = 0) : packWord0 (word0Type w) (word0Size w) (word0Port w) = w := by
  simp only [packWord0, word0Type, word0Size, word0Port, BitVec.toNat_ofNat]
  omega

/-- Word 0 leaves the reserved bits zero (R80). -/
theorem packWord0_reserved (t : BitVec 8) (size port : BitVec 16) : packWord0 t size port / 2 ^ 40 = 0 :=
  Nat.div_eq_of_lt (packWord0_lt t size port)

/-! ### The three words of a packed transaction -/

/-- The words 0 to 2 of a packed request or return: type, size and port, then `dst`, then the address (R80). -/
def transactionWords (t : BitVec 8) (size port : BitVec 16) (dst : Word) (address : Nat) : List Byte :=
  leBytes 8 (packWord0 t size port) ++ (leBytes 8 dst.toNat ++ leBytes 8 address)

@[simp] theorem transactionWords_length (t : BitVec 8) (size port : BitVec 16) (dst : Word) (address : Nat) :
    (transactionWords t size port dst address).length = 24 := by
  simp [transactionWords]

theorem encodeRequest_eq (cfg : Config) (req : Request) :
    encodeRequest cfg req = transactionWords req.type.code req.size req.port req.dst req.address ++
      (leBytes cfg.maskBytes req.writeMask ++ req.payload) := by
  simp [encodeRequest, transactionWords]

theorem encodeReturn_eq (r : Return) :
    encodeReturn r = transactionWords r.type.code r.size r.port r.dst r.address ++ r.payload := by
  simp [encodeReturn, transactionWords]

/-- The three words read back from a record that begins with them, for an address that fits word 2. -/
theorem transactionWords_read (t : BitVec 8) (size port : BitVec 16) (dst : Word) {address : Nat}
    (h : address < 2 ^ 64) (rest : List Byte) :
    ofLeBytes ((transactionWords t size port dst address ++ rest).take 8) = packWord0 t size port ∧
    ofLeBytes (((transactionWords t size port dst address ++ rest).drop 8).take 8) = dst.toNat ∧
    ofLeBytes (((transactionWords t size port dst address ++ rest).drop 16).take 8) = address := by
  have hword : ofLeBytes (leBytes 8 (packWord0 t size port)) = packWord0 t size port :=
    ofLeBytes_leBytes (lt_bytes_of_lt_bits (packWord0_lt t size port) (by decide))
  have hdst : ofLeBytes (leBytes 8 dst.toNat) = dst.toNat :=
    ofLeBytes_leBytes (lt_bytes_of_lt_bits dst.isLt (by decide))
  have haddress : ofLeBytes (leBytes 8 address) = address :=
    ofLeBytes_leBytes (lt_bytes_of_lt_bits h (by decide))
  refine ⟨?_, ?_, ?_⟩ <;> 
    simp [transactionWords, List.drop_append, List.drop_eq_nil_of_le, hword, hdst, haddress]

/-- The bytes of a record from its fourth word on. -/
theorem transactionWords_drop (t : BitVec 8) (size port : BitVec 16) (dst : Word) (address : Nat) (rest : List Byte)
    (n : Nat) : (transactionWords t size port dst address ++ rest).drop (24 + n) = rest.drop n := by
  rw [← List.drop_drop, List.drop_left' (transactionWords_length t size port dst address)]

/-- The first 24 bytes of a record are the words of the fields read from them, when the reserved bits are zero. -/
theorem transactionWords_fields {bytes : List Byte} (hlen : 24 ≤ bytes.length)
    (hres : ofLeBytes (bytes.take 8) / 2 ^ 40 = 0) :
    transactionWords (word0Type (ofLeBytes (bytes.take 8))) (word0Size (ofLeBytes (bytes.take 8)))
      (word0Port (ofLeBytes (bytes.take 8))) (BitVec.ofNat 64 (ofLeBytes ((bytes.drop 8).take 8)))
      (ofLeBytes ((bytes.drop 16).take 8)) = bytes.take 24 := by
  have hdst : (BitVec.ofNat 64 (ofLeBytes ((bytes.drop 8).take 8))).toNat = ofLeBytes ((bytes.drop 8).take 8) := by
    refine Nat.mod_eq_of_lt (lt_of_lt_of_le (ofLeBytes_lt _) (Nat.pow_le_pow_right (by decide) ?_) : _ < 256 ^ 8)
    exact List.length_take_le 8 _
  have h0 : (bytes.take 8).length = 8 := by simp; omega
  have h8 : ((bytes.drop 8).take 8).length = 8 := by simp; omega
  have h16 : ((bytes.drop 16).take 8).length = 8 := by simp; omega
  rw [transactionWords, packWord0_fields hres, hdst, leBytes_ofLeBytes_of_length h0, leBytes_ofLeBytes_of_length h8,
    leBytes_ofLeBytes_of_length h16, ← List.drop_drop (i := 8) (j := 8), ← List.take_add, ← List.take_add]

/-! ### Packed requests -/

/-- What a configuration admits of a request (R77). -/
theorem ReqBody.check_eq_none {cfg : Config} {r : ReqBody} :
    r.check cfg = none ↔
      r.address < 2 ^ cfg.recordAddrWidth ∧ r.writeMask < 2 ^ cfg.blockSize ∧ r.payload.length = cfg.blockSize := by
  unfold ReqBody.check
  split_ifs <;> simp <;> omega

/-- An address that an event record can carry fits word 2. -/
theorem Config.lt_word_of_lt_recordAddrWidth {cfg : Config} {a : Nat} (h : a < 2 ^ cfg.recordAddrWidth) : a < 2 ^ 64 :=
  lt_of_lt_of_le h (Nat.pow_le_pow_right (by decide) (Nat.min_le_right _ _))

/-- A write mask of BLOCK_SIZE bits fits its bytes. -/
theorem ofLeBytes_writeMask {cfg : Config} {m : Nat} (h : m < 2 ^ cfg.blockSize) :
    ofLeBytes (leBytes cfg.maskBytes m) = m :=
  ofLeBytes_leBytes (lt_bytes_of_lt_bits h (by unfold Config.maskBytes; omega))

/-- A packed request is read back (R80). -/
theorem decodeRequest_encodeRequest {cfg : Config} {req : Request} (h : req.toReqBody.check cfg = none) :
    decodeRequest cfg (encodeRequest cfg req) = .ok req := by
  obtain ⟨haddress, hmask, hpayload⟩ := ReqBody.check_eq_none.mp h
  have hlen : (encodeRequest cfg req).length = cfg.requestBytes := by
    simp [encodeRequest_eq, hpayload, Config.requestBytes, Nat.add_assoc]
  rw [decodeRequest, if_neg (not_not.mpr hlen), encodeRequest_eq]
  obtain ⟨hword, hdst, haddr⟩ := transactionWords_read req.type.code req.size req.port req.dst
    (Config.lt_word_of_lt_recordAddrWidth haddress) (leBytes cfg.maskBytes req.writeMask ++ req.payload)
  simp only [hword, hdst, haddr, transactionWords_drop, transactionWords_drop _ _ _ _ _ _ 0, packWord0_reserved]
  simp [ofLeBytes_writeMask hmask]

/-- A request that is read is packed as it stood (R80). -/
theorem encodeRequest_of_decodeRequest {cfg : Config} {bytes : List Byte} {req : Request}
    (h : decodeRequest cfg bytes = .ok req) : encodeRequest cfg req = bytes := by
  unfold decodeRequest at h
  split at h
  · cases h
  · rename_i hlen
    simp only at h
    split at h
    · cases h
    · rename_i hres
      cases h
      have hbytes : bytes.length = 24 + (cfg.maskBytes + cfg.blockSize) := by
        simpa [Config.requestBytes, Nat.add_assoc] using hlen
      have hmask : ((bytes.drop 24).take cfg.maskBytes).length = cfg.maskBytes := by simp; omega
      rw [encodeRequest_eq]
      simp only [ReqType.code_ofCode]
      rw [transactionWords_fields (by omega) (not_not.mp hres), leBytes_ofLeBytes_of_length hmask,
        ← List.drop_drop, List.take_append_drop, List.take_append_drop]

/-! ### Packed returns -/

/-- What a configuration admits of a return (R83). -/
theorem RetBody.check_eq_none {cfg : Config} {r : RetBody} :
    r.check cfg = none ↔ r.address < 2 ^ cfg.recordAddrWidth ∧ r.payload.length = cfg.blockSize := by
  unfold RetBody.check
  split_ifs <;> simp <;> omega

/-- A packed return is read back (R83). -/
theorem decodeReturn_encodeReturn {cfg : Config} {r : Return} (h : r.toRetBody.check cfg = none) :
    decodeReturn cfg (encodeReturn r) = .ok r := by
  obtain ⟨haddress, hpayload⟩ := RetBody.check_eq_none.mp h
  have hlen : (encodeReturn r).length = cfg.returnBytes := by
    simp [encodeReturn_eq, hpayload, Config.returnBytes]
  rw [decodeReturn, if_neg (not_not.mpr hlen), encodeReturn_eq]
  obtain ⟨hword, hdst, haddr⟩ := transactionWords_read r.type.code r.size r.port r.dst
    (Config.lt_word_of_lt_recordAddrWidth haddress) r.payload
  simp only [hword, hdst, haddr, transactionWords_drop _ _ _ _ _ _ 0, packWord0_reserved]
  simp

/-- A return that is read is packed as it stood (R83). -/
theorem encodeReturn_of_decodeReturn {cfg : Config} {bytes : List Byte} {r : Return}
    (h : decodeReturn cfg bytes = .ok r) : encodeReturn r = bytes := by
  unfold decodeReturn at h
  split at h
  · cases h
  · rename_i hlen
    simp only at h
    split at h
    · cases h
    · rename_i hres
      cases h
      have hbytes : bytes.length = 24 + cfg.blockSize := not_not.mp hlen
      rw [encodeReturn_eq]
      simp only [RetType.code_ofCode]
      rw [transactionWords_fields (by omega) (not_not.mp hres), List.take_append_drop]

end Sys2Proof
end

section
/-! PROOFS. Decoding and encoding agree on every channel (30_encoding.md R80, R81, R83, R90; log 2, log 14). -/

namespace Sys2Proof

/-! ### The channels of transactions -/

@[simp] theorem ReqBody.withType_toReqBody (r : ReqBody) (t : ReqType) : (r.withType t).toReqBody = r := rfl
@[simp] theorem ReqBody.withType_type (r : ReqBody) (t : ReqType) : (r.withType t).type = t := rfl
@[simp] theorem RetBody.withType_toRetBody (r : RetBody) (t : RetType) : (r.withType t).toRetBody = r := rfl
@[simp] theorem RetBody.withType_type (r : RetBody) (t : RetType) : (r.withType t).type = t := rfl

/-- The record of an upstream request is the packed request (R80, R81). -/
theorem encode_ofRequest (cfg : Config) (t : ReqType) (r : ReqBody) :
    encode cfg (Instr.ofRequest t r) = (.request, encodeRequest cfg (r.withType t)) := by
  cases t <;> rfl

/-- The record of a return is the packed return (R83). -/
theorem encode_ofReturn (cfg : Config) (q : BitVec 16) (t : RetType) (r : RetBody) :
    encode cfg (Instr.ofReturn q t r) = (.dsReturn q, encodeReturn (r.withType t)) := by
  cases t <;> rfl

theorem decodeFields_request {cfg : Config} {r : ReqBody} (h : r.check cfg = none) (t : ReqType) :
    decodeFields cfg .request (encodeRequest cfg (r.withType t)) = .ok (Instr.ofRequest t r) := by
  simp [decodeFields, decodeRequest_encodeRequest (req := r.withType t) h]

theorem decodeFields_dsLoad {cfg : Config} {r : ReqBody} (h : r.check cfg = none) :
    decodeFields cfg .dsRequest (encodeRequest cfg (r.withType .load)) = .ok (.dsLoad r) := by
  simp [decodeFields, decodeRequest_encodeRequest (req := r.withType .load) h]

theorem decodeFields_dsStore {cfg : Config} {r : ReqBody} (h : r.check cfg = none) :
    decodeFields cfg .dsRequest (encodeRequest cfg (r.withType .store)) = .ok (.dsStore r) := by
  simp [decodeFields, decodeRequest_encodeRequest (req := r.withType .store) h]

theorem decodeFields_dsReturn {cfg : Config} {r : RetBody} (h : r.check cfg = none) (q : BitVec 16) (t : RetType) :
    decodeFields cfg (.dsReturn q) (encodeReturn (r.withType t)) = .ok (Instr.ofReturn q t r) := by
  simp [decodeFields, decodeReturn_encodeReturn (r := r.withType t) h]

/-! ### The channel of port operations -/

/-- The first word of a port operation, read back from a record that begins with it. -/
theorem encodePortWord_read (sel : BitVec 8) (port : BitVec 16) (rest : List Byte) :
    ofLeBytes ((encodePortWord sel port ++ rest).take 8) = packWord0 sel 0 port ∧
    (encodePortWord sel port ++ rest).drop 8 = rest := by
  have hlen := encodePortWord_length sel port
  rw [List.take_left' hlen, List.drop_left' hlen]
  exact ⟨ofLeBytes_leBytes (lt_bytes_of_lt_bits (packWord0_lt sel 0 port) (by decide)), rfl⟩

/-- What a record that begins with the word of a port operation decodes to. -/
theorem decodePortOp_encodePortWord (cfg : Config) (sel : BitVec 8) (port : BitVec 16) (rest : List Byte) :
    decodePortOp cfg (encodePortWord sel port ++ rest) =
      if sel = 1 then (decodeRequest cfg rest).map (.writeRequest port)
      else if rest ≠ [] then .error .wrongLength
      else if sel = 0 then .ok (.requestPortWriteValid port)
      else if sel = 2 then .ok (.returnPortReadValid port)
      else if sel = 3 then .ok (.peekReturn port)
      else if sel = 4 then .ok (.readReturn port)
      else .error .unknownSelector := by
  obtain ⟨hword, hrest⟩ := encodePortWord_read sel port rest
  have hlen : ¬(encodePortWord sel port ++ rest).length < 8 := by simp
  rw [decodePortOp, if_neg hlen]
  simp only [hword, hrest, packWord0_reserved]
  cases decodeRequest cfg rest <;> simp [Except.map]

/-- A record that decodes to a port operation begins with a word of one. -/
theorem eq_encodePortWord_of_decodePortOp {cfg : Config} {bytes : List Byte} {i : Instr}
    (h : decodePortOp cfg bytes = .ok i) : ∃ sel port rest, bytes = encodePortWord sel port ++ rest := by
  unfold decodePortOp at h
  split at h
  · cases h
  · rename_i hlen
    simp only at h
    split at h
    · cases h
    · rename_i hres
      obtain ⟨hreserved, hsize⟩ := not_or.mp hres
      have h8 : (bytes.take 8).length = 8 := by simp; omega
      have hword := packWord0_fields (not_not.mp hreserved)
      rw [not_not.mp hsize] at hword
      refine ⟨word0Type (ofLeBytes (bytes.take 8)), word0Port (ofLeBytes (bytes.take 8)), bytes.drop 8, ?_⟩
      rw [encodePortWord, hword, leBytes_ofLeBytes_of_length h8, List.take_append_drop]

/-- A record that decodes to a port operation is its encoding (R90). -/
theorem encode_of_decodePortOp {cfg : Config} {bytes : List Byte} {i : Instr}
    (h : decodePortOp cfg bytes = .ok i) : encode cfg i = (.portOp, bytes) := by
  obtain ⟨sel, port, rest, rfl⟩ := eq_encodePortWord_of_decodePortOp h
  rw [decodePortOp_encodePortWord] at h
  split at h
  · subst sel
    cases hreq : decodeRequest cfg rest with
    | error e => rw [hreq] at h; cases h
    | ok req =>
      rw [hreq] at h
      cases h
      rw [encode, encodeRequest_of_decodeRequest hreq]
  · split at h
    · cases h
    · rename_i hrest
      rw [not_not.mp hrest, List.append_nil]
      split at h
      · subst sel; cases h; rfl
      · split at h
        · subst sel; cases h; rfl
        · split at h
          · subst sel; cases h; rfl
          · split at h
            · subst sel; cases h; rfl
            · cases h

/-! ### The channels of arbitrator and clock operations -/

@[simp] theorem decodeArbRef_kind (a : ArbRef) : decodeArbRef a.kind a.numberByte = .ok a := by
  cases a <;> rfl

/-- An arbitrator that kind and number name has them. -/
theorem kind_of_decodeArbRef {kind number : BitVec 8} {a : ArbRef} (h : decodeArbRef kind number = .ok a) :
    a.kind = kind ∧ a.numberByte = number := by
  unfold decodeArbRef at h
  split at h
  · subst kind; cases h; exact ⟨rfl, rfl⟩
  · split at h
    · subst kind; cases h; exact ⟨rfl, rfl⟩
    · split at h
      · subst kind; cases h; exact ⟨rfl, rfl⟩
      · cases h

/-- What the record of an arbitrator operation decodes to, by its selector. -/
theorem decodeArbOp_encodeArbOp (sel : BitVec 8) (a : ArbRef) (i : BitVec 8) :
    decodeArbOp (encodeArbOp sel a i) =
      if sel = 0 then .ok (.arbAdd a i)
      else if sel = 1 then .ok (.arbRemove a i)
      else if i ≠ 0 then .error .reservedBits
      else if sel = 2 then .ok (.arbAdvance a)
      else if sel = 3 then .ok (.arbCurrent a)
      else .error .unknownSelector := by
  simp [decodeArbOp, encodeArbOp]

/-- A record that decodes to an arbitrator operation is that of a selector, an arbitrator and an index. -/
theorem eq_encodeArbOp_of_decodeArbOp {bytes : List Byte} {i : Instr} (h : decodeArbOp bytes = .ok i) :
    ∃ sel a j, bytes = encodeArbOp sel a j := by
  unfold decodeArbOp at h
  split at h
  · rename_i sel kind number j
    split at h
    · cases h
    · rename_i a ha
      obtain ⟨rfl, rfl⟩ := kind_of_decodeArbRef ha
      exact ⟨sel, a, j, rfl⟩
  · cases h
  · cases h

/-- A record that decodes to an arbitrator operation is its encoding (R90). -/
theorem encode_of_decodeArbOp {cfg : Config} {bytes : List Byte} {i : Instr} (h : decodeArbOp bytes = .ok i) :
    encode cfg i = (.arbOp, bytes) := by
  obtain ⟨sel, a, j, rfl⟩ := eq_encodeArbOp_of_decodeArbOp h
  rw [decodeArbOp_encodeArbOp] at h
  split at h
  · subst sel; cases h; rfl
  · split at h
    · subst sel; cases h; rfl
    · split at h
      · cases h
      · rename_i hj
        rw [not_not.mp hj]
        split at h
        · subst sel; cases h; rfl
        · split at h
          · subst sel; cases h; rfl
          · cases h

/-- A record that decodes to a clock operation is its encoding (R90). -/
theorem encode_of_decodePhaseOp {cfg : Config} {bytes : List Byte} {i : Instr} (h : decodePhaseOp bytes = .ok i) :
    encode cfg i = (.phaseOp, bytes) := by
  unfold decodePhaseOp at h
  split at h
  · rename_i sel
    split at h
    · subst sel; cases h; rfl
    · split at h
      · subst sel; cases h; rfl
      · cases h
  · cases h
  · cases h

/-! ### The statements -/

/-- The fields of the record of an admitted instruction are read back. -/
theorem decodeFields_encode {cfg : Config} {i : Instr} (h : i.check cfg = none) :
    decodeFields cfg (encode cfg i).1 (encode cfg i).2 = .ok i := by
  have hport (sel : BitVec 8) (port : BitVec 16) := decodePortOp_encodePortWord cfg sel port []
  simp only [List.append_nil] at hport
  cases i with
  | dsLoad r => exact decodeFields_dsLoad h
  | dsStore r => exact decodeFields_dsStore h
  | na q r => exact decodeFields_dsReturn h q .na
  | loadReturn q r => exact decodeFields_dsReturn h q .loadReturn
  | retReserved02 low q r => exact decodeFields_dsReturn h q (.reserved02 low)
  | retReserved04 low q r => exact decodeFields_dsReturn h q (.reserved04 low)
  | retReserved08 low q r => exact decodeFields_dsReturn h q (.reserved08 low)
  | retReserved10 low q r => exact decodeFields_dsReturn h q (.reserved10 low)
  | retReserved20 low q r => exact decodeFields_dsReturn h q (.reserved20 low)
  | retReserved40 low q r => exact decodeFields_dsReturn h q (.reserved40 low)
  | retReserved80 low q r => exact decodeFields_dsReturn h q (.reserved80 low)
  | requestPortWriteValid port => exact hport 0 port
  | writeRequest port req =>
    have hreq : decodeRequest cfg (encodeRequest cfg req) = .ok req := decodeRequest_encodeRequest h
    exact (decodePortOp_encodePortWord cfg 1 port _).trans (by rw [hreq]; rfl)
  | returnPortReadValid port => exact hport 2 port
  | peekReturn port => exact hport 3 port
  | readReturn port => exact hport 4 port
  | arbAdd a j => exact decodeArbOp_encodeArbOp 0 a j
  | arbRemove a j => exact decodeArbOp_encodeArbOp 1 a j
  | arbAdvance a => exact decodeArbOp_encodeArbOp 2 a 0
  | arbCurrent a => exact decodeArbOp_encodeArbOp 3 a 0
  | clockRise => rfl
  | clockFall => rfl
  | _ => exact decodeFields_request h _

/-- A record whose fields are read as an instruction is the encoding of it. -/
theorem encode_of_decodeFields {cfg : Config} {ch : Channel} {bytes : List Byte} {i : Instr}
    (h : decodeFields cfg ch bytes = .ok i) : encode cfg i = (ch, bytes) := by
  cases ch with
  | request =>
    simp only [decodeFields] at h
    split at h
    · rename_i req hreq
      cases h
      rw [encode_ofRequest, ← encodeRequest_of_decodeRequest hreq]
      rfl
    · cases h
  | dsRequest =>
    simp only [decodeFields] at h
    split at h
    · rename_i req hreq
      have hbytes := encodeRequest_of_decodeRequest hreq
      split at h
      · rename_i ht; cases h; rw [encode, ← hbytes, ← ht]; rfl
      · rename_i ht; cases h; rw [encode, ← hbytes, ← ht]; rfl
      · cases h
    · cases h
  | dsReturn q =>
    simp only [decodeFields] at h
    split at h
    · rename_i r hr
      cases h
      rw [encode_ofReturn, ← encodeReturn_of_decodeReturn hr]
      rfl
    · cases h
  | portOp => exact encode_of_decodePortOp h
  | arbOp => exact encode_of_decodeArbOp h
  | phaseOp => exact encode_of_decodePhaseOp h

/-- Decoding is reading the fields and then checking them against the configuration. -/
theorem decode_eq_ok_iff {cfg : Config} {ch : Channel} {bytes : List Byte} {i : Instr} :
    decode cfg ch bytes = .ok i ↔ decodeFields cfg ch bytes = .ok i ∧ i.check cfg = none := by
  constructor
  · intro h
    have hcheck := Machine.check_of_decode h
    unfold decode at h
    split at h
    · cases h
    · rename_i j hj
      split at h
      · cases h
      · cases h; exact ⟨hj, hcheck⟩
  · rintro ⟨hfields, hcheck⟩
    simp only [decode, hfields, hcheck]

/-- Settles O1: each channel's decoder reads back the records of its instructions. -/
theorem decodeReadsBackEveryEncoding : Obligations.DecodeReadsBackEveryEncoding := by
  intro cfg i h
  have hcheck : i.check cfg = none := Option.isNone_iff_eq_none.mp h
  exact decode_eq_ok_iff.mpr ⟨decodeFields_encode hcheck, hcheck⟩

/-- Settles O2: each channel's decoder answers instructions whose encoding is the record it read. -/
theorem everyDecodedRecordIsAnEncoding : Obligations.EveryDecodedRecordIsAnEncoding := by
  intro cfg ch bytes i h
  obtain ⟨hfields, hcheck⟩ := decode_eq_ok_iff.mp h
  exact ⟨Option.isNone_iff_eq_none.mpr hcheck, encode_of_decodeFields hfields⟩

/-- Settles O3: the written-out records are read by evaluation, and a code has a type exactly when it is the type's
code. -/
theorem writtenOutRecordsDecode : Obligations.WrittenOutRecordsDecode :=
  ⟨by decide, by decide, by decide, by decide, by decide, by decide,
    fun _ => ⟨ReqType.ofCode_eq_iff, ReqType.ofCode_eq_iff, RetType.ofCode_eq_iff, RetType.ofCode_eq_iff⟩⟩

end Sys2Proof
end

section
/-! PROOFS. What a record's step runs, and what the instructions of the refused request types and of the returns do
(30_encoding.md R81 to R83; 40_port_contract.md R98; 47_cycle.md R149). -/

namespace Sys2Proof.Machine

/-! ### Steps -/

/-- A step that finds a record runs it on the state without that event. -/
theorem step_record {s : State} {ch : Channel} {bytes : List Byte} {rest : List Event}
    (h : s.events = .record ch bytes :: rest) : step s = runRecord ch bytes { s with events := rest } := by
  simp only [step, h, runEvent]

/-- Settles O4: running a record is running what it decodes to, in the configuration that the events are no part of. -/
theorem stepRunsTheDecodedInstruction : Obligations.StepRunsTheDecodedInstruction := by
  intro s ch bytes rest h
  rw [step_record h]
  constructor
  · intro i hi
    simp only [runRecord, hi]
  · intro e he
    simp only [runRecord, he]

/-! ### Healthy operations -/

/-- NBC without a fault runs the operation. -/
theorem State.Healthy.whenRunning {s : State} (h : s.Healthy) (op : State → Result) : s.whenRunning op = op s := by
  simp [State.whenRunning, show s.fault = none from h]

/-- A port operation that passes the checks of port and phase (R94, R95). -/
theorem State.Healthy.onPort {s : State} (h : s.Healthy) {port : BitVec 16} (hport : port.toNat < s.cfg.numPorts)
    {ph : Phase} (hph : s.phase = ph) (op : State → Result) : s.onPort port ph op = op s := by
  simp only [State.onPort, h.whenRunning, if_neg (Nat.not_le.mpr hport), hph, ne_eq, not_true_eq_false, if_false]

/-! ### Requests -/

/-- An upstream request is its requester's call of `write_request` (30_encoding.md R91; log 4). -/
theorem exec_ofRequest (t : ReqType) (r : ReqBody) (s : State) :
    exec (Instr.ofRequest t r) s = s.writeRequest r.port (r.withType t) := by
  cases t <;> rfl

/-- `write_request` of a type that NBC does not serve, when the checks before that of the type pass (R98). -/
theorem writeRequest_badType {s : State} (h : s.Healthy) {req : Request} (hport : req.port.toNat < s.cfg.numPorts)
    (hph : s.phase = .fall) (hslot : s.reqSlot req.port.toNat = none) (ht : req.type ≠ .load ∧ req.type ≠ .store) :
    s.writeRequest req.port req = .next { s with fault := some .badType, resp := .nothing } := by
  rw [State.writeRequest, h.onPort hport hph, hslot, Option.isSome_none, if_neg Bool.false_ne_true,
    if_neg (not_not.mpr rfl), if_pos ht]
  rfl

/-- Settles O11: the fifteen rows are the requests of the fifteen types that are neither LOAD nor STORE. -/
theorem refusedTypesRaiseBadType : Obligations.RefusedTypesRaiseBadType := by
  intro s r n l2 l5 l6 l7 h hport hph hslot
  refine (List.forall_mem_map (f := fun t => Instr.ofRequest t r)
    (l := [.amoAdd, .amoXor, .amoOr, .amoAnd, .amoMin, .amoMax, .amoMinu, .amoMaxu, .prefetch, .custom n,
      .reserved0B, .reserved0C l2, .reserved20 l5, .reserved40 l6, .reserved80 l7])).mpr fun t ht => ?_
  have hrefused : t ≠ .load ∧ t ≠ .store := ⟨by rintro rfl; simp at ht, by rintro rfl; simp at ht⟩
  rw [exec_ofRequest]
  exact writeRequest_badType (req := r.withType t) h hport hph hslot hrefused

/-! ### Returns -/

/-- A return is received on its downstream port, whatever its type (R149; log 5). -/
theorem exec_ofReturn (q : BitVec 16) (t : RetType) (r : RetBody) (s : State) :
    exec (Instr.ofReturn q t r) s = s.receive q (r.withType t) := by
  cases t <;> rfl

/-- Two banks that use one downstream port are one bank (R9). -/
theorem dsPort_injective {cfg : Config} (h : 1 ≤ cfg.dsPortStride) {b c : Nat} (hbc : cfg.dsPort b = cfg.dsPort c) :
    b = c :=
  Nat.eq_of_mul_eq_mul_right h (Nat.add_left_cancel hbc)

/-- The bank of a port is the one that uses it (R56). -/
theorem bankOfDsPort_eq_some {cfg : Config} (h : 1 ≤ cfg.dsPortStride) {b q : Nat} (hb : b < cfg.numBanks)
    (hq : cfg.dsPort b = q) : cfg.bankOfDsPort q = some b := by
  rw [Config.bankOfDsPort, List.find?_range_eq_some]
  refine ⟨by simp [hq], List.mem_range.mpr hb, fun c hc => ?_⟩
  have hne : cfg.dsPort c ≠ q := fun hcq => absurd (dsPort_injective h (hcq.trans hq.symm)) (Nat.ne_of_lt hc)
  simp [hne]

/-- A port that no bank uses has no bank (R56). -/
theorem bankOfDsPort_eq_none {cfg : Config} {q : Nat} (h : ∀ b < cfg.numBanks, cfg.dsPort b ≠ q) :
    cfg.bankOfDsPort q = none := by
  rw [Config.bankOfDsPort, List.find?_range_eq_none]
  exact fun b hb => by simp [h b hb]

/-- A return joins the returns that wait on the port of bank `b` (R149). -/
theorem receive_used {s : State} (h : s.Healthy) (hstride : 1 ≤ s.cfg.dsPortStride) {q : BitVec 16} {b : Nat}
    (hb : b < s.cfg.numBanks) (hq : s.cfg.dsPort b = q.toNat) (r : Return) :
    s.receive q r =
      .next { s with ds := s.ds.set b { s.dsPort b with rets := (s.dsPort b).rets ++ [r] }, resp := .nothing } := by
  rw [State.receive, h.whenRunning, bankOfDsPort_eq_some hstride hb hq]
  rfl

/-- A return on a port that no bank uses changes nothing (40_port_contract.md R104). -/
theorem receive_unused {s : State} (h : s.Healthy) {q : BitVec 16}
    (hq : ∀ b < s.cfg.numBanks, s.cfg.dsPort b ≠ q.toNat) (r : Return) :
    s.receive q r = .next { s with resp := .nothing } := by
  rw [State.receive, h.whenRunning, bankOfDsPort_eq_none hq]
  rfl

/-- Settles O45: the nine rows are the returns of the nine types, and reception does not ask for the type. -/
theorem returnsAreReceived : Obligations.ReturnsAreReceived := by
  intro s q r l1 l2 l3 l4 l5 l6 l7 h hstride
  refine (List.forall_mem_map (f := fun t => (Instr.ofReturn q t r, t))
    (l := [.na, .loadReturn, .reserved02 l1, .reserved04 l2, .reserved08 l3, .reserved10 l4, .reserved20 l5,
      .reserved40 l6, .reserved80 l7])).mpr fun t _ => ?_
  rw [exec_ofReturn]
  exact ⟨fun b hb hq => receive_used h hstride hb hq _, fun hq => receive_unused h hq _⟩

end Sys2Proof.Machine
end

section
/-! PROOFS. Requests and returns wait in their slots (40_port_contract.md R99, R100, R102; 42_crossbar.md R117). -/

namespace Sys2Proof.Machine

/-! ### Reading a slot after a write -/

theorem State.reqSlot_congr {s t : State} (h : t.reqIn = s.reqIn) (p : Nat) : t.reqSlot p = s.reqSlot p := by
  rw [State.reqSlot, State.reqSlot, h]

theorem State.retSlot_congr {s t : State} (h : t.retOut = s.retOut) (p : Nat) : t.retSlot p = s.retSlot p := by
  rw [State.retSlot, State.retSlot, h]

/-- A request written to an empty slot overwrites none that waits. -/
theorem State.reqSlot_of_store {s t : State} {p q : Nat} {req r : Request} (hempty : s.reqSlot q = none)
    (ht : t.reqIn = s.reqIn.set q (some r)) (hp : s.reqSlot p = some req) : t.reqSlot p = some req := by
  have hne : q ≠ p := by rintro rfl; rw [hp] at hempty; cases hempty
  rw [State.reqSlot, ht, getD_set, if_neg fun h => hne h.1]
  exact hp

/-- A return written to an empty slot overwrites none that waits. -/
theorem State.retSlot_of_store {s t : State} {p q : Nat} {r : Return} {v : Option Return}
    (hempty : s.retSlot q = none) (ht : t.retOut = s.retOut.set q v) (hp : s.retSlot p = some r) :
    t.retSlot p = some r := by
  have hne : q ≠ p := by rintro rfl; rw [hp] at hempty; cases hempty
  rw [State.retSlot, ht, getD_set, if_neg fun h => hne h.1]
  exact hp

/-- Emptying a return slot empties that slot only. -/
theorem State.retSlot_of_take {s t : State} {q : Nat} (ht : t.retOut = s.retOut.set q none) (p : Nat) :
    t.retSlot p = s.retSlot p ∨ (q = p ∧ t.retSlot p = none) := by
  rw [State.retSlot, ht, getD_set]
  split
  · rename_i h; exact .inr ⟨h.1, rfl⟩
  · exact .inl rfl

/-! ### What an instruction does to the upstream slots -/

/-- What the instruction `i` can do to `REQ_IN` and `RET_OUT` on its way from `s` to `t`. -/
inductive SlotEffect (s t : State) : Instr → Prop
  /-- Both stay as they are. -/
  | keep {i : Instr} (hreq : t.reqIn = s.reqIn) (hret : t.retOut = s.retOut) : SlotEffect s t i
  /-- `write_request` fills an empty request slot (R97, R98). -/
  | store {i : Instr} (p : Nat) (req : Request) (hempty : s.reqSlot p = none)
      (hreq : t.reqIn = s.reqIn.set p (some req)) (hret : t.retOut = s.retOut) : SlotEffect s t i
  /-- `read_return` empties a return slot (R102). -/
  | take (port : BitVec 16) (hreq : t.reqIn = s.reqIn) (hret : t.retOut = s.retOut.set port.toNat none) :
      SlotEffect s t (.readReturn port)
  /-- A rise that does not fault reads requests (47_cycle.md R146). -/
  | rise (u : State) (hu : riseBanks (List.range s.cfg.numBanks) (registerRequests s) = .ok u)
      (hreq : t.reqIn = u.reqIn) (hret : t.retOut = s.retOut) : SlotEffect s t .clockRise
  /-- A fall routes returns (47_cycle.md R147). -/
  | fall (hreq : t.reqIn = s.reqIn)
      (hret : t.retOut = (routeReturns (fallBanks (List.range s.cfg.numBanks) s)).retOut) : SlotEffect s t .clockFall

theorem raise_slots {i : Instr} {s t : State} {c : FaultCode} (h : s.raise c = .next t) : SlotEffect s t i := by
  cases h; exact .keep rfl rfl

theorem finish_slots {i : Instr} {s u t : State} {r : Response} (hreq : u.reqIn = s.reqIn)
    (hret : u.retOut = s.retOut) (h : u.finish r = .next t) : SlotEffect s t i := by
  cases h; exact .keep hreq hret

theorem whenRunning_slots {i : Instr} {s t : State} {op : State → Result} (h : s.whenRunning op = .next t)
    (hop : op s = .next t → SlotEffect s t i) : SlotEffect s t i := by
  rcases whenRunning_next h with ⟨-, rfl⟩ | ⟨-, h⟩
  · exact .keep rfl rfl
  · exact hop h

theorem onPort_slots {i : Instr} {s t : State} {port : BitVec 16} {ph : Phase} {op : State → Result}
    (h : s.onPort port ph op = .next t) (hop : op s = .next t → SlotEffect s t i) : SlotEffect s t i := by
  refine whenRunning_slots h fun h => ?_
  split at h
  · exact raise_slots h
  · split at h
    · exact raise_slots h
    · exact hop h

theorem writeRequest_slots {i : Instr} {s t : State} {port : BitVec 16} {req : Request}
    (h : s.writeRequest port req = .next t) : SlotEffect s t i := by
  rcases writeRequest_next h with ⟨f, rfl⟩ | ⟨-, -, -, hempty, -, -, -, rfl⟩
  · exact .keep rfl rfl
  · exact .store port.toNat req hempty rfl rfl

theorem receive_slots {i : Instr} {s t : State} {q : BitVec 16} {r : Return} (h : s.receive q r = .next t) :
    SlotEffect s t i := by
  refine whenRunning_slots h fun h => ?_
  split at h
  · exact finish_slots rfl rfl h
  · rename_i b _
    exact finish_slots (s.setDsPort_reqIn b _) (s.setDsPort_retOut b _) h

theorem writeDownstream_slots {i : Instr} {s t : State} {req : Request} (h : s.writeDownstream req = .next t) :
    SlotEffect s t i := by
  rcases writeDownstream_next h with rfl | ⟨b, j, -, -, -, -, -, -, rfl⟩
  · exact .keep rfl rfl
  · exact .keep rfl rfl

theorem execRequestPortWriteValid_slots {i : Instr} {s t : State} {port : BitVec 16}
    (h : execRequestPortWriteValid port s = .next t) : SlotEffect s t i :=
  onPort_slots h (finish_slots rfl rfl)

theorem execReturnPortReadValid_slots {i : Instr} {s t : State} {port : BitVec 16}
    (h : execReturnPortReadValid port s = .next t) : SlotEffect s t i :=
  onPort_slots h (finish_slots rfl rfl)

theorem execPeekReturn_slots {i : Instr} {s t : State} {port : BitVec 16} (h : execPeekReturn port s = .next t) :
    SlotEffect s t i := by
  refine onPort_slots h fun h => ?_
  split at h
  · exact raise_slots h
  · exact finish_slots rfl rfl h

theorem execReadReturn_slots {s t : State} {port : BitVec 16} (h : execReadReturn port s = .next t) :
    SlotEffect s t (.readReturn port) := by
  refine onPort_slots h fun h => ?_
  split at h
  · exact raise_slots h
  · cases h; exact .take port rfl rfl

theorem onArb_slots {i : Instr} {s t : State} {a : ArbRef} {op : State → Result} (h : s.onArb a op = .next t)
    (hop : op s = .next t → SlotEffect s t i) : SlotEffect s t i := by
  refine whenRunning_slots h fun h => ?_
  split at h
  · cases h
  · exact hop h

/-- Writing an arbitrator writes no slot. -/
theorem setArb_slots {i : Instr} {s t : State} {a : ArbRef} {v : Arb} {r : Response}
    (h : (s.setArb a v).finish r = .next t) : SlotEffect s t i := by
  obtain ⟨-, hreq, hret, -⟩ := s.setArb_rest a v
  exact finish_slots hreq hret h

theorem execArbAdd_slots {i : Instr} {s t : State} {a : ArbRef} {j : BitVec 8} (h : execArbAdd a j s = .next t) :
    SlotEffect s t i := by
  refine onArb_slots h fun h => ?_
  split at h
  · cases h
  · exact setArb_slots h

theorem execArbRemove_slots {i : Instr} {s t : State} {a : ArbRef} {j : BitVec 8}
    (h : execArbRemove a j s = .next t) : SlotEffect s t i := by
  refine onArb_slots h fun h => ?_
  split at h
  · cases h
  · exact setArb_slots h

theorem execArbAdvance_slots {i : Instr} {s t : State} {a : ArbRef} (h : execArbAdvance a s = .next t) :
    SlotEffect s t i :=
  onArb_slots h setArb_slots

theorem execArbCurrent_slots {i : Instr} {s t : State} {a : ArbRef} (h : execArbCurrent a s = .next t) :
    SlotEffect s t i :=
  onArb_slots h (finish_slots rfl rfl)

theorem execClockRise_slots {s t : State} (h : execClockRise s = .next t) : SlotEffect s t .clockRise := by
  rcases execClockRise_next h with ⟨-, rfl⟩ | ⟨-, -, rfl⟩ | ⟨-, -, c, ds, -, rfl⟩ | ⟨-, -, u, hu, rfl⟩
  · exact .keep rfl rfl
  · exact .keep rfl rfl
  · exact .keep rfl rfl
  · obtain ⟨arbs, -, hreg⟩ := registerRequests_eq s
    have hret : u.retOut = (registerRequests s).retOut := (riseBanks_frame hu).retOut
    exact .rise u hu rfl (hret.trans (by rw [hreg]))

theorem execClockFall_slots {s t : State} (h : execClockFall s = .next t) : SlotEffect s t .clockFall := by
  rcases execClockFall_next h with ⟨-, rfl⟩ | ⟨-, -, rfl⟩ | ⟨-, -, rfl⟩
  · exact .keep rfl rfl
  · exact .keep rfl rfl
  · exact .fall ((fallBanks_frame _ s).trans (routeReturns_frame _)).reqIn rfl

/-- Everything an instruction can do to the upstream slots. -/
theorem exec_slots {i : Instr} {s t : State} (h : exec i s = .next t) : SlotEffect s t i := by
  cases i with
  | dsLoad _ => exact writeDownstream_slots h
  | dsStore _ => exact writeDownstream_slots h
  | na _ _ => exact receive_slots h
  | loadReturn _ _ => exact receive_slots h
  | retReserved02 _ _ _ => exact receive_slots h
  | retReserved04 _ _ _ => exact receive_slots h
  | retReserved08 _ _ _ => exact receive_slots h
  | retReserved10 _ _ _ => exact receive_slots h
  | retReserved20 _ _ _ => exact receive_slots h
  | retReserved40 _ _ _ => exact receive_slots h
  | retReserved80 _ _ _ => exact receive_slots h
  | requestPortWriteValid _ => exact execRequestPortWriteValid_slots h
  | returnPortReadValid _ => exact execReturnPortReadValid_slots h
  | peekReturn _ => exact execPeekReturn_slots h
  | readReturn _ => exact execReadReturn_slots h
  | arbAdd _ _ => exact execArbAdd_slots h
  | arbRemove _ _ => exact execArbRemove_slots h
  | arbAdvance _ => exact execArbAdvance_slots h
  | arbCurrent _ => exact execArbCurrent_slots h
  | clockRise => exact execClockRise_slots h
  | clockFall => exact execClockFall_slots h
  | _ => exact writeRequest_slots h

/-! ### The rise reads what it accepts -/

/-- On `s` bank `b` is granted the request `req` of port `p` and accepts it in its rise (42_crossbar.md R116, R117;
44_bank_accept.md R134, R135). -/
def State.Reads (s : State) (b p : Nat) (req : Request) : Prop :=
  (s.xreq b).current = some p ∧ handOff (pipelineAdvance (s.bank b)) = none ∧
    ∃ bk c, acceptRequest s.cfg b (pipelineAdvance (s.bank b)) req = .accepted bk c

/-- What a bank reads depends on its own elements and its request arbitrator only. -/
theorem State.Reads.congr {s u : State} {b p : Nat} {req : Request} (h : u.Reads b p req) (hcfg : u.cfg = s.cfg)
    (hbank : u.bank b = s.bank b) (hxreq : u.xreq b = s.xreq b) : s.Reads b p req := by
  rwa [State.Reads, hcfg, hbank, hxreq] at h

/-- A bank read back after its pipeline advance; a bank outside the array has no LFB to advance. -/
theorem State.bank_setBank_pipelineAdvance (s : State) (b : Nat) :
    (s.setBank b (pipelineAdvance (s.bank b))).bank b = pipelineAdvance (s.bank b) := by
  rw [State.bank_setBank]
  split
  · rfl
  · rename_i hb
    have habsent : s.bank b = Bank.absent := List.getD_eq_default _ _ (not_lt.mp fun h => hb ⟨rfl, h⟩)
    rw [habsent]
    rfl

/-- The fill step writes no request slot. -/
theorem fillStep_reqIn {b : Nat} {s t : State} (h : fillStep b s = .ok t) : t.reqIn = s.reqIn := by
  rcases fillStep_ok h with ⟨-, rfl⟩ | ⟨r, bk, -, -, rfl⟩
  · rfl
  · rfl

/-- A request that the acceptance step of a bank takes out of its slot was granted to the bank and accepted. -/
theorem acceptStep_reads_slot {b p : Nat} {s t : State} {req : Request} (h : acceptStep b s = .ok t)
    (hp : s.reqSlot p = some req) :
    t.reqSlot p = some req ∨ (t.reqSlot p = none ∧ (s.xreq b).current = some p ∧
      ∃ bk c, acceptRequest s.cfg b (s.bank b) req = .accepted bk c) := by
  rcases acceptStep_ok h with rfl | rfl | ⟨g, r, bk, c, hg, hr, ha, rfl⟩
  · exact .inl hp
  · exact .inl hp
  · by_cases hgp : g = p
    · subst hgp
      rw [hp] at hr
      cases hr
      refine .inr ⟨?_, hg, bk, c, ha⟩
      rw [State.reqSlot, getD_set]
      split
      · rfl
      · rename_i hlt
        exact List.getD_eq_default _ _ (not_lt.mp fun h => hlt ⟨rfl, h⟩)
    · left
      rw [State.reqSlot, getD_set, if_neg fun h => hgp h.1]
      exact hp

/-- A request that the rise of a bank takes out of its slot was granted to the bank and accepted. -/
theorem riseBank_reads_slot {b p : Nat} {s t : State} {req : Request} (h : riseBank b s = .ok t)
    (hp : s.reqSlot p = some req) : t.reqSlot p = some req ∨ (t.reqSlot p = none ∧ s.Reads b p req) := by
  obtain ⟨u, hu, hfill⟩ := riseBank_ok h
  rw [State.reqSlot_congr (fillStep_reqIn hfill)]
  rcases handOffOrAccept_ok hu with ⟨bk, -, rfl⟩ | ⟨hhand, hacc⟩
  · exact .inl hp
  · rw [State.bank_setBank_pipelineAdvance] at hhand
    rcases acceptStep_reads_slot hacc hp with hkept | ⟨hgone, hgrant, haccepted⟩
    · exact .inl hkept
    · rw [State.bank_setBank_pipelineAdvance] at haccepted
      exact .inr ⟨hgone, hgrant, hhand, haccepted⟩

/-- No rise of banks fills a request slot. -/
theorem riseBanks_keeps_empty {bs : List Nat} {p : Nat} {s t : State} (h : riseBanks bs s = .ok t)
    (hp : s.reqSlot p = none) : t.reqSlot p = none := by
  induction bs generalizing s with
  | nil => cases h; exact hp
  | cons b bs ih =>
    rw [riseBanks] at h
    split at h
    · rename_i u hu
      refine ih h ?_
      rcases riseBank_reqSlot hu p with he | ⟨-, he⟩
      · exact he.trans hp
      · exact he
    · cases h

/-- A request that the rises of different banks take out of its slot was granted to one of them and accepted: the
rises of the banks before it leave that bank as it was (10_state.md R40). -/
theorem riseBanks_reads_slot {bs : List Nat} {p : Nat} {s t : State} {req : Request} (hn : bs.Nodup)
    (h : riseBanks bs s = .ok t) (hp : s.reqSlot p = some req) :
    t.reqSlot p = some req ∨ (t.reqSlot p = none ∧ ∃ b ∈ bs, s.Reads b p req) := by
  induction bs generalizing s with
  | nil => cases h; exact .inl hp
  | cons b bs ih =>
    obtain ⟨hb, hn⟩ := List.nodup_cons.mp hn
    rw [riseBanks] at h
    split at h
    · rename_i u hu
      rcases riseBank_reads_slot hu hp with hkept | ⟨hgone, hreads⟩
      · rcases ih hn h hkept with hkept | ⟨hgone, c, hc, hreads⟩
        · exact .inl hkept
        · obtain ⟨hbank, -, hxreq⟩ := riseBank_other hu (b := c) fun hbc => hb (hbc ▸ hc)
          exact .inr ⟨hgone, c, List.mem_cons_of_mem b hc, hreads.congr (riseBank_frame hu).cfg hbank hxreq⟩
      · exact .inr ⟨riseBanks_keeps_empty h hgone, b, List.mem_cons_self, hreads⟩
    · cases h

/-- Settles O12: only `write_request` and `clock_rise` write a request slot; the one fills empty slots only, the other
empties those of the requests that it accepts. -/
theorem requestsWaitUntilRead : Obligations.RequestsWaitUntilRead := by
  intro i s t p req hp h
  cases exec_slots h with
  | keep hreq => exact .inl ((State.reqSlot_congr hreq p).trans hp)
  | store q r hempty hreq => exact .inl (State.reqSlot_of_store hempty hreq hp)
  | take port hreq => exact .inl ((State.reqSlot_congr hreq p).trans hp)
  | fall hreq => exact .inl ((State.reqSlot_congr hreq p).trans hp)
  | rise u hu hreq =>
    obtain ⟨arbs, -, hreg⟩ := registerRequests_eq s
    have hcfg : (registerRequests s).cfg = s.cfg := by rw [hreg]
    have hbank : ∀ b, (registerRequests s).bank b = s.bank b := fun b => by rw [hreg]; rfl
    have hwaits : (registerRequests s).reqSlot p = some req := by rw [hreg]; exact hp
    rw [State.reqSlot_congr hreq]
    rcases riseBanks_reads_slot List.nodup_range hu hwaits with hkept | ⟨hgone, b, hb, hgrant, hhand, haccepted⟩
    · exact .inl hkept
    · rw [hbank] at hhand haccepted
      rw [hcfg] at haccepted
      exact .inr ⟨rfl, hgone, b, List.mem_range.mp hb, hgrant, hhand, haccepted⟩

/-! ### The fall delivers to empty slots -/

theorem fallBanks_retOut (bs : List Nat) (s : State) : (fallBanks bs s).retOut = s.retOut := by
  induction bs generalizing s with
  | nil => rfl
  | cons b bs ih =>
    obtain ⟨-, -, hret, -⟩ := fallBank_rest b s
    exact (ih (fallBank b s)).trans hret

/-- Routing delivers to an empty slot only (42_crossbar.md R118). -/
theorem routePort_keeps_return {s : State} {p : Nat} {r : Return} (q : Nat) (hp : s.retSlot p = some r) :
    (routePort s q).retSlot p = some r := by
  rcases routePort_spec s q with h | ⟨g, hempty, -, h⟩
  · rw [h]; exact hp
  · rw [h]; exact State.retSlot_of_store hempty rfl hp

theorem routeReturns_keeps_return {s : State} {p : Nat} {r : Return} (hp : s.retSlot p = some r) :
    (routeReturns s).retSlot p = some r :=
  List.foldlRecOn (motive := fun u => u.retSlot p = some r) _ routePort hp fun _ hu q _ => routePort_keeps_return q hu

/-- Settles O13: only `read_return` and `clock_fall` write a return slot; the one empties its own port's, the other
fills empty slots only. -/
theorem returnsWaitUntilRead : Obligations.ReturnsWaitUntilRead := by
  intro i s t p r hp h
  cases exec_slots h with
  | keep _ hret => exact .inl ((State.retSlot_congr hret p).trans hp)
  | store _ _ _ _ hret => exact .inl ((State.retSlot_congr hret p).trans hp)
  | rise _ _ _ hret => exact .inl ((State.retSlot_congr hret p).trans hp)
  | take port _ hret =>
    rcases State.retSlot_of_take hret p with hkept | ⟨hport, hgone⟩
    · exact .inl (hkept.trans hp)
    · exact .inr ⟨port, rfl, hport, hgone⟩
  | fall _ hret =>
    have hwaits : (fallBanks (List.range s.cfg.numBanks) s).retSlot p = some r :=
      (State.retSlot_congr (fallBanks_retOut _ s) p).trans hp
    exact .inl ((State.retSlot_congr hret p).trans (routeReturns_keeps_return hwaits))

end Sys2Proof.Machine
end

section
/-! PROOFS. The operations of the port contract: their checks in order, and what they do when these pass
(40_port_contract.md R94 to R102; 47_cycle.md R146, R147). -/

namespace Sys2Proof.Machine

/-! ### The checks of port and phase -/

/-- A healthy port operation checks the port (R94), then the phase (R95). -/
theorem State.Healthy.onPort_eq {s : State} (h : s.Healthy) (port : BitVec 16) (ph : Phase) (op : State → Result) :
    s.onPort port ph op =
      if s.cfg.numPorts ≤ port.toNat then s.raise .portRange
      else if s.phase ≠ ph then s.raise .badPhase
      else op s :=
  h.whenRunning _

theorem State.Healthy.onPort_portRange {s : State} (h : s.Healthy) {port : BitVec 16}
    (hport : s.cfg.numPorts ≤ port.toNat) (ph : Phase) (op : State → Result) :
    s.onPort port ph op = .next { s with fault := some .portRange, resp := .nothing } := by
  rw [h.onPort_eq, if_pos hport]
  rfl

theorem State.Healthy.onPort_badPhase {s : State} (h : s.Healthy) {port : BitVec 16}
    (hport : port.toNat < s.cfg.numPorts) {ph : Phase} (hph : s.phase ≠ ph) (op : State → Result) :
    s.onPort port ph op = .next { s with fault := some .badPhase, resp := .nothing } := by
  rw [h.onPort_eq, if_neg (Nat.not_le.mpr hport), if_pos hph]
  rfl

theorem exec_requestPortWriteValid (port : BitVec 16) (s : State) :
    exec (.requestPortWriteValid port) s =
      s.onPort port .fall fun s => s.finish (.answer (s.reqSlot port.toNat).isNone) := rfl

theorem exec_returnPortReadValid (port : BitVec 16) (s : State) :
    exec (.returnPortReadValid port) s =
      s.onPort port .rise fun s => s.finish (.answer (s.retSlot port.toNat).isSome) := rfl

theorem Phase.ne_fall_of_rise {ph : Phase} (h : ph = .rise) : ph ≠ .fall := by
  rw [h]; decide

theorem Phase.ne_rise_of_fall {ph : Phase} (h : ph = .fall) : ph ≠ .rise := by
  rw [h]; decide

/-- Settles O6: the queries have the two checks of every port operation and no other. -/
theorem validityQueriesAnswer : Obligations.ValidityQueriesAnswer := by
  intro s port h
  constructor
  · intro hport
    refine List.forall_mem_cons.mpr ⟨?_, List.forall_mem_singleton.mpr ?_⟩
    · rw [exec_requestPortWriteValid]; exact h.onPort_portRange hport _ _
    · rw [exec_returnPortReadValid]; exact h.onPort_portRange hport _ _
  · intro hport
    rw [exec_requestPortWriteValid, exec_returnPortReadValid]
    refine ⟨fun hfall => ?_, fun hrise => ?_, fun hrise => ?_, fun hfall => ?_⟩
    · exact h.onPort hport hfall _
    · exact h.onPort_badPhase hport (Phase.ne_fall_of_rise hrise) _
    · exact h.onPort hport hrise _
    · exact h.onPort_badPhase hport (Phase.ne_rise_of_fall hfall) _

/-! ### Reading a return -/

/-- What `peek_return` and `read_return` share: the checks of the port, the phase and the slot, then `give` on the
return that waits (R101, R102). -/
def State.onReturn (s : State) (port : BitVec 16) (give : State → Return → Result) : Result :=
  s.onPort port .rise fun s =>
    match s.retSlot port.toNat with
    | none => s.raise .readNotValid
    | some r => give s r

theorem exec_peekReturn (port : BitVec 16) (s : State) :
    exec (.peekReturn port) s = s.onReturn port fun s r => s.finish (.gave r) := rfl

theorem exec_readReturn (port : BitVec 16) (s : State) :
    exec (.readReturn port) s = s.onReturn port fun s r =>
      ({ s with retOut := s.retOut.set port.toNat none } : State).finish (.gave r) := rfl

/-- The checks of `peek_return` and `read_return` in their order: the fault of the first that fails (R101, R102). -/
def State.readCheck (s : State) (port : BitVec 16) : Option FaultCode :=
  if s.cfg.numPorts ≤ port.toNat then some FaultCode.portRange
  else if s.phase ≠ .rise then some .badPhase
  else if s.retSlot port.toNat = none then some .readNotValid
  else none

theorem State.Healthy.onReturn_fault {s : State} (h : s.Healthy) {port : BitVec 16} {c : FaultCode}
    (hc : s.readCheck port = some c) (give : State → Return → Result) :
    s.onReturn port give = .next { s with fault := some c, resp := .nothing } := by
  rw [State.onReturn, h.onPort_eq]
  unfold State.readCheck at hc
  split at hc
  · rename_i hport; cases hc; rw [if_pos hport]; rfl
  · rename_i hport
    rw [if_neg hport]
    split at hc
    · rename_i hph; cases hc; rw [if_pos hph]; rfl
    · rename_i hph
      rw [if_neg hph]
      split at hc
      · rename_i hslot; cases hc; simp only [hslot]; rfl
      · cases hc

theorem State.Healthy.onReturn_some {s : State} (h : s.Healthy) {port : BitVec 16} {r : Return}
    (hport : port.toNat < s.cfg.numPorts) (hph : s.phase = .rise) (hslot : s.retSlot port.toNat = some r)
    (give : State → Return → Result) : s.onReturn port give = give s r := by
  rw [State.onReturn, h.onPort hport hph, hslot]

theorem readOps_fault {s : State} (h : s.Healthy) {port : BitVec 16} {c : FaultCode}
    (hc : s.readCheck port = some c) : ∀ i ∈ [Instr.peekReturn port, .readReturn port],
      exec i s = .next { s with fault := some c, resp := .nothing } := by
  refine List.forall_mem_cons.mpr ⟨?_, List.forall_mem_singleton.mpr ?_⟩
  · rw [exec_peekReturn]; exact h.onReturn_fault hc _
  · rw [exec_readReturn]; exact h.onReturn_fault hc _

/-- Settles O7: both operations are `onReturn`, and differ in what they do with the return. -/
theorem peekAndReadGiveTheReturn : Obligations.PeekAndReadGiveTheReturn := by
  intro s port h
  constructor
  · intro r hport hph hslot
    rw [exec_peekReturn, exec_readReturn, h.onReturn_some hport hph hslot, h.onReturn_some hport hph hslot]
    exact ⟨rfl, rfl⟩
  · intro c hc
    exact readOps_fault h hc

/-! ### Writing a request -/

theorem exec_writeRequest (port : BitVec 16) (req : Request) (s : State) :
    exec (.writeRequest port req) s = s.writeRequest port req := rfl

/-- The checks of `write_request` in their order: the fault of the first that fails (R98). -/
def State.writeCheck (s : State) (port : BitVec 16) (req : Request) : Option FaultCode :=
  if s.cfg.numPorts ≤ port.toNat then some FaultCode.portRange
  else if s.phase ≠ .fall then some .badPhase
  else if s.reqSlot port.toNat ≠ none then some .writeNotValid
  else if req.port ≠ port then some .portMismatch
  else if req.type ≠ .load ∧ req.type ≠ .store then some .badType
  else if req.size = 0 ∨ s.cfg.blockSize < s.cfg.offset req.address + req.size.toNat then some .badSize
  else none

/-- A request lies in one block when it has a byte and its last byte is in the block of its first (R98). -/
theorem fitsBlock_iff {cfg : Config} {req : Request} :
    fitsBlock cfg req = true ↔ req.size ≠ 0 ∧ cfg.offset req.address + req.size.toNat ≤ cfg.blockSize := by
  have hsize : 1 ≤ req.size.toNat ↔ req.size ≠ 0 := by bv_omega
  rw [fitsBlock, Bool.and_eq_true, decide_eq_true_eq, decide_eq_true_eq, hsize]

theorem not_fitsBlock_iff {cfg : Config} {req : Request} :
    (!fitsBlock cfg req) = true ↔ req.size = 0 ∨ cfg.blockSize < cfg.offset req.address + req.size.toNat := by
  rw [Bool.not_eq_true', ← Bool.not_eq_true, fitsBlock_iff, not_and_or, not_not, Nat.not_le]

/-- `write_request` faults with what its checks find, or stores the request (R97, R98). -/
theorem State.Healthy.writeRequest_eq {s : State} (h : s.Healthy) (port : BitVec 16) (req : Request) :
    s.writeRequest port req = (s.writeCheck port req).elim
      (.next { s with reqIn := s.reqIn.set port.toNat (some req), resp := .nothing })
      fun c => .next { s with fault := some c, resp := .nothing } := by
  rw [State.writeRequest, h.onPort_eq, State.writeCheck]
  simp only [Option.isSome_iff_ne_none, not_fitsBlock_iff]
  split_ifs <;> rfl

theorem writeCheck_eq_none {s : State} {port : BitVec 16} {req : Request} (hport : port.toNat < s.cfg.numPorts)
    (hph : s.phase = .fall) (hslot : s.reqSlot port.toNat = none) (hreq : req.port = port)
    (ht : req.type = .load ∨ req.type = .store) (hsize : req.size ≠ 0)
    (hfits : s.cfg.offset req.address + req.size.toNat ≤ s.cfg.blockSize) : s.writeCheck port req = none := by
  rw [State.writeCheck, if_neg (Nat.not_le.mpr hport), if_neg (not_not.mpr hph), if_neg (not_not.mpr hslot),
    if_neg (not_not.mpr hreq), if_neg (by rw [← not_or]; exact not_not.mpr ht),
    if_neg (not_or.mpr ⟨hsize, Nat.not_lt.mpr hfits⟩)]

/-- Settles O9: the checks in the order of R98 decide what `write_request` does. -/
theorem writeRequestChecksInOrder : Obligations.WriteRequestChecksInOrder := by
  intro s port req h
  rw [exec_writeRequest, h.writeRequest_eq]
  constructor
  · intro c hc
    have hcheck : s.writeCheck port req = some c := hc
    rw [hcheck]
    rfl
  · intro hport hph hslot hreq ht hsize hfits
    rw [writeCheck_eq_none hport hph hslot hreq ht hsize hfits]
    rfl

/-- Settles O8: the four are one call of `write_request`, with a request of type LOAD or STORE. -/
theorem writeRequestStoresTheRequest : Obligations.WriteRequestStoresTheRequest := by
  intro s r h hport hph hslot hsize hfits
  have hstores : ∀ t : ReqType, t = .load ∨ t = .store → s.writeRequest r.port (r.withType t) =
      .next { s with reqIn := s.reqIn.set r.port.toNat (some (r.withType t)), resp := .nothing } := by
    intro t ht
    have hne : r.size ≠ 0 := by bv_omega
    rw [h.writeRequest_eq, writeCheck_eq_none (req := r.withType t) hport hph hslot rfl ht hne hfits]
    rfl
  have hload := hstores .load (.inl rfl)
  have hstore := hstores .store (.inr rfl)
  exact ⟨hload, hstore, hload, hstore⟩

/-! ### The wrong phase and the empty slot -/

/-- Settles O10: the checks of the phase, and of the slot where there is one to read. -/
theorem wrongPhasesAndEmptySlotsFault : Obligations.WrongPhasesAndEmptySlotsFault := by
  intro s port req h
  refine ⟨fun hport hrise => ?_, fun hport hfall => ?_, fun hfall => ?_, fun hrise => ?_, fun hport hrise hslot => ?_⟩
  · have hph := Phase.ne_fall_of_rise hrise
    refine List.forall_mem_cons.mpr ⟨?_, List.forall_mem_singleton.mpr ?_⟩
    · rw [exec_requestPortWriteValid]; exact h.onPort_badPhase hport hph _
    · rw [exec_writeRequest]; exact h.onPort_badPhase hport hph _
  · have hph := Phase.ne_rise_of_fall hfall
    refine List.forall_mem_cons.mpr ⟨?_, readOps_fault h ?_⟩
    · rw [exec_returnPortReadValid]; exact h.onPort_badPhase hport hph _
    · rw [State.readCheck, if_neg (Nat.not_le.mpr hport), if_pos hph]
  · rw [exec, execClockRise, h.whenRunning, if_neg (Phase.ne_rise_of_fall hfall)]
    rfl
  · rw [exec, execClockFall, h.whenRunning, if_neg (Phase.ne_fall_of_rise hrise)]
    rfl
  · refine readOps_fault h ?_
    rw [State.readCheck, if_neg (Nat.not_le.mpr hport), if_neg (not_not.mpr hrise), if_pos hslot]

end Sys2Proof.Machine
end

section
/-! PROOFS. The RoundRobinArbitrator: the next pending index, fairness while the mask stands, and the four operations
on NBC's own arbitrators (41_round_robin.md R106 to R111; log 12). -/

namespace Sys2Proof.Machine

/-! ### The cyclic order of the indices -/

/-- At most one turn from `p`, the index `e` places on: wrapped once, if at all. -/
theorem add_mod_of_lt_of_le {p e w : Nat} (hp : p < w) (he : e ≤ w) :
    (p + e) % w = if p + e < w then p + e else p + e - w := by
  split
  case isTrue h => exact Nat.mod_eq_of_lt h
  case isFalse h => rw [Nat.mod_eq_sub_mod (Nat.le_of_not_lt h), Nat.mod_eq_of_lt (by omega)]

/-- The way from `p` up to an index not below it. -/
theorem add_sub_mod_of_le {p i w : Nat} (h : p ≤ i) (hi : i < w) : (p + (i - p)) % w = i := by
  rw [Nat.add_sub_cancel' h, Nat.mod_eq_of_lt hi]

/-- The way from `p` over the end to an index. -/
theorem add_wrap_mod_of_le {p i w : Nat} (hp : p ≤ w) (hi : i < w) : (p + (w + i - p)) % w = i := by
  rw [Nat.add_sub_cancel' (hp.trans (Nat.le_add_right w i)), Nat.add_mod_left, Nat.mod_eq_of_lt hi]

/-- Every index lies between one place and a full turn on from every pointer. -/
theorem exists_add_mod_eq {p i w : Nat} (hp : p < w) (hi : i < w) : ∃ d, 1 ≤ d ∧ d ≤ w ∧ (p + d) % w = i := by
  rcases Nat.lt_or_ge p i with h | h
  · exact ⟨i - p, by omega, by omega, add_sub_mod_of_le h.le hi⟩
  · exact ⟨w + i - p, by omega, by omega, add_wrap_mod_of_le hp.le hi⟩

/-! ### The next pending index (R108) -/

/-- With something pending, `advance()` moves the pointer on by the least positive number of places that leads to a
pending index. -/
theorem Arb.Fits.advance_next {w : Nat} {a : Arb} (h : a.Fits w) (hm : a.mask ≠ 0) :
    ∃ d, 1 ≤ d ∧ d ≤ w ∧ a.advance w = { a with ptr := (a.ptr + d) % w } ∧
      a.mask.testBit ((a.ptr + d) % w) = true ∧
      ∀ e, 1 ≤ e → e < d → a.mask.testBit ((a.ptr + e) % w) = false := by
  obtain ⟨hmask, hptr⟩ := h
  rcases a.advance_spec w with ⟨i, hi, hlt, hbit, hbelow, hadv⟩ | ⟨i, hi, hbit, habove, hbelow, hadv⟩ | ⟨hnone, -⟩
  case inl =>
    have hd := add_sub_mod_of_le hlt.le hi
    refine ⟨i - a.ptr, by omega, by omega, by rw [hd, hadv], by rw [hd, hbit], fun e he hed => ?_⟩
    rw [Nat.mod_eq_of_lt (by omega)]
    exact hbelow _ (by omega) (by omega)
  case inr.inl =>
    have hle : i ≤ a.ptr := by
      by_contra hc
      rw [habove i (Nat.lt_of_not_le hc) hi] at hbit
      cases hbit
    have hd := add_wrap_mod_of_le hptr.le hi
    refine ⟨w + i - a.ptr, by omega, by omega, by rw [hd, hadv], by rw [hd, hbit], fun e he hed => ?_⟩
    rw [add_mod_of_lt_of_le hptr (by omega)]
    split
    case isTrue hw => exact habove _ (by omega) hw
    case isFalse => exact hbelow _ (by omega)
  case inr.inr =>
    obtain ⟨i, hbit⟩ := Nat.exists_testBit_of_ne_zero hm
    rw [hnone i (lt_of_testBit hmask hbit)] at hbit
    cases hbit

/-- With nothing pending, `advance()` changes nothing. -/
theorem Arb.advance_of_mask_eq_zero {a : Arb} (w : Nat) (hm : a.mask = 0) : a.advance w = a := by
  rcases a.advance_spec w with ⟨i, -, -, hbit, -, -⟩ | ⟨i, -, hbit, -, -, -⟩ | ⟨-, hadv⟩
  · simp [hm] at hbit
  · simp [hm] at hbit
  · exact hadv

/-- Settles O19: the pointer goes the least number of places on that leads to a pending index, and the other three
operations are about one bit. -/
theorem advanceGoesToTheNextPending : Obligations.AdvanceGoesToTheNextPending := by
  intro w a h
  refine ⟨Arb.advance_of_mask_eq_zero w, fun hm => ?_, rfl,
    fun i hi => ⟨rfl, rfl, h.add hi, h.remove i, fun j => ⟨?_, ?_⟩⟩⟩
  · obtain ⟨d, hd1, hdw, hadv, hbit, hskip⟩ := h.advance_next hm
    refine ⟨d, hd1, hdw, hadv, ?_, hskip⟩
    rw [hadv, Arb.current_eq_some]
    exact ⟨rfl, hbit⟩
  · rw [Arb.add_mask_testBit, decide_eq_decide.mpr eq_comm]
  · rw [Arb.remove_mask_testBit, ← decide_not, decide_eq_decide.mpr ne_comm]

/-! ### Fairness (R111) -/

/-- A pending requester `g` places on from the pointer is granted within `g` advances: each of them comes closer to it
and none passes it. -/
theorem Arb.Fits.granted_within {w i g : Nat} {a : Arb} (h : a.Fits w) (hi : a.mask.testBit i = true) (hg1 : 1 ≤ g)
    (hg : (a.ptr + g) % w = i) : ∃ n, 1 ≤ n ∧ n ≤ g ∧ ((Arb.advance w)^[n] a).current = some i := by
  induction g using Nat.strong_induction_on generalizing a with
  | _ g ih =>
    have hm : a.mask ≠ 0 := fun h0 => by simp [h0] at hi
    obtain ⟨d, hd1, -, hadv, hbit, hskip⟩ := h.advance_next hm
    have hdg : d ≤ g := by
      by_contra hc
      rw [← hg, hskip g hg1 (Nat.lt_of_not_le hc)] at hi
      cases hi
    rcases Nat.eq_or_lt_of_le hdg with rfl | hlt
    · refine ⟨1, le_rfl, hd1, ?_⟩
      rw [Function.iterate_one, hadv, Arb.current_eq_some]
      exact ⟨hg.symm, hi⟩
    · have hgap : ((a.advance w).ptr + (g - d)) % w = i := by
        rw [hadv, Nat.mod_add_mod, Nat.add_assoc, Nat.add_sub_cancel' hdg, hg]
      obtain ⟨n, hn1, hng, hgrant⟩ :=
        ih (g - d) (by omega) h.advance (by rwa [Arb.advance_mask]) (by omega) hgap
      exact ⟨n + 1, by omega, by omega, by rwa [Function.iterate_succ_apply]⟩

/-- Settles O20: a pending requester is at most a full turn on from the pointer. -/
theorem roundRobinIsFair : Obligations.RoundRobinIsFair := by
  intro w a i h hi
  obtain ⟨g, hg1, hgw, hg⟩ := exists_add_mod_eq h.2 (lt_of_testBit h.1 hi)
  obtain ⟨n, hn1, hng, hgrant⟩ := h.granted_within hi hg1 hg
  exact ⟨n, hn1, hng.trans hgw, hgrant⟩

/-! ### An arbitrator of the state read back after a write -/

/-- The arbitrator written reads back as the value written, if NBC has it. -/
theorem State.WellSized.arb_setArb {s : State} (hs : s.WellSized) {a : ArbRef} (ha : a.number < s.cfg.arbCount a)
    (v : Arb) : (s.setArb a v).arb a = v := by
  cases a with
  | xreq b => exact (getD_set ..).trans (if_pos ⟨rfl, hs.xreqCount.symm ▸ ha⟩)
  | xret p => exact (getD_set ..).trans (if_pos ⟨rfl, hs.xretCount.symm ▸ ha⟩)
  | lfb b =>
    have hb : b.toNat < s.banks.length := hs.bankCount.symm ▸ ha
    rw [State.arb, State.setArb, State.bank_setBank, if_pos ⟨rfl, hb⟩]

/-- The banks outside their arbitrators are the same after an arbitrator is written. -/
theorem State.bank_setArb (s : State) (a : ArbRef) (v : Arb) (b : Nat) :
    { (s.setArb a v).bank b with lfbArb := (s.bank b).lfbArb } = s.bank b := by
  cases a with
  | xreq c => rfl
  | xret p => rfl
  | lfb c =>
    rw [State.setArb, State.bank_setBank]
    split
    case isTrue h => rw [h.1]
    case isFalse => rfl

/-- Another arbitrator than the one written reads as before. -/
theorem State.arb_setArb_ne (s : State) {a a' : ArbRef} (h : a' ≠ a) (v : Arb) :
    (s.setArb a v).arb a' = s.arb a' := by
  cases a with
  | xreq b =>
    cases a' with
    | xreq b' => exact (getD_set ..).trans (if_neg fun hc => h (by rw [BitVec.eq_of_toNat_eq hc.1]))
    | xret p' => rfl
    | lfb b' => rfl
  | xret p =>
    cases a' with
    | xreq b' => rfl
    | xret p' => exact (getD_set ..).trans (if_neg fun hc => h (by rw [BitVec.eq_of_toNat_eq hc.1]))
    | lfb b' => rfl
  | lfb b =>
    cases a' with
    | xreq b' => rfl
    | xret p' => rfl
    | lfb b' =>
      have hb : b.toNat ≠ b'.toNat := fun hc => h (by rw [BitVec.eq_of_toNat_eq hc])
      rw [State.arb, State.setArb, State.bank_setBank_ne _ _ hb, State.arb]

/-- Only the three kinds of element that hold arbitrators are written. -/
theorem State.setArb_frame (s : State) (a : ArbRef) (v : Arb) :
    { s.setArb a v with xreqArb := s.xreqArb, xretArb := s.xretArb, banks := s.banks } = s := by
  cases a <;> rfl

/-! ### The arbitrator operations (log 12) -/

theorem exec_arbAdd (a : ArbRef) (i : BitVec 8) (s : State) :
    exec (.arbAdd a i) s = s.onArb a fun s =>
      if s.cfg.arbWidth a ≤ i.toNat then .fault .indexOutOfRange
      else (s.setArb a ((s.arb a).add i.toNat)).finish .nothing := rfl

theorem exec_arbRemove (a : ArbRef) (i : BitVec 8) (s : State) :
    exec (.arbRemove a i) s = s.onArb a fun s =>
      if s.cfg.arbWidth a ≤ i.toNat then .fault .indexOutOfRange
      else (s.setArb a ((s.arb a).remove i.toNat)).finish .nothing := rfl

theorem exec_arbAdvance (a : ArbRef) (s : State) :
    exec (.arbAdvance a) s =
      s.onArb a fun s => (s.setArb a ((s.arb a).advance (s.cfg.arbWidth a))).finish .nothing := rfl

theorem exec_arbCurrent (a : ArbRef) (s : State) :
    exec (.arbCurrent a) s = s.onArb a fun s => s.finish (.grant (s.arb a).current) := rfl

/-- A healthy arbitrator operation has one check: NBC has the arbitrator. -/
theorem State.Healthy.onArb_eq {s : State} (h : s.Healthy) (a : ArbRef) (op : State → Result) :
    s.onArb a op = if s.cfg.arbCount a ≤ a.number then .fault .noSuchArbitrator else op s :=
  h.whenRunning _

/-- Settles O21: on an arbitrator that NBC has, each operation is its one write, which reads back as written. -/
theorem arbOperationsRunOnOneArbitrator : Obligations.ArbOperationsRunOnOneArbitrator := by
  intro s a i h hs ha
  have hrun (op : State → Result) : s.onArb a op = op s := by rw [h.onArb_eq, if_neg (Nat.not_le.mpr ha)]
  refine ⟨fun hi => ⟨?_, ?_⟩, ?_, ?_, fun v =>
    ⟨hs.arb_setArb ha v, fun _ hne => s.arb_setArb_ne hne v, s.bank_setArb a v, s.setArb_frame a v⟩⟩
  · rw [exec_arbAdd, hrun, if_neg (Nat.not_le.mpr hi), State.finish]
  · rw [exec_arbRemove, hrun, if_neg (Nat.not_le.mpr hi), State.finish]
  · rw [exec_arbAdvance, hrun, State.finish]
  · rw [exec_arbCurrent, hrun, State.finish]

end Sys2Proof.Machine
end

section
/-! PROOFS. The registration step: which ports the request arbitrators offer and grant (42_crossbar.md R115, R116). -/

namespace Sys2Proof.Machine

/-! ### Grants -/

/-- An arbitrator of width `w` with something pending grants after its advance (41_round_robin.md R108, R109). -/
theorem Arb.advance_current_ne_none {w i : Nat} {a : Arb} (hi : i < w) (hbit : a.mask.testBit i = true) :
    (a.advance w).current ≠ none := by
  have hgrant {j : Nat} (hj : a.mask.testBit j = true) (hadv : a.advance w = { a with ptr := j }) :
      (a.advance w).current ≠ none := by
    rw [hadv, Arb.current_eq_some.mpr ⟨rfl, hj⟩]
    exact Option.some_ne_none j
  rcases a.advance_spec w with ⟨j, -, -, hj, -, hadv⟩ | ⟨j, -, hj, -, -, hadv⟩ | ⟨hnone, -⟩
  · exact hgrant hj hadv
  · exact hgrant hj hadv
  · rw [hnone i hi] at hbit
    cases hbit

/-! ### The ports that register -/

/-- A request for bank `b` waits in the slot of port `i`. -/
def State.requests (s : State) (b i : Nat) : Bool :=
  match s.reqSlot i with
  | some req => decide (s.cfg.bank req.address = b)
  | none => false

theorem State.requests_of_slot {s : State} {b i : Nat} {req : Request} (h : s.reqSlot i = some req) :
    s.requests b i = decide (s.cfg.bank req.address = b) := by
  rw [State.requests, h]

/-- Only the configuration's ports request. -/
theorem State.WellSized.lt_of_requests {s : State} (h : s.WellSized) {b i : Nat} (hr : s.requests b i = true) :
    i < s.cfg.numPorts := by
  unfold State.requests at hr
  split at hr
  · rename_i req hreq; exact h.lt_of_reqSlot hreq
  · cases hr

@[simp] theorem registerPort_requests (s : State) (p b i : Nat) : (registerPort s p).requests b i = s.requests b i := by
  unfold registerPort
  split <;> rfl

@[simp] theorem registerPort_xreqArb_length (s : State) (p : Nat) :
    (registerPort s p).xreqArb.length = s.xreqArb.length := by
  unfold registerPort
  split
  · rfl
  · exact List.length_set

/-- The arbitrator of bank `b` after port `p` registers: the port is added if it requests the bank (R115). -/
theorem registerPort_xreq (s : State) (p : Nat) {b : Nat} (hb : b < s.xreqArb.length) :
    (registerPort s p).xreq b = if s.requests b p then (s.xreq b).add p else s.xreq b := by
  unfold registerPort
  split
  case h_1 hslot => simp [State.requests, hslot]
  case h_2 req hslot =>
    rw [State.requests_of_slot hslot]
    by_cases hbank : s.cfg.bank req.address = b
    · subst hbank
      simp [State.xreq, hb]
    · simp [State.xreq, hbank]

theorem registerPort_xreq_ptr (s : State) (p : Nat) {b : Nat} (hb : b < s.xreqArb.length) :
    ((registerPort s p).xreq b).ptr = (s.xreq b).ptr := by
  rw [registerPort_xreq s p hb]
  split <;> rfl

theorem registerPort_xreq_testBit (s : State) (p : Nat) {b : Nat} (hb : b < s.xreqArb.length) (i : Nat) :
    ((registerPort s p).xreq b).mask.testBit i =
      ((s.xreq b).mask.testBit i || (decide (i = p) && s.requests b i)) := by
  rw [registerPort_xreq s p hb]
  by_cases hip : i = p
  · subst hip
    cases hr : s.requests b i <;> simp
  · split
    · simp [hip, Ne.symm hip]
    · simp [hip]

/-- The arbitrator of bank `b` after the ports `l` register. -/
theorem foldl_registerPort_xreq (l : List Nat) (s : State) {b : Nat} (hb : b < s.xreqArb.length) :
    ((l.foldl registerPort s).xreq b).ptr = (s.xreq b).ptr ∧
      ∀ i, ((l.foldl registerPort s).xreq b).mask.testBit i =
        ((s.xreq b).mask.testBit i || (decide (i ∈ l) && s.requests b i)) := by
  induction l generalizing s with
  | nil => simp
  | cons p l ih =>
    obtain ⟨hptr, hmask⟩ := ih (registerPort s p) (by simpa using hb)
    refine ⟨hptr.trans (registerPort_xreq_ptr s p hb), fun i => ?_⟩
    rw [List.foldl_cons, hmask, registerPort_xreq_testBit s p hb, registerPort_requests, Bool.or_assoc,
      ← Bool.and_or_distrib_right]
    simp only [List.mem_cons, Bool.decide_or]

/-! ### The registration step -/

/-- The arbitrator of bank `b` before the advance of R115: every waiting request for the bank is added. -/
theorem registerRequests_xreq {s : State} (hs : s.WellSized) {b : Nat} (hb : b < s.cfg.numBanks) :
    ∃ a : Arb, (registerRequests s).xreq b = a.advance s.cfg.numPorts ∧ a.ptr = (s.xreq b).ptr ∧
      ∀ i, a.mask.testBit i = ((s.xreq b).mask.testBit i || s.requests b i) := by
  have hlt : b < s.xreqArb.length := hs.xreqCount ▸ hb
  obtain ⟨hptr, hmask⟩ := foldl_registerPort_xreq (List.range s.cfg.numPorts) s hlt
  refine ⟨((List.range s.cfg.numPorts).foldl registerPort s).xreq b, ?_, hptr, fun i => ?_⟩
  · have hlen : ((List.range s.cfg.numPorts).foldl registerPort s).xreqArb.length = s.xreqArb.length :=
      List.foldlRecOn (motive := fun u => u.xreqArb.length = s.xreqArb.length) _ registerPort rfl
        fun u hu p _ => (registerPort_xreqArb_length u p).trans hu
    have hcfg : ((List.range s.cfg.numPorts).foldl registerPort s).cfg = s.cfg :=
      (foldl_moves registerPort_moves _ s).cfg
    simp [registerRequests, State.xreq, hlen, hlt, hcfg]
  · rw [hmask i]
    cases hr : s.requests b i with
    | false => rw [Bool.and_false]
    | true => simp [hs.lt_of_requests hr]

theorem registerRequests_reqSlot (s : State) (p : Nat) : (registerRequests s).reqSlot p = s.reqSlot p := by
  obtain ⟨arbs, -, h⟩ := registerRequests_eq s
  rw [h]
  rfl

theorem registerRequests_bank (s : State) (b : Nat) : (registerRequests s).bank b = s.bank b := by
  obtain ⟨arbs, -, h⟩ := registerRequests_eq s
  rw [h]
  rfl

theorem registerRequests_cfg (s : State) : (registerRequests s).cfg = s.cfg :=
  (registerRequests_moves s).cfg

theorem registerRequests_wellSized {s : State} (h : s.WellSized) : (registerRequests s).WellSized :=
  (registerRequests_stateMoves .clockRise s).keep (fun _ _ hm => hm.wellSized) h

theorem registerRequests_routesOk {s : State} (h : s.RoutesOk) : (registerRequests s).RoutesOk :=
  advanceRequests_routesOk (List.foldlRecOn (motive := State.RoutesOk) _ registerPort h
    fun _ hu p _ => registerPort_routesOk hu p)

/-- A bank's arbitrator grants only a port whose request is for that bank (R116). -/
theorem State.RoutesOk.granted {s : State} (h : s.RoutesOk) {b g : Nat} (hg : (s.xreq b).current = some g) :
    ∃ req, s.reqSlot g = some req ∧ s.cfg.bank req.address = b := by
  obtain ⟨hb, hbit⟩ := granted_registered hg
  exact h.registered b hb g hbit

/-- Settles O50: each port that holds a request sets its bit in its bank's mask before the advance, and the step keeps
the paths of requests, so a grant is of such a port. -/
theorem registrationOffersEveryWaitingRequest : Obligations.RegistrationOffersEveryWaitingRequest := by
  intro s hv hs h
  refine ⟨?_, fun b hb => registerRequests_xreq hs hb, fun i req hreq => ?_, fun b _ g hg => ?_⟩
  · obtain ⟨arbs, -, heq⟩ := registerRequests_eq s
    rw [heq]
  · obtain ⟨a, hadv, -, hmask⟩ := registerRequests_xreq hs (bank_lt hv req.address)
    rw [hadv]
    refine Arb.advance_current_ne_none (hs.lt_of_reqSlot hreq) ?_
    rw [hmask, State.requests_of_slot hreq, decide_eq_true rfl, Bool.or_true]
  · obtain ⟨req, hreq, hbank⟩ := (registerRequests_routesOk h).granted hg
    rw [registerRequests_reqSlot] at hreq
    rw [registerRequests_cfg] at hbank
    exact ⟨req, hreq, hbank⟩

end Sys2Proof.Machine
end

section
/-! PROOFS. Return routing: the return that the fall delivers to a port, and those that stay staged (42_crossbar.md
R118). -/

namespace Sys2Proof.Machine

/-! ### The falls of the banks leave the return side routed -/

theorem fallBanks_xretArb (bs : List Nat) (s : State) : (fallBanks bs s).xretArb = s.xretArb := by
  induction bs generalizing s with
  | nil => rfl
  | cons b bs ih =>
    obtain ⟨-, -, -, -, hxret, -⟩ := fallBank_rest b s
    exact (ih (fallBank b s)).trans hxret

theorem fallBank_wellSized {s : State} (hs : s.WellSized) (b : Nat) : (fallBank b s).WellSized :=
  (fallBank_stateMoves .clockFall b s).keep (fun _ _ hm => hm.wellSized) hs

/-- A bank's fall keeps the paths, in any configuration: it accepts nothing. -/
theorem fallBank_routesOk {s : State} (hs : s.WellSized) (h : s.RoutesOk) (b : Nat) : (fallBank b s).RoutesOk := by
  have hissue : (issueStep b s).WellSized ∧ (issueStep b s).RoutesOk := by
    rcases issueStep_spec b s with he | ⟨j, -, hj, he⟩ <;> rw [he]
    · exact ⟨hs, h⟩
    · have hbank : (s.setBank b j.bank).RoutesOk :=
        h.setBank (fun hb => ⟨(h.blocks b hb).keepsKeys (due_keepsKeys hj), due_subReqsOk hj (h.subReqs b hb)⟩)
          fun _ hr => (due_rstage hj).trans hr
      exact ⟨(StateMove.issue (i := .clockFall) s b j hj).wellSized hs, { hbank with }⟩
  obtain ⟨hs', h'⟩ := hissue
  exact h'.setBank (fun hb => ⟨(h'.blocks b hb).keepsKeys (returnStep_keepsKeys (hs'.bank hb)),
    returnStep_subReqsOk (h'.subReqs b hb)⟩) fun _ hr => returnStep_keeps_rstage _ _ hr

theorem fallBanks_routesOk (bs : List Nat) {s : State} (hs : s.WellSized) (h : s.RoutesOk) :
    (fallBanks bs s).WellSized ∧ (fallBanks bs s).RoutesOk :=
  List.foldlRecOn (motive := fun u => u.WellSized ∧ u.RoutesOk) bs (fun u b => fallBank b u) ⟨hs, h⟩
    fun _ hu b _ => ⟨fallBank_wellSized hu.1 b, fallBank_routesOk hu.1 hu.2 b⟩

/-! ### What the routing of the other ports leaves to port `p` -/

/-- From `s` to `t` routing was about ports other than `p`: the slot and the arbitrator of `p` are as they were, and a
return stage is as it was unless it held a return for another port and is empty now. -/
structure RoutedElsewhere (p : Nat) (s t : State) : Prop where
  cfg : t.cfg = s.cfg
  retSlot : t.retSlot p = s.retSlot p
  xret : t.xret p = s.xret p
  rstage : ∀ b, (t.bank b).rstage = (s.bank b).rstage ∨
    ((t.bank b).rstage = none ∧ ∃ r, (s.bank b).rstage = some r ∧ r.port.toNat ≠ p)

theorem RoutedElsewhere.refl (p : Nat) (s : State) : RoutedElsewhere p s s :=
  ⟨rfl, rfl, rfl, fun _ => .inl rfl⟩

theorem RoutedElsewhere.trans {p : Nat} {s t u : State} (h : RoutedElsewhere p s t) (g : RoutedElsewhere p t u) :
    RoutedElsewhere p s u := by
  refine ⟨g.cfg.trans h.cfg, g.retSlot.trans h.retSlot, g.xret.trans h.xret, fun b => ?_⟩
  rcases g.rstage b with hkept | ⟨hnone, r, hr, hport⟩
  · rw [hkept]
    exact h.rstage b
  · rcases h.rstage b with hkept | ⟨hempty, -⟩
    · exact .inr ⟨hnone, r, hkept ▸ hr, hport⟩
    · rw [hempty] at hr
      cases hr

/-- A return staged for `p` stays staged. -/
theorem RoutedElsewhere.keeps_return {p : Nat} {s t : State} (h : RoutedElsewhere p s t) {b : Nat} {r : Return}
    (hr : (s.bank b).rstage = some r) (hport : r.port.toNat = p) : (t.bank b).rstage = some r := by
  rcases h.rstage b with hkept | ⟨-, r', hr', hport'⟩
  · exact hkept.trans hr
  · rw [hr] at hr'
    cases hr'
    exact absurd hport hport'

/-- An empty return stage stays empty. -/
theorem RoutedElsewhere.keeps_empty {p : Nat} {s t : State} (h : RoutedElsewhere p s t) {b : Nat}
    (hn : (s.bank b).rstage = none) : (t.bank b).rstage = none := by
  rcases h.rstage b with hkept | ⟨hempty, -⟩
  · exact hkept.trans hn
  · exact hempty

theorem RoutedElsewhere.stagedFor {p : Nat} {s t : State} (h : RoutedElsewhere p s t) (b : Nat) :
    t.stagedFor p b = s.stagedFor p b := by
  rw [Bool.eq_iff_iff, State.stagedFor_iff, State.stagedFor_iff]
  constructor
  · rintro ⟨r, hr, hport⟩
    rcases h.rstage b with hkept | ⟨hempty, -⟩
    · exact ⟨r, hkept ▸ hr, hport⟩
    · rw [hempty] at hr
      cases hr
  · rintro ⟨r, hr, hport⟩
    exact ⟨r, h.keeps_return hr hport, hport⟩

theorem RoutedElsewhere.registerStages {p : Nat} {s t : State} (h : RoutedElsewhere p s t) :
    Machine.registerStages t p = Machine.registerStages s p := by
  simp only [Machine.registerStages, h.cfg, h.xret, h.stagedFor]

theorem State.bank_absent {s : State} {b : Nat} (h : s.banks.length ≤ b) : s.bank b = Bank.absent :=
  List.getD_eq_default _ _ h

/-- A bank whose stage is emptied stages nothing; nor does a bank outside the array. -/
theorem State.unstage_rstage (s : State) (g : Nat) :
    ((s.setBank g { s.bank g with rstage := none }).bank g).rstage = none := by
  rw [State.bank_setBank]
  split
  · rfl
  · rename_i hg
    rw [State.bank_absent (not_lt.mp fun hlt => hg ⟨rfl, hlt⟩)]
    rfl

/-- The routing of port `q` empties only the stage of a bank that stages a return for `q`. -/
theorem routePort_elsewhere {s : State} (h : s.RoutesOk) {p q : Nat} (hq : q < s.xretArb.length) (hqp : q ≠ p) :
    RoutedElsewhere p s (routePort s q) := by
  rcases routePort_spec s q with he | ⟨g, -, hg, he⟩ <;> rw [he]
  · exact ⟨rfl, rfl, by simp [State.xret, hqp], fun _ => .inl rfl⟩
  · refine ⟨rfl, by simp [State.retSlot, hqp], by simp [State.xret, hqp], fun b => ?_⟩
    by_cases hgb : g = b
    · subst hgb
      obtain ⟨-, hbit⟩ := Arb.current_eq_some.mp hg
      obtain ⟨r, hr, hport⟩ := State.stagedFor_iff.mp (registerStages_staged h hq hbit)
      exact .inr ⟨s.unstage_rstage g, r, hr, fun hp => hqp (hport.symm.trans hp)⟩
    · exact .inl (congrArg Bank.rstage (s.bank_setBank_ne _ hgb))

/-- The routing of ports other than `p`. -/
theorem foldl_routePort_elsewhere {s : State} (h : s.RoutesOk) {p : Nat} {l : List Nat}
    (hl : ∀ q ∈ l, q < s.xretArb.length) (hp : p ∉ l) :
    RoutedElsewhere p s (l.foldl routePort s) ∧ (l.foldl routePort s).RoutesOk := by
  have hall := List.foldlRecOn (motive := fun u => RoutedElsewhere p s u ∧ u.RoutesOk ∧ FallFrame s u) l routePort
    ⟨.refl p s, h, .refl s⟩ fun u ⟨helse, hu, hframe⟩ q hq => by
      have hlt : q < u.xretArb.length := hframe.xretArb ▸ hl q hq
      exact ⟨helse.trans (routePort_elsewhere hu hlt fun he => hp (he ▸ hq)), routePort_routesOk hu hlt,
        hframe.trans (routePort_frame u q)⟩
  exact ⟨hall.1, hall.2.1⟩

/-- Return routing is the routing of port `p` between two routings of the other ports. -/
theorem routeReturns_at {s : State} (hs : s.WellSized) (h : s.RoutesOk) {p : Nat} (hp : p < s.cfg.numPorts) :
    ∃ u : State, FallFrame s u ∧ RoutedElsewhere p s u ∧ RoutedElsewhere p (routePort u p) (routeReturns s) := by
  obtain ⟨before, after, hsplit⟩ := List.append_of_mem (List.mem_range.mpr hp)
  have hnodup : (before ++ p :: after).Nodup := hsplit ▸ List.nodup_range
  obtain ⟨hnotAfter, hnotBefore⟩ : p ∉ after ∧ p ∉ before := by
    rw [List.nodup_middle, List.nodup_cons, List.mem_append, not_or] at hnodup
    exact hnodup.1.symm
  have hports : ∀ q ∈ before ++ p :: after, q < s.xretArb.length := fun q hq => by
    rw [hs.xretCount]
    exact List.mem_range.mp (hsplit ▸ hq)
  have hframe : FallFrame s (before.foldl routePort s) := foldl_frame routePort_frame before s
  obtain ⟨helse, hu⟩ := foldl_routePort_elsewhere h (fun q hq => hports q (List.mem_append_left _ hq)) hnotBefore
  refine ⟨before.foldl routePort s, hframe, helse, ?_⟩
  have hlt {q : Nat} (hq : q ∈ p :: after) : q < (before.foldl routePort s).xretArb.length := by
    rw [hframe.xretArb]
    exact hports q (List.mem_append_right _ hq)
  have hrest := foldl_routePort_elsewhere (p := p) (l := after)
    (routePort_routesOk hu (hlt List.mem_cons_self))
    (fun q hq => by rw [(routePort_frame _ p).xretArb]; exact hlt (List.mem_cons_of_mem p hq)) hnotAfter
  rw [routeReturns, hsplit, List.foldl_append, List.foldl_cons]
  exact hrest.1

/-! ### The routing of port `p` itself -/

/-- With a full slot or no grant only the arbitrator moves. -/
theorem routePort_of_no_delivery {s : State} {p : Nat}
    (h : s.retSlot p ≠ none ∨ (registerStages s p).current = none) :
    routePort s p = { s with xretArb := s.xretArb.set p (registerStages s p) } := by
  rcases routePort_spec s p with he | ⟨g, hempty, hg, -⟩
  · exact he
  · rcases h with h | h
    · exact absurd hempty h
    · rw [h] at hg
      cases hg

/-- With an empty slot and a grant the granted bank's return is delivered. -/
theorem routePort_of_grant {s : State} {p g : Nat} (hslot : s.retSlot p = none)
    (hg : (registerStages s p).current = some g) :
    routePort s p =
      { s.setBank g { s.bank g with rstage := none } with
        retOut := s.retOut.set p (s.bank g).rstage
        xretArb := s.xretArb.set p ((registerStages s p).remove g) } := by
  simp only [routePort, hslot, hg]

/-- A fall that delivers nothing to port `p`. -/
theorem routeReturns_of_no_delivery {s : State} (hs : s.WellSized) (h : s.RoutesOk) {p : Nat}
    (hp : p < s.cfg.numPorts) (hno : s.retSlot p ≠ none ∨ (registerStages s p).current = none) :
    (routeReturns s).retSlot p = s.retSlot p ∧ (routeReturns s).xret p = registerStages s p ∧
      ∀ b r, (s.bank b).rstage = some r → r.port.toNat = p → ((routeReturns s).bank b).rstage = some r := by
  obtain ⟨u, hframe, hbefore, hafter⟩ := routeReturns_at hs h hp
  have hlt : p < u.xretArb.length := by rw [hframe.xretArb, hs.xretCount]; exact hp
  have hroute := routePort_of_no_delivery (s := u) (p := p) (by rwa [hbefore.retSlot, hbefore.registerStages])
  rw [hroute] at hafter
  refine ⟨hafter.retSlot.trans hbefore.retSlot, hafter.xret.trans ?_, fun b r hr hport =>
    hafter.keeps_return (hbefore.keeps_return hr hport) hport⟩
  rw [← hbefore.registerStages]
  simp [State.xret, hlt]

/-- A fall that delivers to port `p` the return of the bank `g` that the port's arbitrator grants. -/
theorem routeReturns_of_grant {s : State} (hs : s.WellSized) (h : s.RoutesOk) {p g : Nat} (hp : p < s.cfg.numPorts)
    (hslot : s.retSlot p = none) (hg : (registerStages s p).current = some g) :
    ∃ r, (s.bank g).rstage = some r ∧ r.port.toNat = p ∧ (routeReturns s).retSlot p = some r ∧
      ((routeReturns s).bank g).rstage = none ∧ (routeReturns s).xret p = (registerStages s p).remove g ∧
      ∀ b ≠ g, ∀ r, (s.bank b).rstage = some r → r.port.toNat = p → ((routeReturns s).bank b).rstage = some r := by
  obtain ⟨-, hbit⟩ := Arb.current_eq_some.mp hg
  obtain ⟨r, hr, hport⟩ := State.stagedFor_iff.mp (registerStages_staged h (hs.xretCount ▸ hp) hbit)
  obtain ⟨u, hframe, hbefore, hafter⟩ := routeReturns_at hs h hp
  have hret : p < u.retOut.length := by rw [hframe.retOut, hs.retOut]; exact hp
  have hxret : p < u.xretArb.length := by rw [hframe.xretArb, hs.xretCount]; exact hp
  have hroute := routePort_of_grant (hbefore.retSlot.trans hslot) (hbefore.registerStages ▸ hg)
  rw [hroute, hbefore.registerStages, hbefore.keeps_return hr hport] at hafter
  refine ⟨r, hr, hport, hafter.retSlot.trans ?_, hafter.keeps_empty (u.unstage_rstage g), hafter.xret.trans ?_,
    fun b hb r' hr' hport' => hafter.keeps_return ?_ hport'⟩
  · simp [State.retSlot, hret]
  · simp [State.xret, hxret]
  · exact (congrArg Bank.rstage (u.bank_setBank_ne _ (Ne.symm hb))).trans (hbefore.keeps_return hr' hport')

/-! ### The grant -/

/-- With nothing staged for the port its arbitrator grants nothing. -/
theorem registerStages_current_eq_none {s : State} (h : s.RoutesOk) {p : Nat} (hp : p < s.xretArb.length)
    (hnone : ∀ b, s.stagedFor p b = false) : (registerStages s p).current = none := by
  by_contra hc
  obtain ⟨g, hg⟩ := Option.ne_none_iff_exists'.mp hc
  have hstaged := registerStages_staged h hp (Arb.current_eq_some.mp hg).2
  rw [hnone g] at hstaged
  cases hstaged

/-- Only the configuration's banks stage returns. -/
theorem State.WellSized.lt_of_stagedFor {s : State} (h : s.WellSized) {p b : Nat} (hb : s.stagedFor p b = true) :
    b < s.cfg.numBanks := by
  by_contra hc
  obtain ⟨r, hr, -⟩ := State.stagedFor_iff.mp hb
  rw [State.bank_absent (h.bankCount ▸ not_lt.mp hc)] at hr
  cases hr

/-- With a return staged for the port its arbitrator grants a bank. -/
theorem registerStages_grants {s : State} (hs : s.WellSized) {p b : Nat} (hb : s.stagedFor p b = true) :
    ∃ g, (registerStages s p).current = some g := by
  obtain ⟨m, hm, he⟩ := registerStages_spec s p
  rw [← Option.ne_none_iff_exists', he]
  have hlt := hs.lt_of_stagedFor hb
  exact Arb.advance_current_ne_none hlt (by simp [hm, hlt, hb])

/-- Settles O51: routing on the stages that the banks' falls leave; only the routing of the port itself touches its
slot, its arbitrator and the returns staged for it. -/
theorem routingDeliversAStagedReturn : Obligations.RoutingDeliversAStagedReturn := by
  intro s t p hhealthy hs hroutes hphase hp hexec staging
  obtain ⟨hs', h'⟩ : staging.WellSized ∧ staging.RoutesOk := fallBanks_routesOk _ hs hroutes
  have hcfg : staging.cfg = s.cfg := (fallBanks_frame _ s).cfg
  have hxret : staging.xret p = s.xret p := by
    rw [State.xret, State.xret, hcfg, fallBanks_xretArb]
  have hslot : staging.retSlot p = s.retSlot p := State.retSlot_congr (fallBanks_retOut _ s) p
  have hp' : p < staging.cfg.numPorts := hcfg ▸ hp
  obtain rfl : t =
      { (routeReturns staging).dsEndFall with phase := .rise, cycle := s.cycle + 1, resp := .nothing } := by
    rcases execClockFall_next hexec with ⟨hf, -⟩ | ⟨-, hne, -⟩ | ⟨-, -, ht⟩
    · rw [show s.fault = none from hhealthy] at hf
      cases hf
    · exact absurd hphase hne
    · exact ht
  obtain ⟨m, hm, ha⟩ := registerStages_spec staging p
  rw [hxret, hcfg] at hm ha
  refine ⟨m, hm, ?_⟩
  rw [← ha, ← hslot]
  refine ⟨fun hfull => ?_, fun hempty hnone => ?_, fun hempty ⟨b, hb⟩ => ?_, fun b r hr hport => ?_⟩
  · obtain ⟨hret, harb, -⟩ := routeReturns_of_no_delivery hs' h' hp' (.inl hfull)
    exact ⟨hret, harb⟩
  · obtain ⟨hret, harb, -⟩ := routeReturns_of_no_delivery hs' h' hp'
      (.inr (registerStages_current_eq_none h' (hs'.xretCount ▸ hp') hnone))
    exact ⟨hret.trans hempty, harb⟩
  · obtain ⟨g, hg⟩ := registerStages_grants hs' hb
    obtain ⟨r, hr, hport, hret, hstage, harb, -⟩ := routeReturns_of_grant hs' h' hp' hempty hg
    exact ⟨g, r, hg, hr, hport, hret, hstage, harb⟩
  · by_cases hempty : staging.retSlot p = none
    · obtain ⟨g, hg⟩ := registerStages_grants hs' (State.stagedFor_iff.mpr ⟨r, hr, hport⟩)
      obtain ⟨r', hr', -, hret, hstage, -, hothers⟩ := routeReturns_of_grant hs' h' hp' hempty hg
      by_cases hbg : b = g
      · subst hbg
        rw [hr] at hr'
        cases hr'
        exact .inr ⟨hempty, hg, hret, hstage⟩
      · exact .inl (hothers b hbg r hr hport)
    · obtain ⟨-, -, hkept⟩ := routeReturns_of_no_delivery hs' h' hp' (.inl hempty)
      exact .inl (hkept b r hr hport)

end Sys2Proof.Machine
end

section
/-! PROOFS. What a rise can end in: no acceptance raises a fault, and a return that answers a fetch before the rise
answers it after the acceptance (44_bank_accept.md R135, R137, R141; 45_bank_fill.md R151). -/

namespace Sys2Proof.Machine

/-! ### No acceptance raises a fault -/

theorem Bank.KeepsKeys.findLfb_eq_none {bk bk' : Bank} (h : bk.KeepsKeys bk') {blk : Nat} {t : LfbType}
    (hn : findLfb bk blk t = none) : findLfb bk' blk t = none := by
  rw [Machine.findLfb_eq_none] at hn ⊢
  intro k hk hlive htype
  rw [h.count] at hk
  obtain ⟨hlive₀, htype₀, hblk₀⟩ := h.kept k hk hlive
  rw [hblk₀]
  exact hn k hk hlive₀ (htype₀.symm.trans htype)

theorem commitStore_keepsKeys (cfg : Config) (bk : Bank) (req : Request) (m : Nat) :
    bk.KeepsKeys (commitStore cfg bk req m) :=
  ⟨commitStore_length cfg bk req m, fun k _ hlive => ⟨by simpa using hlive, by simp, by simp⟩⟩

/-- DUP_LFB is never raised by a LOAD: eviction makes no LFB live (R136, R137). -/
theorem acceptLoad_ne_fault (cfg : Config) (b : Nat) (bk : Bank) (req : Request) (c : FaultCode) :
    acceptLoad cfg b bk req ≠ .fault c := by
  unfold acceptLoad
  simp only
  split
  case h_1 =>
    simp only [mergeLoad]
    split <;> exact Accept.noConfusion
  case h_2 hnone =>
    split
    case h_1 => exact Accept.noConfusion
    case h_2 v _ =>
      have hfree := (evictRetired_keepsKeys bk v).findLfb_eq_none hnone
      simp only [allocLoad, hfree, Option.isSome_none, Bool.false_eq_true, if_false]
      split <;> exact Accept.noConfusion

/-- DUP_LFB is never raised by a STORE: neither eviction nor the commit makes an LFB live (R139 to R142). -/
theorem acceptStore_ne_fault (cfg : Config) (b : Nat) (bk : Bank) (req : Request) (c : FaultCode) :
    acceptStore cfg b bk req ≠ .fault c := by
  unfold acceptStore
  simp only
  split
  case isTrue => exact Accept.noConfusion
  case isFalse =>
    split
    case h_1 => exact Accept.noConfusion
    case h_2 hnone =>
      split
      case h_1 => exact Accept.noConfusion
      case h_2 v _ =>
        have hfree := ((evictRetired_keepsKeys bk v).trans
          (commitStore_keepsKeys cfg _ req (effectiveMask req))).findLfb_eq_none hnone
        simp only [allocStore, hfree, Option.isSome_none, Bool.false_eq_true, if_false]
        exact Accept.noConfusion

theorem acceptRequest_ne_fault (cfg : Config) (b : Nat) (bk : Bank) (req : Request) (c : FaultCode) :
    acceptRequest cfg b bk req ≠ .fault c := by
  unfold acceptRequest
  split
  · exact acceptLoad_ne_fault cfg b bk req c
  · exact acceptStore_ne_fault cfg b bk req c

/-! ### The fetches outstanding -/

/-- LFB `k` is an ISSUED READ LFB of the block `blk` (10_state.md R43; 45_bank_fill.md R151). -/
def Bank.Fetching (bk : Bank) (blk k : Nat) : Prop :=
  (bk.lfb k).type = .read ∧ (bk.lfb k).state = .missed ∧ k ∉ bk.mq ∧ (bk.lfb k).blockAddress = blk

/-- What `issuedLfb` answers rests on the ISSUED READ LFBs only. -/
theorem issuedLfb_congr {bk bk' : Bank} {blk : Nat} (hlen : bk'.lfbs.length = bk.lfbs.length)
    (h : ∀ k, bk'.Fetching blk k ↔ bk.Fetching blk k) : issuedLfb bk' blk = issuedLfb bk blk := by
  unfold issuedLfb
  rw [hlen]
  refine List.find?_congr fun k _ => ?_
  rw [Bool.eq_iff_iff]
  simpa [Bank.Fetching, Bank.issued, and_assoc] using h k

theorem Lfb.advancePipe_missed (l : Lfb) : l.advancePipe.state = .missed ↔ l.state = .missed := by
  unfold Lfb.advancePipe
  split
  case isTrue h => split <;> simp [h]
  case isFalse => rfl

theorem pipelineAdvance_issuedLfb (bk : Bank) (blk : Nat) : issuedLfb (pipelineAdvance bk) blk = issuedLfb bk blk := by
  refine issuedLfb_congr (pipelineAdvance_length bk) fun k => ?_
  rw [Bank.Fetching, pipelineAdvance_lfb, Lfb.advancePipe_type, Lfb.advancePipe_missed, Lfb.advancePipe_blockAddress]
  rfl

/-- An acceptance queues no other LFB than the one that serves the request. -/
theorem Served.mem_mq {cfg : Config} {bk bk' : Bank} {req : Request} {v k : Nat} (h : Served cfg bk bk' req v)
    (hk : k ≠ v) : k ∈ bk'.mq ↔ k ∈ bk.mq := by
  cases h.by_ with
  | missed _ _ _ _ _ _ hmq => simp [hmq, hk]
  | mergedLoad _ _ _ _ hmq => rw [hmq]
  | hit _ _ _ _ _ _ hmq => rw [hmq]
  | mergedStore _ _ _ _ hmq => rw [hmq]
  | newStore _ _ _ _ _ _ hmq => rw [hmq]

/-- A slot that `alloc_slot` answers is not ISSUED. -/
theorem not_fetching_of_allocSlot {bk : Bank} {v blk : Nat} (h : allocSlot bk = some v) : ¬ bk.Fetching blk v := by
  rintro ⟨-, hstate, -⟩
  obtain ⟨-, hs | hs⟩ := allocSlot_eq_some h
  · rw [hs] at hstate; cases hstate
  · rw [hs] at hstate; cases hstate

/-- The LFB that serves a request is ISSUED only as it was: a merge leaves a MISSED LFB MISSED, and a new miss is
queued. -/
theorem ServedBy.fetching {cfg : Config} {bk bk' : Bank} {req : Request} {v blk : Nat}
    (h : ServedBy cfg bk bk' req v) : bk'.Fetching blk v ↔ bk.Fetching blk v := by
  cases h with
  | mergedLoad _ _ _ hl hmq =>
    have hstate : (bk'.lfb v).state = .missed ↔ (bk.lfb v).state = .missed := by
      rw [hl]
      show (if _ then _ else _) = _ ↔ _
      split
      · rename_i hr; simp [hr]
      · rfl
    rw [Bank.Fetching, hstate, hl, hmq]
    rfl
  | hit _ _ hv _ _ hl =>
    refine iff_of_false (fun hf => ?_) (not_fetching_of_allocSlot hv)
    have hstate : (if cfg.latency = 0 then LfbState.filled else .dataArray) = .missed := by
      simpa only [hl] using hf.2.1
    split at hstate <;> cases hstate
  | missed _ _ hv _ _ _ hmq =>
    exact iff_of_false (fun hf => hf.2.2.1 (by simp [hmq])) (not_fetching_of_allocSlot hv)
  | mergedStore _ _ _ hl hmq => rw [Bank.Fetching, hl, hmq]; rfl
  | newStore _ _ _ hv hl =>
    refine iff_of_false (fun hf => ?_) (not_fetching_of_allocSlot hv)
    have htype := hf.1
    rw [hl] at htype
    cases htype

theorem Served.issuedLfb {cfg : Config} {bk bk' : Bank} {req : Request} {v : Nat} (h : Served cfg bk bk' req v)
    (blk : Nat) : Machine.issuedLfb bk' blk = Machine.issuedLfb bk blk := by
  refine issuedLfb_congr h.count fun k => ?_
  by_cases hk : k = v
  · subst hk
    exact h.by_.fetching
  · obtain ⟨hstate, htype, hblk, -⟩ := h.others k hk
    rw [Bank.Fetching, htype, hstate, hblk, h.mem_mq hk]
    rfl

theorem acceptRequest_issuedLfb {cfg : Config} {b : Nat} {bk bk' : Bank} {req : Request} {c : Option Counter}
    (h : acceptRequest cfg b bk req = .accepted bk' c) (blk : Nat) : issuedLfb bk' blk = issuedLfb bk blk := by
  rcases acceptRequest_served h with ⟨-, -, rfl, -⟩ | ⟨v, hserved⟩
  · rfl
  · exact hserved.issuedLfb blk

/-- The fetches outstanding stand through the hand-off and the acceptance. -/
theorem handOffOrAccept_issuedLfb {b : Nat} {s t : State} (h : handOffOrAccept b s = .ok t) (blk : Nat) :
    issuedLfb (t.bank b) blk = issuedLfb (s.bank b) blk := by
  have hset {x : Bank} (hx : issuedLfb x blk = issuedLfb (s.bank b) blk) :
      issuedLfb ((s.setBank b x).bank b) blk = issuedLfb (s.bank b) blk := by
    rw [State.bank_setBank]
    split
    · exact hx
    · rfl
  rcases handOffOrAccept_ok h with ⟨x, hx, rfl⟩ | ⟨-, hacc⟩
  · obtain ⟨k, rest, -, -, rfl⟩ := handOff_eq_some hx
    exact hset rfl
  · rcases acceptStep_ok hacc with rfl | rfl | ⟨g, req, x, c, -, -, ha, rfl⟩
    · rfl
    · rfl
    · exact hset (acceptRequest_issuedLfb ha blk)

/-! ### A rise completes -/

theorem State.dsHead_congr {s t : State} {b : Nat} (h : t.dsPort b = s.dsPort b) : t.dsHead b = s.dsHead b := by
  rw [State.dsHead, State.dsHead, h]

/-- Whether a return answers rests on the fetches outstanding only. -/
theorem State.Answers.congr {s t : State} {b : Nat} {r : Return} (h : s.Answers b r) (hcfg : t.cfg = s.cfg)
    (hissued : issuedLfb (t.bank b) r.address = issuedLfb (s.bank b) r.address) : t.Answers b r := by
  rwa [State.Answers, hcfg, hissued]

theorem handOffOrAccept_completes (b : Nat) (s : State) : ∃ t, handOffOrAccept b s = .ok t := by
  unfold handOffOrAccept
  split
  · exact ⟨_, rfl⟩
  · unfold acceptStep
    split
    · exact ⟨_, rfl⟩
    · split
      · exact ⟨_, rfl⟩
      · split
        · exact ⟨_, rfl⟩
        · rename_i c hfault; exact absurd hfault (acceptRequest_ne_fault _ _ _ _ c)
        · exact ⟨_, rfl⟩

/-- A return that answers is filled (R151, R152). -/
theorem fillStep_completes {b : Nat} {s : State} (h : ∀ r, s.dsHead b = some r → s.Answers b r) :
    ∃ t, fillStep b s = .ok t := by
  unfold fillStep
  split
  · exact ⟨_, rfl⟩
  · rename_i r hr
    obtain ⟨hshaped, hissued⟩ := h r hr
    have hfill : fillBank s.cfg b (s.bank b) r = .ok (fillLfb s.cfg (s.bank b) r.dst.toNat r.payload) := by
      simp [fillBank, hshaped, hissued]
    refine ⟨(s.dsPop b).setBank b (fillLfb s.cfg (s.bank b) r.dst.toNat r.payload), ?_⟩
    simp only [State.dsPop_cfg, show (s.dsPop b).bank b = s.bank b from rfl, hfill]

theorem riseBank_completes {b : Nat} {s : State} (h : ∀ r, s.dsHead b = some r → s.Answers b r) :
    ∃ t, riseBank b s = .ok t := by
  obtain ⟨u, hu⟩ := handOffOrAccept_completes b (s.setBank b (pipelineAdvance (s.bank b)))
  have hds : u.ds = s.ds := (handOffOrAccept_reads (s := s.setBank b (pipelineAdvance (s.bank b)))).1 u hu
  have hhead : u.dsHead b = s.dsHead b := State.dsHead_congr (by rw [State.dsPort, State.dsPort, hds])
  obtain ⟨t, ht⟩ := fillStep_completes (b := b) (s := u) fun r hr => by
    refine (h r (hhead ▸ hr)).congr (handOffOrAccept_moves hu).cfg ?_
    rw [handOffOrAccept_issuedLfb hu, State.bank_setBank_pipelineAdvance, pipelineAdvance_issuedLfb]
  exact ⟨t, by rw [riseBank, hu]; exact ht⟩

/-- The rises of different banks complete when every return that they read answers a fetch. -/
theorem riseBanks_completes {bs : List Nat} (hn : bs.Nodup) {s : State}
    (h : ∀ b ∈ bs, ∀ r, s.dsHead b = some r → s.Answers b r) : ∃ t, riseBanks bs s = .ok t := by
  induction bs generalizing s with
  | nil => exact ⟨s, rfl⟩
  | cons b bs ih =>
    obtain ⟨hb, hn⟩ := List.nodup_cons.mp hn
    obtain ⟨u, hu⟩ := riseBank_completes (h b List.mem_cons_self)
    obtain ⟨t, ht⟩ := ih hn (s := u) fun c hc r hr => by
      obtain ⟨hbank, hport, -⟩ := riseBank_other hu (b := c) fun hbc => hb (hbc ▸ hc)
      rw [State.dsHead_congr hport] at hr
      exact (h c (List.mem_cons_of_mem b hc) r hr).congr (riseBank_frame hu).cfg (by rw [hbank])
    exact ⟨t, by rw [riseBanks, hu]; exact ht⟩

end Sys2Proof.Machine
end

section
/-! PROOFS. What a rise does at every bank: hand-off, acceptance or stall with its counter, then the fill
(44_bank_accept.md R131, R134, R135; 42_crossbar.md R117; 60_exceptions.md R186). -/

namespace Sys2Proof.Machine

/-! ### The hand-off or the acceptance, case by case -/

section
variable {b : Nat} {s : State} {bk : Bank} (hbank : s.bank b = bk)
include hbank

theorem handOffOrAccept_of_handOff {x : Bank} (h : handOff bk = some x) :
    handOffOrAccept b s = .ok (s.setBank b x) := by
  rw [handOffOrAccept, hbank, h]

theorem handOffOrAccept_of_no_grant (h : handOff bk = none) (hg : (s.xreq b).current = none) :
    handOffOrAccept b s = .ok s := by
  simp only [handOffOrAccept, hbank, h, acceptStep, hg]

variable {g : Nat} {req : Request} (h : handOff bk = none) (hg : (s.xreq b).current = some g)
  (hreq : s.reqSlot g = some req)
include h hg hreq

theorem handOffOrAccept_of_stall (ha : acceptRequest s.cfg b bk req = .stall) :
    handOffOrAccept b s = .ok (s.count .lfbStalls) := by
  simp only [handOffOrAccept, hbank, h, acceptStep, hg, hreq, ha]

theorem handOffOrAccept_of_accepted {x : Bank} {c : Option Counter}
    (ha : acceptRequest s.cfg b bk req = .accepted x c) :
    handOffOrAccept b s =
      .ok { s.setBank b x with
        reqIn := s.reqIn.set g none
        xreqArb := s.xreqArb.set b ((s.xreq b).remove g)
        stats := c.elim s.stats s.stats.bump } := by
  simp only [handOffOrAccept, hbank, h, acceptStep, hg, hreq, ha]
  cases c <;> rfl

end

/-! ### The counter of a bank's rise (R186) -/

/-- What an acceptance counts: its own counter, or the stall. -/
def Accept.counter : Accept → Option Counter
  | .accepted _ c => c
  | .stall => some .lfbStalls
  | .fault _ => none

/-- What the rise of bank `b` on `s` counts: nothing if it hands off or is granted no request. -/
def State.riseCounter (s : State) (b : Nat) : Option Counter :=
  match handOff (pipelineAdvance (s.bank b)) with
  | some _ => none
  | none =>
    ((s.xreq b).current.bind s.reqSlot).bind fun req =>
      (acceptRequest s.cfg b (pipelineAdvance (s.bank b)) req).counter

theorem riseCounter_of_handOff {s : State} {b : Nat} {x : Bank} (h : handOff (pipelineAdvance (s.bank b)) = some x) :
    s.riseCounter b = none := by
  rw [State.riseCounter, h]

theorem riseCounter_of_no_grant {s : State} {b : Nat} (h : (s.xreq b).current = none) : s.riseCounter b = none := by
  unfold State.riseCounter
  split
  · rfl
  · rw [h]; rfl

theorem riseCounter_of_grant {s : State} {b g : Nat} {req : Request}
    (h : handOff (pipelineAdvance (s.bank b)) = none) (hg : (s.xreq b).current = some g)
    (hreq : s.reqSlot g = some req) :
    s.riseCounter b = (acceptRequest s.cfg b (pipelineAdvance (s.bank b)) req).counter := by
  rw [State.riseCounter, h, hg]
  simp only [Option.bind_some, hreq]

/-! ### The rise of one bank, case by case -/

/-- Bank `b` ends in `t` as the fill leaves the bank `x`, if a return waits for it in `s`, and else as `x`. -/
def State.EndsFilling (s t : State) (b : Nat) (x : Bank) : Prop :=
  (s.dsHead b = none → t.bank b = x) ∧ ∀ r, s.dsHead b = some r → fillBank s.cfg b x r = .ok (t.bank b)

/-- The rise of bank `b` from `s` to `t` fills the bank `x`, leaves these request slots and request arbitrators, and
counts `c`. -/
structure RiseResult (b : Nat) (s t : State) (x : Bank) (slots : List (Option Request)) (arbs : List Arb)
    (c : Option Counter) : Prop where
  ends : s.EndsFilling t b x
  reqIn : t.reqIn = slots
  xreqArb : t.xreqArb = arbs
  stats : t.stats = c.elim s.stats s.stats.bump

theorem State.bank_setBank_self {s : State} {b : Nat} (hb : b < s.banks.length) (x : Bank) :
    (s.setBank b x).bank b = x := by
  rw [State.bank_setBank, if_pos ⟨rfl, hb⟩]

/-- The fill step after a hand-off or an acceptance that ends in `u`. -/
theorem riseBank_result {b : Nat} {s t u : State} {x : Bank} {c : Option Counter} (h : riseBank b s = .ok t)
    (hu : handOffOrAccept b (s.setBank b (pipelineAdvance (s.bank b))) = .ok u) (hb : b < s.banks.length)
    (hx : u.bank b = x) (hc : u.stats = c.elim s.stats s.stats.bump) :
    RiseResult b s t x u.reqIn u.xreqArb c := by
  have hfill : fillStep b u = .ok t := by rwa [riseBank, hu] at h
  have hmoves := handOffOrAccept_moves hu
  have hds : u.ds = s.ds := (handOffOrAccept_reads (s := s.setBank b (pipelineAdvance (s.bank b)))).1 u hu
  have hhead : u.dsHead b = s.dsHead b := State.dsHead_congr (by rw [State.dsPort, State.dsPort, hds])
  have hlen : b < u.banks.length := by simpa [hmoves.count] using hb
  rcases fillStep_ok hfill with ⟨hnone, rfl⟩ | ⟨r, y, hr, hy, rfl⟩
  · rw [hhead] at hnone
    refine ⟨⟨fun _ => hx, fun r hr => ?_⟩, rfl, rfl, hc⟩
    rw [hnone] at hr
    cases hr
  · rw [hhead] at hr
    rw [show u.cfg = s.cfg from hmoves.cfg, hx] at hy
    refine ⟨⟨fun hnone => ?_, fun r' hr' => ?_⟩, rfl, rfl, hc⟩
    · rw [hr] at hnone
      cases hnone
    · rw [hr] at hr'
      cases hr'
      rw [State.bank_setBank_self (s := u.dsPop b) hlen]
      exact hy

section
variable {b : Nat} {s t : State} (h : riseBank b s = .ok t) (hb : b < s.banks.length)
include h hb

/-- R134. -/
theorem riseBank_of_handOff {x : Bank} (hx : handOff (pipelineAdvance (s.bank b)) = some x) :
    RiseResult b s t x s.reqIn s.xreqArb none := by
  have hu := handOffOrAccept_of_handOff (s.bank_setBank_pipelineAdvance b) hx
  exact (riseBank_result (c := none) h hu hb (State.bank_setBank_self (by simpa using hb) x) rfl :)

/-- R116. -/
theorem riseBank_of_no_grant (hn : handOff (pipelineAdvance (s.bank b)) = none) (hg : (s.xreq b).current = none) :
    RiseResult b s t (pipelineAdvance (s.bank b)) s.reqIn s.xreqArb none := by
  have hu := handOffOrAccept_of_no_grant (s.bank_setBank_pipelineAdvance b) hn hg
  exact (riseBank_result (c := none) h hu hb (s.bank_setBank_pipelineAdvance b) rfl :)

variable {g : Nat} {req : Request} (hn : handOff (pipelineAdvance (s.bank b)) = none)
  (hg : (s.xreq b).current = some g) (hreq : s.reqSlot g = some req)
include hn hg hreq

/-- R135, R186. -/
theorem riseBank_of_stall (ha : acceptRequest s.cfg b (pipelineAdvance (s.bank b)) req = .stall) :
    RiseResult b s t (pipelineAdvance (s.bank b)) s.reqIn s.xreqArb (some .lfbStalls) := by
  have hu := handOffOrAccept_of_stall (s.bank_setBank_pipelineAdvance b) hn hg hreq ha
  exact (riseBank_result (c := some .lfbStalls) h hu hb (s.bank_setBank_pipelineAdvance b) rfl :)

/-- R135, R117, R186. -/
theorem riseBank_of_accepted {x : Bank} {c : Option Counter}
    (ha : acceptRequest s.cfg b (pipelineAdvance (s.bank b)) req = .accepted x c) :
    RiseResult b s t x (s.reqIn.set g none) (s.xreqArb.set b ((s.xreq b).remove g)) c := by
  have hu := handOffOrAccept_of_accepted (s.bank_setBank_pipelineAdvance b) hn hg hreq ha
  exact (riseBank_result (c := c) h hu hb (State.bank_setBank_self (by simpa using hb) x) rfl :)

end

end Sys2Proof.Machine
end

section
/-! PROOFS. The rise of one bank among the rises of the others, and the counters of them all (10_state.md R40;
47_cycle.md R146; 60_exceptions.md R186). -/

namespace Sys2Proof.Machine

/-! ### Requests of the other banks -/

/-- What the rises of banks keep: a valid configuration, the sizes and the paths. -/
structure State.Sound (s : State) : Prop where
  valid : s.cfg.valid = true
  sized : s.WellSized
  routes : s.RoutesOk

theorem riseBanks_sound {bs : List Nat} {s t : State} (h : riseBanks bs s = .ok t) (hs : s.Sound) : t.Sound :=
  (riseBanks_stateMoves (i := .clockRise) h).keep (fun _ _ hm hu => ⟨hm.cfg ▸ hu.valid, hm.wellSized hu.sized,
    hm.routesOk rfl hu.valid hu.sized hu.routes⟩) hs

theorem riseBanks_singleton (b : Nat) (s : State) : riseBanks [b] s = riseBank b s := by
  simp only [riseBanks]
  split
  · rename_i u hu; exact hu.symm
  · rename_i e he; exact he.symm

/-- The rises of other banks leave a bank's request in its slot: they read what their own arbitrators grant
(42_crossbar.md R117). -/
theorem riseBanks_keeps_slot {bs : List Nat} (hn : bs.Nodup) {s t : State} (h : riseBanks bs s = .ok t)
    (hs : s.Sound) {p : Nat} {req : Request} (hp : s.reqSlot p = some req) (hbank : s.cfg.bank req.address ∉ bs) :
    t.reqSlot p = some req := by
  rcases riseBanks_reads_slot hn h hp with hkept | ⟨-, c, hc, hgrant, -⟩
  · exact hkept
  · obtain ⟨req', hp', hbank'⟩ := hs.routes.granted hgrant
    rw [hp] at hp'
    cases hp'
    exact absurd (hbank' ▸ hc) hbank

/-- The rises of other banks leave what a bank's rise counts. -/
theorem riseBanks_riseCounter {bs : List Nat} (hn : bs.Nodup) {s t : State} (h : riseBanks bs s = .ok t)
    (hs : s.Sound) {b : Nat} (hb : b ∉ bs) : t.riseCounter b = s.riseCounter b := by
  obtain ⟨hbank, -, hxreq⟩ := riseBanks_other h hb
  have hslot : (s.xreq b).current.bind t.reqSlot = (s.xreq b).current.bind s.reqSlot := by
    cases hg : (s.xreq b).current with
    | none => rfl
    | some g =>
      obtain ⟨req, hreq, hbank⟩ := hs.routes.granted hg
      rw [Option.bind_some, Option.bind_some, hreq, riseBanks_keeps_slot hn h hs hreq (hbank ▸ hb)]
  rw [State.riseCounter, hbank, hxreq, hslot, (riseBanks_frame h).cfg]
  rfl

/-! ### The counters of the rises -/

theorem riseBank_stats {b : Nat} {s t : State} (h : riseBank b s = .ok t) (hb : b < s.banks.length) (hs : s.Sound) :
    t.stats = (s.riseCounter b).elim s.stats s.stats.bump := by
  cases hhand : handOff (pipelineAdvance (s.bank b)) with
  | some x =>
    rw [riseCounter_of_handOff hhand]
    exact (riseBank_of_handOff h hb hhand).stats
  | none =>
    cases hg : (s.xreq b).current with
    | none =>
      rw [riseCounter_of_no_grant hg]
      exact (riseBank_of_no_grant h hb hhand hg).stats
    | some g =>
      obtain ⟨req, hreq, -⟩ := hs.routes.granted hg
      rw [riseCounter_of_grant hhand hg hreq]
      cases ha : acceptRequest s.cfg b (pipelineAdvance (s.bank b)) req with
      | accepted x c => exact (riseBank_of_accepted h hb hhand hg hreq ha).stats
      | stall => exact (riseBank_of_stall h hb hhand hg hreq ha).stats
      | fault c => exact absurd ha (acceptRequest_ne_fault _ _ _ _ c)

/-- Every bank's rise adds its own counter. -/
theorem riseBanks_stats {bs : List Nat} (hn : bs.Nodup) {s t : State} (h : riseBanks bs s = .ok t) (hs : s.Sound)
    (hlt : ∀ b ∈ bs, b < s.cfg.numBanks) :
    t.stats = bs.foldl (fun st b => (s.riseCounter b).elim st st.bump) s.stats := by
  induction bs generalizing s with
  | nil => cases h; rfl
  | cons b bs ih =>
    obtain ⟨hb, hn⟩ := List.nodup_cons.mp hn
    rw [riseBanks] at h
    split at h
    · rename_i u hu
      have hu' : riseBanks [b] s = .ok u := (riseBanks_singleton b s).trans hu
      have hcfg : u.cfg = s.cfg := (riseBank_frame hu).cfg
      rw [ih hn h (riseBanks_sound hu' hs) fun c hc => hcfg ▸ hlt c (List.mem_cons_of_mem b hc), List.foldl_cons,
        ← riseBank_stats hu (hs.sized.bankCount ▸ hlt b List.mem_cons_self) hs]
      refine List.foldl_ext _ _ _ fun st c hc => ?_
      rw [riseBanks_riseCounter (List.nodup_singleton b) hu' hs fun hcb => hb (List.mem_singleton.mp hcb ▸ hc)]
    · cases h

/-! ### The rise of one bank among the others -/

/-- Bank `b` rises from `u` to `v` in the course of the rises from `s` to `t`: it finds its own elements, its
downstream port, its arbitrator and its requests as `s` has them, and `t` has them as it leaves them. -/
structure RisesWithin (b : Nat) (s t u v : State) : Prop where
  rise : riseBank b u = .ok v
  sound : u.Sound
  cfg : u.cfg = s.cfg
  bank : u.bank b = s.bank b
  dsHead : u.dsHead b = s.dsHead b
  xreq : u.xreq b = s.xreq b
  slot : ∀ p req, s.reqSlot p = some req → s.cfg.bank req.address = b → u.reqSlot p = some req
  bank_end : t.bank b = v.bank b
  xreq_end : t.xreq b = v.xreq b
  slot_end : ∀ p req, v.reqSlot p = some req → s.cfg.bank req.address = b → t.reqSlot p = some req
  empty_end : ∀ p, v.reqSlot p = none → t.reqSlot p = none

theorem riseBanks_within {bs : List Nat} (hn : bs.Nodup) {s t : State} (h : riseBanks bs s = .ok t) (hs : s.Sound)
    {b : Nat} (hb : b ∈ bs) : ∃ u v, RisesWithin b s t u v := by
  obtain ⟨before, after, rfl⟩ := List.append_of_mem hb
  obtain ⟨hnBefore, hnAfter, hbBefore, hbAfter⟩ : before.Nodup ∧ after.Nodup ∧ b ∉ before ∧ b ∉ after := by
    rw [List.nodup_middle, List.nodup_cons, List.mem_append, not_or] at hn
    obtain ⟨⟨hbBefore, hbAfter⟩, hrest⟩ := hn
    exact ⟨hrest.of_append_left, hrest.of_append_right, hbBefore, hbAfter⟩
  rw [riseBanks_append] at h
  cases hu : riseBanks before s with
  | error e => rw [hu] at h; cases h
  | ok u =>
    rw [hu] at h
    cases hv : riseBank b u with
    | error e => simp only [Except.bind, riseBanks, hv] at h; cases h
    | ok v =>
      replace h : riseBanks after v = .ok t := by simpa only [Except.bind, riseBanks, hv] using h
      obtain ⟨hbank, hport, hxreq⟩ := riseBanks_other hu hbBefore
      obtain ⟨hbank', -, hxreq'⟩ := riseBanks_other h hbAfter
      have hsu : u.Sound := riseBanks_sound hu hs
      have hsv : v.Sound := riseBanks_sound ((riseBanks_singleton b u).trans hv) hsu
      have hcfg : u.cfg = s.cfg := (riseBanks_frame hu).cfg
      have hcfg' : v.cfg = s.cfg := (riseBank_frame hv).cfg.trans hcfg
      exact ⟨u, v,
        { rise := hv
          sound := hsu
          cfg := hcfg
          bank := hbank
          dsHead := State.dsHead_congr hport
          xreq := hxreq
          slot := fun p req hp hreq => riseBanks_keeps_slot hnBefore hu hs hp (hreq ▸ hbBefore)
          bank_end := hbank'
          xreq_end := hxreq'
          slot_end := fun p req hp hreq => riseBanks_keeps_slot hnAfter h hsv hp (hcfg' ▸ hreq ▸ hbAfter)
          empty_end := fun p hp => riseBanks_keeps_empty h hp }⟩

namespace RisesWithin

variable {b : Nat} {s t u v : State} (w : RisesWithin b s t u v)
include w

theorem ends {x : Bank} (h : u.EndsFilling v b x) : s.EndsFilling t b x := by
  simpa only [State.EndsFilling, w.dsHead, w.cfg, w.bank_end] using h

/-- A rise that writes no request arbitrator leaves its own bank's as it was. -/
theorem xreq_kept (h : v.xreqArb = u.xreqArb) : t.xreq b = s.xreq b := by
  rw [w.xreq_end, ← w.xreq, State.xreq, State.xreq, h, (riseBank_frame w.rise).cfg]

/-- A rise that reads no request leaves those for its own bank in their slots. -/
theorem slot_kept (h : v.reqIn = u.reqIn) {p : Nat} {req : Request} (hp : s.reqSlot p = some req)
    (hbank : s.cfg.bank req.address = b) : t.reqSlot p = some req :=
  w.slot_end p req ((State.reqSlot_congr h p).trans (w.slot p req hp hbank)) hbank

variable (hb : b < s.cfg.numBanks)
include hb

theorem lt_banks : b < u.banks.length := by
  rw [w.sound.sized.bankCount, w.cfg]
  exact hb

theorem of_handOff {x : Bank} (hx : handOff (pipelineAdvance (s.bank b)) = some x) :
    s.EndsFilling t b x ∧ s.riseCounter b = none ∧ t.xreq b = s.xreq b ∧
      ∀ p req, s.reqSlot p = some req → s.cfg.bank req.address = b → t.reqSlot p = some req := by
  have hrise := riseBank_of_handOff w.rise (w.lt_banks hb) (w.bank ▸ hx)
  exact ⟨w.ends hrise.ends, riseCounter_of_handOff hx, w.xreq_kept hrise.xreqArb, fun _ _ =>
    w.slot_kept hrise.reqIn⟩

variable (hn : handOff (pipelineAdvance (s.bank b)) = none)
include hn

theorem of_no_grant (hg : (s.xreq b).current = none) :
    s.EndsFilling t b (pipelineAdvance (s.bank b)) ∧ s.riseCounter b = none ∧ t.xreq b = s.xreq b := by
  have hrise := riseBank_of_no_grant w.rise (w.lt_banks hb) (w.bank ▸ hn) (w.xreq ▸ hg)
  exact ⟨w.bank ▸ w.ends hrise.ends, riseCounter_of_no_grant hg, w.xreq_kept hrise.xreqArb⟩

variable {g : Nat} {req : Request} (hg : (s.xreq b).current = some g) (hreq : s.reqSlot g = some req)
  (hbank : s.cfg.bank req.address = b)
include hg hreq hbank

theorem of_stall (ha : acceptRequest s.cfg b (pipelineAdvance (s.bank b)) req = .stall) :
    s.EndsFilling t b (pipelineAdvance (s.bank b)) ∧ s.riseCounter b = some .lfbStalls ∧ t.reqSlot g = some req ∧
      t.xreq b = s.xreq b := by
  have hrise := riseBank_of_stall w.rise (w.lt_banks hb) (w.bank ▸ hn) (w.xreq ▸ hg) (w.slot g req hreq hbank)
    (w.cfg ▸ w.bank ▸ ha)
  exact ⟨w.bank ▸ w.ends hrise.ends, by rw [riseCounter_of_grant hn hg hreq, ha, Accept.counter],
    w.slot_kept hrise.reqIn hreq hbank, w.xreq_kept hrise.xreqArb⟩

theorem of_accepted {x : Bank} {c : Option Counter}
    (ha : acceptRequest s.cfg b (pipelineAdvance (s.bank b)) req = .accepted x c) :
    s.EndsFilling t b x ∧ s.riseCounter b = c ∧ t.reqSlot g = none ∧ t.xreq b = (s.xreq b).remove g := by
  have hrise := riseBank_of_accepted w.rise (w.lt_banks hb) (w.bank ▸ hn) (w.xreq ▸ hg) (w.slot g req hreq hbank)
    (w.cfg ▸ w.bank ▸ ha)
  refine ⟨w.ends hrise.ends, by rw [riseCounter_of_grant hn hg hreq, ha, Accept.counter], w.empty_end g ?_,
    w.xreq_end.trans ?_⟩
  · rw [State.reqSlot, hrise.reqIn, getD_set]
    split
    · rfl
    · rename_i hlt
      exact List.getD_eq_default _ _ (not_lt.mp fun h => hlt ⟨rfl, h⟩)
  · have hlt : b < u.xreqArb.length := by rw [w.sound.sized.xreqCount, w.cfg]; exact hb
    rw [State.xreq, hrise.xreqArb, getD_set, if_pos ⟨rfl, hlt⟩, w.xreq]

end RisesWithin

/-! ### The rise of every bank on the registered requests -/

theorem registerRequests_dsHead (s : State) (b : Nat) : (registerRequests s).dsHead b = s.dsHead b :=
  State.dsHead_congr (by rw [State.dsPort, State.dsPort, registerRequests_ds])

theorem registerRequests_endsFilling (s t : State) (b : Nat) (x : Bank) :
    (registerRequests s).EndsFilling t b x ↔ s.EndsFilling t b x := by
  rw [State.EndsFilling, State.EndsFilling, registerRequests_dsHead, registerRequests_cfg]

/-- `clock_rise` completes when every return that it reads answers a fetch (R146). -/
theorem execClockRise_completes {s : State} (h : s.Healthy) (hphase : s.phase = .rise) (hfills : s.FillsAnswer) :
    ∃ t, riseBanks (List.range s.cfg.numBanks) (registerRequests s) = .ok t ∧
      exec .clockRise s = .next { t with phase := .fall, resp := .nothing } := by
  obtain ⟨t, ht⟩ := riseBanks_completes List.nodup_range (s := registerRequests s) fun b hb r hr => by
    rw [registerRequests_dsHead] at hr
    exact (hfills b (List.mem_range.mp hb) r hr).congr (registerRequests_cfg s) (by rw [registerRequests_bank])
  refine ⟨t, ht, ?_⟩
  show execClockRise s = _
  rw [execClockRise, h.whenRunning, if_pos hphase, ht]
  rfl

/-- Settles O48: the rise of a bank finds its own elements as the registration left them, whichever banks rose before
it, and does what the case it is in says; the rises after it leave that. -/
theorem clockRiseServesTheGrantedRequest : Obligations.ClockRiseServesTheGrantedRequest := by
  intro s hhealthy hv hs h hphase hfills
  obtain ⟨t, ht, hexec⟩ := execClockRise_completes hhealthy hphase hfills
  have hsound : (registerRequests s).Sound :=
    ⟨(registerRequests_cfg s).symm ▸ hv, registerRequests_wellSized hs, registerRequests_routesOk h⟩
  have hstats := riseBanks_stats List.nodup_range ht hsound fun b hb => by
    rw [registerRequests_cfg]
    exact List.mem_range.mp hb
  refine ⟨_, (registerRequests s).riseCounter, hexec, ?_, fun b hb => ?_⟩
  · obtain ⟨arbs, -, heq⟩ := registerRequests_eq s
    rw [show (registerRequests s).stats = s.stats by rw [heq]] at hstats
    exact hstats
  · obtain ⟨u, v, w⟩ := riseBanks_within List.nodup_range ht hsound (List.mem_range.mpr hb)
    have hb' : b < (registerRequests s).cfg.numBanks := by rwa [registerRequests_cfg]
    have hhandOff := fun x => w.of_handOff hb' (x := x)
    have hnoGrant := w.of_no_grant hb'
    have hstall := fun g req hn => w.of_stall hb' hn (g := g) (req := req)
    have haccept := fun g req hn => w.of_accepted hb' hn (g := g) (req := req)
    simp only [registerRequests_endsFilling, registerRequests_bank, registerRequests_cfg,
      registerRequests_reqSlot] at hhandOff hnoGrant hstall haccept
    refine ⟨hhandOff, hnoGrant, fun g hn hg => ?_⟩
    obtain ⟨req, hreq, hbank⟩ := hsound.routes.granted hg
    rw [registerRequests_reqSlot] at hreq
    rw [registerRequests_cfg] at hbank
    exact ⟨req, hreq, fun x c ha => haccept g req hn hg hreq hbank ha, hstall g req hn hg hreq hbank,
      fun c => acceptRequest_ne_fault _ _ _ _ c⟩

end Sys2Proof.Machine
end

section
/-! PROOFS. The age scheme and the replacement victim (43_tag_data_array.md R124, R127, R130). -/

namespace Sys2Proof.Machine

/-! ### Touching (R127) -/

/-- The age of one entry after a touch. -/
theorem touchedAges_getD {ages : List Nat} {y : Nat} (x : Nat) (hy : y < ages.length) :
    (touchedAges ages x).getD y 0 = touchedAge x (ages.getD x 0) y (ages.getD y 0) := by
  simp [touchedAges, hy]

/-- Two entries of a group never have the same age. -/
theorem IsAges.getD_ne {ages : List Nat} (h : IsAges ages) {y z : Nat} (hy : y < ages.length)
    (hz : z < ages.length) (hne : y ≠ z) : ages.getD y 0 ≠ ages.getD z 0 := by
  rw [List.getD_eq_getElem _ _ hy, List.getD_eq_getElem _ _ hz]
  exact fun he => hne ((isAges_iff.mp h).1.getElem_inj_iff.mp he)

/-- A touch keeps the order of two ages of other entries. Were the larger one the touched entry's own old age, the
smaller could move up to it; that is where the ages must differ. -/
theorem touchedAge_lt_iff {x old y z a b : Nat} (hy : y ≠ x) (hz : z ≠ x) (hb : b ≠ old) :
    a < b ↔ touchedAge x old y a < touchedAge x old z b := by
  simp only [touchedAge, if_neg hy, if_neg hz]
  split <;> split <;> omega

/-- Settles O26: on a permutation no other entry has the touched one's age, so those below it move up in order. -/
theorem touchingKeepsTheAgesAPermutation : Obligations.TouchingKeepsTheAgesAPermutation := by
  intro ages x h hx
  refine ⟨h.touched hx, ?_, fun y z hy hz hyx hzx => ?_⟩
  · exact (touchedAges_getD x hx).trans (touchedAge_self _ _ _)
  · calc ages.getD y 0 < ages.getD z 0
        ↔ touchedAge x (ages.getD x 0) y (ages.getD y 0) < touchedAge x (ages.getD x 0) z (ages.getD z 0) :=
          touchedAge_lt_iff hyx hzx (h.getD_ne hz hx hzx)
      _ ↔ (touchedAges ages x).getD y 0 < (touchedAges ages x).getD z 0 := by
          rw [touchedAges_getD x hy, touchedAges_getD x hz]

/-! ### The victim (R124) -/

/-- With a way that is not valid, the victim is the first such way. -/
theorem findIdx?_eq_victimWay {ways : List TagEntry} (h : ∃ f ∈ ways, f.valid = false) :
    ways.findIdx? (fun e => !e.valid) = some (victimWay ways) := by
  rw [victimWay]
  split
  case h_1 w hw => exact hw
  case h_2 hnone =>
    obtain ⟨f, hf, hv⟩ := h
    rw [List.findIdx?_eq_none_iff] at hnone
    simpa [hv] using hnone f hf

/-- With every way valid, the victim is the oldest of them. -/
theorem oldest_eq_victimWay {ways : List TagEntry} (hne : ways ≠ []) (h : ∀ f ∈ ways, f.valid = true) :
    oldest (ways.map fun e => some e.lru) = some (victimWay ways) := by
  have hvalid : ways.findIdx? (fun e => !e.valid) = none :=
    List.findIdx?_eq_none_iff.mpr fun f hf => by simp [h f hf]
  have hsome : oldest (ways.map fun e => some e.lru) ≠ none := fun hnone => by
    obtain ⟨f, hf⟩ := List.exists_mem_of_ne_nil ways hne
    cases oldest_eq_none.mp hnone _ (List.mem_map_of_mem hf)
  obtain ⟨w, hw⟩ := Option.ne_none_iff_exists'.mp hsome
  rw [victimWay, hvalid, hw]
  rfl

/-- With a way that is not valid, the victim is not valid and every way below it is. -/
theorem victimWay_of_invalid {ways : List TagEntry} (h : ∃ f ∈ ways, f.valid = false) :
    ∃ e, ways[victimWay ways]? = some e ∧ e.valid = false ∧
      ∀ (w : Nat) (f : TagEntry), w < victimWay ways → ways[w]? = some f → f.valid = true := by
  obtain ⟨hlt, hinvalid, hbelow⟩ := List.findIdx?_eq_some_iff_getElem.mp (findIdx?_eq_victimWay h)
  refine ⟨_, List.getElem?_eq_getElem hlt, by simpa using hinvalid, fun w f hw hf => ?_⟩
  obtain ⟨_, rfl⟩ := List.getElem?_eq_some_iff.mp hf
  simpa using hbelow w hw

/-- With every way valid, no way is older than the victim, and none as old is below it. -/
theorem victimWay_of_valid {ways : List TagEntry} (hne : ways ≠ []) (h : ∀ f ∈ ways, f.valid = true) :
    ∃ e, ways[victimWay ways]? = some e ∧
      ∀ (w : Nat) (f : TagEntry), ways[w]? = some f → f.lru ≤ e.lru ∧ (f.lru = e.lru → victimWay ways ≤ w) := by
  obtain ⟨age, hage, hmax, hlow⟩ := oldest_eq_some (oldest_eq_victimWay hne h)
  rw [List.getElem?_map, Option.map_eq_some_iff] at hage
  obtain ⟨e, he, hlru⟩ := hage
  obtain rfl : e.lru = age := Option.some.inj hlru
  refine ⟨e, he, fun w f hf => ?_⟩
  have hcand : (ways.map fun e => some e.lru)[w]? = some (some f.lru) := by
    rw [List.getElem?_map, hf]
    rfl
  exact ⟨hmax w _ hcand, fun heq => not_lt.mp fun hlt => hlow w hlt (heq ▸ hcand)⟩

/-- Settles O28: the search for a way that is not valid comes before the choice of the oldest. -/
theorem victimIsAnInvalidOrTheOldestWay : Obligations.VictimIsAnInvalidOrTheOldestWay := by
  intro ways hne
  by_cases h : ∃ f ∈ ways, f.valid = false
  · obtain ⟨e, he, hvictim⟩ := victimWay_of_invalid h
    obtain ⟨f, hf, hv⟩ := h
    exact ⟨e, he, fun _ => hvictim, fun hall => absurd (hall f hf) (by simp [hv])⟩
  · obtain ⟨e, he, hvictim⟩ := victimWay_of_valid hne (by simpa using h)
    exact ⟨e, he, fun hinv => absurd hinv h, fun _ => hvictim⟩

/-- Settles O27: the ages after each touch, and the oldest of the four valid ways. -/
theorem ageSchemeOfTheExample : Obligations.AgeSchemeOfTheExample := by
  unfold Obligations.AgeSchemeOfTheExample
  intro way two three
  have htwo : two.map TagEntry.lru = [1, 2, 0, 3] := touchWays_lru _ 2
  have hthree : three.map TagEntry.lru = [2, 3, 1, 0] := by
    rw [touchWays_lru, htwo]
    rfl
  have hvictim : some (victimWay three) = some 1 := by
    rw [← oldest_eq_victimWay (by decide) (by decide)]
    decide
  exact ⟨htwo, hthree, Option.some.inj hvictim⟩

end Sys2Proof.Machine
end

section
/-! PROOFS. The faults an operation can raise: never DUP_LFB, nor CONFIG (44_bank_accept.md R135, R137, R141;
60_exceptions.md R171). -/

namespace Sys2Proof.Machine

/-- The fault is one that some operation raises: all but DUP_LFB and CONFIG. -/
def FaultCode.raisable : FaultCode → Bool
  | .dupLfb | .config => false
  | _ => true

/-- FAULT is none or one that some operation raises. -/
def State.Raisable (s : State) : Prop :=
  ∀ c, s.fault = some c → c.raisable = true

theorem State.Raisable.of_fault {s : State} {c : FaultCode} (hc : c.raisable = true) (hs : s.fault = some c) :
    s.Raisable := fun d hd => by
  rw [hs] at hd
  exact Option.some.inj hd ▸ hc

theorem State.Raisable.congr {s t : State} (h : s.Raisable) (hf : t.fault = s.fault) : t.Raisable :=
  fun c hc => h c (hf ▸ hc)

/-! ### The rise -/

/-- What the fill step raises is BAD_FILL or UNMATCHED_FILL (45_bank_fill.md R151). -/
theorem fillStep_error {b : Nat} {s : State} {c : FaultCode} {ds : List DsPort}
    (h : fillStep b s = .error (c, ds)) : c = .badFill ∨ c = .unmatchedFill := by
  unfold fillStep at h
  split at h
  · cases h
  · simp only at h
    split at h
    · cases h
    · rename_i hfill
      cases h
      rcases fillBank_error hfill with ⟨-, hc⟩ | ⟨-, hc, -⟩
      · exact .inl hc
      · exact .inr hc

/-- A rise raises no other fault than its fills: the hand-off or the acceptance before a fill completes. -/
theorem riseBanks_error {bs : List Nat} {s : State} {c : FaultCode} {ds : List DsPort}
    (h : riseBanks bs s = .error (c, ds)) : c = .badFill ∨ c = .unmatchedFill := by
  induction bs generalizing s with
  | nil => cases h
  | cons b bs ih =>
    rw [riseBanks] at h
    split at h
    case h_1 => exact ih h
    case h_2 e he =>
      cases h
      obtain ⟨u, hu⟩ := handOffOrAccept_completes b (s.setBank b (pipelineAdvance (s.bank b)))
      rw [riseBank, hu] at he
      exact fillStep_error he

theorem execClockRise_raisable {s t : State} (h : execClockRise s = .next t) (hs : s.Raisable) : t.Raisable := by
  rcases execClockRise_next h with ⟨-, rfl⟩ | ⟨-, -, rfl⟩ | ⟨-, -, c, ds, hc, rfl⟩ | ⟨-, -, u, hu, rfl⟩
  · exact hs
  · exact .of_fault (c := .badPhase) rfl rfl
  · exact .of_fault (by rcases riseBanks_error hc with rfl | rfl <;> rfl) rfl
  · obtain ⟨arbs, -, hreg⟩ := registerRequests_eq s
    have hfault : u.fault = (registerRequests s).fault := (riseBanks_frame hu).fault
    exact hs.congr (hfault.trans (by rw [hreg]))

/-! ### The other operations -/

theorem raise_raisable {s t : State} {c : FaultCode} (hc : c.raisable = true) (h : s.raise c = .next t) : t.Raisable := by
  cases h
  exact .of_fault hc rfl

theorem finish_raisable {s t : State} {r : Response} (hs : s.Raisable) (h : s.finish r = .next t) : t.Raisable := by
  cases h; exact hs

theorem whenRunning_raisable {s t : State} {op : State → Result} (h : s.whenRunning op = .next t) (hs : s.Raisable)
    (hop : op s = .next t → t.Raisable) : t.Raisable := by
  rcases whenRunning_next h with ⟨-, rfl⟩ | ⟨-, h⟩
  · exact hs
  · exact hop h

theorem onPort_raisable {s t : State} {port : BitVec 16} {ph : Phase} {op : State → Result}
    (h : s.onPort port ph op = .next t) (hs : s.Raisable) (hop : op s = .next t → t.Raisable) : t.Raisable := by
  refine whenRunning_raisable h hs fun h => ?_
  split at h
  · exact raise_raisable rfl h
  · split at h
    · exact raise_raisable rfl h
    · exact hop h

theorem writeCheck_raisable {s : State} {port : BitVec 16} {req : Request} {c : FaultCode}
    (h : s.writeCheck port req = some c) : c.raisable = true := by
  unfold State.writeCheck at h
  split_ifs at h <;> cases h <;> rfl

theorem writeRequest_raisable {s t : State} {port : BitVec 16} {req : Request}
    (h : s.writeRequest port req = .next t) (hs : s.Raisable) : t.Raisable := by
  cases hf : s.fault with
  | some c => rw [writeRequest_stuck hf] at h; cases h; exact hs
  | none =>
    rw [State.Healthy.writeRequest_eq hf] at h
    cases hc : s.writeCheck port req with
    | none => rw [hc] at h; cases h; exact hs
    | some c =>
      rw [hc] at h
      cases h
      exact .of_fault (writeCheck_raisable hc) rfl

theorem onReturn_raisable {s t : State} {port : BitVec 16} {give : State → Return → Result}
    (h : s.onReturn port give = .next t) (hs : s.Raisable) (hgive : ∀ r, give s r = .next t → t.Raisable) :
    t.Raisable := by
  refine onPort_raisable h hs fun h => ?_
  split at h
  · exact raise_raisable rfl h
  · exact hgive _ h

theorem receive_raisable {s t : State} {q : BitVec 16} {r : Return} (h : s.receive q r = .next t)
    (hs : s.Raisable) : t.Raisable := by
  refine whenRunning_raisable h hs fun h => ?_
  split at h
  · exact finish_raisable hs h
  · exact finish_raisable (hs.congr (State.setDsPort_fault ..)) h

theorem writeDownstream_raisable {s t : State} {req : Request} (h : s.writeDownstream req = .next t)
    (hs : s.Raisable) : t.Raisable := by
  rcases writeDownstream_next h with rfl | ⟨b, i, -, -, -, -, -, -, rfl⟩
  · exact hs
  · exact hs

/-- An arbitrator operation takes no fault: outside its range it stops (log 12). -/
theorem onArb_raisable {s t : State} {a : ArbRef} {op : State → Result} (h : s.onArb a op = .next t)
    (hs : s.Raisable) (hop : op s = .next t → t.Raisable) : t.Raisable := by
  refine whenRunning_raisable h hs fun h => ?_
  split at h
  · cases h
  · exact hop h

theorem setArb_raisable {s t : State} {a : ArbRef} {v : Arb} {r : Response} (hs : s.Raisable)
    (h : (s.setArb a v).finish r = .next t) : t.Raisable := by
  obtain ⟨-, -, -, hfault, -⟩ := s.setArb_rest a v
  exact finish_raisable (hs.congr hfault) h

theorem execArbAdd_raisable {s t : State} {a : ArbRef} {j : BitVec 8} (h : execArbAdd a j s = .next t)
    (hs : s.Raisable) : t.Raisable := by
  refine onArb_raisable h hs fun h => ?_
  split at h
  · cases h
  · exact setArb_raisable hs h

theorem execArbRemove_raisable {s t : State} {a : ArbRef} {j : BitVec 8} (h : execArbRemove a j s = .next t)
    (hs : s.Raisable) : t.Raisable := by
  refine onArb_raisable h hs fun h => ?_
  split at h
  · cases h
  · exact setArb_raisable hs h

theorem execClockFall_raisable {s t : State} (h : execClockFall s = .next t) (hs : s.Raisable) : t.Raisable := by
  rcases execClockFall_next h with ⟨-, rfl⟩ | ⟨-, -, rfl⟩ | ⟨-, -, rfl⟩
  · exact hs
  · exact .of_fault (c := .badPhase) rfl rfl
  · exact hs.congr ((fallBanks_frame _ s).trans (routeReturns_frame _)).fault

/-- Every instruction keeps FAULT none or one that an operation raises. -/
theorem exec_raisable {i : Instr} {s t : State} (h : exec i s = .next t) (hs : s.Raisable) : t.Raisable := by
  cases i with
  | dsLoad _ => exact writeDownstream_raisable h hs
  | dsStore _ => exact writeDownstream_raisable h hs
  | na _ _ => exact receive_raisable h hs
  | loadReturn _ _ => exact receive_raisable h hs
  | retReserved02 _ _ _ => exact receive_raisable h hs
  | retReserved04 _ _ _ => exact receive_raisable h hs
  | retReserved08 _ _ _ => exact receive_raisable h hs
  | retReserved10 _ _ _ => exact receive_raisable h hs
  | retReserved20 _ _ _ => exact receive_raisable h hs
  | retReserved40 _ _ _ => exact receive_raisable h hs
  | retReserved80 _ _ _ => exact receive_raisable h hs
  | requestPortWriteValid port =>
    exact onPort_raisable ((exec_requestPortWriteValid port s).symm.trans h) hs (finish_raisable hs)
  | returnPortReadValid port =>
    exact onPort_raisable ((exec_returnPortReadValid port s).symm.trans h) hs (finish_raisable hs)
  | peekReturn port => exact onReturn_raisable ((exec_peekReturn port s).symm.trans h) hs fun _ => finish_raisable hs
  | readReturn port =>
    exact onReturn_raisable ((exec_readReturn port s).symm.trans h) hs fun _ => finish_raisable (hs.congr rfl)
  | arbAdd _ _ => exact execArbAdd_raisable h hs
  | arbRemove _ _ => exact execArbRemove_raisable h hs
  | arbAdvance a => exact onArb_raisable ((exec_arbAdvance a s).symm.trans h) hs (setArb_raisable hs)
  | arbCurrent a => exact onArb_raisable ((exec_arbCurrent a s).symm.trans h) hs (finish_raisable hs)
  | clockRise => exact execClockRise_raisable h hs
  | clockFall => exact execClockFall_raisable h hs
  | _ => exact writeRequest_raisable h hs

/-- Settles O17: the search for a live LFB of the key comes before the allocation, so the check of DUP_LFB never
fails, and no operation raises CONFIG. -/
theorem dupLfbAndConfigAreNeverRaised : Obligations.DupLfbAndConfigAreNeverRaised := by
  intro i s t hs h
  have ht : t.Raisable := exec_raisable h fun c hc => by rw [hs] at hc; cases hc
  exact ⟨fun hc => absurd (ht _ hc) (by decide), fun hc => absurd (ht _ hc) (by decide)⟩

end Sys2Proof.Machine
end

section
/-! PROOFS. What `alloc_slot` answers, and when a request stalls (44_bank_accept.md R132, R144). -/

namespace Sys2Proof.Machine

/-! ### The two searches of `alloc_slot` (R132) -/

theorem Bank.getElem?_lfbs (bk : Bank) {j : Nat} (hj : j < bk.lfbs.length) : bk.lfbs[j]? = some (bk.lfb j) := by
  simp [Bank.lfb, hj]

/-- The lowest INVALID LFB. -/
def Bank.lowestInvalid (bk : Bank) : Option Nat :=
  bk.lfbs.findIdx? fun l => decide (l.state = .invalid)

/-- The age of a RETIRED LFB. -/
def Lfb.retiredAge (l : Lfb) : Option Nat :=
  if l.state = .retired then some l.lru else none

/-- The RETIRED LFB of the largest age. -/
def Bank.oldestRetired (bk : Bank) : Option Nat :=
  oldest (bk.lfbs.map Lfb.retiredAge)

theorem allocSlot_eq (bk : Bank) : allocSlot bk = bk.lowestInvalid.or bk.oldestRetired := by
  unfold allocSlot Bank.lowestInvalid
  split
  case h_1 k hk => rw [hk]; rfl
  case h_2 hn => rw [hn]; rfl

theorem Bank.lowestInvalid_eq_some {bk : Bank} {k : Nat} (h : bk.lowestInvalid = some k) :
    k < bk.lfbs.length ∧ (bk.lfb k).state = .invalid ∧ ∀ j < k, (bk.lfb j).state ≠ .invalid := by
  obtain ⟨hk, hinv, hlow⟩ := List.findIdx?_eq_some_iff_getElem.mp h
  have hget {j : Nat} (hj : j < bk.lfbs.length) : bk.lfbs[j] = bk.lfb j := by simp [Bank.lfb, hj]
  simp only [hget, decide_eq_true_eq] at hinv hlow
  exact ⟨hk, hinv, hlow⟩

theorem Bank.lowestInvalid_eq_none {bk : Bank} :
    bk.lowestInvalid = none ↔ ∀ j < bk.lfbs.length, (bk.lfb j).state ≠ .invalid := by
  rw [Bank.lowestInvalid, List.findIdx?_eq_none_iff]
  simp only [decide_eq_false_iff_not]
  exact Bank.forall_lfb (P := fun l => l.state ≠ .invalid)

theorem Lfb.retiredAge_eq_some {l : Lfb} {a : Nat} : l.retiredAge = some a ↔ l.state = .retired ∧ l.lru = a := by
  simp [Lfb.retiredAge]

theorem Lfb.retiredAge_eq_none {l : Lfb} : l.retiredAge = none ↔ l.state ≠ .retired := by
  simp [Lfb.retiredAge]

/-- The candidate of an index of the pool. -/
theorem Bank.getElem?_retiredAge (bk : Bank) {j : Nat} (hj : j < bk.lfbs.length) :
    (bk.lfbs.map Lfb.retiredAge)[j]? = some (bk.lfb j).retiredAge := by
  rw [List.getElem?_map, bk.getElem?_lfbs hj, Option.map_some]

theorem Bank.oldestRetired_eq_some {bk : Bank} {k : Nat} (h : bk.oldestRetired = some k) :
    k < bk.lfbs.length ∧ (bk.lfb k).state = .retired ∧
      ∀ j < bk.lfbs.length, (bk.lfb j).state = .retired →
        (bk.lfb j).lru ≤ (bk.lfb k).lru ∧ ((bk.lfb j).lru = (bk.lfb k).lru → k ≤ j) := by
  obtain ⟨age, hage, hmax, hlow⟩ := oldest_eq_some h
  have hk : k < bk.lfbs.length := by simpa using (List.getElem?_eq_some_iff.mp hage).1
  rw [bk.getElem?_retiredAge hk, Option.some.injEq, Lfb.retiredAge_eq_some] at hage
  obtain ⟨hretired, rfl⟩ := hage
  refine ⟨hk, hretired, fun j hj hs => ?_⟩
  have hcand : (bk.lfbs.map Lfb.retiredAge)[j]? = some (some (bk.lfb j).lru) := by
    rw [bk.getElem?_retiredAge hj, Lfb.retiredAge_eq_some.mpr ⟨hs, rfl⟩]
  exact ⟨hmax j _ hcand, fun heq => not_lt.mp fun hlt => hlow j hlt (heq ▸ hcand)⟩

theorem Bank.oldestRetired_eq_none {bk : Bank} :
    bk.oldestRetired = none ↔ ∀ j < bk.lfbs.length, (bk.lfb j).state ≠ .retired := by
  rw [Bank.oldestRetired, oldest_eq_none]
  simp only [List.forall_mem_map, Lfb.retiredAge_eq_none]
  exact Bank.forall_lfb (P := fun l => l.state ≠ .retired)

/-- `alloc_slot` answers none when no LFB is INVALID or RETIRED. -/
theorem allocSlot_eq_none {bk : Bank} :
    allocSlot bk = none ↔ ∀ j < bk.lfbs.length, (bk.lfb j).state ≠ .invalid ∧ (bk.lfb j).state ≠ .retired := by
  rw [allocSlot_eq, Option.or_eq_none_iff, Bank.lowestInvalid_eq_none, Bank.oldestRetired_eq_none]
  exact ⟨fun ⟨hi, hr⟩ j hj => ⟨hi j hj, hr j hj⟩, fun h => ⟨fun j hj => (h j hj).1, fun j hj => (h j hj).2⟩⟩

/-- Settles O29: the search for an INVALID LFB comes before the choice of the oldest RETIRED one. -/
theorem allocSlotTakesInvalidThenOldestRetired : Obligations.AllocSlotTakesInvalidThenOldestRetired := by
  refine fun bk => ⟨fun k hk => ?_, allocSlot_eq_none⟩
  rw [allocSlot_eq, Option.or_eq_some_iff] at hk
  rcases hk with hinv | ⟨hnone, hret⟩
  · obtain ⟨hlt, hs, hlow⟩ := Bank.lowestInvalid_eq_some hinv
    exact ⟨hlt, .inl ⟨hs, hlow⟩⟩
  · obtain ⟨hlt, hs, hold⟩ := Bank.oldestRetired_eq_some hret
    exact ⟨hlt, .inr ⟨Bank.lowestInvalid_eq_none.mp hnone, hs, hold⟩⟩

/-! ### The acceptance of a LOAD, case by case (R136 to R138) -/

section
variable {cfg : Config} {b : Nat} {bk : Bank} {req : Request}

theorem acceptLoad_of_full {k : Nat} (hf : findLfb bk (cfg.block req.address) .read = some k)
    (hq : (bk.lfb k).subq.length = cfg.subqDepth) : acceptLoad cfg b bk req = .stall := by
  simp only [acceptLoad, hf, mergeLoad, if_pos hq]

theorem acceptLoad_of_merge {k : Nat} (hf : findLfb bk (cfg.block req.address) .read = some k)
    (hq : (bk.lfb k).subq.length ≠ cfg.subqDepth) :
    acceptLoad cfg b bk req =
      .accepted
        (touchLfb
          (bk.setLfb k
            { bk.lfb k with
              subq := (bk.lfb k).subq ++ [subReqOf cfg req]
              state := if (bk.lfb k).state = .retired then .filled else (bk.lfb k).state }) k)
        (some .halfMisses) := by
  simp only [acceptLoad, hf, mergeLoad, if_neg hq]

theorem acceptLoad_of_no_slot (hf : findLfb bk (cfg.block req.address) .read = none) (hv : allocSlot bk = none) :
    acceptLoad cfg b bk req = .stall := by
  simp only [acceptLoad, hf, hv]

/-- The bank right after a LOAD has taken slot `v`, before its lookup (R137). -/
def Bank.takeSlot (cfg : Config) (b : Nat) (bk : Bank) (v : Nat) (req : Request) : Bank :=
  touchLfb (newReadLfb cfg b (evictRetired bk v) v (cfg.block req.address) (subReqOf cfg req)) v

/-- A LOAD that takes a slot finds no duplicate, since eviction makes no LFB live. -/
theorem acceptLoad_of_slot {v : Nat} (hf : findLfb bk (cfg.block req.address) .read = none)
    (hv : allocSlot bk = some v) :
    acceptLoad cfg b bk req =
      match lookup cfg bk (cfg.block req.address) with
      | some w => .accepted (hitLoad cfg (bk.takeSlot cfg b v req) v (cfg.block req.address) w) (some .hits)
      | none => .accepted (missLoad cfg (bk.takeSlot cfg b v req) v (cfg.block req.address)) (some .misses) := by
  have hfree := (evictRetired_keepsKeys bk v).findLfb_eq_none hf
  simp only [acceptLoad, hf, hv, allocLoad, hfree, Option.isSome_none, Bool.false_eq_true, if_false,
    lookup_congr cfg (evictRetired_tags bk v)]
  rfl

theorem acceptLoad_eq_stall :
    acceptLoad cfg b bk req = .stall ↔
      (∃ k, findLfb bk (cfg.block req.address) .read = some k ∧ (bk.lfb k).subq.length = cfg.subqDepth) ∨
      (findLfb bk (cfg.block req.address) .read = none ∧ allocSlot bk = none) := by
  cases hf : findLfb bk (cfg.block req.address) .read with
  | some k =>
    by_cases hq : (bk.lfb k).subq.length = cfg.subqDepth
    · simp [acceptLoad_of_full hf hq, hq]
    · simp [acceptLoad_of_merge hf hq, hq]
  | none =>
    cases hv : allocSlot bk with
    | none => simp [acceptLoad_of_no_slot hf hv]
    | some v =>
      rw [acceptLoad_of_slot hf hv]
      split <;> simp

/-! ### The acceptance of a STORE, case by case (R139 to R143) -/

theorem acceptStore_of_zero (hm : effectiveMask req = 0) : acceptStore cfg b bk req = .accepted bk none := by
  rw [acceptStore, if_pos hm]

theorem acceptStore_of_merge {k : Nat} (hm : effectiveMask req ≠ 0)
    (hf : findLfb bk (cfg.block req.address) .writeCombining = some k) :
    acceptStore cfg b bk req =
      mergeStore cfg (commitStore cfg bk req (effectiveMask req)) k req (effectiveMask req) := by
  simp only [acceptStore, if_neg hm, hf]

theorem acceptStore_of_no_slot (hm : effectiveMask req ≠ 0)
    (hf : findLfb bk (cfg.block req.address) .writeCombining = none) (hv : allocSlot bk = none) :
    acceptStore cfg b bk req = .stall := by
  simp only [acceptStore, if_neg hm, hf, hv]

theorem acceptStore_of_slot {v : Nat} (hm : effectiveMask req ≠ 0)
    (hf : findLfb bk (cfg.block req.address) .writeCombining = none) (hv : allocSlot bk = some v) :
    acceptStore cfg b bk req =
      allocStore cfg b (commitStore cfg (evictRetired bk v) req (effectiveMask req)) v req (effectiveMask req) := by
  simp only [acceptStore, if_neg hm, hf, hv]

theorem allocStore_ne_stall (v m : Nat) : allocStore cfg b bk v req m ≠ .stall := by
  simp only [allocStore]
  split <;> exact Accept.noConfusion

theorem acceptStore_eq_stall :
    acceptStore cfg b bk req = .stall ↔
      effectiveMask req ≠ 0 ∧ findLfb bk (cfg.block req.address) .writeCombining = none ∧ allocSlot bk = none := by
  by_cases hm : effectiveMask req = 0
  · simp [acceptStore_of_zero hm, hm]
  · cases hf : findLfb bk (cfg.block req.address) .writeCombining with
    | some k => simp [acceptStore_of_merge hm hf, mergeStore]
    | none =>
      cases hv : allocSlot bk with
      | none => simp [acceptStore_of_no_slot hm hf hv, hm]
      | some v => simp [acceptStore_of_slot hm hf hv, allocStore_ne_stall]

/-! ### The acceptance by type -/

theorem acceptRequest_of_load (ht : req.type = .load) : acceptRequest cfg b bk req = acceptLoad cfg b bk req := by
  rw [acceptRequest, if_pos ht]

theorem acceptRequest_of_store (ht : req.type = .store) : acceptRequest cfg b bk req = acceptStore cfg b bk req := by
  rw [acceptRequest, if_neg (by simp [ht])]

end

theorem effectiveMask_eq_zero {req : Request} (h : ∀ j < req.size.toNat, req.writeMask.testBit j = false) :
    effectiveMask req = 0 := by
  refine Nat.eq_of_testBit_eq fun j => ?_
  rw [effectiveMask, Nat.testBit_and, ones_testBit, Nat.zero_testBit]
  by_cases hj : j < req.size.toNat
  · rw [h j hj, Bool.false_and]
  · rw [decide_eq_false hj, Bool.and_false]

/-- Settles O36: the effective mask has no bit at or above the size, so it is zero. -/
theorem zeroMaskStoreDoesNothing : Obligations.ZeroMaskStoreDoesNothing := by
  intro cfg b bk req ht h
  rw [acceptRequest_of_store ht]
  exact acceptStore_of_zero (effectiveMask_eq_zero h)

/-- Settles O37: the two stalls of a LOAD and the one of a STORE; `alloc_slot` answers none exactly when no LFB is
INVALID or RETIRED. -/
theorem stallsAreForWantOfAnLfbOrQueueSpace : Obligations.StallsAreForWantOfAnLfbOrQueueSpace := by
  intro cfg b bk req ht
  rw [← allocSlot_eq_none]
  rcases ht with ht | ht
  · rw [acceptRequest_of_load ht, acceptLoad_eq_stall]
    simp [ht, and_comm]
  · rw [acceptRequest_of_store ht, acceptStore_eq_stall]
    simp [ht, and_comm, and_left_comm]

end Sys2Proof.Machine
end

section
/-! PROOFS. What an accepted LOAD leaves of its bank: a merge, a hit, a miss (44_bank_accept.md R136 to R138). -/

namespace Sys2Proof.Machine

/-! ### Touched LFBs and equal banks -/

/-- The touched LFB is the most recently used one (43_tag_data_array.md R127). -/
theorem touchLfb_lfb_self {bk : Bank} {v : Nat} (hv : v < bk.lfbs.length) :
    (touchLfb bk v).lfb v = { bk.lfb v with lru := 0 } := by
  rw [touchLfb_lfb, if_pos hv, touchedAge_self]

/-- An LFB after a touch is as before but for its age. -/
theorem touchLfb_lfb_age {bk : Bank} {l : Lfb} {v j : Nat} (h : bk.lfb j = l) :
    { (touchLfb bk v).lfb j with lru := l.lru } = l := by
  rw [touchLfb_lfb_of_eq h]

theorem Bank.eq_of_fields {x y : Bank} (lfbs : x.lfbs = y.lfbs) (lfbArb : x.lfbArb = y.lfbArb) (mq : x.mq = y.mq)
    (wbq : x.wbq = y.wbq) (wbActive : x.wbActive = y.wbActive) (rstage : x.rstage = y.rstage)
    (tags : x.tags = y.tags) (data : x.data = y.data) (freeCount : x.freeCount = y.freeCount) : x = y := by
  cases x
  cases y
  simp_all

/-- Settles O30: the merge writes one LFB, then touches it. -/
theorem loadMergesIntoALiveReadLfb : Obligations.LoadMergesIntoALiveReadLfb := by
  intro cfg b bk req k hf
  have hk := (findLfb_eq_some hf).1
  refine ⟨acceptLoad_of_full hf, fun hq => ⟨_, acceptLoad_of_merge hf hq, rfl, by simp, ?_, fun j hj => ?_⟩⟩
  · rw [touchLfb_lfb_self (by simpa using hk), Bank.setLfb_self _ hk]
    rfl
  · exact touchLfb_lfb_age (Bank.setLfb_others bk k _ hj)

/-! ### The slot that a LOAD takes (R137) -/

section
variable (cfg : Config) (b : Nat) (bk : Bank) (v : Nat) (req : Request)

@[simp] theorem Bank.takeSlot_length : (bk.takeSlot cfg b v req).lfbs.length = bk.lfbs.length := by
  simp [Bank.takeSlot, newReadLfb]

@[simp] theorem Bank.takeSlot_lfbArb : (bk.takeSlot cfg b v req).lfbArb = bk.lfbArb := by
  simp [Bank.takeSlot, newReadLfb]

@[simp] theorem Bank.takeSlot_mq : (bk.takeSlot cfg b v req).mq = bk.mq := by
  simp [Bank.takeSlot, newReadLfb]

@[simp] theorem Bank.takeSlot_wbq : (bk.takeSlot cfg b v req).wbq = bk.wbq := by
  simp [Bank.takeSlot, newReadLfb]

@[simp] theorem Bank.takeSlot_wbActive : (bk.takeSlot cfg b v req).wbActive = bk.wbActive := by
  simp [Bank.takeSlot, newReadLfb]

@[simp] theorem Bank.takeSlot_rstage : (bk.takeSlot cfg b v req).rstage = bk.rstage := by
  simp [Bank.takeSlot, newReadLfb]

@[simp] theorem Bank.takeSlot_tags : (bk.takeSlot cfg b v req).tags = bk.tags := by
  simp [Bank.takeSlot, newReadLfb]

@[simp] theorem Bank.takeSlot_data : (bk.takeSlot cfg b v req).data = bk.data := by
  simp [Bank.takeSlot, newReadLfb]

variable {cfg b bk v req}

/-- The LFB of the slot: EMPTY, with the LOAD's sub-request, its data not yet known. -/
theorem Bank.takeSlot_self (hv : v < bk.lfbs.length) :
    (bk.takeSlot cfg b v req).lfb v =
      { state := .empty
        type := .read
        blockAddress := cfg.block req.address
        byteWriteMask := 0
        data := ((bk.takeSlot cfg b v req).lfb v).data
        lru := 0
        subq := [subReqOf cfg req]
        pipeCount := 0 } := by
  rw [Bank.takeSlot, touchLfb_lfb_self (by simpa [newReadLfb] using hv), newReadLfb_lfb,
    if_pos ⟨rfl, by simpa using hv⟩]

/-- Every other LFB keeps all but its age. -/
theorem Bank.takeSlot_other {j : Nat} (hj : j ≠ v) :
    (bk.takeSlot cfg b v req).lfb j = { bk.lfb j with lru := ((bk.takeSlot cfg b v req).lfb j).lru } :=
  newReadLfb_others cfg b bk (cfg.block req.address) (subReqOf cfg req) hj

/-! ### The hit (R137) -/

/-- The LFB of a hit: the resident line, waiting `L` cycles, or none with `L = 0`. -/
theorem hitLoad_takeSlot (hv : v < bk.lfbs.length) (w : Nat) :
    (hitLoad cfg (bk.takeSlot cfg b v req) v (cfg.block req.address) w).lfb v =
      { state := if cfg.latency = 0 then .filled else .dataArray
        type := .read
        blockAddress := cfg.block req.address
        byteWriteMask := 0
        data := readLine cfg bk (cfg.block req.address) w
        lru := 0
        subq := [subReqOf cfg req]
        pipeCount := cfg.latency } := by
  have hcount : (if cfg.latency = 0 then 0 else cfg.latency) = cfg.latency := by split <;> omega
  rw [hitLoad_lfb, if_pos ⟨rfl, by simpa using hv⟩, Bank.takeSlot_self hv]
  simp only [readLine, Bank.takeSlot_data, hcount]

/-- Settles O31: the hit copies the line into the slot taken, and touches the way it hits. -/
theorem loadHitCopiesTheResidentLine : Obligations.LoadHitCopiesTheResidentLine := by
  intro cfg b bk req v w hf hv hw
  have hlt := (allocSlot_eq_some hv).1
  obtain ⟨-, hmq, hwbq, hactive, hstage, harb, hdata, htags⟩ :=
    hitLoad_rest cfg (bk.takeSlot cfg b v req) v (cfg.block req.address) w
  refine ⟨_, by rw [acceptLoad_of_slot hf hv, hw], ?_, hitLoad_takeSlot hlt w, fun j hj => ?_, ?_⟩
  · exact Bank.eq_of_fields rfl (by simp [harb]) (by simp [hmq]) (by simp [hwbq]) (by simp [hactive])
      (by simp [hstage]) rfl (by simp [hdata]) rfl
  · rw [hitLoad_lfb, if_neg fun h => hj h.1.symm, Bank.takeSlot_other hj]
  · simp [htags, Bank.tagSet]

/-! ### The miss (R138) -/

/-- What `find_lfb` answers rests on which LFBs have the key only. -/
theorem findLfb_congr {bk bk' : Bank} {blk : Nat} {t : LfbType} (hlen : bk'.lfbs.length = bk.lfbs.length)
    (h : ∀ k < bk.lfbs.length, (bk'.lfb k).hasKey blk t = (bk.lfb k).hasKey blk t) :
    findLfb bk' blk t = findLfb bk blk t := by
  have hkeys : bk'.lfbs.map (·.hasKey blk t) = bk.lfbs.map (·.hasKey blk t) :=
    List.ext_getElem (by simpa using hlen) fun k hk' hk => by
      rw [List.length_map] at hk hk'
      simpa [Bank.lfb, hk, hk'] using h k hk
  have hmap (x : Bank) : findLfb x blk t = (x.lfbs.map (·.hasKey blk t)).findIdx? id := by
    rw [List.findIdx?_map]
    rfl
  rw [hmap, hmap, hkeys]

/-- Taking a slot takes no write-combining LFB away: none is INVALID or RETIRED (10_state.md R47 item 2). -/
theorem Bank.PoolOk.takeSlot_findLfb (hp : bk.PoolOk cfg) (hv : allocSlot bk = some v) (blk : Nat) :
    findLfb (bk.takeSlot cfg b v req) blk .writeCombining = findLfb bk blk .writeCombining := by
  refine findLfb_congr (bk.takeSlot_length cfg b v req) fun k hk => ?_
  by_cases hkv : k = v
  · subst hkv
    have hidle : ((bk.lfb k).live && decide ((bk.lfb k).type = .writeCombining)) = false := by
      simpa [Bank.Combining] using (hp.idle hv).1
    rw [Bank.takeSlot_self hk, Lfb.hasKey, Lfb.hasKey, hidle]
    rfl
  · rw [Bank.takeSlot_other hkv]
    rfl

/-- The LFB of a miss: MISSED, but for the bytes it takes as the slot was taken. -/
theorem missLoad_takeSlot (hv : v < bk.lfbs.length) :
    (missLoad cfg (bk.takeSlot cfg b v req) v (cfg.block req.address)).lfb v =
      { state := .missed
        type := .read
        blockAddress := cfg.block req.address
        byteWriteMask := ((missLoad cfg (bk.takeSlot cfg b v req) v (cfg.block req.address)).lfb v).byteWriteMask
        data := ((missLoad cfg (bk.takeSlot cfg b v req) v (cfg.block req.address)).lfb v).data
        lru := 0
        subq := [subReqOf cfg req]
        pipeCount := 0 } := by
  rw [missLoad_lfb, if_pos ⟨rfl, by simpa using hv⟩, Bank.takeSlot_self hv]
  split <;> rfl

/-- With no write-combining LFB of its block, a miss takes no byte. -/
theorem missLoad_mask_of_none (hp : bk.PoolOk cfg) (hv : allocSlot bk = some v)
    (hn : findLfb bk (cfg.block req.address) .writeCombining = none) :
    ((missLoad cfg (bk.takeSlot cfg b v req) v (cfg.block req.address)).lfb v).byteWriteMask = 0 := by
  have hlt := (allocSlot_eq_some hv).1
  rw [missLoad_lfb, if_pos ⟨rfl, by simpa using hlt⟩, hp.takeSlot_findLfb hv, hn]
  show ((bk.takeSlot cfg b v req).lfb v).byteWriteMask = 0
  rw [Bank.takeSlot_self hlt]

/-- With one, it takes its mask and the bytes under it. -/
theorem missLoad_bytes_of_some (hp : bk.PoolOk cfg) (hv : allocSlot bk = some v) {c : Nat}
    (hc : findLfb bk (cfg.block req.address) .writeCombining = some c) :
    ((missLoad cfg (bk.takeSlot cfg b v req) v (cfg.block req.address)).lfb v).byteWriteMask =
        (bk.lfb c).byteWriteMask ∧
      ∀ i < cfg.blockSize, (bk.lfb c).byteWriteMask.testBit i = true →
        ((missLoad cfg (bk.takeSlot cfg b v req) v (cfg.block req.address)).lfb v).data.getD i 0 =
          (bk.lfb c).data.getD i 0 := by
  obtain ⟨-, hlive, htype, -⟩ := findLfb_eq_some hc
  have hcv : c ≠ v := fun h => (hp.idle hv).1 (h ▸ ⟨hlive, htype⟩)
  have hmask : ((bk.takeSlot cfg b v req).lfb c).byteWriteMask = (bk.lfb c).byteWriteMask := by
    rw [Bank.takeSlot_other hcv]
  have hdata : ((bk.takeSlot cfg b v req).lfb c).data = (bk.lfb c).data := by
    rw [Bank.takeSlot_other hcv]
  rw [missLoad_lfb, if_pos ⟨rfl, by simpa using (allocSlot_eq_some hv).1⟩, hp.takeSlot_findLfb hv, hc]
  refine ⟨hmask, fun i hi hbit => ?_⟩
  show (overlay _ _ _ _ _).getD i 0 = _
  rw [hmask, hdata, overlay_getD, if_pos hi, Nat.sub_zero, if_pos ⟨Nat.zero_le i, hbit⟩]

end

/-- Settles O32: the miss makes the slot taken MISSED and queues it; the write-combining LFB it takes bytes from is
not the slot. -/
theorem loadMissJoinsTheMissQueue : Obligations.LoadMissJoinsTheMissQueue := by
  intro cfg b bk req v hp hf hv hw
  have hlt := (allocSlot_eq_some hv).1
  obtain ⟨-, hmq, hwbq, hactive, hstage, harb, hdata, htags⟩ :=
    missLoad_rest cfg (bk.takeSlot cfg b v req) v (cfg.block req.address)
  have hl := missLoad_takeSlot (cfg := cfg) (b := b) (req := req) hlt
  refine ⟨missLoad cfg (bk.takeSlot cfg b v req) v (cfg.block req.address), by rw [acceptLoad_of_slot hf hv, hw], ?_,
    by rw [hl], by rw [hl], by rw [hl], by rw [hl]; rfl, by rw [hl], by rw [hl], fun j hj => ?_,
    missLoad_mask_of_none hp hv, fun c hc => missLoad_bytes_of_some hp hv hc⟩
  · exact Bank.eq_of_fields rfl (by simp [harb]) (by simp [hmq]) (by simp [hwbq]) (by simp [hactive])
      (by simp [hstage]) (by simp [htags]) (by simp [hdata]) rfl
  · rw [missLoad_lfb, if_neg fun h => hj h.1.symm, Bank.takeSlot_other hj]

end Sys2Proof.Machine
end

section
/-! PROOFS. What an accepted STORE leaves of its bank: which copies take its bytes, and all that it leaves alone
(44_bank_accept.md R139 to R143; 43_tag_data_array.md R126). -/

namespace Sys2Proof.Machine

/-! ### Every copy takes the bytes (R140 to R142) -/

/-- The acceptance of a STORE does not read the type of the request. -/
theorem acceptStore_withType (cfg : Config) (b : Nat) (bk : Bank) (req : Request) (t : ReqType) :
    acceptStore cfg b bk { req with type := t } = acceptStore cfg b bk req := rfl

/-- Settles O33: `acceptStore_holds`, on the request as a STORE. -/
theorem storeReachesEveryCopy : Obligations.StoreReachesEveryCopy := by
  intro cfg b bk bk' req counts _ hs hone _ hfits hm ha
  rw [← acceptStore_withType cfg b bk req .store] at ha
  obtain ⟨hholds, v, hv, ⟨hlive, htype⟩, hblock⟩ := acceptStore_holds ha ReqType.noConfusion hm hfits hs hone
  refine ⟨Option.ne_none_iff_exists'.mp fun hn => findLfb_eq_none.mp hn v hv hlive htype hblock, fun j hj => ?_⟩
  exact ⟨fun w hw => hholds.line w hw j hj, fun k hk hl hb => hholds.lfbs k hk hl hb j hj⟩

/-! ### One LFB, and one line -/

/-- The STORE writes byte `x` of its block. -/
def Writes (cfg : Config) (req : Request) (x : Nat) : Prop :=
  cfg.offset req.address ≤ x ∧ (effectiveMask req).testBit (x - cfg.offset req.address) = true

theorem overlay_of_not_writes {cfg : Config} {req : Request} {x : Nat} (hx : x < cfg.blockSize)
    (h : ¬ Writes cfg req x) (dst : Block) :
    (overlay cfg.blockSize dst (cfg.offset req.address) (effectiveMask req) req.payload).getD x 0 = dst.getD x 0 := by
  rw [overlay_getD, if_pos hx]
  exact if_neg h

theorem mask_of_not_writes {cfg : Config} {req : Request} {x : Nat} (h : ¬ Writes cfg req x) (m : Nat) :
    (m ||| effectiveMask req <<< cfg.offset req.address).testBit x = m.testBit x := by
  have hbit : (effectiveMask req <<< cfg.offset req.address).testBit x = false := by
    rw [Nat.testBit_shiftLeft, ← Bool.not_eq_true, Bool.and_eq_true, decide_eq_true_eq]
    exact h
  rw [Nat.testBit_or, hbit, Bool.or_false]

/-- From `l` to `l'` an LFB has at most aged and taken the bytes of the STORE, with their mask bits, as a copy of its
block does. -/
structure Lfb.Stored (cfg : Config) (req : Request) (l l' : Lfb) : Prop where
  record : { l' with lru := l.lru, data := l.data, byteWriteMask := l.byteWriteMask } = l
  bytes : (l'.data = l.data ∧ l'.byteWriteMask = l.byteWriteMask) ∨
    (l.blockAddress = cfg.block req.address ∧
      l'.data = overlay cfg.blockSize l.data (cfg.offset req.address) (effectiveMask req) req.payload ∧
      l'.byteWriteMask = l.byteWriteMask ||| effectiveMask req <<< cfg.offset req.address)

namespace Lfb.Stored

variable {cfg : Config} {req : Request} {l l' : Lfb}

theorem refl (l : Lfb) : l.Stored cfg req l :=
  ⟨rfl, .inl ⟨rfl, rfl⟩⟩

theorem of_block (hb : l.blockAddress = cfg.block req.address) :
    l.Stored cfg req
      { l with
        data := overlay cfg.blockSize l.data (cfg.offset req.address) (effectiveMask req) req.payload
        byteWriteMask := l.byteWriteMask ||| effectiveMask req <<< cfg.offset req.address } :=
  ⟨rfl, .inr ⟨hb, rfl, rfl⟩⟩

theorem age (h : l.Stored cfg req l') (n : Nat) : l.Stored cfg req { l' with lru := n } :=
  ⟨h.record, h.bytes⟩

/-- A touch ages only. -/
theorem touch {bk : Bank} {j : Nat} (h : l.Stored cfg req (bk.lfb j)) (v : Nat) :
    l.Stored cfg req ((touchLfb bk v).lfb j) := by
  rw [touchLfb_lfb_of_eq rfl]
  exact h.age _

/-- An LFB of another block has at most aged. -/
theorem of_other_block (h : l.Stored cfg req l') (hb : l.blockAddress ≠ cfg.block req.address) :
    { l' with lru := l.lru } = l := by
  rcases h.bytes with ⟨hd, hm⟩ | ⟨hblock, -⟩
  · calc { l' with lru := l.lru }
        = { l' with lru := l.lru, data := l.data, byteWriteMask := l.byteWriteMask } := by rw [← hd, ← hm]
      _ = l := h.record
  · exact absurd hblock hb

/-- The bytes that the STORE does not write stay, and so do their mask bits. -/
theorem kept (h : l.Stored cfg req l') {x : Nat} (hx : x < cfg.blockSize) (hw : ¬ Writes cfg req x) :
    l'.data.getD x 0 = l.data.getD x 0 ∧ l'.byteWriteMask.testBit x = l.byteWriteMask.testBit x := by
  rcases h.bytes with ⟨hd, hm⟩ | ⟨-, hd, hm⟩ <;> rw [hd, hm]
  · exact ⟨rfl, rfl⟩
  · exact ⟨overlay_of_not_writes hx hw _, mask_of_not_writes hw _⟩

end Lfb.Stored

/-- From `d` to `d'` the lines of a bank have at most taken the bytes of the STORE, in the resident line of its
block (43_tag_data_array.md R126). -/
def LinesStored (cfg : Config) (bk : Bank) (req : Request) (d' : List (List Block)) : Prop :=
  d' = bk.data ∨ ∃ w, lookup cfg bk req.address = some w ∧
    d' = bk.data.set (cfg.set req.address) ((bk.data.getD (cfg.set req.address) []).set w
      (overlay cfg.blockSize (readLine cfg bk req.address w) (cfg.offset req.address) (effectiveMask req) req.payload))

section
variable {cfg : Config} {bk : Bank} {req : Request} {d' : List (List Block)}

theorem LinesStored.other (h : LinesStored cfg bk req d') {i w : Nat}
    (hiw : i ≠ cfg.set req.address ∨ lookup cfg bk req.address ≠ some w) :
    (d'.getD i []).getD w [] = (bk.data.getD i []).getD w [] := by
  rcases h with rfl | ⟨w', hw', rfl⟩
  · rfl
  · rw [getD_set]
    split
    case isTrue hi =>
      have hne : w' ≠ w := fun he => hiw.elim (fun hne => hne hi.1.symm) fun hne => hne (he ▸ hw')
      rw [getD_set, if_neg fun hc => hne hc.1, hi.1]
    case isFalse => rfl

theorem LinesStored.kept (h : LinesStored cfg bk req d') {w x : Nat} (hw : lookup cfg bk req.address = some w)
    (hx : x < cfg.blockSize) (hout : ¬ Writes cfg req x) :
    ((d'.getD (cfg.set req.address) []).getD w []).getD x 0 = (readLine cfg bk req.address w).getD x 0 := by
  rcases h with rfl | ⟨w', hw', rfl⟩
  · rfl
  · obtain rfl : w = w' := Option.some.inj (hw.symm.trans hw')
    rw [getD_set]
    split
    · rw [getD_set]
      split
      · exact overlay_of_not_writes hx hout _
      · rfl
    · rfl

/-! ### The commit (R140) -/

theorem commitStore_stored (cfg : Config) (bk : Bank) (req : Request) (j : Nat) :
    (bk.lfb j).Stored cfg req ((commitStore cfg bk req (effectiveMask req)).lfb j) := by
  rcases commitStore_lfb cfg bk req (effectiveMask req) j with h | ⟨hf, h⟩ <;> rw [h]
  · exact .refl _
  · exact .of_block (findLfb_eq_some hf).2.2.2

theorem commitStore_linesStored (cfg : Config) (bk : Bank) (req : Request) :
    LinesStored cfg bk req (commitStore cfg bk req (effectiveMask req)).data :=
  commitStore_data cfg bk req (effectiveMask req)

/-- The commit leaves the write-combining LFB of the block to the merge (R142). -/
theorem commitStore_lfb_combining {k : Nat} (hf : findLfb bk (cfg.block req.address) .writeCombining = some k) :
    (commitStore cfg bk req (effectiveMask req)).lfb k = bk.lfb k := by
  rcases commitStore_lfb cfg bk req (effectiveMask req) k with h | ⟨hread, -⟩
  · exact h
  · have htype := (findLfb_eq_some hread).2.2.1
    rw [(findLfb_eq_some hf).2.2.1] at htype
    cases htype

/-! ### The STORE -/

variable {b : Nat} {bk' : Bank} {c : Option Counter}

/-- What an accepted STORE leaves of its bank, but for the slot `v` that it takes, if it takes one. -/
structure Bank.StoredBut (cfg : Config) (req : Request) (bk bk' : Bank) (v : Option Nat) : Prop where
  rest : bk' = { bk with
    lfbs := bk'.lfbs, data := bk'.data, freeCount := bk'.freeCount, wbq := bk.wbq ++ v.toList }
  count : bk'.lfbs.length = bk.lfbs.length
  lines : LinesStored cfg bk req bk'.data
  lfbs : ∀ k, v ≠ some k → (bk.lfb k).Stored cfg req (bk'.lfb k)

theorem Bank.StoredBut.refl (cfg : Config) (req : Request) (bk : Bank) : bk.StoredBut cfg req bk none :=
  ⟨by simp, rfl, .inl rfl, fun _ _ => .refl _⟩

/-- A STORE that merges (R142). -/
theorem mergeStore_storedBut {k : Nat} (hf : findLfb bk (cfg.block req.address) .writeCombining = some k)
    (h : mergeStore cfg (commitStore cfg bk req (effectiveMask req)) k req (effectiveMask req) = .accepted bk' c) :
    bk.StoredBut cfg req bk' none := by
  obtain ⟨htags, hmq, hwbq, hactive, hstage, harb, -, hlen⟩ := commitStore_rest cfg bk req (effectiveMask req)
  obtain ⟨hk, -, -, hblock⟩ := findLfb_eq_some hf
  rw [mergeStore_accepted h, commitStore_lfb_combining hf]
  refine ⟨?_, by simp, commitStore_linesStored cfg bk req, fun j _ => .touch ?_ k⟩
  · exact Bank.eq_of_fields rfl harb hmq (by simp [hwbq]) hactive hstage htags rfl rfl
  · by_cases hj : j = k
    · subst hj
      rw [Bank.setLfb_self _ (hlen ▸ hk)]
      exact .of_block hblock
    · rw [Bank.setLfb_others _ _ _ hj]
      exact commitStore_stored cfg bk req j

/-- A STORE that takes slot `v` (R141). -/
theorem allocStore_storedBut {v : Nat}
    (h : allocStore cfg b (commitStore cfg (evictRetired bk v) req (effectiveMask req)) v req (effectiveMask req) =
      .accepted bk' c) : bk.StoredBut cfg req bk' (some v) := by
  obtain ⟨htags, hmq, hwbq, hactive, hstage, harb, -, hlen⟩ :=
    commitStore_rest cfg (evictRetired bk v) req (effectiveMask req)
  obtain ⟨hlen', hmq', hwbq', hactive', hstage', harb', hdata', htags', he⟩ := allocStore_accepted h
  refine ⟨?_, by rw [hlen', hlen, evictRetired_length], ?_, fun j hj => ?_⟩
  · exact Bank.eq_of_fields rfl (by simp [harb', harb]) (by simp [hmq', hmq]) (by simp [hwbq', hwbq])
      (by simp [hactive', hactive]) (by simp [hstage', hstage]) (by simp [htags', htags]) rfl rfl
  · have hlines := commitStore_linesStored cfg (evictRetired bk v) req
    rw [← hdata'] at hlines
    simpa only [LinesStored, evictRetired_data, lookup_congr cfg (evictRetired_tags bk v), readLine] using hlines
  · have hjv : j ≠ v := fun e => hj (e ▸ rfl)
    have hstored := commitStore_stored cfg (evictRetired bk v) req j
    rw [evictRetired_lfb_ne bk hjv.symm] at hstored
    rw [he]
    refine .touch ?_ v
    show Lfb.Stored cfg req _ ((Bank.setLfb _ v _).lfb j)
    rwa [Bank.setLfb_others _ _ _ hjv]

/-- The write-combining LFB of a STORE that takes a slot; its other bytes are unspecified (log 8). -/
def newCombiningLfb (cfg : Config) (b : Nat) (bk : Bank) (req : Request) : Lfb where
  state := .filled
  type := .writeCombining
  blockAddress := cfg.block req.address
  byteWriteMask := effectiveMask req <<< cfg.offset req.address
  data := overlay cfg.blockSize (freeBlock cfg b bk.freeCount) (cfg.offset req.address) (effectiveMask req) req.payload
  lru := 0
  subq := []
  pipeCount := 0

/-- The slot that a STORE takes becomes the write-combining LFB of its block. -/
theorem allocStore_slot {v : Nat} (hv : allocSlot bk = some v)
    (h : allocStore cfg b (commitStore cfg (evictRetired bk v) req (effectiveMask req)) v req (effectiveMask req) =
      .accepted bk' c) : bk'.lfb v = newCombiningLfb cfg b bk req := by
  obtain ⟨-, -, -, -, -, -, -, -, he⟩ := allocStore_accepted h
  obtain ⟨-, -, -, -, -, -, -, hfree⟩ := evictRetired_rest bk v
  obtain ⟨-, -, -, -, -, -, hfree', -⟩ := commitStore_rest cfg (evictRetired bk v) req (effectiveMask req)
  have hlt : v < (commitStore cfg (evictRetired bk v) req (effectiveMask req)).lfbs.length := by
    simpa using (allocSlot_eq_some hv).1
  rw [he, touchLfb_lfb_self (by simpa using hlt), hfree', hfree]
  show ({ (Bank.setLfb _ v _).lfb v with lru := 0 } : Lfb) = _
  rw [Bank.setLfb_self _ hlt]
  rfl

/-- How an accepted STORE goes: the slot it takes, if it takes one, and what it counts. -/
inductive StoredAs (cfg : Config) (b : Nat) (req : Request) (bk bk' : Bank) : Option Nat → Option Counter → Prop
  /-- No byte (R143). -/
  | nothing (hm : effectiveMask req = 0) : StoredAs cfg b req bk bk' none none
  /-- R142. -/
  | merged {k : Nat} (hm : effectiveMask req ≠ 0)
      (hf : findLfb bk (cfg.block req.address) .writeCombining = some k) :
      StoredAs cfg b req bk bk' none (some .storeMerges)
  /-- R141. -/
  | allocated {v : Nat} (hm : effectiveMask req ≠ 0)
      (hf : findLfb bk (cfg.block req.address) .writeCombining = none) (hv : allocSlot bk = some v)
      (hl : bk'.lfb v = newCombiningLfb cfg b bk req) : StoredAs cfg b req bk bk' (some v) (some .storeAllocs)

theorem acceptStore_storedAs (ha : acceptStore cfg b bk req = .accepted bk' c) :
    ∃ v, StoredAs cfg b req bk bk' v c ∧ bk.StoredBut cfg req bk' v := by
  rcases acceptStore_accepted ha with ⟨hm, rfl, rfl⟩ | ⟨hm, k, hk, h, rfl⟩ | ⟨hm, hn, v, hv, h, rfl⟩
  · exact ⟨none, .nothing hm, .refl cfg req bk'⟩
  · exact ⟨none, .merged hm hk, mergeStore_storedBut hk h⟩
  · exact ⟨some v, .allocated hm hn hv (allocStore_slot hv h), allocStore_storedBut h⟩

namespace StoredAs

variable {v : Option Nat}

theorem of_zero (h : StoredAs cfg b req bk bk' v c) (hm : effectiveMask req = 0) : v = none ∧ c = none := by
  cases h with
  | nothing => exact ⟨rfl, rfl⟩
  | merged hm' => exact absurd hm hm'
  | allocated hm' => exact absurd hm hm'

theorem of_live (h : StoredAs cfg b req bk bk' v c) (hm : effectiveMask req ≠ 0)
    (hf : findLfb bk (cfg.block req.address) .writeCombining ≠ none) : v = none ∧ c = some .storeMerges := by
  cases h with
  | nothing hm' => exact absurd hm' hm
  | merged => exact ⟨rfl, rfl⟩
  | allocated _ hf' => exact absurd hf' hf

theorem of_none (h : StoredAs cfg b req bk bk' v c) (hm : effectiveMask req ≠ 0)
    (hf : findLfb bk (cfg.block req.address) .writeCombining = none) :
    v = allocSlot bk ∧ v ≠ none ∧ c = some .storeAllocs := by
  cases h with
  | nothing hm' => exact absurd hm' hm
  | merged _ hf' => rw [hf] at hf'; cases hf'
  | allocated _ _ hv => exact ⟨hv.symm, Option.some_ne_none _, rfl⟩

theorem slot {k : Nat} (h : StoredAs cfg b req bk bk' (some k) c) : bk'.lfb k = newCombiningLfb cfg b bk req := by
  cases h with
  | allocated _ _ _ hl => exact hl

end StoredAs

end

/-- Settles O34: a STORE of no byte, one that merges, and one that takes a slot each write the copies of the block and
nothing else; the last also writes its slot. -/
theorem storeChangesOnlyItsBytes : Obligations.StoreChangesOnlyItsBytes := by
  intro cfg b bk bk' req counts ha outside
  obtain ⟨v, has, hstored⟩ := acceptStore_storedAs ha
  refine ⟨v, has.of_zero, has.of_live, has.of_none, hstored.rest, hstored.count, fun i w => hstored.lines.other,
    fun w x hw hx hout => hstored.lines.kept hw hx hout, ?_, fun k hk => ?_⟩
  · rintro k rfl
    rw [has.slot]
    rfl
  · have hlfb := hstored.lfbs k hk
    exact ⟨hlfb.of_other_block, hlfb.record, fun x hx hout => hlfb.kept hx hout⟩

end Sys2Proof.Machine
end

section
/-! PROOFS. The pipeline advance over several cycles, and the rise of a hand-off (44_bank_accept.md R133, R134). -/

namespace Sys2Proof.Machine

/-! ### The pipeline (R133) -/

theorem pipelineAdvance_iterate_lfb (bk : Bank) (k n : Nat) :
    (pipelineAdvance^[n] bk).lfb k = Lfb.advancePipe^[n] (bk.lfb k) :=
  Function.Semiconj.iterate_right (f := fun bk : Bank => bk.lfb k) (fun bk => pipelineAdvance_lfb bk k) n bk

/-- Before its last cycle an LFB in DATA_ARRAY has counted one down at each advance. -/
theorem advancePipe_iterate {l : Lfb} (hs : l.state = .dataArray) {n : Nat} (h : n < l.pipeCount) :
    Lfb.advancePipe^[n] l = { l with pipeCount := l.pipeCount - n } := by
  induction n with
  | zero => rfl
  | succ n ih =>
    rw [Function.iterate_succ_apply', ih (by omega), Lfb.advancePipe, if_pos hs, if_neg (by simp only; omega)]
    simp only [Nat.sub_sub]

/-- Its last cycle leaves the LFB FILLED. -/
theorem advancePipe_iterate_pipeCount {l : Lfb} (hs : l.state = .dataArray) (h : 1 ≤ l.pipeCount) :
    Lfb.advancePipe^[l.pipeCount] l = { l with state := .filled, pipeCount := 0 } := by
  obtain ⟨n, hn⟩ : ∃ n, l.pipeCount = n + 1 := ⟨l.pipeCount - 1, by omega⟩
  have hlast : Lfb.advancePipe^[n] l = { l with pipeCount := 1 } := by
    rw [advancePipe_iterate hs (by omega), hn, Nat.add_sub_cancel_left]
  rw [hn, Function.iterate_succ_apply', hlast, Lfb.advancePipe, if_pos hs]
  rfl

/-- Settles O38: an LFB advances on its own, and counts down to its last cycle. -/
theorem pipelineTakesItsLatency : Obligations.PipelineTakesItsLatency := by
  rintro bk k _ hs rfl h
  refine ⟨fun j hj => ?_, ?_⟩
  · rw [pipelineAdvance_iterate_lfb, advancePipe_iterate hs hj]
  · rw [pipelineAdvance_iterate_lfb, advancePipe_iterate_pipeCount hs h]

/-! ### The hand-off (R134) -/

theorem handOff_of_waiting {bk : Bank} {k : Nat} {rest : List Nat} (hq : bk.wbq = k :: rest)
    (ha : bk.wbActive = none) : handOff bk = some { bk with wbActive := some k, wbq := rest } := by
  rw [handOff, hq, ha]

/-- Settles O49: the pipeline advance leaves the write-back queue and the active LFB, so the rise is one with a
hand-off, after which no return is read. -/
theorem handOffTakesTheRise : Obligations.HandOffTakesTheRise := by
  intro s b k rest hhealthy hv hs hroutes hphase hfills hb hhead hq ha
  obtain ⟨t, _, hexec, -, hbanks⟩ := clockRiseServesTheGrantedRequest s hhealthy hv hs hroutes hphase hfills
  obtain ⟨hhandOff, -⟩ := hbanks b hb
  obtain ⟨⟨hbank, -⟩, -, -, hslots⟩ := hhandOff _ (handOff_of_waiting (bk := pipelineAdvance (s.bank b)) hq ha)
  exact ⟨t, hexec, hbank hhead, hslots⟩

end Sys2Proof.Machine
end

section
/-! PROOFS. The rise of a return that answers no outstanding fetch (45_bank_fill.md R151; 60_exceptions.md R170,
R172). -/

namespace Sys2Proof.Machine

/-- What a return that answers no fetch of bank `b` raises: BAD_FILL when its shape is wrong, and else UNMATCHED_FILL
(R151). -/
def unansweredFault (cfg : Config) (b : Nat) (r : Return) : FaultCode :=
  if fillShaped cfg b r then .unmatchedFill else .badFill

theorem fillBank_unanswered {cfg : Config} {b : Nat} {bk : Bank} {r : Return}
    (h : ¬ (fillShaped cfg b r = true ∧ issuedLfb bk r.address = some r.dst.toNat)) :
    fillBank cfg b bk r = .error (unansweredFault cfg b r) := by
  cases hf : fillBank cfg b bk r with
  | ok x =>
    obtain ⟨hshaped, k, hissued, hdst, -⟩ := fillBank_ok hf
    exact absurd ⟨hshaped, hdst ▸ hissued⟩ h
  | error c =>
    rcases fillBank_error hf with ⟨hshaped, rfl⟩ | ⟨hshaped, rfl, -⟩ <;> simp [unansweredFault, hshaped]

/-- A full-block LOAD_RETURN is a LOAD_RETURN. -/
theorem fillShaped_type {cfg : Config} {b : Nat} {r : Return} (h : fillShaped cfg b r = true) :
    r.type = .loadReturn := by
  simp only [fillShaped, Bool.and_eq_true, decide_eq_true_eq] at h
  obtain ⟨⟨⟨htype, -⟩, -⟩, -⟩ := h
  exact htype

theorem State.dsPort_congr {s t : State} (h : t.ds = s.ds) (b : Nat) : t.dsPort b = s.dsPort b := by
  rw [State.dsPort, State.dsPort, h]

/-- What a bank does in its rise before the fill reads no return. -/
theorem handOffOrAccept_ds {b : Nat} {s u : State}
    (hu : handOffOrAccept b (s.setBank b (pipelineAdvance (s.bank b))) = .ok u) : u.ds = s.ds :=
  (handOffOrAccept_reads (s := s.setBank b (pipelineAdvance (s.bank b)))).1 u hu

/-- The rise of a bank for which no return waits reads none. -/
theorem riseBank_ds_of_no_return {b : Nat} {s t : State} (h : riseBank b s = .ok t) (hn : s.dsHead b = none) :
    t.ds = s.ds := by
  obtain ⟨u, hu, hfill⟩ := riseBank_ok h
  have hds := handOffOrAccept_ds hu
  rcases fillStep_ok hfill with ⟨-, rfl⟩ | ⟨r, bk, hr, -, -⟩
  · exact hds
  · rw [State.dsHead_congr (State.dsPort_congr hds b), hn] at hr
    cases hr

theorem riseBanks_ds_of_no_return {bs : List Nat} {s t : State} (h : riseBanks bs s = .ok t)
    (hn : ∀ b ∈ bs, s.dsHead b = none) : t.ds = s.ds := by
  induction bs generalizing s with
  | nil => cases h; rfl
  | cons b bs ih =>
    rw [riseBanks] at h
    split at h
    · rename_i u hu
      have hds : u.ds = s.ds := riseBank_ds_of_no_return hu (hn b List.mem_cons_self)
      refine (ih h fun c hc => ?_).trans hds
      rw [State.dsHead_congr (State.dsPort_congr hds c)]
      exact hn c (List.mem_cons_of_mem b hc)
    · cases h

/-- The rise of a bank whose return answers nothing ends in the fault of that return, which is consumed: what the bank
does before it leaves the fetches outstanding. -/
theorem riseBank_unanswered {b : Nat} {s : State} {r : Return} (hr : s.dsHead b = some r) (hn : ¬ s.Answers b r) :
    riseBank b s = .error (unansweredFault s.cfg b r, (s.dsPop b).ds) := by
  obtain ⟨u, hu⟩ := handOffOrAccept_completes b (s.setBank b (pipelineAdvance (s.bank b)))
  have hds := handOffOrAccept_ds hu
  have hport := State.dsPort_congr hds b
  have hcfg : u.cfg = s.cfg := (handOffOrAccept_moves hu).cfg
  have hissued : issuedLfb (u.bank b) r.address = issuedLfb (s.bank b) r.address := by
    rw [handOffOrAccept_issuedLfb hu, State.bank_setBank_pipelineAdvance, pipelineAdvance_issuedLfb]
  have hfill : fillBank u.cfg b (u.bank b) r = .error (unansweredFault s.cfg b r) := by
    rw [hcfg]
    exact fillBank_unanswered (by rwa [hissued])
  have hpop : (u.dsPop b).ds = (s.dsPop b).ds := by rw [State.dsPop_ds, State.dsPop_ds, hds, hport]
  simp only [riseBank, hu, fillStep, (State.dsHead_congr hport).trans hr, State.dsPop_cfg,
    show (u.dsPop b).bank b = u.bank b from rfl, hfill, hpop]

/-- A bank's place in the order of the rises. -/
theorem range_split {b n : Nat} (h : b < n) : ∃ after, List.range n = List.range b ++ b :: after := by
  obtain ⟨m, rfl⟩ := Nat.exists_eq_add_of_lt h
  exact ⟨_, by rw [Nat.add_assoc, List.range_add, List.range_succ_eq_map, List.map_cons, Nat.add_zero]⟩

/-- A rise ends in the fault of the first return, if it answers nothing: the banks before it complete (R172). -/
theorem riseBanks_unanswered {n b : Nat} {s : State} {r : Return} (hb : b < n)
    (hfirst : ∀ c < b, s.dsHead c = none) (hr : s.dsHead b = some r) (hn : ¬ s.Answers b r) :
    riseBanks (List.range n) s = .error (unansweredFault s.cfg b r, (s.dsPop b).ds) := by
  have hnone : ∀ c ∈ List.range b, s.dsHead c = none := fun c hc => hfirst c (List.mem_range.mp hc)
  obtain ⟨u, hu⟩ := riseBanks_completes (List.nodup_range (n := b)) (s := s) fun c hc r' hr' => by
    rw [hnone c hc] at hr'
    cases hr'
  obtain ⟨hbank, hport, -⟩ := riseBanks_other hu List.not_mem_range_self
  have hds : u.ds = s.ds := riseBanks_ds_of_no_return hu hnone
  have hcfg : u.cfg = s.cfg := (riseBanks_frame hu).cfg
  have hrise : riseBank b u = .error (unansweredFault u.cfg b r, (u.dsPop b).ds) :=
    riseBank_unanswered ((State.dsHead_congr hport).trans hr) fun ha => hn (ha.congr hcfg.symm (by rw [hbank]))
  obtain ⟨after, hafter⟩ := range_split hb
  rw [hafter, riseBanks_append, hu]
  simp only [Except.bind, riseBanks, hrise, hcfg, State.dsPop_ds, hds, hport]

/-- Settles O18: no acceptance faults, so the rise ends in the fault of its first return. -/
theorem returnsThatAnswerNothingFault : Obligations.ReturnsThatAnswerNothingFault := by
  intro s b r hhealthy hphase hb hfirst hr hn
  have hrise : riseBanks (List.range s.cfg.numBanks) (registerRequests s) =
      .error (unansweredFault s.cfg b r, (s.dsPop b).ds) := by
    have hport := State.dsPort_congr (registerRequests_ds s) b
    rw [riseBanks_unanswered hb (fun c hc => (registerRequests_dsHead s c).trans (hfirst c hc))
      ((registerRequests_dsHead s b).trans hr)
      fun ha => hn (ha.congr (registerRequests_cfg s).symm (by rw [registerRequests_bank])),
      registerRequests_cfg, State.dsPop_ds, State.dsPop_ds, registerRequests_ds, hport]
  refine ⟨?_, fun htype => Bool.eq_false_iff.mpr fun hshaped => htype (fillShaped_type hshaped)⟩
  show execClockRise s = _
  rw [execClockRise, hhealthy.whenRunning, if_pos hphase, hrise]
  rfl

end Sys2Proof.Machine
end

section
/-! PROOFS. What a lookup reads of the tag array, and what a touch, an acceptance and an insert leave of it
(43_tag_data_array.md R121, R123, R125). -/

namespace Sys2Proof.Machine

/-- What a lookup reads of a way: whether it is valid, and its tag, not its age (R121). -/
def TagEntry.key (e : TagEntry) : Bool × Nat :=
  (e.valid, e.tag)

/-- What a lookup reads of set `i`. -/
def Bank.tagKeys (bk : Bank) (i : Nat) : List (Bool × Nat) :=
  (bk.tagSet i).map TagEntry.key

theorem lookup_eq_findIdx? (cfg : Config) (bk : Bank) (a : Nat) :
    lookup cfg bk a = (bk.tagKeys (cfg.set a)).findIdx? fun k => k.1 && k.2 == cfg.tag a := by
  rw [Bank.tagKeys, List.findIdx?_map]
  rfl

theorem lookup_congr_tagKeys {cfg : Config} {bk bk' : Bank} {a : Nat}
    (h : bk'.tagKeys (cfg.set a) = bk.tagKeys (cfg.set a)) : lookup cfg bk' a = lookup cfg bk a := by
  rw [lookup_eq_findIdx?, lookup_eq_findIdx?, h]

/-- A lookup answers none when no way has the key of the block. -/
theorem lookup_eq_none_iff_tagKeys {cfg : Config} {bk : Bank} {a : Nat} :
    lookup cfg bk a = none ↔ (true, cfg.tag a) ∉ bk.tagKeys (cfg.set a) := by
  rw [lookup_eq_none, Bank.tagKeys, List.mem_map]
  constructor
  · rintro h ⟨e, he, hkey⟩
    obtain ⟨hv, ht⟩ := Prod.mk.inj hkey
    exact h e he hv ht
  · exact fun h e he hv ht => h ⟨e, he, by rw [TagEntry.key, hv, ht]⟩

theorem Bank.tagKeys_congr {bk bk' : Bank} (h : bk'.tags = bk.tags) (i : Nat) : bk'.tagKeys i = bk.tagKeys i := by
  rw [Bank.tagKeys, Bank.tagKeys, Bank.tagSet, Bank.tagSet, h]

/-- A set read back after one is written; a set outside the array has no ways. -/
theorem Bank.tagSet_of_set {bk bk' : Bank} {i : Nat} {ways : List TagEntry} (h : bk'.tags = bk.tags.set i ways)
    (j : Nat) : bk'.tagSet j = if i = j ∧ j < bk.tags.length then ways else bk.tagSet j := by
  rw [Bank.tagSet, h, getD_set]
  rfl

/-- A touch leaves what lookups read. -/
theorem touchWays_tagKeys (ways : List TagEntry) (w : Nat) :
    (touchWays ways w).map TagEntry.key = ways.map TagEntry.key := by
  refine List.ext_getElem (by simp) fun i hi _ => ?_
  rw [List.getElem_map, List.getElem_map, touchWays_getElem _ _ _ (by simpa using hi)]
  rfl

theorem fillWay_tagKeys (ways : List TagEntry) (w t : Nat) :
    (fillWay ways w t).map TagEntry.key = (ways.map TagEntry.key).set w (true, t) := by
  refine List.ext_getElem (by simp) fun i hi _ => ?_
  rw [List.getElem_map, List.getElem_set, fillWay_getElem _ _ _ _ (by simpa using hi)]
  split
  · rfl
  · rw [List.getElem_map]

/-- An acceptance at most touches a way (44_bank_accept.md R137). -/
theorem Served.tagKeys {cfg : Config} {bk bk' : Bank} {req : Request} {v : Nat} (h : Served cfg bk bk' req v)
    (i : Nat) : bk'.tagKeys i = bk.tagKeys i := by
  rcases h.tags with ht | ⟨w, -, ht⟩
  · exact Bank.tagKeys_congr ht i
  · rw [Bank.tagKeys, Bank.tagSet_of_set ht]
    split
    · rename_i hi; rw [touchWays_tagKeys, hi.1]; rfl
    · rfl

/-- An insert writes one key of the block's set (R125). -/
theorem insertLine_tagKeys (cfg : Config) (bk : Bank) (blk : Nat) (line : Block) :
    (insertLine cfg bk blk line).tagKeys (cfg.set blk) =
      (bk.tagKeys (cfg.set blk)).set (insertWay cfg bk blk) (true, cfg.tag blk) := by
  rw [Bank.tagKeys, Bank.tagSet_of_set (insertLine_tags cfg bk blk line)]
  split
  case isTrue => rw [touchWays_tagKeys, fillWay_tagKeys]; rfl
  case isFalse h =>
    have hempty : bk.tagSet (cfg.set blk) = [] := List.getD_eq_default _ _ (not_lt.mp fun hlt => h ⟨rfl, hlt⟩)
    rw [Bank.tagKeys, hempty]
    rfl

theorem insertLine_tagSet_of_ne {cfg : Config} {blk i : Nat} (h : i ≠ cfg.set blk) (bk : Bank) (line : Block) :
    (insertLine cfg bk blk line).tagSet i = bk.tagSet i := by
  rw [Bank.tagSet_of_set (insertLine_tags cfg bk blk line), if_neg fun hi => h hi.1.symm]

/-- The victim is a way of its set (R124). -/
theorem victimWay_lt {ways : List TagEntry} (h : ways ≠ []) : victimWay ways < ways.length := by
  obtain ⟨e, he, -⟩ := victimIsAnInvalidOrTheOldestWay ways h
  obtain ⟨hlt, -⟩ := List.getElem?_eq_some_iff.mp he
  exact hlt

section
variable {cfg : Config} {bk : Bank} {blk : Nat}

/-- The way that `insert` writes is one of the block's set. -/
theorem insertWay_lt (h : bk.tagSet (cfg.set blk) ≠ []) :
    insertWay cfg bk blk < (bk.tagSet (cfg.set blk)).length := by
  unfold insertWay
  split
  case h_1 w hw =>
    obtain ⟨hlt, -⟩ := lookup_eq_some hw
    exact hlt
  case h_2 => exact victimWay_lt h

/-- No way below the one that `insert` writes holds the block. -/
theorem insertWay_first (j : Nat) (hj : j < insertWay cfg bk blk) (hlt : j < (bk.tagKeys (cfg.set blk)).length) :
    (bk.tagKeys (cfg.set blk))[j] ≠ (true, cfg.tag blk) := by
  intro hkey
  cases hl : lookup cfg bk blk with
  | none => exact lookup_eq_none_iff_tagKeys.mp hl (hkey ▸ List.getElem_mem hlt)
  | some w =>
    have hw : insertWay cfg bk blk = w := by simp [insertWay, hl]
    rw [lookup_eq_findIdx?, List.findIdx?_eq_some_iff_getElem] at hl
    obtain ⟨_, _, hbelow⟩ := hl
    simpa [hkey] using hbelow j (hw ▸ hj)

/-- After an insert the block is resident, in the way that it was written to (R125). -/
theorem lookup_insertLine (h : bk.tagSet (cfg.set blk) ≠ []) (line : Block) :
    lookup cfg (insertLine cfg bk blk line) blk = some (insertWay cfg bk blk) := by
  have hlt : insertWay cfg bk blk < (bk.tagKeys (cfg.set blk)).length := by
    rw [Bank.tagKeys, List.length_map]
    exact insertWay_lt h
  rw [lookup_eq_findIdx?, insertLine_tagKeys, List.findIdx?_eq_some_iff_getElem]
  refine ⟨by simpa using hlt, by simp, fun j hj => ?_⟩
  rw [List.getElem_set_ne hj.ne']
  intro hkey
  rw [Bool.and_eq_true, beq_iff_eq] at hkey
  obtain ⟨hvalid, htag⟩ := hkey
  exact insertWay_first j hj (hj.trans hlt) (Prod.ext hvalid htag)

end

/-- A block that an insert makes resident has the tag of the inserted one (R125). -/
theorem tag_of_lookup_insertLine {cfg : Config} {bk : Bank} {blk a : Nat} {line : Block}
    (hn : lookup cfg bk a = none) (h : lookup cfg (insertLine cfg bk blk line) a ≠ none) :
    cfg.tag blk = cfg.tag a := by
  by_contra hne
  refine h ?_
  rw [lookup_eq_none_iff_tagKeys] at hn ⊢
  by_cases hset : cfg.set a = cfg.set blk
  · rw [hset, insertLine_tagKeys]
    rw [hset] at hn
    intro hmem
    rcases List.mem_or_eq_of_mem_set hmem with hold | hnew
    · exact hn hold
    · exact hne (Prod.mk.inj hnew).2.symm
  · rwa [Bank.tagKeys, insertLine_tagSet_of_ne hset]

end Sys2Proof.Machine
end

section
/-! PROOFS. The fill: what it leaves of its LFB, of the tag array and of the data array (45_bank_fill.md R151, R152;
43_tag_data_array.md R125). -/

namespace Sys2Proof.Machine

/-- A return that answers a fetch is filled into the LFB it names (R151). -/
theorem fillBank_of_answers {cfg : Config} {b : Nat} {bk : Bank} {r : Return} (hshaped : fillShaped cfg b r = true)
    (hissued : issuedLfb bk r.address = some r.dst.toNat) :
    fillBank cfg b bk r = .ok (fillLfb cfg bk r.dst.toNat r.payload) := by
  simp [fillBank, hshaped, hissued]

/-- The line that a fill of LFB `k` inserts: the payload under the bytes that STOREs wrote (R152). -/
def mergedLine (cfg : Config) (bk : Bank) (k : Nat) (payload : Block) : Block :=
  overlay cfg.blockSize payload 0 (bk.lfb k).byteWriteMask (bk.lfb k).data

theorem fillLfb_eq (cfg : Config) (bk : Bank) (k : Nat) (payload : Block) :
    fillLfb cfg bk k payload =
      (insertLine cfg bk (bk.lfb k).blockAddress (mergedLine cfg bk k payload)).setLfb k
        { bk.lfb k with data := mergedLine cfg bk k payload, byteWriteMask := 0, state := .filled } := rfl

/-- A fill writes the pool, the tag array and the data array only. -/
theorem fillLfb_rest (cfg : Config) (bk : Bank) (k : Nat) (payload : Block) :
    fillLfb cfg bk k payload =
      { bk with
        lfbs := (fillLfb cfg bk k payload).lfbs
        tags := (fillLfb cfg bk k payload).tags
        data := (fillLfb cfg bk k payload).data } := rfl

theorem mergedLine_getD (cfg : Config) (bk : Bank) (k : Nat) (payload : Block) {x : Nat} (hx : x < cfg.blockSize) :
    (mergedLine cfg bk k payload).getD x 0 =
      if (bk.lfb k).byteWriteMask.testBit x = true then (bk.lfb k).data.getD x 0 else payload.getD x 0 := by
  rw [mergedLine, overlay_getD, if_pos hx]
  simp only [Nat.zero_le, true_and, Nat.sub_zero]

theorem fillLfb_lfb (cfg : Config) (bk : Bank) {k : Nat} (hk : k < bk.lfbs.length) (payload : Block) :
    (fillLfb cfg bk k payload).lfb k =
      { bk.lfb k with data := mergedLine cfg bk k payload, byteWriteMask := 0, state := .filled } := by
  rw [fillLfb_eq, Bank.lfb_setLfb, if_pos ⟨rfl, hk⟩]

theorem fillLfb_lfb_ne (cfg : Config) (bk : Bank) {k j : Nat} (h : j ≠ k) (payload : Block) :
    (fillLfb cfg bk k payload).lfb j = bk.lfb j := by
  rw [fillLfb_eq, Bank.lfb_setLfb, if_neg fun hj => h hj.1.symm, insertLine_lfb]

/-- A fill leaves the tag and data arrays as the insert of its line into its block does. -/
theorem fillLfb_arrays {cfg : Config} {bk : Bank} {k blk : Nat} (h : (bk.lfb k).blockAddress = blk) (payload : Block) :
    (fillLfb cfg bk k payload).tags = (insertLine cfg bk blk (mergedLine cfg bk k payload)).tags ∧
      (fillLfb cfg bk k payload).data = (insertLine cfg bk blk (mergedLine cfg bk k payload)).data := by
  rw [fillLfb_eq, h]
  exact ⟨rfl, rfl⟩

/-- In a valid configuration the set of an address has a way, and the data array a line for each way. -/
theorem Bank.WellSized.set_ways {cfg : Config} {bk : Bank} (hs : bk.WellSized cfg) (hv : cfg.valid = true) (a : Nat) :
    bk.tagSet (cfg.set a) ≠ [] ∧ cfg.set a < bk.data.length ∧
      (bk.tagSet (cfg.set a)).length = (bk.data.getD (cfg.set a) []).length := by
  have hset : cfg.set a < bk.data.length := hs.data ▸ set_lt hv a
  have hways : (bk.tagSet (cfg.set a)).length = cfg.assoc := hs.ways _ (bk.tagSet_mem (hs.tags ▸ set_lt hv a))
  refine ⟨fun hempty => ?_, hset, hways.trans (hs.lines _ (getD_mem [] hset)).symm⟩
  have hassoc : 1 ≤ cfg.assoc := by
    simp only [Config.valid, Config.validRanges, Bool.and_eq_true, decide_eq_true_eq] at hv
    omega
  rw [hempty, List.length_nil] at hways
  omega

/-- The way that an insert writes reads back the line (R122, R125). -/
theorem readLine_insertLine {cfg : Config} {bk : Bank} (hs : bk.WellSized cfg) (hv : cfg.valid = true) (blk : Nat)
    (line : Block) : readLine cfg (insertLine cfg bk blk line) blk (insertWay cfg bk blk) = line := by
  obtain ⟨hne, hset, hways⟩ := hs.set_ways hv blk
  rw [readLine, insertLine_data, getD_set, if_pos ⟨rfl, hset⟩, getD_set, if_pos ⟨rfl, hways ▸ insertWay_lt hne⟩]

theorem insertLine_data_of_ne {cfg : Config} {blk i : Nat} (h : i ≠ cfg.set blk) (bk : Bank) (line : Block) :
    (insertLine cfg bk blk line).data.getD i [] = bk.data.getD i [] := by
  rw [insertLine_data, getD_set, if_neg fun hi => h hi.1.symm]

/-- An insert leaves the lines of the other ways of its set. -/
theorem insertLine_line_of_ne {cfg : Config} {bk : Bank} {blk v : Nat} (h : v ≠ insertWay cfg bk blk) (line : Block) :
    ((insertLine cfg bk blk line).data.getD (cfg.set blk) []).getD v [] =
      (bk.data.getD (cfg.set blk) []).getD v [] := by
  rw [insertLine_data, getD_set]
  split
  · rw [getD_set, if_neg fun hv => h hv.1.symm]
  · rfl

/-- An insert leaves the valid bits and the tags of the other ways of its set. -/
theorem insertLine_key_of_ne {cfg : Config} {bk : Bank} {blk v : Nat} (h : v ≠ insertWay cfg bk blk) (line : Block) :
    ((insertLine cfg bk blk line).tagSet (cfg.set blk))[v]?.map TagEntry.key =
      (bk.tagSet (cfg.set blk))[v]?.map TagEntry.key := by
  have hkeys := congrArg (·[v]?) (insertLine_tagKeys cfg bk blk line)
  simpa only [Bank.tagKeys, List.getElem?_set_ne h.symm, List.getElem?_map] using hkeys

/-- Settles O39: the fill inserts the merged line and writes its own LFB; the insert writes one way of one set. -/
theorem fillKeepsStoredBytes : Obligations.FillKeepsStoredBytes := by
  intro cfg b bk r hv hs hshaped hissued i w
  have hw : w = insertWay cfg bk r.address := rfl
  obtain ⟨hk, -, -, -, hblk⟩ := issuedLfb_eq_some hissued
  obtain ⟨hne, -⟩ := hs.set_ways hv r.address
  obtain ⟨htags, hdata⟩ := fillLfb_arrays (cfg := cfg) hblk r.payload
  have hlfb := fillLfb_lfb cfg bk hk r.payload
  refine ⟨fillLfb cfg bk r.dst.toNat r.payload, fillBank_of_answers hshaped hissued, fillLfb_rest .., by rw [hlfb],
    fun x hx => by rw [hlfb]; exact mergedLine_getD cfg bk _ _ hx, fun j hj => fillLfb_lfb_ne cfg bk hj _,
    (lookup_congr cfg htags _).trans (lookup_insertLine hne _), ?_, fun j hj => ?_, fun v hvw => ?_⟩
  · rw [readLine, hdata, hlfb]
    exact readLine_insertLine hs hv r.address _
  · rw [Bank.tagSet, htags, hdata]
    exact ⟨insertLine_tagSet_of_ne hj bk _, insertLine_data_of_ne hj bk _⟩
  · rw [Bank.tagSet, htags, hdata]
    exact ⟨insertLine_line_of_ne (hw ▸ hvw) _, insertLine_key_of_ne (hw ▸ hvw) _⟩

end Sys2Proof.Machine
end

section
/-! PROOFS. Residence: the tag array changes in a rise only, and a block that a rise makes resident is the block of a
return that the rise reads (45_bank_fill.md R152, R153; 43_tag_data_array.md R125, R126). -/

namespace Sys2Proof.Machine

/-! ### The rise of a bank -/

theorem acceptRequest_tagKeys {cfg : Config} {b : Nat} {bk bk' : Bank} {req : Request} {c : Option Counter}
    (h : acceptRequest cfg b bk req = .accepted bk' c) (i : Nat) : bk'.tagKeys i = bk.tagKeys i := by
  rcases acceptRequest_served h with ⟨-, -, rfl, -⟩ | ⟨v, hserved⟩
  · rfl
  · exact hserved.tagKeys i

/-- Neither the hand-off nor the acceptance changes what lookups read. -/
theorem handOffOrAccept_tagKeys {b : Nat} {s t : State} (h : handOffOrAccept b s = .ok t) (i : Nat) :
    (t.bank b).tagKeys i = (s.bank b).tagKeys i := by
  have hset {x : Bank} (hx : x.tagKeys i = (s.bank b).tagKeys i) :
      ((s.setBank b x).bank b).tagKeys i = (s.bank b).tagKeys i := by
    rw [State.bank_setBank]
    split
    · exact hx
    · rfl
  rcases handOffOrAccept_ok h with ⟨x, hx, rfl⟩ | ⟨-, hacc⟩
  · obtain ⟨k, rest, -, -, rfl⟩ := handOff_eq_some hx
    exact hset rfl
  · rcases acceptStep_ok hacc with rfl | rfl | ⟨g, req, x, c, -, -, ha, rfl⟩
    · rfl
    · rfl
    · exact hset (acceptRequest_tagKeys ha i)

/-- A block that a fill makes resident has the tag of the return (R152). -/
theorem tag_of_lookup_fillBank {cfg : Config} {b a : Nat} {bk bk' : Bank} {r : Return}
    (h : fillBank cfg b bk r = .ok bk') (hn : lookup cfg bk a = none) (hs : lookup cfg bk' a ≠ none) :
    cfg.tag r.address = cfg.tag a := by
  obtain ⟨-, k, hissued, -, rfl⟩ := fillBank_ok h
  obtain ⟨-, -, -, -, hblk⟩ := issuedLfb_eq_some hissued
  rw [lookup_congr cfg (fillLfb_arrays hblk r.payload).1] at hs
  exact tag_of_lookup_insertLine hn hs

/-- A return of the block of `a` waits at bank `b` for the next rise. -/
def State.ReturnWaits (s : State) (b a : Nat) : Prop :=
  ∃ r, s.dsHead b = some r ∧ s.cfg.tag r.address = s.cfg.tag a

theorem riseBank_resident {b a : Nat} {s t : State} (h : riseBank b s = .ok t)
    (hn : lookup s.cfg (s.bank b) a = none) (hs : lookup s.cfg (t.bank b) a ≠ none) : s.ReturnWaits b a := by
  obtain ⟨u, hu, hfill⟩ := riseBank_ok h
  have hhead : u.dsHead b = s.dsHead b := State.dsHead_congr (State.dsPort_congr (handOffOrAccept_ds hu) b)
  have hcfg : u.cfg = s.cfg := (handOffOrAccept_moves hu).cfg
  have hun : lookup s.cfg (u.bank b) a = none := by
    rw [← hn]
    refine lookup_congr_tagKeys ?_
    rw [handOffOrAccept_tagKeys hu, State.bank_setBank_pipelineAdvance]
    rfl
  rcases fillStep_ok hfill with ⟨-, rfl⟩ | ⟨r, bk, hr, hbk, rfl⟩
  · exact absurd hun hs
  · rw [hcfg] at hbk
    refine ⟨r, hhead ▸ hr, tag_of_lookup_fillBank hbk hun ?_⟩
    rw [State.bank_setBank] at hs
    split at hs
    · exact hs
    · exact absurd hun hs

/-- In the rises of several banks each bank reads the return that waited at it before them. -/
theorem riseBanks_resident {bs : List Nat} (hnodup : bs.Nodup) {b a : Nat} {s t : State} (h : riseBanks bs s = .ok t)
    (hn : lookup s.cfg (s.bank b) a = none) (hs : lookup s.cfg (t.bank b) a ≠ none) : s.ReturnWaits b a := by
  induction bs generalizing s with
  | nil => cases h; exact absurd hn hs
  | cons c bs ih =>
    obtain ⟨hc, hnodup⟩ := List.nodup_cons.mp hnodup
    rw [riseBanks] at h
    split at h
    · rename_i u hu
      by_cases hcb : c = b
      · subst hcb
        rw [(riseBanks_other h hc).1] at hs
        exact riseBank_resident hu hn hs
      · obtain ⟨hbank, hport, -⟩ := riseBank_other hu hcb
        have hcfg : u.cfg = s.cfg := (riseBank_frame hu).cfg
        have hwaits := ih hnodup h (by rwa [hcfg, hbank]) (by rwa [hcfg])
        rwa [State.ReturnWaits, hcfg, State.dsHead_congr hport] at hwaits
    · cases h

theorem execClockRise_resident {b a : Nat} {s t : State} (h : execClockRise s = .next t)
    (hn : lookup s.cfg (s.bank b) a = none) (hs : lookup s.cfg (t.bank b) a ≠ none) : s.ReturnWaits b a := by
  rcases execClockRise_next h with ⟨-, rfl⟩ | ⟨-, -, rfl⟩ | ⟨-, -, c, ds, -, rfl⟩ | ⟨-, -, u, hu, rfl⟩
  · exact absurd hn hs
  · exact absurd hn hs
  · exact absurd hn hs
  · have hwaits : (registerRequests s).ReturnWaits b a :=
      riseBanks_resident List.nodup_range hu (by rwa [registerRequests_cfg, registerRequests_bank])
        (by rwa [registerRequests_cfg])
    rwa [State.ReturnWaits, registerRequests_dsHead, registerRequests_cfg] at hwaits

/-! ### The other operations -/

/-- From `s` to `t` no bank's tag array changes. -/
def State.SameTags (s t : State) : Prop :=
  ∀ b, (t.bank b).tags = (s.bank b).tags

theorem State.SameTags.of_banks {s t : State} (h : t.banks = s.banks) : s.SameTags t := fun b => by
  rw [State.bank, State.bank, h]

theorem State.SameTags.trans {s t u : State} (h : s.SameTags t) (g : t.SameTags u) : s.SameTags u := fun b =>
  (g b).trans (h b)

theorem State.SameTags.setBank {s : State} {b : Nat} {bk : Bank} (h : bk.tags = (s.bank b).tags) :
    s.SameTags (s.setBank b bk) := fun c => by
  rw [State.bank_setBank]
  split
  · rename_i hc; rw [h, hc.1]
  · rfl

theorem issue_sameTags {s : State} {b : Nat} {i : Issue} (h : due s.cfg b (s.bank b) = some i) :
    s.SameTags (s.issue b i) :=
  (State.SameTags.setBank (due_tags h)).trans (.of_banks rfl)

theorem fallBank_sameTags (b : Nat) (s : State) : s.SameTags (fallBank b s) := by
  refine State.SameTags.trans (t := issueStep b s) ?_ (.setBank (returnStep_tags _ _))
  rcases issueStep_spec b s with h | ⟨i, -, hi, h⟩ <;> rw [h]
  · exact .of_banks rfl
  · exact issue_sameTags hi

theorem fallBanks_sameTags (bs : List Nat) (s : State) : s.SameTags (fallBanks bs s) := by
  induction bs generalizing s with
  | nil => exact .of_banks rfl
  | cons b bs ih => exact (fallBank_sameTags b s).trans (ih _)

theorem routeReturns_sameTags (s : State) : s.SameTags (routeReturns s) := fun b => by
  rcases (routeReturns_bank s b).1 with h | h <;> rw [h]

theorem execClockFall_sameTags {s t : State} (h : execClockFall s = .next t) : s.SameTags t := by
  rcases execClockFall_next h with ⟨-, rfl⟩ | ⟨-, -, rfl⟩ | ⟨-, -, rfl⟩
  · exact .of_banks rfl
  · exact .of_banks rfl
  · exact ((fallBanks_sameTags _ s).trans (routeReturns_sameTags _)).trans (.of_banks rfl)

theorem raise_sameTags {s t : State} {c : FaultCode} (h : s.raise c = .next t) : s.SameTags t := by
  cases h; exact .of_banks rfl

theorem finish_sameTags {s u t : State} {r : Response} (hs : s.SameTags u) (h : u.finish r = .next t) :
    s.SameTags t := by
  cases h; exact hs.trans (.of_banks rfl)

theorem whenRunning_sameTags {s t : State} {op : State → Result} (h : s.whenRunning op = .next t)
    (hop : op s = .next t → s.SameTags t) : s.SameTags t := by
  rcases whenRunning_next h with ⟨-, rfl⟩ | ⟨-, h⟩
  · exact .of_banks rfl
  · exact hop h

theorem onPort_sameTags {s t : State} {port : BitVec 16} {ph : Phase} {op : State → Result}
    (h : s.onPort port ph op = .next t) (hop : op s = .next t → s.SameTags t) : s.SameTags t := by
  refine whenRunning_sameTags h fun h => ?_
  split at h
  · exact raise_sameTags h
  · split at h
    · exact raise_sameTags h
    · exact hop h

theorem onReturn_sameTags {s t : State} {port : BitVec 16} {give : State → Return → Result}
    (h : s.onReturn port give = .next t) (hgive : ∀ r, give s r = .next t → s.SameTags t) : s.SameTags t := by
  refine onPort_sameTags h fun h => ?_
  split at h
  · exact raise_sameTags h
  · exact hgive _ h

theorem writeRequest_sameTags {s t : State} {port : BitVec 16} {req : Request}
    (h : s.writeRequest port req = .next t) : s.SameTags t := by
  rcases writeRequest_next h with ⟨f, rfl⟩ | ⟨-, -, -, -, -, -, -, rfl⟩
  · exact .of_banks rfl
  · exact .of_banks rfl

theorem receive_sameTags {s t : State} {q : BitVec 16} {r : Return} (h : s.receive q r = .next t) :
    s.SameTags t := by
  refine whenRunning_sameTags h fun h => ?_
  split at h
  · exact finish_sameTags (.of_banks rfl) h
  · exact finish_sameTags (.of_banks (State.setDsPort_banks ..)) h

theorem writeDownstream_sameTags {s t : State} {req : Request} (h : s.writeDownstream req = .next t) :
    s.SameTags t := by
  rcases writeDownstream_next h with rfl | ⟨b, i, -, -, -, -, hi, -, rfl⟩
  · exact .of_banks rfl
  · exact (issue_sameTags hi).trans (.of_banks rfl)

theorem onArb_sameTags {s t : State} {a : ArbRef} {op : State → Result} (h : s.onArb a op = .next t)
    (hop : op s = .next t → s.SameTags t) : s.SameTags t := by
  refine whenRunning_sameTags h fun h => ?_
  split at h
  · cases h
  · exact hop h

/-- An arbitrator of a bank is no part of its tag array. -/
theorem setArb_sameTags (s : State) (a : ArbRef) (v : Arb) : s.SameTags (s.setArb a v) := by
  cases a with
  | xreq b => exact .of_banks rfl
  | xret p => exact .of_banks rfl
  | lfb b => exact .setBank rfl

theorem execArbAdd_sameTags {s t : State} {a : ArbRef} {j : BitVec 8} (h : execArbAdd a j s = .next t) :
    s.SameTags t := by
  refine onArb_sameTags h fun h => ?_
  split at h
  · cases h
  · exact finish_sameTags (setArb_sameTags s a _) h

theorem execArbRemove_sameTags {s t : State} {a : ArbRef} {j : BitVec 8} (h : execArbRemove a j s = .next t) :
    s.SameTags t := by
  refine onArb_sameTags h fun h => ?_
  split at h
  · cases h
  · exact finish_sameTags (setArb_sameTags s a _) h

/-- Only a `clock_rise` changes a tag array. -/
theorem exec_sameTags {i : Instr} (hi : i ≠ .clockRise) {s t : State} (h : exec i s = .next t) : s.SameTags t := by
  cases i with
  | dsLoad _ => exact writeDownstream_sameTags h
  | dsStore _ => exact writeDownstream_sameTags h
  | na _ _ => exact receive_sameTags h
  | loadReturn _ _ => exact receive_sameTags h
  | retReserved02 _ _ _ => exact receive_sameTags h
  | retReserved04 _ _ _ => exact receive_sameTags h
  | retReserved08 _ _ _ => exact receive_sameTags h
  | retReserved10 _ _ _ => exact receive_sameTags h
  | retReserved20 _ _ _ => exact receive_sameTags h
  | retReserved40 _ _ _ => exact receive_sameTags h
  | retReserved80 _ _ _ => exact receive_sameTags h
  | requestPortWriteValid port =>
    exact onPort_sameTags ((exec_requestPortWriteValid port s).symm.trans h) (finish_sameTags (.of_banks rfl))
  | returnPortReadValid port =>
    exact onPort_sameTags ((exec_returnPortReadValid port s).symm.trans h) (finish_sameTags (.of_banks rfl))
  | peekReturn port =>
    exact onReturn_sameTags ((exec_peekReturn port s).symm.trans h) fun _ => finish_sameTags (.of_banks rfl)
  | readReturn port =>
    exact onReturn_sameTags ((exec_readReturn port s).symm.trans h) fun _ => finish_sameTags (.of_banks rfl)
  | arbAdd _ _ => exact execArbAdd_sameTags h
  | arbRemove _ _ => exact execArbRemove_sameTags h
  | arbAdvance a =>
    exact onArb_sameTags ((exec_arbAdvance a s).symm.trans h) (finish_sameTags (setArb_sameTags s a _))
  | arbCurrent a => exact onArb_sameTags ((exec_arbCurrent a s).symm.trans h) (finish_sameTags (.of_banks rfl))
  | clockRise => exact absurd rfl hi
  | clockFall => exact execClockFall_sameTags h
  | _ => exact writeRequest_sameTags h

/-- Settles O40: only a rise changes a tag array, and in a rise only a fill changes what lookups read. -/
theorem onlyFillsMakeABlockResident : Obligations.OnlyFillsMakeABlockResident := by
  intro i s t b a h hn hs
  by_cases hi : i = .clockRise
  · subst hi
    exact ⟨rfl, execClockRise_resident h hn hs⟩
  · rw [lookup_congr s.cfg (exec_sameTags hi h b)] at hs
    exact absurd hn hs

end Sys2Proof.Machine
end

section
/-! PROOFS. DSLOAD and DSSTORE: the miss issue, the write-back drain of one run, and the records that name no request a
bank may write now (46_bank_issue.md R157 to R160; 40_port_contract.md R104, R105; log 6). -/

namespace Sys2Proof.Machine

/-! ### What a bank may write now -/

/-- What bank `b` writes downstream in its fall: what it has due, on a port that NBC may write (R157). -/
def State.dueNow (s : State) (b : Nat) : Option Issue :=
  if s.dsMayWrite b then due s.cfg b (s.bank b) else none

theorem State.dueNow_eq_some {s : State} {b : Nat} {i : Issue} :
    s.dueNow b = some i ↔ s.dsMayWrite b = true ∧ due s.cfg b (s.bank b) = some i := by
  rw [State.dueNow, Option.ite_none_right_eq_some]

theorem State.dsMayWrite_eq_true {s : State} {b : Nat} :
    s.dsMayWrite b = true ↔ s.dsWriteValid b = true ∧ (s.dsPort b).wrote = false := by
  simp [State.dsMayWrite]

theorem State.dueNow_eq_none {s : State} {b : Nat} (h : s.dsWriteValid b = false ∨ (s.dsPort b).wrote = true) :
    s.dueNow b = none := by
  rcases h with h | h <;> simp [State.dueNow, State.dsMayWrite, h]

/-- The issue step is the issue of what the bank may write now, if there is any. -/
theorem issueStep_eq (b : Nat) (s : State) : issueStep b s = (s.dueNow b).elim s (s.issue b) := by
  by_cases hw : s.dsMayWrite b = true
  · cases hi : due s.cfg b (s.bank b) <;> simp [issueStep, State.dueNow, hw, hi]
  · simp [issueStep, State.dueNow, hw]

/-! ### Downstream records (log 6) -/

/-- What the bank of a downstream port is (20_memory.md R56). -/
theorem lt_of_bankOfDsPort {cfg : Config} {q b : Nat} (h : cfg.bankOfDsPort q = some b) :
    b < cfg.numBanks ∧ cfg.dsPort b = q := by
  rw [Config.bankOfDsPort, List.find?_range_eq_some] at h
  obtain ⟨hq, hb, -⟩ := h
  exact ⟨List.mem_range.mp hb, by simpa using hq⟩

/-- A record of the request that bank `b` has due, on a port that NBC may write, is the bank's issue (R157). -/
theorem writeDownstream_of_due {s : State} (h : s.Healthy) (hph : s.phase = .fall) (hstride : 1 ≤ s.cfg.dsPortStride)
    {b : Nat} (hb : b < s.cfg.numBanks) (hw : s.dsMayWrite b = true) {i : Issue}
    (hi : due s.cfg b (s.bank b) = some i) (hport : s.cfg.dsPort b = i.request.port.toNat) :
    s.writeDownstream i.request = .next { s.issue b i with resp := .nothing } := by
  have hdue : s.phase = .fall ∧ (due s.cfg b (s.bank b)).map Issue.request = some i.request :=
    ⟨hph, congrArg (Option.map Issue.request) hi⟩
  rw [State.writeDownstream, h.whenRunning, bankOfDsPort_eq_some hstride hb hport]
  simp only [if_pos hdue, issueStep_eq, State.dueNow_eq_some.mpr ⟨hw, hi⟩]
  rfl

/-- A record of a request that no bank has due on a port that NBC may write changes nothing (46_bank_issue.md
R164). -/
theorem writeDownstream_of_not_due {s : State} (h : s.Healthy) {req : Request}
    (hno : s.phase = .fall → ∀ b < s.cfg.numBanks, s.cfg.dsPort b = req.port.toNat →
      s.dsWriteValid b = false ∨ (s.dsPort b).wrote = true ∨
        (due s.cfg b (s.bank b)).map Issue.request ≠ some req) :
    s.writeDownstream req = .next { s with resp := .nothing } := by
  rw [State.writeDownstream, h.whenRunning]
  cases hbank : s.cfg.bankOfDsPort req.port.toNat with
  | none => rfl
  | some b =>
    obtain ⟨hb, hport⟩ := lt_of_bankOfDsPort hbank
    by_cases hdue : s.phase = .fall ∧ (due s.cfg b (s.bank b)).map Issue.request = some req
    · have hnow : s.dueNow b = none := State.dueNow_eq_none <| by
        rcases hno hdue.1 b hb hport with hv | hwrote | hne
        · exact .inl hv
        · exact .inr hwrote
        · exact absurd hdue.2 hne
      simp only [if_pos hdue, issueStep_eq, hnow]
      rfl
    · simp only [if_neg hdue]
      rfl

theorem toNat_ofNat_port {n : Nat} (h : n ≤ 65535) : (BitVec.ofNat 16 n).toNat = n := by
  rw [BitVec.toNat_ofNat, Nat.mod_eq_of_lt (Nat.lt_succ_of_le h)]

/-! ### DSLOAD (R158) -/

/-- With a miss waiting, the fetch of the miss queue's head is due (R157, R158). -/
theorem due_of_miss (cfg : Config) (b : Nat) {bk : Bank} {k : Nat} {rest : List Nat} (hq : bk.mq = k :: rest) :
    due cfg b bk = some
      { request := fetchRequest cfg b k (bk.lfb k), bank := { bk with mq := rest }, counter := .dsLoads } :=
  due_eq_some.mpr (.inl (dueFetch_eq_some.mpr ⟨k, rest, hq, rfl⟩))

/-- Settles O41: a DSLOAD of the fetch that is due is the bank's issue, and any other one is not due. -/
theorem dsLoadIsTheMissIssue : Obligations.DsLoadIsTheMissIssue := by
  constructor
  · intro s b k rest h hph hb hstride hport hvalid hwrote hq
    exact writeDownstream_of_due h hph hstride hb (State.dsMayWrite_eq_true.mpr ⟨hvalid, hwrote⟩)
      (due_of_miss s.cfg b hq) (toNat_ofNat_port hport).symm
  · intro s r h hno
    exact writeDownstream_of_not_due (req := r.withType .load) h hno

/-! ### DSSTORE (R159, R160) -/

/-- A run is as long as its bits are set, if the bit after it is clear or beyond the width. -/
theorem runLength_eq {w m i n : Nat} (hn : n ≤ w) (hset : ∀ j < n, m.testBit (i + j) = true)
    (hstop : n < w → m.testBit (i + n) = false) : runLength w m i = n := by
  rcases Nat.lt_trichotomy (runLength w m i) n with hlt | heq | hgt
  · have hclear := runLength_stop (lt_of_lt_of_le hlt hn)
    rw [hset _ hlt] at hclear
    cases hclear
  · exact heq
  · have hbit := runLength_set hgt
    rw [hstop (lt_of_lt_of_le hgt (runLength_le w m i))] at hbit
    cases hbit

/-- A mask after the run of `n` bits from bit `st` is cleared. -/
theorem clearRun_testBit (m n st j : Nat) :
    (clearBits m (ones n <<< st)).testBit j = (m.testBit j && decide (j < st ∨ st + n ≤ j)) := by
  rw [clearBits_testBit, Nat.testBit_shiftLeft, ones_testBit, ← Bool.decide_and, ← decide_not]
  congr 2
  exact propext (by omega)

/-- With no miss waiting, the drain of the lowest run of the active LFB is due (R157, R159). -/
theorem due_of_run {cfg : Config} (b : Nat) {bk : Bank} {k st n : Nat} (hq : bk.mq = [])
    (hactive : bk.wbActive = some k) (hn : 1 ≤ n) (hle : st + n ≤ cfg.blockSize)
    (hlow : ∀ j < st, (bk.lfb k).byteWriteMask.testBit j = false)
    (hset : ∀ j < n, (bk.lfb k).byteWriteMask.testBit (st + j) = true)
    (hstop : st + n < cfg.blockSize → (bk.lfb k).byteWriteMask.testBit (st + n) = false) :
    due cfg b bk = some
      { request := drainRequest cfg b k (bk.lfb k) st n
        bank := drainTo cfg b bk k (clearBits (bk.lfb k).byteWriteMask (ones n <<< st))
        counter := .dsStores } := by
  have hst : lowestBit cfg.blockSize (bk.lfb k).byteWriteMask = some st :=
    lowestBit_eq_some.mpr ⟨by omega, hset 0 hn, hlow⟩
  have hrun : runLength (cfg.blockSize - st) (bk.lfb k).byteWriteMask st = n :=
    runLength_eq (by omega) hset fun h => hstop (by omega)
  exact due_eq_some.mpr (.inr ⟨hq, dueDrain_eq_some.mpr ⟨k, st, hactive, hst, by rw [hrun]⟩⟩)

/-- What the bank after a drain is: its LFB `k` keeps the mask `m`, or with nothing left is INVALID and active no longer
(R159, R160). -/
theorem drainTo_lfbs (cfg : Config) (b : Nat) (bk : Bank) (k m : Nat) :
    ∃ l : Lfb,
      drainTo cfg b bk k m =
        { bk with
          lfbs := bk.lfbs.set k l
          wbActive := (drainTo cfg b bk k m).wbActive
          freeCount := (drainTo cfg b bk k m).freeCount } ∧
      l.byteWriteMask = m ∧
      (l.byteWriteMask ≠ 0 → (drainTo cfg b bk k m).wbActive = bk.wbActive ∧
        l = { bk.lfb k with byteWriteMask := l.byteWriteMask }) ∧
      (l.byteWriteMask = 0 → (drainTo cfg b bk k m).wbActive = none ∧ l.state = .invalid ∧
        l.lru = (bk.lfb k).lru) := by
  rcases drainTo_spec cfg b bk k m with ⟨hm, hbk⟩ | ⟨hm, hbk⟩ <;> rw [hbk]
  · exact ⟨drainedLfb cfg b bk.freeCount (bk.lfb k), rfl, hm.symm, fun hne => absurd rfl hne,
      fun _ => ⟨rfl, rfl, rfl⟩⟩
  · exact ⟨{ bk.lfb k with byteWriteMask := m }, rfl, rfl, fun _ => ⟨rfl, rfl⟩, fun h0 => absurd h0 hm⟩

/-- Settles O42: a DSSTORE of the run that is due is the bank's issue, and any other one is not due. -/
theorem dsStoreIsTheWriteBackDrain : Obligations.DsStoreIsTheWriteBackDrain := by
  constructor
  · intro s b k st n h hph hb hstride hport hvalid hwrote hq hactive _ hn hle hlow hset hstop r
    have hdue := due_of_run b hq hactive hn hle hlow hset hstop
    obtain ⟨l, hbk, hmask, hkept, hdrained⟩ := drainTo_lfbs s.cfg b (s.bank b) k
      (clearBits ((s.bank b).lfb k).byteWriteMask (ones n <<< st))
    have hissue := writeDownstream_of_due h hph hstride hb (State.dsMayWrite_eq_true.mpr ⟨hvalid, hwrote⟩) hdue
      (toNat_ofNat_port hport).symm
    refine ⟨_, l, hissue, hbk, fun j => ?_, hactive ▸ hkept, hdrained⟩
    rw [hmask, clearRun_testBit]
  · intro s r h hno
    exact writeDownstream_of_not_due (req := r.withType .store) h hno

end Sys2Proof.Machine
end

section
/-! PROOFS. One downstream request per port and fall: what a fall writes to each port, and what any step can do to a
port's request slot and to its mark (46_bank_issue.md R157; 40_port_contract.md R104, R105; 60_exceptions.md R185). -/

namespace Sys2Proof.Machine

/-! ### What a fall writes to a port -/

/-- A downstream port after the issue step of its bank. -/
def DsPort.afterIssue (d : DsPort) (i : Option Issue) : DsPort :=
  i.elim d fun i => { d with req := some i.request, wrote := true }

theorem State.dueNow_congr {s u : State} {b : Nat} (hcfg : u.cfg = s.cfg) (hbank : u.bank b = s.bank b)
    (hport : u.dsPort b = s.dsPort b) : u.dueNow b = s.dueNow b := by
  have hmay : u.dsMayWrite b = s.dsMayWrite b := by
    simp only [State.dsMayWrite, State.dsWriteValid, hport]
  rw [State.dueNow, State.dueNow, hmay, hcfg, hbank]

theorem fallBank_dsPort (b : Nat) {s : State} (hb : b < s.ds.length) :
    (fallBank b s).dsPort b = (s.dsPort b).afterIssue (s.dueNow b) := by
  show (issueStep b s).dsPort b = _
  rw [issueStep_eq]
  cases s.dueNow b with
  | none => rfl
  | some i => exact (s.dsPort_setDsPort b b _).trans (if_pos ⟨rfl, hb⟩)

/-- In the fall of all banks each port is written what its bank has due, as the fall finds it. -/
theorem fallBanks_dsPort {s : State} {b : Nat} (hb : b < s.cfg.numBanks) (hds : b < s.ds.length) :
    (fallBanks (List.range s.cfg.numBanks) s).dsPort b = (s.dsPort b).afterIssue (s.dueNow b) := by
  obtain ⟨u, hbank, hport, hframe, -, hfall⟩ := fallBanks_bank _ s List.nodup_range (List.mem_range.mpr hb)
  rw [hfall, fallBank_dsPort b (hframe.ds ▸ hds), State.dueNow_congr hframe.cfg hbank hport, hport]

theorem State.dsPort_absent {s : State} {b : Nat} (h : s.ds.length ≤ b) : s.dsPort b = DsPort.reset :=
  List.getD_eq_default _ _ h

/-- A port that no bank uses is not written. -/
theorem fallBanks_dsPort_unused {s : State} {b : Nat} (h : ¬ (b < s.cfg.numBanks ∧ b < s.ds.length)) :
    (fallBanks (List.range s.cfg.numBanks) s).dsPort b = s.dsPort b := by
  rcases not_and_or.mp h with hb | hds
  · exact (fallBanks_other _ s fun hmem => hb (List.mem_range.mp hmem)).2
  · have hds := Nat.le_of_not_lt hds
    rw [State.dsPort_absent hds, State.dsPort_absent ((fallBanks_frame _ s).ds ▸ hds)]

/-- The routing of the fall writes no downstream port, and after it no port counts as written (R105). -/
theorem routeReturns_dsEndFall_dsPort (s : State) (b : Nat) :
    (routeReturns s).dsEndFall.dsPort b = (s.dsPort b).endFall := by
  rw [State.dsPort_dsEndFall, State.dsPort_congr (routeReturns_bank s b).2]

/-! ### What a rise leaves of a port -/

theorem riseBanks_reads {bs : List Nat} {s t : State} (h : riseBanks bs s = .ok t) : DsReads s.ds t.ds := by
  induction bs generalizing s with
  | nil => cases h; exact .refl
  | cons b bs ih =>
    rw [riseBanks] at h
    split at h
    · rename_i u hu; exact (riseBank_reads.1 u hu).trans (ih h)
    · cases h

/-- Reading returns leaves the request slots and the marks. -/
theorem DsReads.keeps {d d' : List DsPort} (h : DsReads d d') (b : Nat) :
    (d'.getD b .reset).req = (d.getD b .reset).req ∧ (d'.getD b .reset).wrote = (d.getD b .reset).wrote := by
  induction h with
  | refl => exact ⟨rfl, rfl⟩
  | tail _ hread ih =>
    obtain ⟨c, rfl⟩ := hread
    rw [getD_set]
    split
    · rename_i hc; rw [hc.1]; exact ih
    · exact ih

/-! ### What a step can do to a port -/

/-- What a step from `s` to `t` does to the request slot and the mark of bank `b`'s downstream port, and to the
phase. -/
inductive State.PortEffect (s t : State) (b : Nat) : Prop
  /-- It writes no request, keeps the mark, and ends no fall. -/
  | kept (hreq : (t.dsPort b).req = (s.dsPort b).req ∨ (t.dsPort b).req = none)
      (hwrote : (t.dsPort b).wrote = (s.dsPort b).wrote) (hphase : t.phase = s.phase ∨ t.phase = .fall)
  /-- A record in a fall writes a request, and the mark with it. -/
  | written (hfrom : s.phase = .fall) (hto : t.phase = .fall) (hmay : s.dsMayWrite b = true)
      (hwrote : (t.dsPort b).wrote = true)
  /-- The end of a fall takes the mark back. -/
  | ended (hfrom : s.phase = .fall) (hto : t.phase = .rise) (hwrote : (t.dsPort b).wrote = false)
      (hreq : (t.dsPort b).req = (s.dsPort b).req ∨ s.dsMayWrite b = true)

section
variable {s t : State} {b : Nat}

theorem State.PortEffect.newRequest (h : s.PortEffect t b) {req : Request} (hnew : (t.dsPort b).req = some req)
    (hold : (s.dsPort b).req ≠ some req) :
    s.phase = .fall ∧ (s.dsPort b).req = none ∧ (s.dsPort b).blocked = false ∧ (s.dsPort b).wrote = false ∧
      (t.phase = .fall → (t.dsPort b).wrote = true) := by
  cases h with
  | kept hreq =>
    rcases hreq with hreq | hreq
    · exact absurd (hreq.symm.trans hnew) hold
    · rw [hreq] at hnew; cases hnew
  | written hfrom _ hmay hwrote =>
    obtain ⟨hempty, hopen, hunwritten⟩ := (s.dsMayWrite_iff b).mp hmay
    exact ⟨hfrom, hempty, hopen, hunwritten, fun _ => hwrote⟩
  | ended hfrom hto _ hreq =>
    rcases hreq with hreq | hmay
    · exact absurd (hreq.symm.trans hnew) hold
    · obtain ⟨hempty, hopen, hunwritten⟩ := (s.dsMayWrite_iff b).mp hmay
      exact ⟨hfrom, hempty, hopen, hunwritten, fun hfall => absurd hto (Phase.ne_rise_of_fall hfall)⟩

theorem State.PortEffect.staysWritten (h : s.PortEffect t b) (hwrote : (s.dsPort b).wrote = true)
    (hto : t.phase = .fall) : (t.dsPort b).wrote = true := by
  cases h with
  | kept _ hkept => exact hkept.trans hwrote
  | written _ _ _ hnew => exact hnew
  | ended _ hrise => exact absurd hrise (Phase.ne_rise_of_fall hto)

theorem State.PortEffect.clearedAfterFall (h : s.PortEffect t b) (hfrom : s.phase = .fall) (hto : t.phase = .rise) :
    (t.dsPort b).wrote = false := by
  cases h with
  | kept _ _ hphase =>
    have hfall : t.phase = .fall := hphase.elim (·.trans hfrom) id
    exact absurd hfall (Phase.ne_fall_of_rise hto)
  | written _ hfall => exact absurd hfall (Phase.ne_fall_of_rise hto)
  | ended _ _ hclear => exact hclear

theorem State.PortEffect.unwrittenInRise (h : s.PortEffect t b) (hfrom : s.phase = .rise)
    (hwrote : (s.dsPort b).wrote = false) : (t.dsPort b).wrote = false := by
  cases h with
  | kept _ hkept => exact hkept.trans hwrote
  | written hfall => exact absurd hfall (Phase.ne_fall_of_rise hfrom)
  | ended hfall => exact absurd hfall (Phase.ne_fall_of_rise hfrom)

/-! ### The operations -/

theorem State.PortEffect.of_ds (hds : t.ds = s.ds) (hphase : t.phase = s.phase) : s.PortEffect t b := by
  have hport := State.dsPort_congr hds b
  exact .kept (.inl (by rw [hport])) (by rw [hport]) (.inl hphase)

/-- A write to a port that puts no request into its slot and keeps its mark. -/
theorem State.PortEffect.of_set {c : Nat} {d : DsPort} (hds : t.ds = s.ds.set c d) (hphase : t.phase = s.phase)
    (hreq : d.req = (s.dsPort c).req ∨ d.req = none) (hwrote : d.wrote = (s.dsPort c).wrote) : s.PortEffect t b := by
  have hport : t.dsPort b = if c = b ∧ b < s.ds.length then d else s.dsPort b := by
    rw [State.dsPort, hds, getD_set]
    rfl
  split at hport
  · rename_i hc
    rw [hc.1] at hreq hwrote
    exact .kept (by rwa [hport]) (by rwa [hport]) (.inl hphase)
  · exact .kept (.inl (by rw [hport])) (by rw [hport]) (.inl hphase)

theorem raise_portEffect {c : FaultCode} (h : s.raise c = .next t) : s.PortEffect t b := by
  cases h; exact .of_ds rfl rfl

theorem finish_portEffect {u : State} {r : Response} (hds : u.ds = s.ds) (hphase : u.phase = s.phase)
    (h : u.finish r = .next t) : s.PortEffect t b := by
  cases h; exact .of_ds hds hphase

theorem whenRunning_portEffect {op : State → Result} (h : s.whenRunning op = .next t)
    (hop : op s = .next t → s.PortEffect t b) : s.PortEffect t b := by
  rcases whenRunning_next h with ⟨-, rfl⟩ | ⟨-, h⟩
  · exact .of_ds rfl rfl
  · exact hop h

theorem onPort_portEffect {port : BitVec 16} {ph : Phase} {op : State → Result} (h : s.onPort port ph op = .next t)
    (hop : op s = .next t → s.PortEffect t b) : s.PortEffect t b := by
  refine whenRunning_portEffect h fun h => ?_
  split at h
  · exact raise_portEffect h
  · split at h
    · exact raise_portEffect h
    · exact hop h

theorem onReturn_portEffect {port : BitVec 16} {give : State → Return → Result} (h : s.onReturn port give = .next t)
    (hgive : ∀ r, give s r = .next t → s.PortEffect t b) : s.PortEffect t b := by
  refine onPort_portEffect h fun h => ?_
  split at h
  · exact raise_portEffect h
  · exact hgive _ h

theorem writeRequest_portEffect {port : BitVec 16} {req : Request} (h : s.writeRequest port req = .next t) :
    s.PortEffect t b := by
  rcases writeRequest_next h with ⟨f, rfl⟩ | ⟨-, -, -, -, -, -, -, rfl⟩
  · exact .of_ds rfl rfl
  · exact .of_ds rfl rfl

theorem receive_portEffect {q : BitVec 16} {r : Return} (h : s.receive q r = .next t) : s.PortEffect t b := by
  refine whenRunning_portEffect h fun h => ?_
  split at h
  · exact finish_portEffect rfl rfl h
  · cases h; exact .of_set (s.setDsPort_ds _ _) rfl (.inl rfl) rfl

theorem dsTake_portEffect (s : State) (c b : Nat) : s.PortEffect (s.dsTake c) b :=
  .of_set (s.setDsPort_ds c _) rfl (.inr rfl) rfl

theorem dsBlock_portEffect (s : State) (c : Nat) (blocked : Bool) (b : Nat) : s.PortEffect (s.dsBlock c blocked) b :=
  .of_set (s.setDsPort_ds c _) rfl (.inl rfl) rfl

/-- A record writes one port, one that NBC may write, and in a fall (46_bank_issue.md R157; log 6). -/
theorem writeDownstream_portEffect {req : Request} (h : s.writeDownstream req = .next t) : s.PortEffect t b := by
  rcases writeDownstream_next h with rfl | ⟨c, i, -, hphase, -, hmay, -, -, rfl⟩
  · exact .of_ds rfl rfl
  · have hport : (s.issue c i).dsPort b = _ := s.dsPort_setDsPort c b _
    split at hport
    · rename_i hc
      rw [hc.1] at hmay
      exact .written hphase hphase hmay (congrArg DsPort.wrote hport)
    · exact .kept (.inl (congrArg DsPort.req hport)) (congrArg DsPort.wrote hport) (.inl rfl)

theorem onArb_portEffect {a : ArbRef} {op : State → Result} (h : s.onArb a op = .next t)
    (hop : op s = .next t → s.PortEffect t b) : s.PortEffect t b := by
  refine whenRunning_portEffect h fun h => ?_
  split at h
  · cases h
  · exact hop h

theorem setArb_portEffect {a : ArbRef} {v : Arb} {r : Response} (h : (s.setArb a v).finish r = .next t) :
    s.PortEffect t b := by
  obtain ⟨-, -, -, -, -, -, hphase, hds, -, -⟩ := s.setArb_rest a v
  exact finish_portEffect hds hphase h

theorem execArbAdd_portEffect {a : ArbRef} {j : BitVec 8} (h : execArbAdd a j s = .next t) : s.PortEffect t b := by
  refine onArb_portEffect h fun h => ?_
  split at h
  · cases h
  · exact setArb_portEffect h

theorem execArbRemove_portEffect {a : ArbRef} {j : BitVec 8} (h : execArbRemove a j s = .next t) :
    s.PortEffect t b := by
  refine onArb_portEffect h fun h => ?_
  split at h
  · cases h
  · exact setArb_portEffect h

/-- A rise reads returns and writes no request. -/
theorem execClockRise_portEffect (h : execClockRise s = .next t) : s.PortEffect t b := by
  rcases execClockRise_next h with ⟨-, rfl⟩ | ⟨-, -, rfl⟩ | ⟨-, -, c, ds, hr, rfl⟩ | ⟨-, -, u, hr, rfl⟩
  · exact .of_ds rfl rfl
  · exact .of_ds rfl rfl
  · obtain ⟨hreq, hwrote⟩ := (registerRequests_ds s ▸ riseBanks_error_reads hr : DsReads s.ds ds).keeps b
    exact .kept (.inl hreq) hwrote (.inl rfl)
  · obtain ⟨hreq, hwrote⟩ := (registerRequests_ds s ▸ riseBanks_reads hr : DsReads s.ds u.ds).keeps b
    exact .kept (.inl hreq) hwrote (.inr rfl)

theorem execClockFall_portEffect (h : execClockFall s = .next t) : s.PortEffect t b := by
  rcases execClockFall_next h with ⟨-, rfl⟩ | ⟨-, -, rfl⟩ | ⟨-, hphase, rfl⟩
  · exact .of_ds rfl rfl
  · exact .of_ds rfl rfl
  · have hport := routeReturns_dsEndFall_dsPort (fallBanks (List.range s.cfg.numBanks) s) b
    refine .ended hphase rfl (congrArg DsPort.wrote hport) ?_
    have hreq : _ = ((fallBanks (List.range s.cfg.numBanks) s).dsPort b).req :=
      (congrArg DsPort.req hport).trans (DsPort.endFall_req _)
    by_cases hused : b < s.cfg.numBanks ∧ b < s.ds.length
    · rw [fallBanks_dsPort hused.1 hused.2] at hreq
      cases hdue : s.dueNow b with
      | none => rw [hdue] at hreq; exact .inl hreq
      | some i => exact .inr (State.dueNow_eq_some.mp hdue).1
    · rw [fallBanks_dsPort_unused hused] at hreq
      exact .inl hreq

theorem exec_portEffect {i : Instr} (h : exec i s = .next t) : s.PortEffect t b := by
  cases i with
  | dsLoad _ => exact writeDownstream_portEffect h
  | dsStore _ => exact writeDownstream_portEffect h
  | na _ _ => exact receive_portEffect h
  | loadReturn _ _ => exact receive_portEffect h
  | retReserved02 _ _ _ => exact receive_portEffect h
  | retReserved04 _ _ _ => exact receive_portEffect h
  | retReserved08 _ _ _ => exact receive_portEffect h
  | retReserved10 _ _ _ => exact receive_portEffect h
  | retReserved20 _ _ _ => exact receive_portEffect h
  | retReserved40 _ _ _ => exact receive_portEffect h
  | retReserved80 _ _ _ => exact receive_portEffect h
  | requestPortWriteValid port =>
    exact onPort_portEffect ((exec_requestPortWriteValid port s).symm.trans h) (finish_portEffect rfl rfl)
  | returnPortReadValid port =>
    exact onPort_portEffect ((exec_returnPortReadValid port s).symm.trans h) (finish_portEffect rfl rfl)
  | peekReturn port =>
    exact onReturn_portEffect ((exec_peekReturn port s).symm.trans h) fun _ => finish_portEffect rfl rfl
  | readReturn port =>
    exact onReturn_portEffect ((exec_readReturn port s).symm.trans h) fun _ => finish_portEffect rfl rfl
  | arbAdd _ _ => exact execArbAdd_portEffect h
  | arbRemove _ _ => exact execArbRemove_portEffect h
  | arbAdvance a => exact onArb_portEffect ((exec_arbAdvance a s).symm.trans h) setArb_portEffect
  | arbCurrent a => exact onArb_portEffect ((exec_arbCurrent a s).symm.trans h) (finish_portEffect rfl rfl)
  | clockRise => exact execClockRise_portEffect h
  | clockFall => exact execClockFall_portEffect h
  | _ => exact writeRequest_portEffect h

/-- Every step, whether an instruction or an act of the downstream unit, has one of the three effects on every port. -/
theorem step_portEffect (h : step s = .next t) : ∃ es, State.PortEffect { s with events := es } t b := by
  obtain ⟨es, ⟨i, -, h⟩ | ⟨c, rfl⟩ | ⟨c, blocked, rfl⟩⟩ := step_next h
  · exact ⟨es, exec_portEffect h⟩
  · exact ⟨es, dsTake_portEffect _ c b⟩
  · exact ⟨es, dsBlock_portEffect _ c blocked b⟩

end

/-! ### One request per port and fall -/

/-- The downstream port of a bank after a healthy `clock_fall`. -/
theorem execClockFall_dsPort {s t : State} (h : execClockFall s = .next t) (hf : s.Healthy) (hs : s.WellSized)
    (hphase : s.phase = .fall) {b : Nat} (hb : b < s.cfg.numBanks) :
    t.dsPort b = ((s.dsPort b).afterIssue (s.dueNow b)).endFall := by
  rcases execClockFall_next h with ⟨hstuck, -⟩ | ⟨-, hrise, -⟩ | ⟨-, -, rfl⟩
  · rw [show s.fault = none from hf] at hstuck
    cases hstuck
  · exact absurd hphase hrise
  · rw [← fallBanks_dsPort hb (hs.ds ▸ hb)]
    exact routeReturns_dsEndFall_dsPort _ b

/-- Settles O43: a fall writes what is due where NBC may write, and every step has one of three effects on a port. -/
theorem oneDownstreamRequestPerFall : Obligations.OneDownstreamRequestPerFall := by
  constructor
  · intro s t hf hs hphase h b hb
    refine ⟨?_, fun k rest hq => by rw [due_of_miss _ _ hq]; rfl⟩
    rw [execClockFall_dsPort h hf hs hphase hb]
    split
    case h_1 i hvalid hwrote hdue =>
      rw [State.dueNow_eq_some.mpr ⟨State.dsMayWrite_eq_true.mpr ⟨hvalid, hwrote⟩, hdue⟩]
      rfl
    case h_2 hno =>
      have hnone : s.dueNow b = none := Option.eq_none_iff_forall_ne_some.mpr fun i hi => by
        obtain ⟨hmay, hdue⟩ := State.dueNow_eq_some.mp hi
        obtain ⟨hvalid, hwrote⟩ := State.dsMayWrite_eq_true.mp hmay
        exact hno i hvalid hwrote hdue
      rw [hnone]
      rfl
  · intro s t b h
    obtain ⟨es, heffect⟩ := step_portEffect (b := b) h
    exact ⟨fun _ => heffect.newRequest, fun _ => heffect.staysWritten, heffect.clearedAfterFall,
      heffect.unwrittenInRise⟩

end Sys2Proof.Machine
end

section
/-! PROOFS. The sub-request return: the arbitrator grants an LFB that has a sub-request to return whenever there is one
(46_bank_issue.md R161 to R163). -/

namespace Sys2Proof.Machine

/-- With no LFB registered above the pool, the registered LFBs are those with a sub-request to return (R161). -/
theorem registerReturns_testBit_of_fits {cfg : Config} {bk : Bank} (h : bk.lfbArb.Fits cfg.numLfbs) (k : Nat) :
    (registerReturns cfg bk).mask.testBit k = (decide (k < cfg.numLfbs) && (bk.lfb k).returns) := by
  by_cases hk : k < cfg.numLfbs
  · simp [registerReturns_testBit, hk]
  · have hclear : (registerReturns cfg bk).mask.testBit k = false :=
      Bool.eq_false_iff.mpr fun hbit => hk (lt_of_testBit h.registerReturns.1 hbit)
    simp [hclear, hk]

/-- With a full stage, or with no grant, the sub-request return only moves the arbitrator. -/
theorem returnStep_of_no_return {cfg : Config} {bk : Bank}
    (h : bk.rstage ≠ none ∨ ((registerReturns cfg bk).advance cfg.numLfbs).current = none) :
    returnStep cfg bk = { bk with lfbArb := (registerReturns cfg bk).advance cfg.numLfbs } := by
  rcases returnStep_spec cfg bk with hstep | ⟨k, -, -, hstage, hgrant, -, -⟩
  · exact hstep
  · rw [hstage, hgrant] at h
    simp at h

/-- With an empty stage the oldest sub-request of the granted LFB is staged and popped (R161). -/
theorem returnStep_of_grant {cfg : Config} {bk : Bank} {k : Nat} {sr : SubReq} {rest : List SubReq}
    (hstage : bk.rstage = none) (hgrant : ((registerReturns cfg bk).advance cfg.numLfbs).current = some k)
    (hq : (bk.lfb k).subq = sr :: rest) :
    returnStep cfg bk =
      { bk.setLfb k (bk.lfb k).popSubReq with
        lfbArb := (registerReturns cfg bk).advance cfg.numLfbs
        rstage := some (returnOf cfg (bk.lfb k) sr) } := by
  unfold returnStep
  simp only
  split
  case h_1 j _ hj =>
    obtain rfl : j = k := Option.some.inj (hj.symm.trans hgrant)
    split
    case h_1 sr' rest' hsr =>
      obtain ⟨rfl, -⟩ : sr' = sr ∧ rest' = rest := List.cons.inj (hsr.symm.trans hq)
      rfl
    case h_2 hnil => exact absurd (hnil.symm.trans hq) (List.cons_ne_nil sr rest).symm
  case h_2 hno => exact absurd hgrant (hno k hstage)

/-- The arbitrator grants no LFB when none has a sub-request to return. -/
theorem registerReturns_current_eq_none {cfg : Config} {bk : Bank} (h : bk.lfbArb.Fits cfg.numLfbs)
    (hnone : ∀ k < cfg.numLfbs, (bk.lfb k).returns = false) :
    ((registerReturns cfg bk).advance cfg.numLfbs).current = none := by
  refine Option.eq_none_iff_forall_ne_some.mpr fun k hk => ?_
  obtain ⟨-, hbit⟩ := Arb.current_eq_some.mp hk
  rw [Arb.advance_mask, registerReturns_testBit_of_fits h, Bool.and_eq_true, decide_eq_true_eq] at hbit
  rw [hnone k hbit.1] at hbit
  simp at hbit

/-- The LFB after a pop, of a FILLED one. -/
theorem Lfb.popSubReq_of_cons {l : Lfb} {sr : SubReq} {rest : List SubReq} (hq : l.subq = sr :: rest)
    (hs : l.state = .filled) :
    l.popSubReq = { l with subq := rest, state := if rest = [] then .retired else .filled } := by
  simp [Lfb.popSubReq, hq, hs]

/-- Settles O44: an LFB that registers is granted, for the arbitrator grants whenever something is registered. -/
theorem returnStepStagesTheOldestSubRequest : Obligations.ReturnStepStagesTheOldestSubRequest := by
  intro cfg bk h _
  have harb : Arb.advance cfg.numLfbs { mask := (registerReturns cfg bk).mask, ptr := bk.lfbArb.ptr } =
      (registerReturns cfg bk).advance cfg.numLfbs := by
    rw [← registerReturns_ptr cfg bk]
  refine ⟨(registerReturns cfg bk).mask, registerReturns_testBit_of_fits h, ?_⟩
  rw [harb]
  refine ⟨fun hno => returnStep_of_no_return (hno.imp_right (registerReturns_current_eq_none h)), ?_⟩
  rintro hstage ⟨j, hj, hreturns⟩
  have hbit : (registerReturns cfg bk).mask.testBit j = true := by
    rw [registerReturns_testBit_of_fits h, hreturns, decide_eq_true hj, Bool.and_self]
  obtain ⟨k, hgrant⟩ := Option.ne_none_iff_exists'.mp (Arb.advance_current_ne_none hj hbit)
  obtain ⟨hk, htype, hfilled, hne⟩ := returnStep_granted h hgrant
  obtain ⟨sr, rest, hq⟩ := List.exists_cons_of_ne_nil hne
  refine ⟨k, sr, rest, returnOf cfg (bk.lfb k) sr, hgrant, hk, htype, hfilled, hq, ?_, rfl, fun j hj => ?_⟩
  · rw [returnStep_of_grant hstage hgrant hq, Lfb.popSubReq_of_cons hq hfilled]
    rfl
  · rw [returnOf, slice_getD, if_pos hj]

end Sys2Proof.Machine
end

section
/-! PROOFS. Steps that find no record: the clock operations in turn, and the downstream unit's own acts
(60_exceptions.md R184; 47_cycle.md R149; log 1, log 7). -/

namespace Sys2Proof.Machine

/-- A step with no event waiting is the clock operation of the phase (R184). -/
theorem step_of_no_event {s : State} (h : s.events = []) :
    (s.phase = .rise → step s = exec .clockRise s) ∧ (s.phase = .fall → step s = exec .clockFall s) := by
  simp only [step, h, clockTick]
  exact ⟨fun hp => by rw [hp]; rfl, fun hp => by rw [hp]; rfl⟩

/-- A step whose next event is the downstream unit's take runs it on the state without that event. -/
theorem step_dsTake {s : State} {b : Nat} {rest : List Event} (h : s.events = .dsTake b :: rest) :
    step s = .next (State.dsTake { s with events := rest } b) := by
  simp only [step, h, runEvent]

/-- A step whose next event is the downstream unit's holding off runs it on the state without that event. -/
theorem step_dsBlock {s : State} {b : Nat} {blocked : Bool} {rest : List Event}
    (h : s.events = .dsBlock b blocked :: rest) :
    step s = .next (State.dsBlock { s with events := rest } b blocked) := by
  simp only [step, h, runEvent]

/-- Settles O5: the step is read off its next event, and an act of the downstream unit writes one port's slots. -/
theorem otherStepsTickTheClockOrActDownstream : Obligations.OtherStepsTickTheClockOrActDownstream := by
  intro s b rest
  exact ⟨step_of_no_event, fun h => step_dsTake h, fun _ h => step_dsBlock h⟩

end Sys2Proof.Machine
end

section
/-! PROOFS. What a whole `clock_rise` leaves alone: the return side of every bank, and every downstream port but for the
return read off it (47_cycle.md R146; 45_bank_fill.md R151). -/

namespace Sys2Proof.Machine

/-! ### The return side of a bank -/

/-- From `s` to `t` every bank keeps its LFB arbitrator and its return stage. -/
def State.SameReturnSide (s t : State) : Prop :=
  ∀ b, (t.bank b).lfbArb = (s.bank b).lfbArb ∧ (t.bank b).rstage = (s.bank b).rstage

theorem State.SameReturnSide.of_banks {s t : State} (h : t.banks = s.banks) : s.SameReturnSide t := fun b => by
  rw [State.bank, State.bank, h]
  exact ⟨rfl, rfl⟩

theorem State.SameReturnSide.trans {s t u : State} (h : s.SameReturnSide t) (g : t.SameReturnSide u) :
    s.SameReturnSide u := fun b => by
  obtain ⟨harb, hstage⟩ := h b
  rw [← harb, ← hstage]
  exact g b

theorem State.SameReturnSide.setBank {s : State} {b : Nat} {bk : Bank} (harb : bk.lfbArb = (s.bank b).lfbArb)
    (hstage : bk.rstage = (s.bank b).rstage) : s.SameReturnSide (s.setBank b bk) := fun c => by
  rw [State.bank_setBank]
  split
  · rename_i hbc
    rw [← hbc.1]
    exact ⟨harb, hstage⟩
  · exact ⟨rfl, rfl⟩

theorem acceptRequest_returnSide {cfg : Config} {b : Nat} {bk bk' : Bank} {req : Request} {c : Option Counter}
    (h : acceptRequest cfg b bk req = .accepted bk' c) : bk'.lfbArb = bk.lfbArb ∧ bk'.rstage = bk.rstage := by
  rcases acceptRequest_served h with ⟨-, -, rfl, -⟩ | ⟨v, hserved⟩
  · exact ⟨rfl, rfl⟩
  · exact ⟨hserved.lfbArb, hserved.rstage⟩

theorem fillBank_lfbArb {cfg : Config} {b : Nat} {bk bk' : Bank} {r : Return} (h : fillBank cfg b bk r = .ok bk') :
    bk'.lfbArb = bk.lfbArb := by
  obtain ⟨-, k, -, -, rfl⟩ := fillBank_ok h
  rfl

theorem handOffOrAccept_sameReturnSide {b : Nat} {s t : State} (h : handOffOrAccept b s = .ok t) :
    s.SameReturnSide t := by
  rcases handOffOrAccept_ok h with ⟨x, hx, rfl⟩ | ⟨-, hacc⟩
  · obtain ⟨k, rest, -, -, rfl⟩ := handOff_eq_some hx
    exact .setBank rfl rfl
  · rcases acceptStep_ok hacc with rfl | rfl | ⟨g, req, x, c, -, -, ha, rfl⟩
    · exact .of_banks rfl
    · exact .of_banks rfl
    · obtain ⟨harb, hstage⟩ := acceptRequest_returnSide ha
      exact .setBank harb hstage

theorem fillStep_sameReturnSide {b : Nat} {s t : State} (h : fillStep b s = .ok t) : s.SameReturnSide t := by
  rcases fillStep_ok h with ⟨-, rfl⟩ | ⟨r, x, -, hx, rfl⟩
  · exact .of_banks rfl
  · exact .setBank (fillBank_lfbArb hx) (fillBank_rstage hx)

theorem riseBank_sameReturnSide {b : Nat} {s t : State} (h : riseBank b s = .ok t) : s.SameReturnSide t := by
  obtain ⟨u, hu, hfill⟩ := riseBank_ok h
  have hpipe : s.SameReturnSide (s.setBank b (pipelineAdvance (s.bank b))) := .setBank rfl rfl
  exact (hpipe.trans (handOffOrAccept_sameReturnSide hu)).trans (fillStep_sameReturnSide hfill)

theorem riseBanks_sameReturnSide {bs : List Nat} {s t : State} (h : riseBanks bs s = .ok t) :
    s.SameReturnSide t := by
  induction bs generalizing s with
  | nil => cases h; exact .of_banks rfl
  | cons b bs ih =>
    rw [riseBanks] at h
    split at h
    · rename_i u hu; exact (riseBank_sameReturnSide hu).trans (ih h)
    · cases h

/-! ### The downstream port of a bank -/

/-- A downstream port after its oldest return is read, if one waits. -/
def DsPort.afterRead (d : DsPort) : DsPort :=
  { d with rets := d.rets.tail }

theorem DsPort.afterRead_of_no_return {d : DsPort} (h : d.rets = []) : d.afterRead = d := by
  rw [DsPort.afterRead, h, List.tail_nil, ← h]

theorem State.dsHead_eq_none {s : State} {b : Nat} : s.dsHead b = none ↔ (s.dsPort b).rets = [] :=
  List.head?_eq_none_iff

theorem State.dsPort_dsPop (s : State) (b : Nat) : (s.dsPop b).dsPort b = (s.dsPort b).afterRead := by
  show (s.setDsPort b _).dsPort b = _
  rw [State.dsPort_setDsPort]
  split
  · rfl
  · rename_i hb
    rw [State.dsPort_absent (not_lt.mp fun h => hb ⟨rfl, h⟩)]
    rfl

/-- A bank's rise reads the oldest return of its port, if one waits (R151). -/
theorem riseBank_dsPort {b : Nat} {s t : State} (h : riseBank b s = .ok t) :
    t.dsPort b = (s.dsPort b).afterRead := by
  obtain ⟨u, hu, hfill⟩ := riseBank_ok h
  rw [← State.dsPort_congr (handOffOrAccept_ds hu) b]
  rcases fillStep_ok hfill with ⟨hnone, rfl⟩ | ⟨r, x, -, -, rfl⟩
  · exact (DsPort.afterRead_of_no_return (State.dsHead_eq_none.mp hnone)).symm
  · exact u.dsPort_dsPop b

/-- In the rises of several banks each reads its own port once. -/
theorem riseBanks_dsPort {bs : List Nat} (hn : bs.Nodup) {s t : State} (h : riseBanks bs s = .ok t) {b : Nat}
    (hb : b ∈ bs) : t.dsPort b = (s.dsPort b).afterRead := by
  induction bs generalizing s with
  | nil => cases hb
  | cons c bs ih =>
    obtain ⟨hc, hn⟩ := List.nodup_cons.mp hn
    rw [riseBanks] at h
    split at h
    · rename_i u hu
      by_cases hbc : b = c
      · subst hbc
        obtain ⟨-, hport, -⟩ := riseBanks_other h hc
        exact hport.trans (riseBank_dsPort hu)
      · obtain ⟨-, hport, -⟩ := riseBank_other hu (Ne.symm hbc)
        rw [ih hn h ((List.mem_cons.mp hb).resolve_left hbc), hport]
    · cases h

/-! ### The rise as a whole -/

/-- A rise of banks writes these elements only. -/
theorem RiseFrame.eq_update {s t : State} (h : RiseFrame s t) :
    t = { s with
      reqIn := t.reqIn, xreqArb := t.xreqArb, banks := t.banks, stats := t.stats, ds := t.ds } := by
  rw [← h.cfg, ← h.retOut, ← h.xretArb, ← h.fault, ← h.cycle, ← h.phase, ← h.events, ← h.resp]

theorem registerRequests_frame (s : State) : RiseFrame s (registerRequests s) := by
  obtain ⟨arbs, hlen, h⟩ := registerRequests_eq s
  rw [h]
  exact { RiseFrame.refl s with xreqArb := hlen }

/-- Settles O46: every return that is read answers a fetch, so no bank's rise faults, and each rise keeps its bank's
return side and reads its own port. -/
theorem clockRiseCompletes : Obligations.ClockRiseCompletes := by
  intro s hhealthy hphase hfills
  obtain ⟨t, ht, hexec⟩ := execClockRise_completes hhealthy hphase hfills
  refine ⟨_, hexec, ?_, fun b => ?_⟩
  · have hframe := ((registerRequests_frame s).trans (riseBanks_frame ht)).eq_update
    exact congrArg (fun u : State => { u with phase := .fall, resp := .nothing }) hframe
  · obtain ⟨harb, hstage⟩ := riseBanks_sameReturnSide ht b
    rw [registerRequests_bank] at harb hstage
    refine ⟨harb, hstage, ?_⟩
    have hport : (registerRequests s).dsPort b = s.dsPort b := State.dsPort_congr (registerRequests_ds s) b
    show t.dsPort b = _
    split
    · rename_i hb
      rw [riseBanks_dsPort List.nodup_range ht (List.mem_range.mpr hb), hport]
      rfl
    · rename_i hb
      obtain ⟨-, hkept, -⟩ := riseBanks_other ht fun hmem => hb (List.mem_range.mp hmem)
      exact hkept.trans hport

end Sys2Proof.Machine
end

section
/-! PROOFS. What a whole `clock_fall` does: the downstream write, the counter and the sub-request return of every bank,
and what it leaves alone (47_cycle.md R147; 46_bank_issue.md R156, R157, R161; 60_exceptions.md R186). -/

namespace Sys2Proof.Machine

/-! ### The fall of one bank -/

/-- What a bank writes now, with the port's two conditions spelled out (R157). -/
theorem State.dueNow_eq_ite (s : State) (b : Nat) :
    s.dueNow b =
      if s.dsWriteValid b = true ∧ (s.dsPort b).wrote = false then due s.cfg b (s.bank b) else none :=
  if_congr State.dsMayWrite_eq_true rfl rfl

/-- Bank `b` after its fall: the issue of what it may write now, then its sub-request return (R156). -/
def State.fallenBank (s : State) (b : Nat) : Bank :=
  returnStep s.cfg (((s.dueNow b).map Issue.bank).getD (s.bank b))

theorem fallBank_bank {s : State} {b : Nat} (hb : b < s.banks.length) :
    (fallBank b s).bank b = s.fallenBank b := by
  have hissue : (issueStep b s).bank b = ((s.dueNow b).map Issue.bank).getD (s.bank b) := by
    rw [issueStep_eq]
    cases s.dueNow b with
    | none => rfl
    | some i => exact State.bank_setBank_self (s := s.dsWrite b i.request) hb i.bank
  have hcfg : (issueStep b s).cfg = s.cfg := (issueStep_moves b s).cfg
  have hlen : b < (issueStep b s).banks.length := by rwa [(issueStep_moves b s).count]
  rw [fallBank, State.bank_setBank_self hlen, hissue, hcfg]
  rfl

theorem fallBank_stats (b : Nat) (s : State) :
    (fallBank b s).stats = ((s.dueNow b).map Issue.counter).elim s.stats s.stats.bump := by
  show (issueStep b s).stats = _
  rw [issueStep_eq]
  cases s.dueNow b <;> rfl

/-! ### The falls of several banks -/

/-- In the fall of all banks each bank falls on its own elements as the fall finds them. -/
theorem fallBanks_fallenBank {s : State} {b : Nat} (hb : b < s.cfg.numBanks) (hlen : b < s.banks.length) :
    (fallBanks (List.range s.cfg.numBanks) s).bank b = s.fallenBank b := by
  obtain ⟨u, hbank, hport, hframe, hfall, -⟩ := fallBanks_bank _ s List.nodup_range (List.mem_range.mpr hb)
  rw [hfall, fallBank_bank (hframe.banks ▸ hlen), State.fallenBank, State.dueNow_congr hframe.cfg hbank hport,
    hframe.cfg, hbank]
  rfl

/-- A bank of the state falls, or there is none of that number. -/
theorem fallBanks_bank_cases (s : State) (b : Nat) :
    (fallBanks (List.range s.cfg.numBanks) s).bank b = s.fallenBank b ∨
      (fallBanks (List.range s.cfg.numBanks) s).bank b = s.bank b := by
  by_cases hb : b < s.cfg.numBanks
  · by_cases hlen : b < s.banks.length
    · exact .inl (fallBanks_fallenBank hb hlen)
    · have hlen := Nat.le_of_not_lt hlen
      rw [State.bank_absent hlen, State.bank_absent ((fallBanks_frame _ s).banks ▸ hlen)]
      exact .inr rfl
  · exact .inr (fallBanks_other _ s fun hmem => hb (List.mem_range.mp hmem)).1

/-- Each bank counts its own downstream write (R186). -/
theorem fallBanks_stats {bs : List Nat} (hn : bs.Nodup) (s : State) :
    (fallBanks bs s).stats =
      bs.foldl (fun st b => ((s.dueNow b).map Issue.counter).elim st st.bump) s.stats := by
  induction bs generalizing s with
  | nil => rfl
  | cons b bs ih =>
    obtain ⟨hb, hn⟩ := List.nodup_cons.mp hn
    rw [List.foldl_cons, ← fallBank_stats]
    refine (ih hn (fallBank b s)).trans (List.foldl_ext _ _ _ fun st c hc => ?_)
    obtain ⟨hbank, hport⟩ := fallBank_other b s (b := c) fun hbc => hb (hbc ▸ hc)
    rw [State.dueNow_congr (fallBank_frame b s).cfg hbank hport]

/-- Whatever its bank writes, a downstream port keeps its returns and whether it is held off. -/
theorem fallBanks_dsPort_keeps (s : State) (b : Nat) :
    ((fallBanks (List.range s.cfg.numBanks) s).dsPort b).rets = (s.dsPort b).rets ∧
      ((fallBanks (List.range s.cfg.numBanks) s).dsPort b).blocked = (s.dsPort b).blocked := by
  by_cases hused : b < s.cfg.numBanks ∧ b < s.ds.length
  · rw [fallBanks_dsPort hused.1 hused.2]
    cases s.dueNow b <;> exact ⟨rfl, rfl⟩
  · rw [fallBanks_dsPort_unused hused]
    exact ⟨rfl, rfl⟩

/-! ### The arrays and the write-back queue -/

/-- The tags, the lines and the write-back queue of `bk'` are those of `bk`. -/
structure Bank.SameArrays (bk bk' : Bank) : Prop where
  tags : bk'.tags = bk.tags
  data : bk'.data = bk.data
  wbq : bk'.wbq = bk.wbq

theorem Bank.SameArrays.trans {bk bk' bk'' : Bank} (h : bk.SameArrays bk') (g : bk'.SameArrays bk'') :
    bk.SameArrays bk'' :=
  ⟨g.tags.trans h.tags, g.data.trans h.data, g.wbq.trans h.wbq⟩

theorem drainTo_sameArrays (cfg : Config) (b : Nat) (bk : Bank) (k m : Nat) :
    bk.SameArrays (drainTo cfg b bk k m) := by
  rcases drainTo_spec cfg b bk k m with ⟨-, h⟩ | ⟨-, h⟩ <;> rw [h] <;> exact ⟨rfl, rfl, rfl⟩

theorem due_sameArrays {cfg : Config} {b : Nat} {bk : Bank} {i : Issue} (h : due cfg b bk = some i) :
    bk.SameArrays i.bank := by
  rcases due_eq_some.mp h with hfetch | ⟨-, hdrain⟩
  · obtain ⟨k, rest, -, rfl⟩ := dueFetch_eq_some.mp hfetch
    exact ⟨rfl, rfl, rfl⟩
  · obtain ⟨k, st, -, -, rfl⟩ := dueDrain_eq_some.mp hdrain
    exact drainTo_sameArrays cfg b bk k _

theorem returnStep_sameArrays (cfg : Config) (bk : Bank) : bk.SameArrays (returnStep cfg bk) := by
  rcases returnStep_spec cfg bk with h | ⟨k, sr, rest, -, -, -, h⟩ <;> rw [h] <;> exact ⟨rfl, rfl, rfl⟩

theorem State.fallenBank_sameArrays (s : State) (b : Nat) : (s.bank b).SameArrays (s.fallenBank b) := by
  refine Bank.SameArrays.trans ?_ (returnStep_sameArrays _ _)
  cases hnow : s.dueNow b with
  | none => exact ⟨rfl, rfl, rfl⟩
  | some i => exact due_sameArrays (State.dueNow_eq_some.mp hnow).2

/-- A bank after the fall of all banks and the routing. -/
theorem routeReturns_fallBanks_sameArrays (s : State) (b : Nat) :
    (s.bank b).SameArrays ((routeReturns (fallBanks (List.range s.cfg.numBanks) s)).bank b) := by
  have hfall : (s.bank b).SameArrays ((fallBanks (List.range s.cfg.numBanks) s).bank b) := by
    rcases fallBanks_bank_cases s b with h | h <;> rw [h]
    · exact s.fallenBank_sameArrays b
    · exact ⟨rfl, rfl, rfl⟩
  refine hfall.trans ?_
  rcases (routeReturns_bank (fallBanks (List.range s.cfg.numBanks) s) b).1 with h | h <;> rw [h] <;>
    exact ⟨rfl, rfl, rfl⟩

/-! ### The fall as a whole -/

/-- A fall writes these elements only. -/
theorem FallFrame.eq_update {s t : State} (h : FallFrame s t) :
    t = { s with
      retOut := t.retOut, xretArb := t.xretArb, banks := t.banks, stats := t.stats, ds := t.ds } := by
  rw [← h.cfg, ← h.reqIn, ← h.xreqArb, ← h.fault, ← h.cycle, ← h.phase, ← h.events, ← h.resp]

theorem routeReturns_stats (s : State) : (routeReturns s).stats = s.stats :=
  List.foldlRecOn (motive := fun u => u.stats = s.stats) _ routePort rfl fun u hu p _ => by
    rcases routePort_spec u p with h | ⟨g, -, -, h⟩ <;> rw [h] <;> exact hu

/-- The state in which a `clock_fall` on `s` ends (R147). -/
def State.fallen (s : State) : State :=
  { (routeReturns (fallBanks (List.range s.cfg.numBanks) s)).dsEndFall with
    phase := .rise, cycle := s.cycle + 1, resp := .nothing }

/-- `clock_fall` completes (R147): no part of it can fault. -/
theorem execClockFall_completes {s : State} (h : s.Healthy) (hphase : s.phase = .fall) :
    exec .clockFall s = .next s.fallen := by
  have hcycle := ((fallBanks_frame (List.range s.cfg.numBanks) s).trans (routeReturns_frame _)).cycle
  show execClockFall s = _
  simp only [execClockFall, h.whenRunning, if_pos hphase, State.finish, State.dsEndFall_cycle, hcycle]
  rfl

theorem State.fallen_eq_update (s : State) :
    s.fallen = { s with
      retOut := s.fallen.retOut, xretArb := s.fallen.xretArb, banks := s.fallen.banks, stats := s.fallen.stats
      ds := s.fallen.ds, phase := .rise, cycle := s.cycle + 1, resp := .nothing } := by
  have hframe := ((fallBanks_frame (List.range s.cfg.numBanks) s).trans (routeReturns_frame _)).eq_update
  exact congrArg (fun u : State => { u.dsEndFall with phase := .rise, cycle := s.cycle + 1, resp := .nothing }) hframe

theorem State.fallen_stats (s : State) :
    s.fallen.stats = (List.range s.cfg.numBanks).foldl
      (fun st b => ((s.dueNow b).map Issue.counter).elim st st.bump) s.stats :=
  (routeReturns_stats _).trans (fallBanks_stats List.nodup_range s)

theorem State.fallen_dsPort (s : State) (b : Nat) :
    s.fallen.dsPort b = ((fallBanks (List.range s.cfg.numBanks) s).dsPort b).endFall :=
  routeReturns_dsEndFall_dsPort _ b

/-- Settles O47: a fall has no fault to raise; each bank falls on its own elements, and the routing after it empties
return stages only. -/
theorem clockFallCompletes : Obligations.ClockFallCompletes := by
  intro s hhealthy hphase written returned
  have hwritten : written = s.dueNow := funext fun b => (s.dueNow_eq_ite b).symm
  have hreturned : returned = s.fallenBank := by
    simp only [returned, hwritten]
    rfl
  rw [hreturned, hwritten]
  refine ⟨s.fallen, execClockFall_completes hhealthy hphase, s.fallen_eq_update, s.fallen_stats, fun b => ?_,
    fun b hb hlen => ⟨fallBanks_fallenBank hb hlen, ?_⟩⟩
  · obtain ⟨htags, hdata, hwbq⟩ := routeReturns_fallBanks_sameArrays s b
    obtain ⟨hrets, hblocked⟩ := fallBanks_dsPort_keeps s b
    rw [s.fallen_dsPort]
    exact ⟨htags, hdata, hwbq, hrets, hblocked, rfl⟩
  · rw [← fallBanks_fallenBank hb hlen]
    exact (routeReturns_bank _ b).1

end Sys2Proof.Machine
end

section
/-! PROOFS. A cycle without outstanding work: no bank has anything to advance, hand off, issue or return, and no port
anything to deliver (47_cycle.md R150; 60_exceptions.md R179). -/

namespace Sys2Proof.Machine

/-! ### What it is to have no outstanding work -/

/-- A bank without outstanding work (R150). -/
structure Bank.Idle (bk : Bank) : Prop where
  rstage : bk.rstage = none
  lfbs : ∀ l ∈ bk.lfbs, l.working = false
  mq : bk.mq = []
  wbq : bk.wbq = []
  wbActive : bk.wbActive = none

theorem Bank.idle_iff (bk : Bank) : bk.busy = false ↔ bk.Idle := by
  simp only [Bank.busy, Bool.or_eq_false_iff, Option.isSome_eq_false_iff, Option.isNone_iff_eq_none,
    List.any_eq_false, Bool.not_eq_true, Bool.not_eq_false', List.isEmpty_iff]
  constructor
  · rintro ⟨⟨⟨⟨hstage, hlfbs⟩, hmq⟩, hwbq⟩, hactive⟩
    exact ⟨hstage, hlfbs, hmq, hwbq, hactive⟩
  · rintro ⟨hstage, hlfbs, hmq, hwbq, hactive⟩
    exact ⟨⟨⟨⟨hstage, hlfbs⟩, hmq⟩, hwbq⟩, hactive⟩

/-- An NBC without outstanding work (R150). -/
structure State.Idle (s : State) : Prop where
  reqSlot : ∀ p, s.reqSlot p = none
  retSlot : ∀ p, s.retSlot p = none
  bank : ∀ b, (s.bank b).Idle

/-- With every slot of a list empty, each reads as empty. -/
theorem getD_eq_none {α : Type} {l : List (Option α)} (h : ∀ x ∈ l, x = none) (i : Nat) : l.getD i none = none := by
  by_cases hi : i < l.length
  · exact h _ (getD_mem none hi)
  · exact List.getD_eq_default _ _ (Nat.le_of_not_lt hi)

theorem State.idle_of_not_busy {s : State} (h : s.busy = false) : s.Idle := by
  simp only [State.busy, Bool.or_eq_false_iff, List.any_eq_false, Bool.not_eq_true, Option.isSome_eq_false_iff,
    Option.isNone_iff_eq_none, Bank.idle_iff] at h
  obtain ⟨⟨hreq, hret⟩, hbanks⟩ := h
  refine ⟨getD_eq_none hreq, getD_eq_none hret, fun b => ?_⟩
  by_cases hb : b < s.banks.length
  · exact hbanks _ (s.bank_mem hb)
  · rw [State.bank_absent (Nat.le_of_not_lt hb)]
    exact (Bank.idle_iff _).mp rfl

/-! ### A rise without work -/

/-- An LFB without work has no lookup under way. -/
theorem Lfb.advancePipe_of_not_working {l : Lfb} (h : l.working = false) : l.advancePipe = l :=
  if_neg fun hs => by simp [Lfb.working, hs] at h

theorem Bank.Idle.pipelineAdvance {bk : Bank} (h : bk.Idle) : Machine.pipelineAdvance bk = bk := by
  have hlfbs : bk.lfbs.map Lfb.advancePipe = bk.lfbs :=
    (List.map_congr_left fun l hl => Lfb.advancePipe_of_not_working (h.lfbs l hl)).trans (List.map_id _)
  rw [Machine.pipelineAdvance, hlfbs]

theorem Bank.Idle.handOff {bk : Bank} (h : bk.Idle) : Machine.handOff bk = none := by
  rw [Machine.handOff, h.wbq]

/-- With every request slot empty a grant names no request. -/
theorem acceptStep_of_no_request (b : Nat) {s : State} (h : ∀ p, s.reqSlot p = none) : acceptStep b s = .ok s := by
  unfold acceptStep
  split
  · rfl
  · simp only [h]

theorem State.Idle.riseBank {s : State} (h : s.Idle) {b : Nat} (hn : s.dsHead b = none) :
    Machine.riseBank b s = .ok s := by
  rw [Machine.riseBank, (h.bank b).pipelineAdvance, s.setBank_self, handOffOrAccept, (h.bank b).handOff]
  simp only [acceptStep_of_no_request b h.reqSlot, fillStep, hn]

theorem State.Idle.riseBanks {s : State} (h : s.Idle) {bs : List Nat} (hn : ∀ b ∈ bs, s.dsHead b = none) :
    Machine.riseBanks bs s = .ok s := by
  induction bs with
  | nil => rfl
  | cons b bs ih =>
    rw [Machine.riseBanks, h.riseBank (hn b List.mem_cons_self)]
    exact ih fun c hc => hn c (List.mem_cons_of_mem b hc)

/-- Registration leaves the slots and the banks, so a state without work has none after it. -/
theorem State.Idle.registerRequests {s : State} (h : s.Idle) : (Machine.registerRequests s).Idle := by
  obtain ⟨arbs, -, he⟩ := registerRequests_eq s
  rw [he]
  exact ⟨h.reqSlot, h.retSlot, h.bank⟩

/-- A rise without work and without returns leaves everything but the request arbitrators. -/
theorem State.Idle.clockRise {s : State} (h : s.Idle) (hhealthy : s.Healthy) (hphase : s.phase = .rise)
    (hn : ∀ b < s.cfg.numBanks, s.dsHead b = none) :
    exec .clockRise s = .next { Machine.registerRequests s with phase := .fall, resp := .nothing } := by
  have hrise := h.registerRequests.riseBanks (bs := List.range s.cfg.numBanks) fun b hb => by
    rw [registerRequests_dsHead]
    exact hn b (List.mem_range.mp hb)
  show execClockRise s = _
  simp only [execClockRise, hhealthy.whenRunning, if_pos hphase, hrise]
  rfl

/-! ### A fall without work -/

/-- A bank without work has nothing to write downstream. -/
theorem State.Idle.dueNow {s : State} (h : s.Idle) (b : Nat) : s.dueNow b = none := by
  have hdue : due s.cfg b (s.bank b) = none := by
    simp only [due, dueFetch, (h.bank b).mq, dueDrain, (h.bank b).wbActive]
  rw [State.dueNow, hdue, ite_self]

theorem Bank.Idle.working {bk : Bank} (h : bk.Idle) (k : Nat) : (bk.lfb k).working = false := by
  by_cases hk : k < bk.lfbs.length
  · exact h.lfbs _ (bk.lfb_mem hk)
  · rw [bk.lfb_absent (Nat.le_of_not_lt hk)]
    rfl

/-- An LFB without work is not FILLED, so it returns nothing. -/
theorem Lfb.returns_of_not_working {l : Lfb} (h : l.working = false) : l.returns = false := by
  have hs : l.state ≠ .filled := fun hs => by simp [Lfb.working, hs] at h
  simp [Lfb.returns, hs]

/-- A bank without work falls to what it was, but for its LFB arbitrator. -/
theorem State.Idle.fallenBank {s : State} (h : s.Idle) {b : Nat} (harb : (s.bank b).lfbArb.Fits s.cfg.numLfbs) :
    ∃ a, s.fallenBank b = { s.bank b with lfbArb := a } := by
  have hnone := registerReturns_current_eq_none harb fun k _ => Lfb.returns_of_not_working ((h.bank b).working k)
  refine ⟨_, Eq.trans ?_ (returnStep_of_no_return (.inr hnone))⟩
  rw [State.fallenBank, h.dueNow]
  rfl

/-- In a fall without work every bank is as before, but for its LFB arbitrator. -/
theorem State.Idle.fallBanks_bank {s : State} (h : s.Idle) (hs : s.WellSized) (b : Nat) :
    ∃ a, (fallBanks (List.range s.cfg.numBanks) s).bank b = { s.bank b with lfbArb := a } := by
  by_cases hb : b < s.cfg.numBanks
  · have hlen : b < s.banks.length := hs.bankCount ▸ hb
    rw [fallBanks_fallenBank hb hlen]
    exact h.fallenBank (hs.bank hlen).lfbArb
  · exact ⟨_, (fallBanks_other _ s fun hmem => hb (List.mem_range.mp hmem)).1⟩

theorem State.Idle.fallBanks_dsPort {s : State} (h : s.Idle) (b : Nat) :
    (fallBanks (List.range s.cfg.numBanks) s).dsPort b = s.dsPort b := by
  by_cases hused : b < s.cfg.numBanks ∧ b < s.ds.length
  · rw [Machine.fallBanks_dsPort hused.1 hused.2, h.dueNow]
    rfl
  · exact fallBanks_dsPort_unused hused

theorem State.Idle.fallBanks {s : State} (h : s.Idle) (hs : s.WellSized) :
    (Machine.fallBanks (List.range s.cfg.numBanks) s).Idle := by
  have hframe := fallBanks_frame (List.range s.cfg.numBanks) s
  refine ⟨fun p => (State.reqSlot_congr hframe.reqIn p).trans (h.reqSlot p),
    fun p => (State.retSlot_congr (fallBanks_retOut _ s) p).trans (h.retSlot p), fun b => ?_⟩
  obtain ⟨a, ha⟩ := h.fallBanks_bank hs b
  rw [ha]
  exact { h.bank b with }

/-- An empty slot emptied is as before. -/
theorem set_none_of_getD {α : Type} {l : List (Option α)} {i : Nat} (h : l.getD i none = none) :
    l.set i none = l := by
  by_cases hi : i < l.length
  · rw [List.getD_eq_getElem _ _ hi] at h
    rw [← h, List.set_getElem_self]
  · exact List.set_eq_of_length_le (Nat.le_of_not_lt hi)

/-- With nothing staged and no return in its slot, the routing of a port writes its arbitrator only. Should the
arbitrator grant a bank all the same, an empty stage is delivered into the empty slot. -/
theorem State.Idle.routePort {s : State} (h : s.Idle) (p : Nat) :
    ∃ arbs, Machine.routePort s p = { s with xretArb := arbs } := by
  rcases routePort_spec s p with he | ⟨g, -, -, he⟩ <;> rw [he]
  · exact ⟨_, rfl⟩
  · have hstage : { s.bank g with rstage := none } = s.bank g := by rw [← (h.bank g).rstage]
    rw [hstage, s.setBank_self, (h.bank g).rstage, set_none_of_getD (h.retSlot p)]
    exact ⟨_, rfl⟩

theorem State.Idle.routeReturns {s : State} (h : s.Idle) :
    ∃ arbs, Machine.routeReturns s = { s with xretArb := arbs } :=
  List.foldlRecOn (motive := fun u : State => ∃ arbs, u = { s with xretArb := arbs }) _ Machine.routePort
    ⟨s.xretArb, rfl⟩ fun _ hu p _ => by
      obtain ⟨arbs, rfl⟩ := hu
      have hidle : State.Idle { s with xretArb := arbs } := ⟨h.reqSlot, h.retSlot, h.bank⟩
      exact hidle.routePort p

/-! ### The fall as a whole -/

/-- A fall without work moves no counter. -/
theorem State.Idle.fallen_stats {s : State} (h : s.Idle) : s.fallen.stats = s.stats := by
  rw [State.fallen_stats]
  simp only [h.dueNow, Option.map_none, Option.elim_none]
  exact List.foldl_fixed _

/-- A fall without work delivers no return, and every bank is as before but for its LFB arbitrator. -/
theorem State.Idle.fallen {s : State} (h : s.Idle) (hs : s.WellSized) :
    s.fallen.retOut = s.retOut ∧ ∀ b, ∃ a, s.fallen.bank b = { s.bank b with lfbArb := a } := by
  obtain ⟨arbs, hroute⟩ := (h.fallBanks hs).routeReturns
  have hbanks : s.fallen.banks = (Machine.fallBanks (List.range s.cfg.numBanks) s).banks :=
    (congrArg State.banks hroute :)
  refine ⟨(congrArg State.retOut hroute :).trans (fallBanks_retOut _ s), fun b => ?_⟩
  obtain ⟨a, ha⟩ := h.fallBanks_bank hs b
  exact ⟨a, (congrArg (List.getD · b Bank.absent) hbanks).trans ha⟩

/-- Settles O52: without outstanding work every part of a rise and of a fall finds nothing to do, and what is left are
the arbitrators, which advance. -/
theorem anIdleCycleChangesNothing : Obligations.AnIdleCycleChangesNothing := by
  intro s hhealthy hs hbusy hn
  have hidle := State.idle_of_not_busy hbusy
  refine ⟨fun hphase => ?_, fun hphase => ?_⟩
  · obtain ⟨arbs, -, heq⟩ := registerRequests_eq s
    refine ⟨arbs, ?_⟩
    rw [hidle.clockRise hhealthy hphase hn, heq]
  · obtain ⟨hret, hbanks⟩ := hidle.fallen hs
    refine ⟨s.fallen, execClockFall_completes hhealthy hphase, ?_, ?_, fun b => ⟨?_, ?_⟩⟩
    · rw [← hret, ← hidle.fallen_stats]
      exact s.fallen_eq_update
    · exact ((fallBanks_frame (List.range s.cfg.numBanks) s).trans (routeReturns_frame _)).banks
    · obtain ⟨a, ha⟩ := hbanks b
      rw [ha]
    · rw [s.fallen_dsPort, hidle.fallBanks_dsPort]
      rfl

end Sys2Proof.Machine
end

section
/-! PROOFS. A fault gives back the state that the operation began with, and a stuck NBC runs no operation
(60_exceptions.md R170, R175). -/

namespace Sys2Proof.Machine

/-- When the outcome `r` of an operation that began in `s` has FAULT set, it is `s` but for FAULT, and no value is
returned (R170). -/
def State.FaultRestores (s : State) (r : Result) : Prop :=
  ∀ t c, r = .next t → t.fault = some c → t = { s with fault := some c, resp := .nothing }

/-! ### Completing, faulting, stopping -/

theorem State.raise_faultRestores (s : State) (c : FaultCode) : s.FaultRestores (s.raise c) := by
  intro t d h ht
  cases h
  cases ht
  rfl

/-- An operation that completes leaves FAULT as it was, none. -/
theorem State.Healthy.finish_faultRestores {s u : State} {r : Response} (h : s.Healthy)
    (hu : u.fault = s.fault := by rfl) : s.FaultRestores (u.finish r) := by
  intro t c ht hc
  cases ht
  exact absurd ((hu.trans h).symm.trans hc) (Option.some_ne_none c).symm

theorem State.stop_faultRestores (s : State) (f : Fault) : s.FaultRestores (.fault f) :=
  fun _ _ h => nomatch h

/-! ### The operations but the rise -/

section
variable {s : State} (h : s.Healthy)
include h

theorem State.Healthy.onPort_faultRestores {port : BitVec 16} {ph : Phase} {op : State → Result}
    (hop : s.FaultRestores (op s)) : s.FaultRestores (s.onPort port ph op) := by
  rw [h.onPort_eq]
  split
  · exact s.raise_faultRestores _
  · split
    · exact s.raise_faultRestores _
    · exact hop

theorem State.Healthy.onReturn_faultRestores {port : BitVec 16} {give : State → Return → Result}
    (hgive : ∀ r, s.FaultRestores (give s r)) : s.FaultRestores (s.onReturn port give) := by
  refine h.onPort_faultRestores ?_
  split
  · exact s.raise_faultRestores _
  · exact hgive _

/-- A request is stored, or the first check that fails gives the fault (40_port_contract.md R98). -/
theorem State.Healthy.writeRequest_faultRestores (port : BitVec 16) (req : Request) :
    s.FaultRestores (s.writeRequest port req) := by
  rw [h.writeRequest_eq]
  cases s.writeCheck port req with
  | none => exact h.finish_faultRestores (u := { s with reqIn := s.reqIn.set port.toNat (some req) })
  | some c => exact s.raise_faultRestores c

theorem State.Healthy.receive_faultRestores (q : BitVec 16) (r : Return) : s.FaultRestores (s.receive q r) := by
  rw [State.receive, h.whenRunning]
  split
  · exact h.finish_faultRestores
  · exact h.finish_faultRestores

theorem State.Healthy.writeDownstream_faultRestores (req : Request) : s.FaultRestores (s.writeDownstream req) := by
  intro t c ht hc
  have hnone : t.fault = none := by
    rcases writeDownstream_next ht with rfl | ⟨b, i, -, -, -, -, -, -, rfl⟩
    · exact h
    · exact h
  exact absurd (hnone.symm.trans hc) (Option.some_ne_none c).symm

/-- An arbitrator operation raises no fault: outside its range it stops (log 12). -/
theorem State.Healthy.onArb_faultRestores {a : ArbRef} {op : State → Result} (hop : s.FaultRestores (op s)) :
    s.FaultRestores (s.onArb a op) := by
  rw [h.onArb_eq]
  split
  · exact s.stop_faultRestores _
  · exact hop

theorem State.Healthy.setArb_faultRestores (a : ArbRef) (v : Arb) (r : Response) :
    s.FaultRestores ((s.setArb a v).finish r) := by
  obtain ⟨-, -, -, hfault, -⟩ := s.setArb_rest a v
  exact h.finish_faultRestores hfault

theorem State.Healthy.arbAdd_faultRestores (a : ArbRef) (j : BitVec 8) : s.FaultRestores (exec (.arbAdd a j) s) := by
  rw [exec_arbAdd]
  refine h.onArb_faultRestores ?_
  split
  · exact s.stop_faultRestores _
  · exact h.setArb_faultRestores _ _ _

theorem State.Healthy.arbRemove_faultRestores (a : ArbRef) (j : BitVec 8) :
    s.FaultRestores (exec (.arbRemove a j) s) := by
  rw [exec_arbRemove]
  refine h.onArb_faultRestores ?_
  split
  · exact s.stop_faultRestores _
  · exact h.setArb_faultRestores _ _ _

/-- A fall raises BAD_PHASE only (47_cycle.md R147). -/
theorem State.Healthy.clockFall_faultRestores : s.FaultRestores (exec .clockFall s) := by
  intro t c ht hc
  rcases execClockFall_next ht with ⟨hs, -⟩ | ⟨-, -, rfl⟩ | ⟨-, -, rfl⟩
  · exact absurd h (Option.isSome_iff_ne_none.mp hs)
  · cases hc; rfl
  · have hfall := ((fallBanks_frame (List.range s.cfg.numBanks) s).trans (routeReturns_frame _)).fault
    exact absurd ((hfall.trans h).symm.trans hc) (Option.some_ne_none c).symm

/-- Every instruction but `clock_rise`, which consumes downstream returns, gives back the whole state (R170). -/
theorem State.Healthy.exec_faultRestores {i : Instr} (hi : i ≠ .clockRise) : s.FaultRestores (exec i s) := by
  cases i with
  | dsLoad _ => exact h.writeDownstream_faultRestores _
  | dsStore _ => exact h.writeDownstream_faultRestores _
  | na _ _ => exact h.receive_faultRestores _ _
  | loadReturn _ _ => exact h.receive_faultRestores _ _
  | retReserved02 _ _ _ => exact h.receive_faultRestores _ _
  | retReserved04 _ _ _ => exact h.receive_faultRestores _ _
  | retReserved08 _ _ _ => exact h.receive_faultRestores _ _
  | retReserved10 _ _ _ => exact h.receive_faultRestores _ _
  | retReserved20 _ _ _ => exact h.receive_faultRestores _ _
  | retReserved40 _ _ _ => exact h.receive_faultRestores _ _
  | retReserved80 _ _ _ => exact h.receive_faultRestores _ _
  | requestPortWriteValid _ => rw [exec_requestPortWriteValid]; exact h.onPort_faultRestores h.finish_faultRestores
  | returnPortReadValid _ => rw [exec_returnPortReadValid]; exact h.onPort_faultRestores h.finish_faultRestores
  | peekReturn _ => rw [exec_peekReturn]; exact h.onReturn_faultRestores fun _ => h.finish_faultRestores
  | readReturn _ => rw [exec_readReturn]; exact h.onReturn_faultRestores fun _ => h.finish_faultRestores
  | arbAdd a j => exact h.arbAdd_faultRestores a j
  | arbRemove a j => exact h.arbRemove_faultRestores a j
  | arbAdvance _ => rw [exec_arbAdvance]; exact h.onArb_faultRestores (h.setArb_faultRestores _ _ _)
  | arbCurrent _ => rw [exec_arbCurrent]; exact h.onArb_faultRestores h.finish_faultRestores
  | clockRise => exact absurd rfl hi
  | clockFall => exact h.clockFall_faultRestores
  | _ => exact h.writeRequest_faultRestores _ _

/-! ### The rise -/

/-- A rise that faults gives back the state but for the downstream returns that it read (R170, R175). -/
theorem State.Healthy.clockRise_fault {t : State} {c : FaultCode} (ht : exec .clockRise s = .next t)
    (hc : t.fault = some c) :
    t = { s with fault := some c, resp := .nothing, ds := t.ds } ∧ DsReads s.ds t.ds := by
  rcases execClockRise_next ht with ⟨hs, -⟩ | ⟨-, -, rfl⟩ | ⟨-, -, d, ds, hrise, rfl⟩ | ⟨-, -, u, hrise, rfl⟩
  · exact absurd h (Option.isSome_iff_ne_none.mp hs)
  · cases hc; exact ⟨rfl, .refl⟩
  · cases hc
    exact ⟨rfl, registerRequests_ds s ▸ riseBanks_error_reads hrise⟩
  · obtain ⟨arbs, -, hreg⟩ := registerRequests_eq s
    have hnone : u.fault = none := (riseBanks_frame hrise).fault.trans (by rw [hreg]; exact h)
    exact absurd (hnone.symm.trans hc) (Option.some_ne_none c).symm

end

/-- The returns that still wait are the last of those that waited, and the downstream unit's own fields stay. -/
theorem DsReads.keeps_suffix {d d' : List DsPort} (h : DsReads d d') (b : Nat) :
    (d'.getD b .reset).blocked = (d.getD b .reset).blocked ∧ (d'.getD b .reset).rets <:+ (d.getD b .reset).rets := by
  induction h with
  | refl => exact ⟨rfl, List.suffix_rfl⟩
  | tail _ hread ih =>
    obtain ⟨c, rfl⟩ := hread
    rw [getD_set]
    split
    · rename_i hc
      obtain ⟨hblocked, hrets⟩ := ih
      rw [hc.1]
      exact ⟨hblocked, (List.tail_suffix _).trans hrets⟩
    · exact ih

/-! ### The statements -/

/-- Settles O16: only a rise that faults leaves anything behind, and that is downstream returns read. -/
theorem aFaultRestoresTheState : Obligations.AFaultRestoresTheState := by
  intro i s t c h ht hc
  have hkept : t = { s with fault := some c, resp := .nothing, ds := t.ds } ∧ (i ≠ .clockRise → t.ds = s.ds) ∧
      DsReads s.ds t.ds := by
    by_cases hi : i = .clockRise
    · subst hi
      obtain ⟨heq, hreads⟩ := State.Healthy.clockRise_fault h ht hc
      exact ⟨heq, fun hne => absurd rfl hne, hreads⟩
    · have heq := State.Healthy.exec_faultRestores h hi t c ht hc
      have hds : t.ds = s.ds := (congrArg State.ds heq :)
      exact ⟨by rw [hds]; exact heq, fun _ => hds, hds ▸ .refl⟩
  obtain ⟨heq, hds, hreads⟩ := hkept
  refine ⟨heq, hds, fun b => ?_⟩
  obtain ⟨hreq, hwrote⟩ := hreads.keeps b
  obtain ⟨hblocked, hrets⟩ := hreads.keeps_suffix b
  exact ⟨hreq, hblocked, hwrote, hrets⟩

/-- Settles O14: every operation asks first whether NBC is stuck (log 11). -/
theorem stuckNbcChangesNothing : Obligations.StuckNbcChangesNothing :=
  fun i _ _ hs => exec_stuck i hs

end Sys2Proof.Machine
end

section
/-! PROOFS. The configuration check is the eight items of R192, and construction gives the reset values of R193
(70_reset_and_hazards.md). -/

namespace Sys2Proof.Machine

/-! ### Powers of two and masks -/

theorem isPow2_iff {n : Nat} : isPow2 n = true ↔ ∃ k, n = 2 ^ k := by
  constructor
  · intro h
    exact ⟨Nat.log2 n, eq_two_pow_log2 h⟩
  · rintro ⟨k, rfl⟩
    simp [isPow2, Nat.log2_two_pow]

/-- The check of R192 item 5, by remainder and quotient, asks for a power of two as the cofactor. -/
theorem mod_eq_zero_and_isPow2_div_iff {m c : Nat} (hc : 0 < c) :
    (m % c = 0 ∧ isPow2 (m / c) = true) ↔ ∃ k, m = c * 2 ^ k := by
  rw [isPow2_iff]
  constructor
  · rintro ⟨hmod, k, hk⟩
    exact ⟨k, by rw [← hk, Nat.mul_div_cancel' (Nat.dvd_of_mod_eq_zero hmod)]⟩
  · rintro ⟨k, rfl⟩
    exact ⟨Nat.mul_mod_right c _, k, Nat.mul_div_cancel_left _ hc⟩

theorem mod_two_pow_eq_zero_iff {m lo : Nat} : m % 2 ^ lo = 0 ↔ ∀ i, m.testBit i = true → lo ≤ i := by
  constructor
  · intro hlow i hbit
    by_contra hlt
    have hzero : (m % 2 ^ lo).testBit i = true := by
      rw [Nat.testBit_mod_two_pow, decide_eq_true (not_le.mp hlt), hbit]
      rfl
    rw [hlow, Nat.zero_testBit] at hzero
    cases hzero
  · intro h
    refine Nat.eq_of_testBit_eq fun i => ?_
    rw [Nat.testBit_mod_two_pow, Nat.zero_testBit, ← Bool.not_eq_true, Bool.and_eq_true, decide_eq_true_eq]
    rintro ⟨hlt, hbit⟩
    exact absurd (h i hbit) (not_le.mpr hlt)

theorem lt_two_pow_iff_testBit {m hi : Nat} : m < 2 ^ hi ↔ ∀ i, m.testBit i = true → i < hi := by
  constructor
  · intro hlt i hbit
    exact (Nat.pow_lt_pow_iff_right (by decide)).mp ((Nat.ge_two_pow_of_testBit hbit).trans_lt hlt)
  · intro h
    refine Nat.lt_pow_two_of_testBit m fun i hge => Bool.eq_false_iff.mpr fun hbit => ?_
    exact absurd (h i hbit) (not_lt.mpr hge)

/-! ### The parts of the check -/

theorem Config.validSizes_iff {cfg : Config} : cfg.validSizes = true ↔
    ((∃ k, cfg.blockSize = 2 ^ k) ∧ cfg.blockSize ≤ 32768) ∧ (∃ k, cfg.numBanks = 2 ^ k) ∧ cfg.numBanks ≤ 64 := by
  simp only [Config.validSizes, Bool.and_eq_true, decide_eq_true_eq, isPow2_iff, and_assoc]

theorem Config.validRanges_iff {cfg : Config} : cfg.validRanges = true ↔
    (1 ≤ cfg.addrWidth ∧ cfg.addrWidth ≤ 64) ∧ (1 ≤ cfg.assoc ∧ 1 ≤ cfg.subqDepth ∧ 1 ≤ cfg.dsPortStride) ∧
      (1 ≤ cfg.numLfbs ∧ cfg.numLfbs ≤ 64) ∧ 1 ≤ cfg.numPorts ∧ cfg.numPorts ≤ 64 := by
  simp only [Config.validRanges, Bool.and_eq_true, decide_eq_true_eq, and_assoc]

/-- The sets of a bank, when a set has a line to hold. -/
theorem Config.validSets_iff {cfg : Config} (hc : 0 < cfg.blockSize * cfg.assoc * cfg.numBanks) :
    cfg.validSets = true ↔ ∃ k, cfg.cacheSize = cfg.blockSize * cfg.assoc * cfg.numBanks * 2 ^ k := by
  rw [Config.validSets, Bool.and_eq_true, decide_eq_true_eq]
  exact mod_eq_zero_and_isPow2_div_iff hc

theorem Config.validBankMask_iff {cfg : Config} : cfg.validBankMask = true ↔
    popcount cfg.addrWidth cfg.bankSelectMask = cfg.bankBits ∧
      ∀ i, cfg.bankSelectMask.testBit i = true → cfg.offsetBits ≤ i ∧ i < cfg.addrWidth := by
  simp only [Config.validBankMask, Bool.and_eq_true, decide_eq_true_eq, and_assoc, mod_two_pow_eq_zero_iff,
    lt_two_pow_iff_testBit, ← forall_and]

/-- Sizes that pass the check are not zero, and neither is their product. -/
theorem Config.linesOfSets_pos {cfg : Config} (hblock : ∃ k, cfg.blockSize = 2 ^ k) (hassoc : 1 ≤ cfg.assoc)
    (hbanks : ∃ k, cfg.numBanks = 2 ^ k) : 0 < cfg.blockSize * cfg.assoc * cfg.numBanks := by
  obtain ⟨k, hk⟩ := hblock
  obtain ⟨l, hl⟩ := hbanks
  rw [hk, hl]
  positivity

/-- Settles O25: the parts of the check hold the items in another order. -/
theorem configurationCheckIsTheEightItems : Obligations.ConfigurationCheckIsTheEightItems := by
  intro cfg
  refine ⟨?_, rfl⟩
  simp only [Config.valid, Bool.and_eq_true, decide_eq_true_eq, Config.validRanges_iff, Config.validSizes_iff,
    Config.validBankMask_iff]
  constructor
  · rintro ⟨⟨⟨⟨⟨⟨hwidth, ⟨hassoc, hdepth⟩, ⟨hlfbs, hlfbs'⟩, hports⟩, hblock, hbanks, hbanks'⟩, hsets⟩, hmask⟩,
      hbits⟩, hds⟩
    rw [Config.validSets_iff (Config.linesOfSets_pos hblock.1 hassoc hbanks)] at hsets
    exact ⟨hwidth, hblock, ⟨hassoc, hdepth⟩, ⟨hbanks, hbanks', hlfbs, hlfbs', hports⟩, hsets, hmask, hbits, hds⟩
  · rintro ⟨hwidth, hblock, ⟨hassoc, hdepth⟩, ⟨hbanks, hbanks', hlfbs, hlfbs', hports⟩, hsets, hmask, hbits, hds⟩
    rw [← Config.validSets_iff (Config.linesOfSets_pos hblock.1 hassoc hbanks)] at hsets
    exact ⟨⟨⟨⟨⟨⟨hwidth, ⟨hassoc, hdepth⟩, ⟨hlfbs, hlfbs'⟩, hports⟩, hblock, hbanks, hbanks'⟩, hsets⟩, hmask⟩,
      hbits⟩, hds⟩

/-! ### The reset values -/

/-- The set `i` of a bank at reset. -/
theorem Bank.reset_tagSet {cfg : Config} {i : Nat} (hi : i < cfg.setsPerBank) :
    (Bank.reset cfg).tagSet i = (List.range cfg.assoc).map TagEntry.reset :=
  List.getD_replicate _ hi

/-- Settles O53: every array is filled with one reset value, or with one per index. -/
theorem constructionGivesTheResetValues : Obligations.ConstructionGivesTheResetValues := by
  intro cfg
  refine ⟨rfl, rfl, rfl, rfl, rfl, rfl, rfl, rfl, rfl, List.length_replicate, fun b hb => ?_⟩
  rw [State.construct_bank hb]
  refine ⟨Bank.reset_length cfg, fun k hk => ?_, rfl, rfl, rfl, rfl, rfl, List.length_replicate, fun i hi => ?_⟩
  · rw [Bank.reset_lfb (Bank.reset_length cfg ▸ hk)]
    exact ⟨rfl, rfl, rfl, rfl, rfl⟩
  · rw [Bank.reset_tagSet hi]
    refine ⟨by simp, fun w e hw => ?_⟩
    obtain ⟨hlt, rfl⟩ := List.getElem?_eq_some_iff.mp hw
    simp [TagEntry.reset]

end Sys2Proof.Machine
end

section
/-! PROOFS. The arbitrator operations stop outside their range (log 12; 41_round_robin.md R106 to R109). -/

namespace Sys2Proof.Machine

/-- Settles O22: the operations check the arbitrator first, and `add` and `remove` then the index. -/
theorem arbOperationsStopOutsideTheirRange : Obligations.ArbOperationsStopOutsideTheirRange := by
  intro s a i h
  constructor
  · intro hcount
    have hstop (op : State → Result) : s.onArb a op = .fault .noSuchArbitrator := by rw [h.onArb_eq, if_pos hcount]
    simp only [List.forall_mem_cons, List.not_mem_nil, false_imp_iff, implies_true, and_true]
    exact ⟨(exec_arbAdd a i s).trans (hstop _), (exec_arbRemove a i s).trans (hstop _),
      (exec_arbAdvance a s).trans (hstop _), (exec_arbCurrent a s).trans (hstop _)⟩
  · intro hcount hi
    refine List.forall_mem_cons.mpr ⟨?_, List.forall_mem_singleton.mpr ?_⟩
    · rw [exec_arbAdd, h.onArb_eq, if_neg (Nat.not_le.mpr hcount), if_pos hi]
    · rw [exec_arbRemove, h.onArb_eq, if_neg (Nat.not_le.mpr hcount), if_pos hi]

end Sys2Proof.Machine
end
